-- ==== Sys2Proof/Word.lean ====
section
/-! DEFINITION. Word: the widths the manual uses, and the plain list helpers every other file reads. -/

namespace Sys2Proof

/-- One byte of memory (R4). -/
abbrev Byte := BitVec 8
/-- One lane's register word (R11). -/
abbrev Word := BitVec 32
/-- A pilot register, an address or a 64-bit lane value (R25). -/
abbrev DWord := BitVec 64
/-- A mask over the 128 lanes of a crew (R8). -/
abbrev LaneMask := BitVec 128
/-- The words of the lanes of one crew register, lane 0 first; a lane beyond the list's end reads 0. -/
abbrev LaneWords := List Word

/-- The list `f start, f (start + 1), …` of n elements. -/
def tabulateFrom {α : Type} (f : Nat → α) : Nat → Nat → List α
  | _, 0 => []
  | start, n + 1 => f start :: tabulateFrom f (start + 1) n

/-- The list `f 0, …, f (n - 1)`. -/
def tabulate {α : Type} (n : Nat) (f : Nat → α) : List α := tabulateFrom f 0 n

/-- Word of lane `l`; lanes beyond the list read 0 (R14: an unmapped register reads 0 in every lane). -/
def laneWord (xs : LaneWords) (l : Nat) : Word := xs.getD l 0

/-- The lane words computed lane by lane over the 128 lanes. -/
def lanes (f : Nat → Word) : LaneWords := tabulate 128 f

end Sys2Proof
end

