-- ==== Sys2Proof/Syntax.lean ====
section
/-! DEFINITION. Syntax: one constructor of Instr for each row of the table of operations and events. An
instruction's constructor carries the fields its format gives it (R68 to R73); a step of the rest of the part
carries what the outside world or the physical device decides in it. -/

namespace Sys2Proof

/-- The type codes of R73, in code order; codes 0x15 to 0x1F are reserved. -/
inductive Ty where
  | i32 | n32 | i16 | n16 | i8 | n8 | i4 | n4 | i64 | n64 | f32 | f16 | bf16
  | e4m3 | e5m2 | e2m3 | e3m2 | e2m1 | d8 | mxi8 | b128
deriving DecidableEq, Repr

/-- The rounding codes of R72; 6 and 7 are reserved. -/
inductive Rm where
  | rne | rtz | rup | rdn | rna | rsr
deriving DecidableEq, Repr

/-- The two kinds of context that issue instructions (R70). -/
inductive CtxKind where
  | crew | pilot
deriving DecidableEq, Repr

/-- Who issues within a workgroup: its pilot or one crew (R10). -/
inductive Who where
  | pilot
  | crew (n : Nat)
deriving DecidableEq, Repr

/-- A context: the berth that holds its workgroup (16 × core + berth of the core) and who it is there. -/
structure CtxId where
  berth : Nat
  who : Who
deriving DecidableEq, Repr

/-- The fields of R68 that every format reads alike: guard, set flag, hold and last-read bits. -/
structure Pre where
  grd : BitVec 3
  gneg : Bool
  sfl : BitVec 2
  hsel : BitVec 2
  hent : BitVec 2
  lr : BitVec 3
deriving DecidableEq, Repr

/-- Format VV (R71, R72). -/
structure FormVV where
  pre : Pre
  dst : BitVec 8
  sa : BitVec 8
  sb : BitVec 8
  sc : BitVec 8
  ty : Ty
  sub : BitVec 2
  rm : Rm
  sat : Bool
  inf : Bool
  t2 : Ty
  cc : BitVec 4
  sel : BitVec 8
deriving DecidableEq, Repr

/-- Format VI: IMM takes the place of source b; CC stands in SB[44:41] (R71). -/
structure FormVI where
  pre : Pre
  dst : BitVec 8
  sa : BitVec 8
  cc : BitVec 4
  ty : Ty
  sat : Bool
  imm : Word
deriving DecidableEq, Repr

/-- Format VX: as VV with the segment code in place of CC (R71). -/
structure FormVX where
  pre : Pre
  dst : BitVec 8
  sa : BitVec 8
  sb : BitVec 8
  sc : BitVec 8
  ty : Ty
  sub : BitVec 2
  rm : Rm
  sat : Bool
  inf : Bool
  t2 : Ty
  seg : BitVec 4
  sel : BitVec 8
deriving DecidableEq, Repr

/-- Format M (R71, R169); `quay` is SP. -/
structure FormM where
  pre : Pre
  dst : BitVec 8
  sa : BitVec 8
  sb : BitVec 8
  sc : BitVec 8
  ty : Ty
  quay : Bool
  imm : Word
deriving DecidableEq, Repr

/-- Format E (R71, R204). -/
structure FormE where
  pre : Pre
  dst : BitVec 8
  sa : BitVec 8
  sb : BitVec 8
  sc : BitVec 8
  ty : Ty
  sub : BitVec 2
  tag : BitVec 6
  tv : Bool
  cq : BitVec 4
  cqv : Bool
  cs : BitVec 20
deriving DecidableEq, Repr

/-- Format P (R71, R96). -/
structure FormP where
  pre : Pre
  dst : BitVec 8
  sa : BitVec 8
  sb : BitVec 8
  sc : BitVec 8
  useImm : Bool
  u : Bool
  cc : BitVec 4
  imm : Word
deriving DecidableEq, Repr

/-- Format B (R71, R107, R113). -/
structure FormB where
  pre : Pre
  dst : BitVec 8
  sa : BitVec 8
  imm : Word
deriving DecidableEq, Repr

/-- Format Q (R71, R120, R187). -/
structure FormQ where
  pre : Pre
  dst : BitVec 8
  sa : BitVec 8
  sb : BitVec 8
  ty : Ty
  sub : BitVec 2
  imm : Word
deriving DecidableEq, Repr

/-- Format X (R71, R124). -/
structure FormX where
  pre : Pre
  dst : BitVec 8
  sa : BitVec 8
  imm : Word
deriving DecidableEq, Repr

/-- The engines of a core that take commands from a queue (R206). -/
inductive Engine where
  | lighter | crane | buoy
deriving DecidableEq, Repr

/-- What an access does at its memory point (R247). -/
inductive AccessKind where
  | read
  | write (bytes : List Byte)
  | rmw (aop : BitVec 4) (ty : Ty) (operand : DWord)
  /-- Load-reserved and store-conditional. -/
  | reserve
  | conditional (bytes : List Byte)
deriving DecidableEq, Repr

/-- An access by an agent that reaches memory by physical address (a harbour core, R258), together with what
the ECC of the addressed line finds in it (R402): `uncorrectable` marks an error it cannot correct. -/
structure AgentAccess where
  /-- Harbour core: 0 to 31 of the west die, 32 to 63 of the east die. -/
  core : Nat
  pa : Nat
  width : Nat
  kind : AccessKind
  uncorrectable : Bool
deriving DecidableEq, Repr

/-- What one background scrub pass finds (R402): the die it counts for, the errors it corrected, and the
64-byte lines of HBM and of Quay memory whose errors it could not correct. -/
structure ScrubReport where
  die : Nat
  corrected : Nat
  hbmLines : List Nat
  quayLines : List Nat
deriving DecidableEq, Repr

/-- An Ethernet frame as a port receives it: its address bytes, its EtherType, and the bytes after the EtherType (R409, R411). -/
structure RxFrame where
  port : Nat
  head : List Byte
  etype : BitVec 16
  bytes : List Byte
deriving DecidableEq, Repr

/-- A DMA request of a device behind the PCIe root port (R416). -/
structure DmaAccess where
  pa : Nat
  width : Nat
  data : Option (List Byte)
deriving DecidableEq, Repr

/-- A firmware image as customs reads it: its header bytes and its body (R417). -/
structure ImageFile where
  header : List Byte
  body : List Byte
deriving DecidableEq, Repr

/-- What the power telemetry reads: the package power in watts, averaged over 1 ms, and whether a die is at its
thermal limit (R420). -/
structure PowerReading where
  watts : BitVec 16
  thermal : Bool
deriving DecidableEq, Repr

/-- What the hourly hull survey of one die measures (R421), and the current date in days after 2024-01-01. -/
structure HullReading where
  die : Nat
  stress : BitVec 24
  drift : BitVec 16
  eol : BitVec 16
  today : Nat
deriving DecidableEq, Repr

/-- The operations and events of the part, one constructor for each row of the opcode table. -/
inductive Instr where
  /-- VV add: a + b per element, wrapped, saturated or rounded by type (R146). -/
  | add (x : FormVV)
  /-- VV subtract: a − b per element (R146). -/
  | sub (x : FormVV)
  /-- VV multiply: a × b per element (R146). -/
  | mul (x : FormVV)
  /-- VV high half of the exact 2n-bit product (R146). -/
  | mulhi (x : FormVV)
  /-- VV integer a × b + c, wrapped or saturated from the exact value (R146). -/
  | mad (x : FormVV)
  /-- VV fused multiply-add a × b + c with one rounding (R149). -/
  | fma (x : FormVV)
  /-- VV lesser of a and b; minimumNumber for floats (R146). -/
  | min (x : FormVV)
  /-- VV greater of a and b; maximumNumber for floats (R146). -/
  | max (x : FormVV)
  /-- VV absolute value, optionally saturating (R146). -/
  | abs (x : FormVV)
  /-- VV negation, optionally saturating (R146). -/
  | neg (x : FormVV)
  /-- VV bitwise and (R146). -/
  | and (x : FormVV)
  /-- VV bitwise or (R146). -/
  | or (x : FormVV)
  /-- VV bitwise exclusive or (R146). -/
  | xor (x : FormVV)
  /-- VV bitwise complement (R146). -/
  | not (x : FormVV)
  /-- VV left shift, wrapped or saturated (R146). -/
  | shl (x : FormVV)
  /-- VV logical or arithmetic right shift (R146). -/
  | shr (x : FormVV)
  /-- VV population count of a 32-bit word (R146). -/
  | popc (x : FormVV)
  /-- VV count of leading zeros (R146). -/
  | clz (x : FormVV)
  /-- VV bit reversal of a 32-bit word (R146). -/
  | brev (x : FormVV)
  /-- VV bit-field extract with sign or zero extension (R146). -/
  | bfe (x : FormVV)
  /-- VV bit-field insert of a into c (R146). -/
  | bfi (x : FormVV)
  /-- VV compare writing a predicate in each active lane (R148). -/
  | cmp (x : FormVV)
  /-- VV select a or b by a predicate (R148). -/
  | sel (x : FormVV)
  /-- VV address add a + (b << SUB) (R148). -/
  | lea (x : FormVV)
  /-- VV truncating integer division without trap (R147). -/
  | div (x : FormVV)
  /-- VV integer remainder with the sign of a (R147). -/
  | rem (x : FormVV)
  /-- VV correctly rounded reciprocal (R149). -/
  | rcp (x : FormVV)
  /-- VV correctly rounded reciprocal square root (R149). -/
  | rsq (x : FormVV)
  /-- VV correctly rounded square root (R149). -/
  | sqrt (x : FormVV)
  /-- VV correctly rounded 2^a (R149). -/
  | exp2 (x : FormVV)
  /-- VV correctly rounded log2 a (R149). -/
  | log2 (x : FormVV)
  /-- VV correctly rounded tanh a (R149). -/
  | tanh (x : FormVV)
  /-- VV correctly rounded logistic function (R149). -/
  | sigm (x : FormVV)
  /-- VV conversion of element groups between types under a rounding mode (R152). -/
  | cvt (x : FormVV)
  /-- VV decode, encode or multiply E8M0 scale bytes (R157). -/
  | mxscale (x : FormVV)
  /-- VV pack value blocks into MX elements or compute their scale (R155). -/
  | mxpack (x : FormVV)
  /-- VV decode MX blocks with their scales into values (R156). -/
  | mxunpack (x : FormVV)
  /-- VV bit-for-bit move (R148). -/
  | mov (x : FormVV)
  /-- VV draw Philox bits, consuming one draw per active lane (R159). -/
  | rand (x : FormVV)
  /-- VV logical operation on predicates (R158). -/
  | plog (x : FormVV)
  /-- VV predicate to all-ones or zero word (R158). -/
  | pget (x : FormVV)
  /-- VV word non-zero test into a predicate (R158). -/
  | pset (x : FormVV)
  /-- VV exact rounded-up or rounded-down average (R146). -/
  | avg (x : FormVV)
  /-- VV four-byte dot product accumulated into c (R146). -/
  | dot4 (x : FormVV)
  /-- VV floating-point class bits (R151). -/
  | fclass (x : FormVV)
  /-- VV copy, invert or xor sign bits (R149). -/
  | csgn (x : FormVV)
  /-- VV round to an integral value in the float type (R149). -/
  | rint (x : FormVV)
  /-- VV scale a by 2^k with one rounding (R149). -/
  | fscl (x : FormVV)
  /-- VI add with the immediate as source b (R145). -/
  | addVi (x : FormVI)
  /-- VI subtract with the immediate as source b (R145). -/
  | subVi (x : FormVI)
  /-- VI multiply with the immediate as source b (R145). -/
  | mulVi (x : FormVI)
  /-- VI minimum with the immediate (R145). -/
  | minVi (x : FormVI)
  /-- VI maximum with the immediate (R145). -/
  | maxVi (x : FormVI)
  /-- VI bitwise and with the immediate (R145). -/
  | andVi (x : FormVI)
  /-- VI bitwise or with the immediate (R145). -/
  | orVi (x : FormVI)
  /-- VI bitwise xor with the immediate (R145). -/
  | xorVi (x : FormVI)
  /-- VI left shift by the immediate (R145). -/
  | shlVi (x : FormVI)
  /-- VI right shift by the immediate (R145). -/
  | shrVi (x : FormVI)
  /-- VI bit-field extract with offset and width in the immediate (R145). -/
  | bfeVi (x : FormVI)
  /-- VI compare against the immediate with the condition in SB (R148). -/
  | cmpVi (x : FormVI)
  /-- VI address add of the immediate with shift 0 (R148). -/
  | leaVi (x : FormVI)
  /-- VI move of the immediate (R148). -/
  | movVi (x : FormVI)
  /-- VX lane shuffle by index, up, down or butterfly within segments (R162). -/
  | shfl (x : FormVX)
  /-- VX broadcast of one lane's value within each segment (R162). -/
  | bclane (x : FormVX)
  /-- VX inclusive or exclusive prefix over active lanes in lane order (R163). -/
  | scan (x : FormVX)
  /-- VX segment reduction in lane order written to every active lane (R163). -/
  | red (x : FormVX)
  /-- VX all, any or uniform vote of a predicate (R164). -/
  | vote (x : FormVX)
  /-- VX mask of active lanes with the predicate set (R164). -/
  | ballot (x : FormVX)
  /-- VX first, count or rank of lanes with equal words (R164). -/
  | match (x : FormVX)
  /-- VX weighted choice of a lane with the prefix total (R165). -/
  | sample (x : FormVX)
  /-- VX two-source permutation within segments (R162). -/
  | perm (x : FormVX)
  /-- VX compaction of active lanes' values to the segment start (R162). -/
  | cmpct (x : FormVX)
  /-- Load from global memory or the Quay in each active lane (R173). -/
  | ld (x : FormM)
  /-- Store to global memory or the Quay in each active lane (R173). -/
  | st (x : FormM)
  /-- Indexed gather load from a base and scaled index (R173). -/
  | ldx (x : FormM)
  /-- Indexed scatter store to a base and scaled index (R173). -/
  | stx (x : FormM)
  /-- Memory-side atomic read-modify-write per lane at a scope (R178). -/
  | atom (x : FormM)
  /-- Memory-side compare-and-swap per lane at a scope (R178). -/
  | cas (x : FormM)
  /-- Sequentially consistent fence ordering the issuer's accesses at a scope (R180). -/
  | fence (x : FormM)
  /-- Hash accumulation of key and value into a Quay table, with chain spill (R184). -/
  | hacc (x : FormM)
  /-- Lighter copy command between two shape records (R216). -/
  | lcopy (x : FormE)
  /-- Lighter gather of source rows by an index list (R216). -/
  | lgather (x : FormE)
  /-- Lighter scatter of source rows by an index list (R216). -/
  | lscatter (x : FormE)
  /-- Lighter fill of a destination with a pattern (R216). -/
  | lfill (x : FormE)
  /-- Append a matrix multiply-accumulate command to the crane ring (R219). -/
  | cmma (x : FormE)
  /-- Append a command that zeroes an accumulator and clears its sticky error (R222). -/
  | czero (x : FormE)
  /-- Append a drain of an accumulator into a Quay tile (R223). -/
  | cdrain (x : FormE)
  /-- Read one accumulator column into a register after pending crane commands (R226). -/
  | accld (x : FormE)
  /-- Buoy command loading couplings and colours from a coupling header (R230). -/
  | bycoup (x : FormE)
  /-- Buoy command loading INT16 biases of a node range (R229). -/
  | bybias (x : FormE)
  /-- Buoy command setting and clamping node values (R232). -/
  | byclamp (x : FormE)
  /-- Buoy command removing clamps (R232). -/
  | byfree (x : FormE)
  /-- Buoy command running colour-phase sweeps (R231). -/
  | bysweep (x : FormE)
  /-- Buoy command writing node counts, optionally clearing them (R232). -/
  | bycount (x : FormE)
  /-- Buoy command writing node states (R232). -/
  | bystate (x : FormE)
  /-- Buoy command setting REPLAY mode, clearing counts, resetting counter, setting id (R232). -/
  | bymode (x : FormE)
  /-- Buoy command installing the boundary map and link staleness (R349). -/
  | bybmap (x : FormE)
  /-- Present lane values as terms to taps armed at point look, optionally storing (R237). -/
  | look (x : FormE)
  /-- Arm or disarm a tap with a bound probe-table entry (R235). -/
  | tarm (x : FormE)
  /-- Enable or disable steering of a sequence slot on a tap (R236). -/
  | steer (x : FormE)
  /-- Declare or clear an entry of the pilot's region table (R239). -/
  | region (x : FormE)
  /-- Fork a child launch with copy-on-write revisions of declared regions (R240). -/
  | fork (x : FormE)
  /-- Settle a child handle, holding until its merge is applied (R241). -/
  | join (x : FormE)
  /-- End a child and drop its revision (R242). -/
  | discard (x : FormE)
  /-- Pilot 64-bit add (R97). -/
  | sadd (x : FormP)
  /-- Pilot 64-bit subtract (R97). -/
  | ssub (x : FormP)
  /-- Pilot low 64 bits of the product (R97). -/
  | smul (x : FormP)
  /-- Pilot high 64 bits of the signed or unsigned product (R97). -/
  | smulh (x : FormP)
  /-- Pilot truncating division written 66 cycles after issue (R98). -/
  | sdiv (x : FormP)
  /-- Pilot remainder written 66 cycles after issue (R98). -/
  | srem (x : FormP)
  /-- Pilot minimum, signed or unsigned (R97). -/
  | smin (x : FormP)
  /-- Pilot maximum, signed or unsigned (R97). -/
  | smax (x : FormP)
  /-- Pilot bitwise and (R97). -/
  | sand (x : FormP)
  /-- Pilot bitwise or (R97). -/
  | sor (x : FormP)
  /-- Pilot bitwise xor (R97). -/
  | sxor (x : FormP)
  /-- Pilot left shift (R97). -/
  | sshl (x : FormP)
  /-- Pilot logical or arithmetic right shift (R97). -/
  | sshr (x : FormP)
  /-- Pilot compare into a c-bit (R97). -/
  | scmp (x : FormP)
  /-- Pilot select by a c-bit (R97). -/
  | ssel (x : FormP)
  /-- Pilot register move (R97). -/
  | smov (x : FormP)
  /-- Pilot load immediate, low sign-extended or high half (R97). -/
  | sli (x : FormP)
  /-- Pilot population count (R97). -/
  | spopc (x : FormP)
  /-- Pilot count of leading zeros (R97). -/
  | sclz (x : FormP)
  /-- Pilot bit-field extract (R97). -/
  | sbfe (x : FormP)
  /-- Pilot bit-field insert (R97). -/
  | sbfi (x : FormP)
  /-- Pilot logical operation on c-bits (R97). -/
  | cop (x : FormP)
  /-- Pilot count of trailing zeros (R97). -/
  | sctz (x : FormP)
  /-- Pilot sign or zero extension from n bits (R97). -/
  | sext (x : FormP)
  /-- Crew guarded branch splitting the frontier entry (R108). -/
  | bra (x : FormB)
  /-- Crew uniform branch, acting as bra when lanes diverge (R111). -/
  | bru (x : FormB)
  /-- Crew indirect branch to per-lane code indices (R108). -/
  | brx (x : FormB)
  /-- Crew call writing the link into v223 and transferring (R108). -/
  | call (x : FormB)
  /-- Crew return to each lane's link, retiring lanes with link 0 (R109). -/
  | ret (x : FormB)
  /-- Retire selected crew lanes, or end the pilot (R108). -/
  | exit (x : FormB)
  /-- Give up issue until other ready contexts have issued; pending pre-emption is taken (R112). -/
  | yield (x : FormB)
  /-- Arrive at a workgroup barrier, parking the crew entry (R116). -/
  | bsync (x : FormB)
  /-- Pilot relative branch (R113). -/
  | sbr (x : FormB)
  /-- Pilot indirect branch (R113). -/
  | sbrx (x : FormB)
  /-- Pilot call writing the link into a scalar register (R113). -/
  | scall (x : FormB)
  /-- Pilot return through a scalar register (R113). -/
  | sret (x : FormB)
  /-- Pilot counted loop decrement and branch (R113). -/
  | loop (x : FormB)
  /-- Bind a pigeonhole name to a queue descriptor (R190). -/
  | qbind (x : FormQ)
  /-- Unbind a pigeonhole after its transit buffer empties (R190). -/
  | qunbind (x : FormQ)
  /-- Non-blocking pop with a status predicate (R194). -/
  | qtrypop (x : FormQ)
  /-- Non-blocking push with a status predicate (R194). -/
  | qtrypush (x : FormQ)
  /-- Return the queue's entry or free count snapshot (R194). -/
  | qcount (x : FormQ)
  /-- Pop an entry and write its stored lane mask to a predicate (R194). -/
  | qmask (x : FormQ)
  /-- Return the oldest entry without removing it (R194). -/
  | qpeek (x : FormQ)
  /-- Block until every active lane's memory word satisfies its comparison (R121). -/
  | await (x : FormQ)
  /-- Flip window tiles to engine or thread ownership (R199). -/
  | own (x : FormQ)
  /-- Block until any or all masked tag bits are set (R201). -/
  | twait (x : FormQ)
  /-- Return the lowest set masked tag without waiting (R201). -/
  | tfirst (x : FormQ)
  /-- Pilot push of n crew-vector entries holding one scalar word (R195). -/
  | bcast (x : FormQ)
  /-- Crew pop of a scalar entry into every active lane (R195). -/
  | bget (x : FormQ)
  /-- No operation; issues and ages latches (R125). -/
  | nop (x : FormX)
  /-- Raise the software trap with a code (R126). -/
  | trap (x : FormX)
  /-- Read a program system register (R127). -/
  | sysrd (x : FormX)
  /-- Write a program system register (R127). -/
  | syswr (x : FormX)
  /-- End a trap handler and resume at TEPC (R396). -/
  | rft (x : FormX)
  /-- Stop the whole workgroup and write a halt record (R131). -/
  | halt (x : FormX)
  /-- Workgroup checkpoint, countersign comparison under DUP (R137). -/
  | ckpt (x : FormX)
  /-- Submit a manifest to the roadstead and return a status (R132). -/
  | spawn (x : FormX)
  /-- Decrement a dependence counter, enqueueing waiters at 1 to 0 (R134). -/
  | depdec (x : FormX)
  /-- Arrival of a fetch line from the instruction cache or a refetch from memory (R62). -/
  | lineFetch (c : CtxId) (flip : BitVec 512)
  /-- A long-latency result is written and its flag count drops (R23). -/
  | resultWrite (c : CtxId) (k : Nat)
  /-- A memory access is performed at its memory point and its result or acceptance returns (R247). -/
  | accessPerformed (a : AgentAccess)
  /-- Sorting office copy-on-write of a region page on its first write (R282). -/
  | pageCopy (rev page : Nat) (childSide : Bool)
  /-- Background scrub of slices and stacks at the SCRUBIV interval (R402). -/
  | scrubPass (r : ScrubReport)
  /-- A blocked await rereads its words on a watched store or the 65,536-cycle timer (R122). -/
  | awaitReevaluation (c : CtxId)
  /-- Home agent serves a pop or registers the waiter when empty (R191). -/
  | popRequest (c : CtxId)
  /-- Home agent accepts a transit-buffer entry when the queue has room (R192). -/
  | pushAccept (berth q : Nat)
  /-- Binding refreshes its cached free count from the home agent (R192). -/
  | queueCountRefresh (berth q : Nat)
  /-- Barrier generation timer expires and one participant's arrival is withdrawn with a trap (R118). -/
  | barrierTimeout (berth n : Nat)
  /-- Checkpoint timer expires and raises the barrier-time-out trap with bit 4 (R138). -/
  | checkpointTimeout (berth : Nat)
  /-- A held engine instruction is accepted once its queue has room (R206). -/
  | commandAcceptance (c : CtxId)
  /-- Lighter dequeues a command and binds its shape records (R211). -/
  | lighterDequeue (core : Nat)
  /-- Lighter moves lines of a command in index order with owner and address checks (R216). -/
  | lighterProgress (core : Nat)
  /-- Crane takes the next ring command and binds it (R218). -/
  | craneDequeue (core : Nat)
  /-- Crane completes one k-block step into the accumulator (R222). -/
  | cmmaStep (core : Nat)
  /-- Crane runs a drain through dropout, residual, probe, steering, conversion and write (R225). -/
  | cdrainExecution (core : Nat)
  /-- A crossing record is written to the Lookout ring, waiting for room (R369). -/
  | lookoutRingRecord (part : Nat)
  /-- Context takes the Lookout trap at its next line boundary (R367). -/
  | lookoutTrap (c : CtxId)
  /-- Engine command completes: tiles flip, tag sets and record pushes (R207). -/
  | engineCommandCompletion (core : Nat) (e : Engine)
  /-- Buoy array dequeues a command and binds its control blocks (R211). -/
  | buoyDequeue (core : Nat)
  /-- Buoy array updates every unclamped node of one colour at once (R231). -/
  | colourPhase (core : Nat)
  /-- Remote array's new boundary states arrive and complete a label (R349). -/
  | boundaryUpdate (core : Nat)
  /-- Monitor window w of 2^16 draws closes and may fault the array (R353). -/
  | plimsollWindow (core w : Nat)
  /-- Pilot of the holding workgroup takes the buoy-bias trap (R234). -/
  | buoyBiasTrap (berth : Nat)
  /-- Sorting office merges a completed child's regions line by line (R285). -/
  | merge (rev : Nat)
  /-- Release head's staged records are released in Postmark order (R322). -/
  | postmarkRelease (lid : Nat)
  /-- Paired contexts compare signatures and operands when the trailing one arrives (R332). -/
  | countersignPoint (c : CtxId)
  /-- Harbourmaster deals a Ready launch's workgroups into core chunks (R309). -/
  | launchDeal (lid : Nat)
  /-- Die deputy places one workgroup: grant, zero-fill, argument copy, bindings, start (R308). -/
  | placement (lid wgix : Nat)
  /-- Freed resources on a core start the refill of unplaced workgroups (R310). -/
  | refillRule (core : Nat)
  /-- Gang member is reserved on the first core it fits (R313). -/
  | gangReserve (lid : Nat)
  /-- All reserved gang members are placed uninterruptibly (R313). -/
  | gangCommit (lid : Nat)
  /-- Workgroup retires once contexts ended and requests, commands and pushes complete (R114). -/
  | workgroupRetirement (berth : Nat)
  /-- Completed launch writes its status, decrements successors and frees its entry (R305). -/
  | launchCompletion (lid : Nat)
  /-- Workgroup quantum ends and it may become a victim (R317). -/
  | quantumExpiry (berth : Nat)
  /-- Victim stops issuing and drains its results and engine commands (R318). -/
  | preemption (berth : Nat)
  /-- Drained victim's context is written to its save area and resources free (R318). -/
  | contextSave (berth : Nat)
  /-- Saved workgroup is reinstated on a core before any context issues (R401). -/
  | restore (lid wgix core : Nat)
  /-- A faulted or held workgroup waits FHOLD cycles and is swapped out (R278). -/
  | fholdExpiry (berth : Nat)
  /-- A record is written to the fault ring, waiting while it is full (R275). -/
  | faultRecord (part : Nat)
  /-- A record is written to the harbour event ring, waiting while it is full (R408). -/
  | harbourEvent (part : Nat)
  /-- Harbour software resumes a stopped or halted workgroup (R398). -/
  | workgroupResume (berth : Nat) (point : Option DWord)
  /-- Harbour software ends a launch in any state (R304). -/
  | launchEnd (lid : Nat)
  /-- Write of KICKn announcing new submission-queue entries (R302). -/
  | kick (part n : Nat) (v : DWord)
  /-- Harbourmaster reads and accepts one delta-coded submission entry (R301). -/
  | submissionEntry (part n : Nat)
  /-- Mismatched entry is re-read, and after 16 tries the queue stops torn (R302). -/
  | entryReread (part n : Nat)
  /-- SQSTAT EN written 0 then 1 resets the submission queue (R303). -/
  | queueReset (part n : Nat)
  /-- Clearing TORN resumes reading at the head (R303). -/
  | tornClear (part n : Nat)
  /-- REPLAY verdict serviced reissues every waiter on the page (R277). -/
  | replayServiced (part : Nat) (seqn : Word)
  /-- REPLAY verdict refused traps waiting threads and ends waiting commands (R277). -/
  | replayRefused (part : Nat) (seqn : Word)
  /-- Harbour software reports completion of a BCLS = 1 launch (R312). -/
  | hdone (part : Nat) (v : DWord)
  /-- TLBINVN write invalidates a range of pages of an address space (R274). -/
  | tlbinvRange (part : Nat) (v : DWord)
  /-- TLBINVN write with ALL invalidates a whole address space (R274). -/
  | tlbinvAll (part : Nat) (v : DWord)
  /-- Invalidation completes after old translations are performed; BUSY clears (R274). -/
  | tlbinvCompletion (part : Nat)
  /-- LCKPT OP 1 starts a logical checkpoint of the partition (R336). -/
  | lckptTake (part : Nat)
  /-- LCKPT OP 2 restores a logical checkpoint image (R337). -/
  | lckptRestore (part : Nat)
  /-- Image is written once no workgroup of the partition is resident or saved (R336). -/
  | lckptImageWrite (part : Nat)
  /-- Write of PDEF defines a partition and resets its launch-id counter (R422). -/
  | pdef (part : Nat) (v : DWord)
  /-- BYCALc GO starts a four-window calibration of a buoy array (R355). -/
  | bycalGo (physCore : Nat)
  /-- A window of a calibration closes, so many are over; after the fourth the array returns online if all passed (R355). -/
  | calibrationComplete (physCore windows : Nat)
  /-- Write of COLLPOST binds and posts a collective descriptor (R414). -/
  | collpost (v : DWord)
  /-- All contributions combined in rank order and written, with event 0x07 (R413). -/
  | collectiveCompletion (cid : DWord)
  /-- Write to a harbour register with no row of its own (R422). -/
  | harbourRegisterWrite (off : Nat) (v : DWord)
  /-- Received transport write frame performed in sequence order (R411). -/
  | transportWrite (f : RxFrame)
  /-- Received transport read frame answered with a read response (R411). -/
  | transportRead (f : RxFrame)
  /-- Received read response completes a remote load (R411). -/
  | readResponse (f : RxFrame)
  /-- Received RMW frame performed by the target channel's atomic unit (R411). -/
  | transportRmw (f : RxFrame)
  /-- Received RMW response completes a remote atomic (R411). -/
  | rmwResponse (f : RxFrame)
  /-- Received acknowledgement performs a remote access at system scope (R411). -/
  | acknowledge (f : RxFrame)
  /-- Received contribution frame of a collective (R413). -/
  | collectiveContribution (f : RxFrame)
  /-- Received negative acknowledge refuses the sender's request (R412). -/
  | negativeAcknowledge (f : RxFrame)
  /-- Link down for LINKTO microseconds raises event 0x05 (R411). -/
  | linkTimeout (port : Nat)
  /-- Non-transport frame goes to a per-port receive ring (R409). -/
  | ethernetFrame (f : RxFrame)
  /-- Frame on the management port reaches harbour software or customs (R415). -/
  | managementFrame (bytes : List Byte)
  /-- PCIe DMA checked against the IOMMU and refused outside open ranges (R416). -/
  | dmaRequest (d : DmaAccess)
  /-- Power-good starts customs and the boot sequence (R419). -/
  | powerGood
  /-- Customs verifies an image's SM3 hash and SM2 signature before release (R417). -/
  | imageVerification (img : ImageFile)
  /-- Customs returns a signed attestation report for a nonce (R418). -/
  | attestationReport (nonce : BitVec 256)
  /-- Customs raises the fused anti-rollback counter at a verified image's request (R417). -/
  | antiRollbackRaise (version : Word)
  /-- Device changes the arithmetic clock by 50 MHz to hold the cap and thermal limits (R420). -/
  | powerCapStep (r : PowerReading)
  /-- A die at critical temperature stops issuing until it cools (R420). -/
  | criticalTemperature (die : Nat)
  /-- Hourly refresh of HULLn, raising event 0x04 for early end of life (R421). -/
  | hullSurveyRefresh (h : HullReading)
  /-- A scale-out link goes down or comes back up, which starts or stops its LINKTO timer and lets waiting remote accesses and retransmission resume (R411). -/
  | linkStateChange (port : Nat) (up : Bool)
  /-- A die that stopped issuing at its critical temperature cools and resumes issuing its waiting workgroups (R420). -/
  | dieCools (die : Nat)
deriving DecidableEq, Repr

/-- Where a core's SRAM takes an error that its ECC cannot correct (R402): a register, predicate, latch or frontier entry of
a context, an accumulator of its workgroup, the coupling memory of its
core, a staging record, a countersign-buffer record. -/
inductive Upset where
  | vreg (n : Nat)
  | sreg (n : Nat)
  | pred (n : Nat)
  | latch (n : Nat)
  | frontier
  | acc (n : Nat)
  | coupling
  | staging (n : Nat)
  | held (n : Nat)
deriving DecidableEq, Repr

/-- One entry of the order in which the agents of the package act: a step of the part, or one context's turn to
issue. R316: the order between contexts is open, so the state holds it as data (log 1). -/
inductive Choice where
  | event (i : Instr)
  | issue (c : CtxId)
  | upset (c : CtxId) (u : Upset)
  /-- Harbour software pins tiles of a core for resident data, and sets which of them engines own (R261). -/
  | pin (core tiles : Nat) (owned : List Nat)
  /-- A read corrects an error in a memory of a die (R270, R402). -/
  | corrected (die : Nat)
  /-- An uncorrectable error shows in a 64-byte line, of Quay memory or of HBM (R270, R402). -/
  | badLine (quay : Bool) (line : Nat)
  /-- Harbour software opens ranges of harbour memory in the IOMMU of the PCIe root port (R416). -/
  | iommu (ranges : List (Nat × Nat))
  /-- Harbour software has trained the stacks and links and loaded the harvest map, and releases the east harbour cores (R419). -/
  | releaseEast
  /-- A rank asks for frames again, from a sequence number on (R411). -/
  | resend (port rank : Nat) (seq : Word)
deriving DecidableEq, Repr

end Sys2Proof
end

