-- ==== Sys2Proof/Machine/State.lean ====
section
/-! DEFINITION. State: everything the manual gives the machine, as plain data. Sparse tables are association lists
whose absent keys stand for the value at reset; control blocks the device binds are kept as the bits it read. -/

namespace Sys2Proof.Machine

/-- Why a step can stop. Nothing in the manual stops the package, so this has one member. -/
inductive Fault where
  /-- Raised by any access of the device itself (a ring record, a table entry) to a physical address that no HBM stack
  backs (R268 calls it a hole, R407 reserved), because harbour software set a base register there; the manual gives
  such a device access no result. Safe: the machine stops where hardware does something unstated. -/
  | unbackedPhysical
deriving DecidableEq, Repr

/-- Instructions without a meaning. -/
inductive Refusal where
  /-- Raised by an arm of exec whose instruction has no meaning yet. Safe: the machine stops. -/
  | notModelled (mnemonic : String)
deriving DecidableEq, Repr

/-- Where a participant is parked (R104, R116, R137). -/
inductive Park where
  | barrier (n : Nat)
  | ckpt
deriving DecidableEq, Repr

/-- One frontier entry (R102, R104). -/
structure FEntry where
  cix : Word
  mask : LaneMask
  park : Option Park
deriving DecidableEq, Repr

/-- One operand-latch entry (R19): the held value, and how many instructions have issued since the hold; `none`: never written. -/
structure Latch where
  val : LaneWords
  age : Option Nat
deriving DecidableEq, Repr

/-- The trap context of a context in a handler (R128, R368, R395). -/
structure TrapCtx where
  cause : BitVec 6
  detail : DWord
  epc : DWord
  tlane : Word
  tmask : LaneMask
  lkval : Word
deriving DecidableEq, Repr

/-- A trap waiting for the context's next boundary (R392): its cause, detail, lanes and Lookout value; for one that waited for a handler to end
the code index of the frontier entry it stops (R118); and for one of an access released or answered after its instruction, the code point of that
instruction (R389, R410). -/
structure PendTrap where
  cause : BitVec 6
  detail : DWord
  tlane : Word
  tmask : LaneMask
  lkval : Word
  entry : Option Word
  slot : Option DWord
deriving DecidableEq, Repr

/-- A trap being taken that waits for the results its context has issued (R391): the trap, its `TEPC`, and the crew entry it stops. `pair`: it is
the second error of one copy, which goes to harbour software and stops the pair (R405). -/
structure Taking where
  trap : PendTrap
  epc : DWord
  entry : Word
  mask : LaneMask
  pair : Bool
deriving DecidableEq, Repr

/-- The quotient or remainder of an `sdiv` or `srem` whose sources are popped and whose result waits to be pushed (R100): the trap of a popped
record, and the pigeonhole. -/
structure Divided where
  val : DWord
  trap : Option PendTrap
  q : Nat
deriving DecidableEq, Repr

/-- What handler entry sets aside (R393, R394): the trap context, and in a crew the frontier and the latch entries. -/
structure Handler where
  trap : TrapCtx
  frontier : List FEntry
  spilled : Nat
  latches : List Latch
  /-- Code index of the entry that `rft` moves to `TEPC`: the head, or the parked entry of a barrier time-out (R118, R396). -/
  entry : Word
  /-- Target bits that the entries set aside have still to show (R65). -/
  landings : List (Word × DWord)
deriving DecidableEq, Repr

/-- Why a context that is not ready is held at its slot, with the instruction without effect (R24, R121, R191 to R206, R277, R332). -/
inductive Block where
  | pop (q : Nat)
  | push (q : Nat)
  | unbind (q : Nat)
  | await
  | twait
  | accept (e : Engine)
  | tapUnit
  | accld
  | join (handle : Nat)
  /-- A translation fault: the record's number, the faulting address, the lanes that faulted. -/
  | fault (seqn : Word) (addr : DWord) (lanes : LaneMask)
  | rebuild (page : Nat) (addr : DWord) (lanes : LaneMask)
  | copy (rev page : Nat) (childSide : Bool)
  | remote (id : Nat)
  /-- A `look` whose crossing waits for the Lookout ring (R369). -/
  | ring
  | countersign
  | slack
  | staging
  | releaseHead
  /-- A shared push or pop, or an engine command at its acceptance, that waits for the release head (R212, R325, R326). -/
  | headHold
  /-- The countersign area was full: the pair's trap waits for the other copy to reach the same store (R335). -/
  | area
  /-- In a save image: the verdict that arrived while the workgroup was saved was a refusal, or its rebuild failed; the trap of this cause is taken
  at the slot on restore (R277, R388). -/
  | refused (cause : Nat) (addr : DWord) (lanes : LaneMask)
deriving DecidableEq, Repr

/-- Lanes of one crew register that a result writes (R141). -/
structure VecWrite where
  name : Nat
  mask : LaneMask
  words : LaneWords
deriving DecidableEq, Repr

/-- The lanes of an `hacc` whose chain step waits in a staging record (R181, R185), with the mask of its entry and the key of each lane. -/
structure ChainWait where
  mask : LaneMask
  staged : LaneMask
  keys : List (Nat × Nat)
deriving DecidableEq, Repr

/-- The register results of one instruction: crew registers, a scalar register, a predicate (index, lanes written, bits), a c-bit, the
lanes whose `DRAW` advances when the instruction retires (R56), and the chain steps of an `hacc` still to be performed. -/
structure Result where
  vec : List VecWrite
  scalar : Option (Nat × DWord)
  pred : Option (Nat × LaneMask × LaneMask)
  cbit : Option (Nat × Bool)
  draw : LaneMask
  chain : Option ChainWait
deriving DecidableEq, Repr

/-- A long-latency result not yet written (R23, R76): its flag, and the staging record it waits for under DET (R326). -/
structure PendWrite where
  flag : Option Nat
  res : Result
  waits : Option Nat
deriving DecidableEq, Repr

/-- An entry on its way to a queue's home: its bytes and its side-record mask (R188, R192). -/
structure QEntry where
  bytes : List Byte
  mask : LaneMask
deriving DecidableEq, Repr

/-- What one performance of an instruction gives both copies of a pair (R332): its operands a, b and c, popped ones included, its result,
the entry it pushes, the trap that follows it, and the staging record the result waits for. -/
structure Shared where
  vals : List (List Nat)
  res : Result
  push : Option QEntry
  trap : Option PendTrap
  waits : Option Nat
deriving DecidableEq, Repr

/-- The fetch line a context has entered, with its address (R59). -/
structure LineBuf where
  addr : DWord
  bits : BitVec 512
deriving DecidableEq, Repr

/-- A store record that countersign holds back (R330): the virtual or Quay-window address, the bytes, and whether the
record is one lane of the store instruction numbered `instr` of its context. -/
structure HeldStore where
  addr : DWord
  bytes : List Byte
  instr : Nat
  /-- Step at which it issued, the code point it issued at, and its lane. -/
  order : Nat
  slot : DWord
  lane : Nat
  poison : Bool
  /-- It lies in the launch's countersign area, not in the core's buffer (R330). -/
  spilled : Bool
deriving DecidableEq, Repr

/-- A term on its way to a tap (R362): its key, the row or lane and the column it comes from, its value, the drain's `DTAG`. -/
structure Term where
  tap : Nat
  slot : Nat
  row : Option Nat
  line : Nat
  col : Nat
  x : Nat
  dtag : Nat
deriving DecidableEq, Repr

/-- What every context, crew or pilot, holds. -/
structure Ctx where
  /-- f0 to f11: counts of outstanding results (R23). -/
  flags : List Nat
  /-- Results not yet written, oldest first. -/
  pend : List PendWrite
  /-- The blocking condition that holds the context at its slot. -/
  blocked : Option Block
  /-- The line entered and checked (R64). -/
  line : Option LineBuf
  /-- Pending traps, oldest first (R392). -/
  traps : List PendTrap
  /-- A Lookout record was lost since the last one delivered (R367). -/
  lost : Bool
  /-- The handler in progress (R393). -/
  handler : Option Handler
  /-- The breakpoint at the present slot is not taken for this issue (R390). -/
  bpPass : Bool
  /-- The context has ended (R110, R114). -/
  ended : Bool
  /-- The contexts that must issue before a yielding one is eligible again (R112). -/
  yields : List CtxId
  /-- Commands sent so far to the lighter, the crane and the buoy array (R208 SEQ). -/
  sent : List Nat
  /-- Running signature (R329), and the one that the comparison of the instruction being performed has closed (R332). -/
  sig : BitVec 64
  closed : BitVec 64
  /-- Stores not yet released under DUP, in program order (R330). -/
  held : List HeldStore
  /-- Store instructions issued since the last countersign point (R330). -/
  slack : Nat
  /-- Countersign-point instructions performed in this interval (R334). -/
  ordinal : Nat
  /-- The pair has compared equal at the present slot: the leading copy performs the instruction for both (R332). -/
  granted : Bool
  /-- What the instruction at the present slot receives from its pair or from the log instead of being performed (R332, R334). -/
  copied : Option Shared
  /-- A division in progress (R100). -/
  divided : Option Divided
  /-- Terms of its last `look` that are still to be presented (R369). -/
  looking : List Term
  /-- A trap that is taken once every issued result is written (R391). -/
  taking : Option Taking
  /-- Register state with an uncorrectable error that no slot has read yet (R402). -/
  upsets : List Upset
deriving DecidableEq, Repr

/-- One crew (R10, R34). -/
structure Crew where
  ctx : Ctx
  /-- Mapped names with their lane words, by increasing name (R14). -/
  regs : List (Nat × LaneWords)
  /-- p0 to p7; the entry of p0 is not read (R21). -/
  preds : List LaneMask
  /-- L0 to L2 (R19). -/
  latches : List Latch
  /-- Hardware frontier entries, by increasing code index (R102, R104). -/
  frontier : List FEntry
  /-- Entries of the present frontier held in the spill area (R104). -/
  spilled : Nat
  /-- Live lanes (R102). -/
  live : LaneMask
  /-- Code indices reached by a control transfer and not yet issued, with the transferring code point (R65). -/
  landings : List (Word × DWord)
  /-- Sticky floating-point flags (R42). -/
  fpx : BitVec 5
  /-- Draw count of each lane (R20). -/
  draw : LaneWords
deriving DecidableEq, Repr

/-- One declared region (R239): base, size and merge type; size 0 is no region. -/
structure Region where
  base : DWord
  size : DWord
  mtype : BitVec 4
deriving DecidableEq, Repr

/-- The pilot of a workgroup (R25). -/
structure Pilot where
  ctx : Ctx
  /-- s0 to s63. -/
  sregs : List DWord
  /-- c0 to c7; bit 0 is not read (R22). -/
  cbits : BitVec 8
  pc : DWord
  /-- The code point that transferred control to `pc`, until its target bit is checked (R65). -/
  landing : Option DWord
  /-- Parked at a barrier or checkpoint. -/
  park : Option Park
  /-- The region table, entries 0 to 15 (R239). -/
  regions : List (Option Region)
  /-- The last handle given by fork (R240). -/
  lastHandle : Nat
deriving DecidableEq, Repr

/-- One pigeonhole binding (R190, R198). -/
structure Binding where
  /-- Key of the descriptor's first byte in Quay memory. -/
  desc : Nat
  /-- The descriptor's window offset, when it was bound relative to the window. -/
  win : Option Nat
  /-- Entry width: false 8 bytes, true 512 bytes. -/
  wide : Bool
  psc : BitVec 3
  csc : BitVec 3
  cap : Nat
  roff : Int
  soff : Int
  head : Word
  tail : Word
  /-- The transit buffer; a bcast group passes it as one unit (R195). -/
  transit : List QEntry
  /-- The launch of the queue's stack-group instance, in a binding that lies in it (R189; log 15). -/
  group : Option Nat
deriving DecidableEq, Repr

/-- A barrier's generation and the cycle its timer started (R118). -/
structure Barrier where
  gen : Nat
  start : Option Nat
deriving DecidableEq, Repr

/-- An accumulator tile (R26): rows of FP32 words (absent elements read +0), sticky error and poison. -/
structure Acc where
  rows : List (List Word)
  err : Bool
  poison : Bool
deriving DecidableEq, Repr

/-- An open sum of a tap (R363): key (slot, and the row of a drain), next column, accumulator. -/
structure OpenSum where
  slot : Nat
  row : Option Nat
  next : Nat
  acc : Word
deriving DecidableEq, Repr

/-- An armed tap (R235, R361): point (true for look), probe index, bound entry, open sums, and the blocks its unit caches, the latest first. -/
structure Tap where
  look : Bool
  probe : Nat
  entry : BitVec 512
  sums : List OpenSum
  cache : List (Nat × List Byte)
deriving DecidableEq, Repr

/-- What a staging record does when it is released (R321). -/
inductive StageOp where
  /-- A store to the 64-byte line at this virtual address: offsets and bytes. -/
  | store (line : DWord) (bytes : List (Nat × Byte))
  /-- An atomic or cas of one lane: address, operation, type, operand, compare value. -/
  | atom (addr : DWord) (aop : BitVec 4) (ty : Ty) (b : DWord) (cmp : Option DWord)
  /-- A chain step of one lane of `hacc` (R184): the key of the descriptor, its offset in the issuer's window when it lies there, the
  descriptor as read at the lane's access, operation, type, key and value. -/
  | hacc (desc : Nat) (win : Option Nat) (d : BitVec 512) (aop : BitVec 4) (ty : Ty) (key val : Word)
  /-- A submission, with the address its manifest was read from. -/
  | spawn (man : BitVec 2048) (addr : DWord)
  | depdec (addr : DWord)
  | fork (handle : Nat) (man : BitVec 2048) (addr : DWord) (regions : List (Option Region))
  /-- The place of a join of this handle (R293); it takes no record of the area. -/
  | join (handle : Nat)
deriving DecidableEq, Repr

/-- A staging record (R321): its number, its context and lane, the code point of its instruction and the lanes it serves (for a merged record those
of its first store), the other contexts whose stores merged into it, what it does, whether its line is poisoned (R402), whether one store instruction wrote all 64 bytes of its line (R403), and the remote request its release waits for. -/
structure StageRec where
  id : Nat
  who : Who
  lane : Nat
  slot : DWord
  lanes : LaneMask
  others : List Who
  op : StageOp
  poison : Bool
  whole : Bool
  req : Option Nat
  /-- It has waited for a rebuild of its page (R387). -/
  waited : Bool
deriving DecidableEq, Repr

/-- An entry of the performed-once log (R334): context, ordinal, instruction, operands, signature, results. -/
structure LogEntry where
  who : Who
  ordinal : Nat
  instr : Instr
  operands : List Nat
  sig : BitVec 64
  got : Shared
deriving DecidableEq, Repr

/-- A chunk of a copy that is read and still to be written (R216, R248): its bytes with those of its source line beyond them, its scale byte, their
poison, and that of the last line read. -/
structure Chunk where
  bytes : List Byte
  bad : Bool
  scale : List Byte
  scaleBad : Bool
  lastBad : Bool
deriving DecidableEq, Repr

/-- A command in an engine's queue (R206): issuer, opcode, completion, operands, bound control blocks and progress. -/
structure Cmd where
  berth : Nat
  who : Who
  opc : Nat
  tag : Option Nat
  /-- The completion pigeonhole with its binding as captured at issue (R196). -/
  cq : Option (Nat × Binding)
  /-- The same binding of the trailing copy under DUP (R212). -/
  cqPeer : Option Binding
  seq : Nat
  a : DWord
  b : DWord
  c : DWord
  cs : BitVec 20
  ty : Ty
  sub : BitVec 2
  /-- Operand registers of the crane's register form, with the scale register last (R221). -/
  opnd : List LaneWords
  /-- Control blocks bound at dequeue (R211), status entries sampled by a drain (R371). -/
  bound : List (BitVec 512)
  /-- Dequeued. -/
  started : Bool
  /-- Bytes moved, steps or sweeps completed (R213). -/
  done : Nat
  /-- The last bytes moved reached a multiple of 4 KiB (R213). -/
  edge : Bool
  /-- Bytes of the last source line read that are still to be written, and its poison (R248). -/
  buf : List Byte
  bufBad : Bool
  /-- The chunk whose bytes another package has still to acknowledge (R410). -/
  chunk : Option Chunk
  /-- Row that the index list gave for the row in progress: it is read once a row (R216). -/
  row : Option Nat
  /-- Phases completed in the present sweep. -/
  phase : Nat
  /-- Of a drain: taps and columns of the row that have had their terms, and whether it waits for the Lookout ring (R369). -/
  term : Nat
  ring : Bool
  /-- Waiting at its progress point for the answer to this fault record (R277). -/
  wait : Option (Nat × Word)
  /-- Waiting for the rebuild of this page (R385), and pages whose failed rebuild it has waited for (R387). -/
  rebuild : Option Nat
  carry : List Nat
  /-- It writes global memory, by the record it names (R212, log 20). -/
  writes : Bool
  /-- Tiles it has written: of the issuer's window, by window tile; others by tile number. -/
  wtiles : List Nat
  qtiles : List Nat
  /-- Its tiles are flipped and its tag set, its record not yet accepted (R207, R208). -/
  flipped : Bool
  /-- Stopped with this error code, 0 for none, INFO and the Plimsoll FAULT bit; its completion is not yet posted (R208). -/
  fin : Option (Nat × Nat × Bool)
deriving DecidableEq, Repr

/-- A rollback image (R331): the context of R34 with the window's bytes by offset. -/
structure Image where
  pilot : Pilot
  crews : List Crew
  binds : List (Option Binding)
  bars : List Barrier
  ckBar : Barrier
  accs : List Acc
  tags : DWord
  tagErr : List (Nat × Nat)
  tvec : Word
  ptvec : DWord
  tdiag : Word
  ckcnt : Word
  /-- Commands in flight, with their progress (R34, R213), the sweep counter of a `bysweep` among them with the labels its sweep has chosen (R350),
  and the taps with their open sums. -/
  cmds : List (Engine × Cmd)
  sweep : Option (Word × List (Nat × Nat))
  taps : List (Option Tap)
  window : List Host.Cell
  /-- Engine-owned tiles and poisoned lines of the window, counted from its start. -/
  tiles : List Nat
  bad : List Nat
  /-- Its place in the countersign area: physical address and bytes; 0 bytes where the range has no room (log 51). -/
  base : Nat
  len : Nat
deriving DecidableEq, Repr

/-- The role of a workgroup's copy under DUP (R328). -/
inductive Copy where
  | single | lead | trail
deriving DecidableEq, Repr

/-- Whether a resident workgroup runs (R131, R318, R398). -/
inductive RunState where
  | running
  /-- Stopped by `halt`. -/
  | halted
  /-- Stopped by a trap that went to harbour software. -/
  | stopped
  /-- Pre-empted: stopped and drained, its save not done. -/
  | draining
deriving DecidableEq, Repr

/-- A resident workgroup (R7, R34). -/
structure WG where
  lid : Nat
  wgix : Nat
  part : Nat
  copy : Copy
  /-- Berth of the other copy under DUP. -/
  peer : Option Nat
  /-- The kernel header copy (R29). -/
  hdr : BitVec 1024
  /-- The manifest copy (R297). -/
  man : BitVec 2048
  /-- Mode in force: bit 0 IDEM, 1 DUP, 2 DET, 3 REPLAY (R30). -/
  mode : BitVec 4
  /-- Window base: offset in the core's slice (R261). -/
  wbase : Nat
  pilot : Pilot
  crews : List Crew
  /-- q0 to q15. -/
  binds : List (Option Binding)
  /-- Bindings that a rollback took the name of while an entry pushed once was in transit (R192, R334): the entry still goes home. -/
  strays : List Binding
  /-- b0 to b15. -/
  bars : List Barrier
  /-- The checkpoint's arrival state (R137). -/
  ckBar : Barrier
  /-- a0 to a(ACCN − 1). -/
  accs : List Acc
  tags : DWord
  /-- Tags with a hidden error bit, and the copy's error code (R202). -/
  tagErr : List (Nat × Nat)
  tvec : Word
  ptvec : DWord
  tdiag : Word
  ckcnt : Word
  /-- Taps 0 to 7. -/
  taps : List (Option Tap)
  /-- Row maps of the drains the workgroup has issued, by window offset (R129, log 19). -/
  rowMaps : List Nat
  /-- Staging records, in release order (R321). -/
  staging : List StageRec
  nextRec : Nat
  /-- A global store has been released (R278). -/
  released : Bool
  run : RunState
  /-- The context whose halt or trap stopped the workgroup (R131, R398). -/
  stopper : Option Who
  /-- Where a trap stopped it (R398): `TEPC`, and of a crew the entry that trapped; none after a `halt`, which has gone on to the next slot (R131). -/
  stopPt : Option (DWord × Word)
  /-- A pre-emption is pending (R112). -/
  preempt : Bool
  /-- Cycle the quantum started (R317). -/
  quantum : Nat
  /-- Cycle since which a fault or rebuild holds the workgroup (R278). -/
  faultSince : Option Nat
  /-- Countersign mismatches of this interval (R335). -/
  mism : Nat
  /-- This copy alone raised an error of R405 in this interval. -/
  softErr : Bool
  /-- Rollback image (R331). -/
  image : Option Image
  /-- Performed-once log (R334). -/
  log : List LogEntry
deriving DecidableEq, Repr

/-- A coupling entry (R230): neighbour, boundary flag, J. -/
structure Coupling where
  nb : Nat
  bnd : Bool
  j : BitVec 8
deriving DecidableEq, Repr

/-- A node's list (R230, R344): colour, entries, residency and where its list entry lies. -/
structure NodeList where
  colour : Nat
  entries : List Coupling
  resident : Bool
  global : Bool
  addr : Nat
deriving DecidableEq, Repr

/-- A link to a remote array (R349, R350): its id, staleness, base, and labels kept with the remote node states. -/
structure Link where
  rid : Nat
  stale : Nat
  base : Nat
  labels : List (Nat × BitVec 4096)
deriving DecidableEq, Repr

/-- A buoy array (R339). -/
structure Buoy where
  /-- Berth of the workgroup that holds it. -/
  holder : Option Nat
  /-- Launch of the workgroup that holds it or was the last to hold it (R444, R445, log 45). -/
  owner : Option Nat
  m : BitVec 4096
  clamp : BitVec 4096
  /-- Biases by node; absent nodes have 0. -/
  h : List (Nat × BitVec 16)
  /-- Counts of ones by node; absent nodes have 0. -/
  cnt : List (Nat × Word)
  /-- Lists by node; absent nodes have colour 0 and no coupling. -/
  lists : List (Nat × NodeList)
  sweep : Word
  replay : Bool
  offline : Bool
  id : BitVec 16
  /-- Boundary map: remote node and remote array id (R230). -/
  bmap : List (Nat × Nat)
  links : List Link
  /-- Labels chosen in the present sweep, by remote id: every phase of it uses the same (R350). -/
  chosen : List (Nat × Nat)
  /-- States sent to subscribers at each phase end and not yet arrived: array id, label, states (R349). -/
  outbox : List (Nat × Nat × BitVec 4096)
  err : Bool
  /-- Sweep word and next phase of an unfinished sweep (R348). -/
  resume : Option (DWord × Nat)
  stall : Word
  /-- The cycle since which the present phase waits (R347). -/
  stallFrom : Option Nat
  /-- Index of the monitor's present window, and its first draw of each source (R353). -/
  window : Nat
  winStart : Nat
  /-- Calibration in progress, and the result of the last one (R355). -/
  calBusy : Bool
  calPass : Bool
  /-- The coupling memory holds an uncorrectable error (R402). -/
  coupBad : Bool
  /-- MODEL'S OWN: draws taken from the noise source, the free value's counter (log 4). -/
  draws : Nat
deriving DecidableEq, Repr

/-- A cached translation (R272): address space, 64 KiB page number, leaf entry bits; or an entry that a die's walker holds. -/
structure TlbEntry where
  asid : Nat
  page : Nat
  leaf : DWord
  /-- Bytes the leaf or entry maps. -/
  size : Nat
deriving DecidableEq, Repr

/-- A line of a core's instruction cache (R62): address space, line address, bits. -/
structure ILine where
  asid : Nat
  addr : DWord
  bits : BitVec 512
deriving DecidableEq, Repr

/-- A compute core. -/
structure Core where
  lighter : List Cmd
  crane : List Cmd
  buoyQ : List Cmd
  buoy : Buoy
  /-- Tiles of 4 KiB that harbour software pins for resident data (R261). -/
  pinned : Nat
  tlb : List TlbEntry
  /-- The walk-ahead TLB of the lighter (R273). -/
  ahead : List TlbEntry
  icache : List ILine
  /-- Crews last chosen for the two vector ports (R315), and the pilot last issued (R316), by their places in the core's round. -/
  last0 : Nat
  last1 : Nat
  lastPilot : Nat
  /-- Where the core's issue stage is in its cycle: 0 before port 0, 1 before port 1, 2 before the pilot pipeline; and the crew chosen for port 0 in
  it, with the code index of the second slot of a pair that port 1 takes (R315). -/
  port : Nat
  chosen : Option (CtxId × Option (BitVec 32))
  /-- Resources have come free since the refill rule was last applied here (R310). -/
  freed : Bool
  /-- Commands that ended with their workgroup and whose records other workgroups' queues have still to accept (R209). -/
  cancelled : List Cmd
deriving DecidableEq, Repr

/-- A record ring in harbour memory (R422) with the records that wait for room. -/
structure Ring where
  base : DWord
  cap : Word
  head : Word
  tail : Word
  wait : List (BitVec 256)
  seq : Word
deriving DecidableEq, Repr

/-- A submission queue (R301 to R303). -/
structure SubQ where
  base : DWord
  cap : Word
  head : Word
  en : Bool
  torn : Bool
  xseq : Word
  /-- Announced tail and sequence number of the last kick. -/
  tail : Word
  kseq : Word
  /-- EN was written 0 since the last reset. -/
  wasOff : Bool
  /-- Previous manifest (R301). -/
  prev : BitVec 2048
  /-- Re-reads of the entry at the head (R302). -/
  tries : Nat
deriving DecidableEq, Repr

/-- A breakpoint register (R422 DBGBPn). -/
structure Breakpoint where
  en : Bool
  pil : Bool
  lid : Word
  cp : DWord
deriving DecidableEq, Repr

/-- A gang in its reserve phase (R313): launch, first member, the reserved members with their cores. -/
structure GangPhase where
  lid : Nat
  gang : Nat
  reserved : List (Nat × Nat)
deriving DecidableEq, Repr

/-- States of a launch (R304). -/
inductive LState where
  | submitted | waiting | ready | placing | running | completing | completed
deriving DecidableEq, Repr

/-- States of a fork's handle (R289). -/
inductive HandleState where
  | running | complete | merged (status : Nat) | settled
deriving DecidableEq, Repr

/-- A saved workgroup: the save image of R399 and R400, by logical names. -/
structure Saved where
  wg : WG
  /-- The save area: physical address, bytes, and the bytes of each section. -/
  base : Nat
  len : Nat
  lens : List Nat
  window : List Host.Cell
  engTiles : List Nat
  badLines : List Nat
  cmds : List (Engine × Cmd)
  buoy : Option Buoy
  /-- Elapsed cycles of the barrier timers b0 to b15 and the checkpoint (R118). -/
  timers : List (Option Nat)
  /-- Address of the other copy's image under DUP, 0 for none (R400), and the workgroup's unsettled handles with their states (R296, R400). -/
  link : Nat
  handles : List (Nat × HandleState)
  /-- Saved because a fault or rebuild had held it for `FHOLD` cycles: it re-enters once all of them are answered (R278, R388). -/
  swapped : Bool
deriving DecidableEq, Repr

/-- How far the completion of a launch has come (R305): the status word is written, the counters read from the successor list (`none`: an entry
skipped), and how many of them are decremented. -/
structure DonePos where
  status : Bool
  /-- The record of a `SUCC` that is not read is written. -/
  noted : Bool
  read : List (Option Nat)
  decs : Nat
deriving DecidableEq, Repr

/-- A launch in the roadstead (R304). -/
structure Launch where
  /-- Number of the submission, which names the entry within the machine. -/
  lid : Nat
  /-- The launch id that `LAUNCH` reads (R299). -/
  id : Word
  part : Nat
  man : BitVec 2048
  hdr : Option (BitVec 1024)
  state : LState
  /-- Completion status of R305. -/
  status : Nat
  /-- Order in which it became Ready (R306). -/
  readyAt : Nat
  /-- Lowest workgroup not yet dealt. -/
  undealt : Nat
  /-- Dealt, unplaced workgroups of each core's chunk. -/
  chunks : List (Nat × List Nat)
  saved : List Saved
  /-- Workgroups aborted and queued again, with the unanswered fault record each waits for: its partition and `SEQN` (R278). -/
  aborted : List (Nat × Option (Nat × Word))
  retired : List Nat
  /-- Release head: lowest workgroup not fully released (R322). -/
  relHead : Nat
  /-- Staging records of ended workgroups that are not fully released, with the core whose area holds them (R323). -/
  ended : List (Nat × Nat × List StageRec)
  /-- The revision whose child side the launch is on (R280). -/
  view : Option Nat
  /-- Remaining retention budget in pages (R283). -/
  budget : Nat
  /-- Rebuild page this launch rebuilds (R386): address space and page. -/
  rebuilds : Option (Nat × Nat)
  /-- Physical or virtual address of the manifest where harbour software submits it (R408). -/
  maddr : DWord
  /-- Pages whose faults during completion were refused and whose entry is still to be skipped (R305). -/
  skips : List Nat
  /-- Handed to harbour software (R312). -/
  handed : Bool
  /-- The launch has become Ready and has not been dealt as far as it goes (R309). -/
  dealDue : Bool
  /-- Saved and aborted workgroups that re-entered when their faults were answered, and wait for a core (R278, R388). -/
  back : List Nat
  /-- Its affinity die, taken when it became Ready (R309). -/
  affinity : Option Nat
  done : DonePos
deriving DecidableEq, Repr

/-- A page held by the sorting office (R282): its virtual page number, its bytes by offset, its poisoned lines. -/
structure RevPage where
  page : Nat
  cells : List Host.Cell
  bad : List Nat
deriving DecidableEq, Repr

/-- How far a merge has come (R285, R287): region entry, next line of it, and of an APPEND region the counts and record size it began with. -/
structure MergePos where
  region : Nat
  unit : Nat
  counts : List Nat
deriving DecidableEq, Repr

/-- A forked revision (R280). -/
structure Rev where
  asid : Nat
  /-- Forking launch, workgroup and handle. -/
  lid : Nat
  wgix : Nat
  handle : Nat
  /-- The revision whose view the forking workgroup sees. -/
  outer : Option Nat
  child : Nat
  regions : List (Option Region)
  childPages : List RevPage
  ancPages : List RevPage
  state : HandleState
  reserved : Nat
  merging : Option MergePos
deriving DecidableEq, Repr

/-- A fault the core has reported and not seen answered (R275, R277). -/
structure OpenFault where
  seqn : Word
  part : Nat
  core : Nat
  asid : Nat
  page : Nat
  wrt : Bool
  fet : Bool
deriving DecidableEq, Repr

/-- A crossing whose record waits for room in the Lookout ring (R366, R369): the workgroup and context that presented its term, the tap, the trap
that follows the record, and the core of its drain; none for a `look`. -/
structure LookPend where
  lid : Nat
  wgix : Nat
  who : Who
  tap : Nat
  trap : Option PendTrap
  drain : Option Nat
deriving DecidableEq, Repr

/-- A partition and its harbour registers (R300, R422). -/
structure Part where
  en : Bool
  lgp : Nat
  cols : Nat
  row : Bool
  quantum : Nat
  fhold : Nat
  rsquota : Nat
  ckBusy : Bool
  ckDone : Bool
  ckFail : Bool
  lckpta : DWord
  lckptl : DWord
  tlbR : DWord
  tlbBusy : Bool
  /-- Writes of `TLBINVN` that wait for the invalidation in progress (R422), oldest first, each with its `ALL`. -/
  tlbNext : List (Bool × DWord)
  fr : Ring
  hev : Ring
  lkr : Ring
  /-- The crossings of the records that wait in `lkr`, in their order. -/
  looks : List LookPend
  dbg : List Breakpoint
  sq : List (Nat × SubQ)
  /-- Counter of harbourmaster-assigned launch ids (R299). -/
  lidCtr : Nat
  gang : Option GangPhase
  openFaults : List OpenFault
deriving DecidableEq, Repr

/-- The harbour registers of an address space (R422). -/
structure ASpace where
  ptroot : DWord
  sstbase : DWord
  rbtcfg : DWord
  svbase : DWord
  svsize : DWord
deriving DecidableEq, Repr

/-- A released store of a context (R410): the context, its virtual address, the code point of its instruction, and the lanes it served. -/
structure Issuer where
  who : Who
  va : Nat
  slot : DWord
  lanes : LaneMask
deriving DecidableEq, Repr

/-- A remote access waiting for its package (R410, R411): number, the step that sent it, context (`none`: the lighter of a core), lane, port and
sequence number, the result's shape, and the launch and workgroup whose posted write it is (R258). -/
structure RemoteReq where
  id : Nat
  sent : Nat
  ctx : Option CtxId
  lane : Nat
  /-- Lanes that the frame serves, with the place of their bytes in it, when it serves several (R173). -/
  parts : List (Nat × Nat)
  /-- The core whose outstanding request it is (R176). -/
  core : Option Nat
  /-- The released store that it is. -/
  issuer : Option Issuer
  rank : Nat
  port : Nat
  seq : Word
  op : BitVec 8
  pa : Nat
  width : Nat
  home : Option (Nat × Nat)
  /-- The saved copy and context whose held access it is (R410): launch, workgroup, copy. -/
  kept : Option (Nat × Nat × Copy × Who)
  /-- Answer: the bytes of a response, or refusal. -/
  answer : Option (Option (List Byte))
deriving DecidableEq, Repr

/-- A posted collective (R413, R414): descriptor bits and the contributions received, by rank: byte offset and bytes. -/
structure Coll where
  desc : BitVec 512
  contrib : List (Nat × List (Nat × Byte))
deriving DecidableEq, Repr

/-- A scale-out port (R409 to R412): link state, frames for harbour software, next expected sequence number by source
port pair, frames sent. -/
structure Port where
  up : Bool
  downSince : Option Nat
  rx : List RxFrame
  rxSeq : List (Nat × Word)
  txSeq : List (Nat × Word)
  tx : List (List Byte)
  /-- First missing sequence number that retransmission is asked for, by source rank (R411). -/
  gaps : List (Nat × Word)
  /-- Original answers by source rank and sequence number, for duplicates (R411). -/
  answered : List (Nat × Word × List Byte)
  bad : Word
deriving DecidableEq, Repr

/-- A hull-survey register (R421) and the corrected errors of the present hour. -/
structure Hull where
  stress : BitVec 24
  drift : BitVec 16
  cecc : BitVec 16
  eol : BitVec 16
  hour : Nat
deriving DecidableEq, Repr

/-- One remote export window (R422 RXMAPk). -/
structure RxMap where
  en : Bool
  wr : Bool
  lo : Nat
  hi : Nat
deriving DecidableEq, Repr

/-- Package-wide registers and units. -/
structure Pkg where
  powered : Bool
  /-- The west harbour cores are released into a verified image, and the east ones by them (R417, R419). -/
  westUp : Bool
  eastUp : Bool
  /-- Package events that wait until every event ring has room: type, cause, `EPC` (R408). -/
  events : List (Nat × Nat × Nat)
  capw : Nat
  watts : BitVec 16
  fclk : Nat
  thermal : Bool
  rank : Nat
  linkto : Nat
  scrubiv : Nat
  prbbase : DWord
  colls : List Coll
  hull : List (Nat × Hull)
  rxmap : List (Nat × RxMap)
  ports : List (Nat × Port)
  mgmt : List (List Byte)
  /-- IOMMU ranges harbour software opens: first and last byte (R416). -/
  iommu : List (Nat × Nat)
  /-- DMA requests answered with unsupported-request (R416). -/
  dmaRefused : Nat
  dmaRead : List Byte
  /-- Fused anti-rollback counter, security version of the last released image, measurements of released images, report counter, last report
  and the vendor certificate read beside it (R417, R418). -/
  rollback : Word
  version : Word
  images : List (BitVec 256)
  reports : Nat
  report : List Byte
  certificate : List Byte
  recovery : Bool
  /-- Dies stopped at their critical temperature (R420). -/
  critical : List Nat
  remote : List RemoteReq
  nextRemote : Nat
deriving DecidableEq, Repr

/-- The result of the last access by a physical-address agent (R407). -/
inductive AgentResult where
  | none
  | bytes (bs : List Byte) (poisoned : Bool)
  | accessFault
deriving DecidableEq, Repr

/-- A logical checkpoint image (R336): its number and length; pages by address space and virtual page number, with cells and poisoned lines;
launches, counter, queue states, revisions by number. -/
structure CkptImage where
  /-- Number of its free bytes. -/
  tag : Nat
  len : Nat
  pages : List (Nat × Nat × List Host.Cell × List Nat)
  launches : List Launch
  lidCtr : Nat
  sq : List (Nat × SubQ)
  revs : List (Nat × Rev)
deriving DecidableEq, Repr

/-- The machine. -/
structure State where
  /-- Arithmetic-clock cycles since reset (R128 CYCLE). -/
  cycle : Nat
  /-- MODEL'S OWN: steps taken, the counter of the free step times (log 3). -/
  steps : Nat
  /-- MODEL'S OWN: the order in which the agents act next (log 1). -/
  plan : List Choice
  /-- MODEL'S OWN: the context that is issuing. -/
  cur : CtxId
  /-- HBM by physical address; unlisted bytes read 0 (log 2). -/
  hbm : List Host.Cell
  /-- Poisoned 64-byte HBM lines, by line number (R270). -/
  hbmBad : List Nat
  /-- Quay memory: core number × 1 MiB + slice offset; unlisted bytes read 0 (log 2). -/
  quay : List Host.Cell
  /-- Poisoned 64-byte Quay lines (R403). -/
  quayBad : List Nat
  /-- Engine-owned 4 KiB tiles, by tile number (R199). -/
  engTiles : List Nat
  /-- Cores by number 20 × physical die + rank; absent cores are idle. -/
  cores : List (Nat × Core)
  /-- Root, L0 and L1 entries that the walkers of the dies hold, oldest first, by physical die (R272). -/
  walkers : List (Nat × List TlbEntry)
  /-- Resident workgroups by berth 16 × core + berth. -/
  wgs : List (Nat × WG)
  parts : List (Nat × Part)
  spaces : List (Nat × ASpace)
  launches : List Launch
  nextLaunch : Nat
  revs : List (Nat × Rev)
  nextRev : Nat
  /-- Order counter of launches becoming Ready. -/
  readyCtr : Nat
  pkg : Pkg
  /-- Results of the harbour cores' last accesses, and their reservations: physical address and the bytes read (R407). -/
  agents : List (Nat × AgentResult)
  reserved : List (Nat × Nat × List Byte)
  images : List CkptImage
deriving DecidableEq, Repr

/-- A context at its start: no result outstanding, nothing pending. -/
def Ctx.start : Ctx :=
  { flags := [0, 0, 0, 0, 0, 0, 0, 0, 0, 0, 0, 0], pend := [], blocked := none, line := none, traps := [],
    lost := false, handler := none, bpPass := false, ended := false, yields := [], sent := [0, 0, 0],
    sig := 0, closed := 0, held := [], slack := 0, ordinal := 0, granted := false, copied := none, divided := none, looking := [], taking := none, upsets := [] }

/-- A buoy array before any workgroup holds it (R339; the offline flag is clear, log 6). -/
def Buoy.idle : Buoy :=
  { holder := none, owner := none, m := 0, clamp := 0, h := [], cnt := [], lists := [], sweep := 0, replay := false, offline := false,
    id := 0xFFFF, bmap := [], links := [], chosen := [], outbox := [], err := false, resume := none, stall := 0, stallFrom := none, window := 0, winStart := 0,
    calBusy := false, calPass := false, coupBad := false, draws := 0 }

/-- An idle core. -/
def Core.idle : Core :=
  { lighter := [], crane := [], buoyQ := [], buoy := Buoy.idle, pinned := 0, tlb := [], ahead := [], icache := [], last0 := 0, last1 := 0,
    lastPilot := 0, port := 0, chosen := none, freed := false, cancelled := [] }

/-- A ring as reset leaves it (R422). -/
def Ring.off : Ring := { base := 0, cap := 0, head := 0, tail := 0, wait := [], seq := 0 }

/-- A submission queue as reset leaves it (R303). -/
def SubQ.off : SubQ :=
  { base := 0, cap := 0, head := 0, en := false, torn := false, xseq := 1, tail := 0, kseq := 0, wasOff := true,
    prev := 0, tries := 0 }

/-- A breakpoint as reset leaves it (R422). -/
def Breakpoint.off : Breakpoint := { en := false, pil := false, lid := 0, cp := 0 }

/-- A partition block as reset leaves it (R422). -/
def Part.off : Part :=
  { en := false, lgp := 0, cols := 0, row := false, quantum := 2000, fhold := 4096, rsquota := 0, ckBusy := false,
    ckDone := false, ckFail := false, lckpta := 0, lckptl := 0, tlbR := 0, tlbBusy := false, tlbNext := [], fr := Ring.off,
    hev := Ring.off, lkr := Ring.off, looks := [], dbg := [Breakpoint.off, Breakpoint.off, Breakpoint.off, Breakpoint.off],
    sq := [], lidCtr := 0, gang := none, openFaults := [] }

/-- An address-space block as reset leaves it (R422). -/
def ASpace.off : ASpace := { ptroot := 0, sstbase := 0, rbtcfg := 0, svbase := 0, svsize := 0 }

/-- A scale-out port as reset leaves it: the link down until it is brought up (log 6). -/
def Port.off : Port :=
  { up := false, downSince := some 0, rx := [], rxSeq := [], txSeq := [], tx := [], gaps := [], answered := [], bad := 0 }

/-- A hull-survey register as reset leaves it (R421; `EOL`, which has no reset value, log 6). -/
def Hull.off : Hull := { stress := 0, drift := 0, cecc := 0, eol := 0, hour := 0 }

/-- A remote export window as reset leaves it (R422). -/
def RxMap.off : RxMap := { en := false, wr := false, lo := 0, hi := 0 }

/-- Package registers as reset leaves them (R420, R422). -/
def Pkg.reset : Pkg :=
  { powered := false, westUp := false, eastUp := false, events := [], capw := 16000, watts := 0, fclk := 1400, thermal := false,
    rank := 0, linkto := 1000, scrubiv := 86400, prbbase := 0, colls := [], hull := [], rxmap := [], ports := [],
    mgmt := [], iommu := [], dmaRefused := 0, dmaRead := [], rollback := 0, version := 0, images := [], reports := 0, report := [], certificate := [],
    recovery := false, critical := [], remote := [], nextRemote := 0 }

/-- The machine right after reset: harbour registers at the values of R303, R420 to R422, no partition defined, no
launch submitted, no workgroup placed, memory with nothing listed. -/
def State.reset : State :=
  { cycle := 0, steps := 0, plan := [], cur := { berth := 0, who := .pilot }, hbm := [], hbmBad := [], quay := [],
    quayBad := [], engTiles := [], cores := [], walkers := [], wgs := [], parts := [], spaces := [], launches := [], nextLaunch := 0,
    revs := [], nextRev := 0, readyCtr := 0, pkg := Pkg.reset, agents := [], reserved := [], images := [] }

/-- What every meaning answers. -/
abbrev Out := Host.Outcome State Fault Refusal

end Sys2Proof.Machine
end

