-- ==== Sys2Proof/Machine/Bits.lean ====
section
/-! DEFINITION. Bits: bit fields, byte order, association lists, and the canonical byte store every memory is kept in. -/

namespace Sys2Proof.Machine

/-- Bits [hi:lo] of an n-bit word as a number (R4). -/
def bits {n : Nat} (x : BitVec n) (hi lo : Nat) : Nat := (x.toNat >>> lo) % 2 ^ (hi + 1 - lo)

/-- Bit k of a word. -/
def bitAt {n : Nat} (x : BitVec n) (k : Nat) : Bool := x.getLsbD k

/-- The two's-complement value of the low n bits of x (R6 SignExt). -/
def signedOf (n x : Nat) : Int := if 2 * (x % 2 ^ n) < 2 ^ n then (x % 2 ^ n : Nat) else (x % 2 ^ n : Nat) - (2 ^ n : Nat)

/-- The low n bits of an integer. -/
def lowBits (n : Nat) (x : Int) : Nat := (x % (2 ^ n : Nat)).toNat

/-- The number a little-endian byte string holds (R4). -/
def leNat : List Byte → Nat
  | [] => 0
  | b :: bs => b.toNat + 256 * leNat bs

/-- The n little-endian bytes of a number (R4). -/
def leBytes : Nat → Nat → List Byte
  | 0, _ => []
  | n + 1, v => BitVec.ofNat 8 v :: leBytes n (v / 256)

/-- Number of ones of the low n bits. -/
def popcount : Nat → Nat → Nat
  | 0, _ => 0
  | n + 1, v => v % 2 + popcount n (v / 2)

/-- Leading zeros of an n-bit number. -/
def leadingZeros (n v : Nat) : Nat := if v = 0 then n else n - 1 - Nat.log2 v

/-- Trailing zeros, at most the fuel. -/
def trailingZeros : Nat → Nat → Nat
  | 0, _ => 0
  | n + 1, v => if v % 2 = 1 then 0 else 1 + trailingZeros n (v / 2)

/-- The n-bit reversal. -/
def reverseBits : Nat → Nat → Nat
  | 0, _ => 0
  | n + 1, v => (v % 2) * 2 ^ n + reverseBits n (v / 2)

/-- The floor of the square root, by binary digits: `fuel` digits of the root, from the bit of weight 2^(fuel − 1). -/
def sqrtGo : Nat → Nat → Nat → Nat
  | 0, _, r => r
  | fuel + 1, n, r => if (r + 2 ^ fuel) * (r + 2 ^ fuel) ≤ n then sqrtGo fuel n (r + 2 ^ fuel) else sqrtGo fuel n r

/-- The floor of the square root of n. -/
def isqrt (n : Nat) : Nat := sqrtGo (Nat.log2 n / 2 + 1) n 0

/-- Even parity (R60): the number of ones among the low n bits is odd. -/
def oddOnes (n v : Nat) : Bool := popcount n v % 2 == 1

/-! ### Association lists -/

/-- The value a key has, if it is listed. -/
def alookup {α : Type} (k : Nat) : List (Nat × α) → Option α
  | [] => none
  | (j, v) :: xs => if j = k then some v else alookup k xs

/-- Give a key a value, keeping keys in rising order. -/
def ainsert {α : Type} (k : Nat) (v : α) : List (Nat × α) → List (Nat × α)
  | [] => [(k, v)]
  | (j, w) :: xs => if k < j then (k, v) :: (j, w) :: xs else if j = k then (k, v) :: xs else (j, w) :: ainsert k v xs

/-- Remove a key. -/
def aerase {α : Type} (k : Nat) : List (Nat × α) → List (Nat × α)
  | [] => []
  | (j, w) :: xs => if j = k then xs else (j, w) :: aerase k xs

/-- The value of a key, or a default. -/
def agetD {α : Type} (d : α) (k : Nat) (xs : List (Nat × α)) : α := (alookup k xs).getD d

/-! ### Sets of numbers, in rising order -/

/-- Add a number to a set. -/
def nsInsert (k : Nat) : List Nat → List Nat
  | [] => [k]
  | j :: xs => if k < j then k :: j :: xs else if j = k then j :: xs else j :: nsInsert k xs

/-- Remove a number from a set. -/
def nsErase (k : Nat) (xs : List Nat) : List Nat := xs.filter (fun j => j != k)

/-! ### Byte stores -/

/-- The byte at an address; an unlisted address reads 0 (log 2). -/
def cellsRead (a : Nat) : List Host.Cell → Byte
  | [] => 0
  | (k, b) :: xs => if k = a then b else if a < k then 0 else cellsRead a xs

/-- Write one byte, keeping addresses strictly rising and listing no zero byte. -/
def cellsWrite (a : Nat) (b : Byte) : List Host.Cell → List Host.Cell
  | [] => if b = 0 then [] else [(a, b)]
  | (k, c) :: xs =>
    if a < k then (if b = 0 then (k, c) :: xs else (a, b) :: (k, c) :: xs)
    else if k = a then (if b = 0 then xs else (a, b) :: xs)
    else (k, c) :: cellsWrite a b xs

/-- The n bytes from an address. -/
def cellsReadN (m : List Host.Cell) (a : Nat) : Nat → List Byte
  | 0 => []
  | n + 1 => cellsRead a m :: cellsReadN m (a + 1) n

/-- Write a byte string from an address. -/
def cellsWriteN (m : List Host.Cell) (a : Nat) : List Byte → List Host.Cell
  | [] => m
  | b :: bs => cellsWriteN (cellsWrite a b m) (a + 1) bs

/-- Zero n bytes from an address. -/
def cellsZero (m : List Host.Cell) (a n : Nat) : List Host.Cell :=
  m.filter (fun c => c.1 < a || a + n ≤ c.1)

/-- The cells of a range, their addresses counted from its start. -/
def cellsSlice (m : List Host.Cell) (a n : Nat) : List Host.Cell :=
  (m.filter (fun c => decide (a ≤ c.1) && decide (c.1 < a + n))).map (fun c => (c.1 - a, c.2))

/-- Put listed cells of a range back, the range zeroed first. -/
def cellsPlace (m : List Host.Cell) (a n : Nat) (cs : List Host.Cell) : List Host.Cell :=
  cs.foldl (fun m c => if c.1 < n then cellsWrite (a + c.1) c.2 m else m) (cellsZero m a n)

/-- The canonical form: addresses strictly rising from `lo` on, and no byte equal to what an unlisted address reads as. -/
def cellsWfFrom (lo : Nat) : List Host.Cell → Bool
  | [] => true
  | (k, b) :: xs => decide (lo ≤ k) && decide (b ≠ 0) && cellsWfFrom (k + 1) xs

/-- The canonical form of a byte store. -/
def Memory.wf (m : List Host.Cell) : Bool := cellsWfFrom 0 m

/-- The number in w bytes at an address. -/
def cellsNat (m : List Host.Cell) (a w : Nat) : Nat := leNat (cellsReadN m a w)

end Sys2Proof.Machine
end

