-- ==== Sys2Proof/Machine/Fp.lean ====
section
/-! DEFINITION. Fp: the floating-point formats, exact values, and the one rounding every format shares (R37 to R44,
R52, R53, R55). Arithmetic is exact on fractions and rounds once. -/

namespace Sys2Proof.Machine

/-! ### Sticky flags of R42 -/

/-- No flag. -/
def fNone : BitVec 5 := 0
/-- [0] invalid. -/
def fInvalid : BitVec 5 := 1
/-- [1] divide-by-zero. -/
def fDivZero : BitVec 5 := 2
/-- [2] overflow, with [4] inexact (R53). -/
def fOverflow : BitVec 5 := 0b10100
/-- [3] underflow. -/
def fUnderflow : BitVec 5 := 8
/-- [4] inexact. -/
def fInexact : BitVec 5 := 16

/-- An exact signed fraction num / den; zero keeps its sign (R40). -/
structure Exact where
  neg : Bool
  num : Nat
  den : Nat
deriving DecidableEq, Repr

/-- The value an encoding holds: a NaN (signalling or quiet), an infinity, or an exact finite value. -/
inductive FVal where
  | nan (sig : Bool)
  | inf (neg : Bool)
  | fin (x : Exact)
deriving DecidableEq, Repr

/-- A binary format: sign bit, significand precision, exponent of the smallest subnormal, code of the largest finite
magnitude, code of infinity, lowest NaN code, whether NaNs can signal, and the NaN it writes. A finite magnitude's code
rises with its value by one step at a time (R37, R43). -/
structure Fmt where
  sbit : Nat
  prec : Nat
  qmin : Int
  maxCode : Nat
  infCode : Option Nat
  nanFrom : Option Nat
  signalling : Bool
  nanOut : Nat
deriving DecidableEq, Repr

/-- FP32 (R37). -/
def fmtF32 : Fmt := ⟨31, 24, -149, 0x7F7FFFFF, some 0x7F800000, some 0x7F800001, true, 0x7FC00000⟩
/-- FP16 (R37). -/
def fmtF16 : Fmt := ⟨15, 11, -24, 0x7BFF, some 0x7C00, some 0x7C01, true, 0x7E00⟩
/-- BF16 (R37). -/
def fmtBf16 : Fmt := ⟨15, 8, -133, 0x7F7F, some 0x7F80, some 0x7F81, true, 0x7FC0⟩
/-- FP8 E4M3 (R43). -/
def fmtE4m3 : Fmt := ⟨7, 4, -9, 0x7E, none, some 0x7F, false, 0x7F⟩
/-- FP8 E5M2 (R43). -/
def fmtE5m2 : Fmt := ⟨7, 3, -16, 0x7B, some 0x7C, some 0x7D, false, 0x7F⟩
/-- FP6 E2M3 (R43). -/
def fmtE2m3 : Fmt := ⟨5, 4, -3, 0x1F, none, none, false, 0⟩
/-- FP6 E3M2 (R43). -/
def fmtE3m2 : Fmt := ⟨5, 3, -4, 0x1F, none, none, false, 0⟩
/-- FP4 E2M1 (R43). -/
def fmtE2m1 : Fmt := ⟨3, 2, -1, 0x7, none, none, false, 0⟩

end Sys2Proof.Machine

namespace Sys2Proof

/-- The binary format of a type, if it has one. -/
def Ty.fmt? : Ty → Option Machine.Fmt
  | .f32 => some Machine.fmtF32
  | .f16 => some Machine.fmtF16
  | .bf16 => some Machine.fmtBf16
  | .e4m3 => some Machine.fmtE4m3
  | .e5m2 => some Machine.fmtE5m2
  | .e2m3 => some Machine.fmtE2m3
  | .e3m2 => some Machine.fmtE3m2
  | .e2m1 => some Machine.fmtE2m1
  | _ => none

end Sys2Proof

namespace Sys2Proof.Machine

/-- m × 2^q as a fraction. -/
def scaled (neg : Bool) (m : Nat) (q : Int) : Exact :=
  match q with
  | .ofNat k => ⟨neg, m * 2 ^ k, 1⟩
  | .negSucc k => ⟨neg, m, 2 ^ (k + 1)⟩

/-- The magnitude of a finite magnitude code. -/
def magOf (f : Fmt) (neg : Bool) (code : Nat) : Exact :=
  let e := code / 2 ^ (f.prec - 1)
  let m := code % 2 ^ (f.prec - 1)
  if e = 0 then scaled neg m f.qmin else scaled neg (m + 2 ^ (f.prec - 1)) (f.qmin + (e : Int) - 1)

/-- The value of an encoding (R37, R43). -/
def decodeF (f : Fmt) (x : Nat) : FVal :=
  let neg := x / 2 ^ f.sbit % 2 == 1
  let code := x % 2 ^ f.sbit
  if f.nanFrom.any (fun n => n ≤ code) then
    .nan (f.signalling && (code / 2 ^ (f.prec - 2) % 2 == 0))
  else if f.infCode == some code then .inf neg
  else .fin (magOf f neg code)

/-- ⌊log₂ (num / den)⌋ of a positive fraction. -/
def floorLog2 (num den : Nat) : Int :=
  let l : Int := (Nat.log2 num : Int) - (Nat.log2 den : Int)
  let ge : Bool := match l with
    | .ofNat k => decide (den * 2 ^ k ≤ num)
    | .negSucc k => decide (den ≤ num * 2 ^ (k + 1))
  if ge then l else l - 1

/-- The quotient and remainder of (num / den) / 2^q as (floor, remainder, divisor). -/
def divPow (num den : Nat) (q : Int) : Nat × Nat × Nat :=
  match q with
  | .ofNat k => (num / (den * 2 ^ k), num % (den * 2 ^ k), den * 2 ^ k)
  | .negSucc k => (num * 2 ^ (k + 1) / den, num * 2 ^ (k + 1) % den, den)

/-- Whether a magnitude lying r / d of the way from an even or odd lower neighbour rounds away from zero (R52, R55). -/
def roundsUp (rm : Rm) (neg odd : Bool) (r d u : Nat) : Bool :=
  match rm with
  | .rne => decide (d < 2 * r) || (decide (2 * r = d) && odd)
  | .rtz => false
  | .rup => decide (0 < r) && !neg
  | .rdn => decide (0 < r) && neg
  | .rna => decide (d ≤ 2 * r)
  | .rsr => decide (u < 65536 * r / d)

/-- The result of an overflow (R53): the largest magnitude, or infinity where the format takes it and the mode rounds to it. -/
def overflowCode (f : Fmt) (toInf : Bool) (rm : Rm) (neg : Bool) : Nat :=
  match f.infCode with
  | some i =>
    if toInf && !(rm == .rtz || (rm == .rup && neg) || (rm == .rdn && !neg)) then i else f.maxCode
  | none => f.maxCode

/-- Whether a positive magnitude is tiny after rounding to the format's precision with unbounded exponent (R42). -/
def tinyAfter (f : Fmt) (rm : Rm) (neg : Bool) (num den u : Nat) : Bool :=
  let e := floorLog2 num den
  let q := e - ((f.prec : Int) - 1)
  let (m, r, d) := divPow num den q
  let up := roundsUp rm neg (m % 2 == 1) r d u
  let emin := f.qmin + (f.prec : Int) - 1
  decide (e < emin - 1) || (decide (e = emin - 1) && !(up && decide (m + 1 = 2 ^ f.prec)))

/-- An exact finite value rounded once to a binary format, as the encoding and the flags (R42, R52, R53, R55).
`toInf` says whether an overflow may give infinity; `u` is the uniform of `.rsr`. -/
def roundFin (f : Fmt) (toInf : Bool) (rm : Rm) (u : Nat) (x : Exact) : Nat × BitVec 5 :=
  let s := if x.neg then 2 ^ f.sbit else 0
  if x.num = 0 then (s, fNone)
  else
    let q := max (floorLog2 x.num x.den - ((f.prec : Int) - 1)) f.qmin
    let (m, r, d) := divPow x.num x.den q
    let code := (q - f.qmin).toNat * 2 ^ (f.prec - 1) + m
    let code' := if roundsUp rm x.neg (m % 2 == 1) r d u then code + 1 else code
    if f.maxCode < code' then
      (s + overflowCode f toInf (if rm == .rsr then .rne else rm) x.neg, fOverflow)
    else if r = 0 then (s + code, fNone)
    else
      let tiny := if rm == .rsr then decide (code' < 2 ^ (f.prec - 1)) else tinyAfter f rm x.neg x.num x.den u
      (s + code', if tiny then fUnderflow ||| fInexact else fInexact)

/-- A value rounded to FP32, FP16 or BF16 (R39, R54 first row): NaN gives the canonical NaN, infinities stay. -/
def roundIeee (f : Fmt) (rm : Rm) (u : Nat) (v : FVal) : Nat × BitVec 5 :=
  match v with
  | .nan _ => (f.nanOut, fNone)
  | .inf neg => ((if neg then 2 ^ f.sbit else 0) + f.infCode.getD f.maxCode, fNone)
  | .fin x => roundFin f true rm u x

/-! ### Exact arithmetic -/

/-- The exact zero of a sign. -/
def exactZero (neg : Bool) : Exact := ⟨neg, 0, 1⟩

/-- A signed integer as an exact value; zero is +0. -/
def exactInt (i : Int) : Exact := ⟨decide (i < 0), i.natAbs, 1⟩

/-- The signed numerator of a value over its denominator. -/
def Exact.int (x : Exact) : Int := if x.neg then -(x.num : Int) else x.num

/-- Exact sum; an exact zero from opposite signs is +0, or −0 under `.rdn` (R40). -/
def exactAdd (rm : Rm) (x y : Exact) : Exact :=
  let n := x.int * y.den + y.int * x.den
  if n = 0 then
    (if x.neg == y.neg then ⟨x.neg, 0, 1⟩ else ⟨rm == .rdn, 0, 1⟩)
  else ⟨decide (n < 0), n.natAbs, x.den * y.den⟩

/-- Exact product. -/
def exactMul (x y : Exact) : Exact := ⟨x.neg != y.neg, x.num * y.num, x.den * y.den⟩

/-- x < y on exact values; the zeros are equal (R40). -/
def exactLt (x y : Exact) : Bool := decide (x.int * y.den < y.int * x.den)

/-- x = y on exact values. -/
def exactEq (x y : Exact) : Bool := decide (x.int * y.den = y.int * x.den)

/-- A signalling NaN sets invalid (R39). -/
def sigFlag : FVal → BitVec 5
  | .nan true => fInvalid
  | _ => fNone

/-- a + b before rounding, with invalid for ∞ − ∞ (R42). -/
def fvAdd (rm : Rm) (a b : FVal) : FVal × BitVec 5 :=
  let fl := sigFlag a ||| sigFlag b
  match a, b with
  | .nan _, _ => (.nan false, fl)
  | _, .nan _ => (.nan false, fl)
  | .inf m, .inf n => if m == n then (.inf m, fl) else (.nan false, fl ||| fInvalid)
  | .inf m, .fin _ => (.inf m, fl)
  | .fin _, .inf n => (.inf n, fl)
  | .fin x, .fin y => (.fin (exactAdd rm x y), fl)

/-- The negated value. -/
def fvNeg : FVal → FVal
  | .nan s => .nan s
  | .inf n => .inf (!n)
  | .fin x => .fin ⟨!x.neg, x.num, x.den⟩

/-- a × b before rounding, with invalid for 0 × ∞ (R42). -/
def fvMul (a b : FVal) : FVal × BitVec 5 :=
  let fl := sigFlag a ||| sigFlag b
  match a, b with
  | .nan _, _ => (.nan false, fl)
  | _, .nan _ => (.nan false, fl)
  | .inf m, .inf n => (.inf (m != n), fl)
  | .inf m, .fin y => if y.num = 0 then (.nan false, fl ||| fInvalid) else (.inf (m != y.neg), fl)
  | .fin x, .inf n => if x.num = 0 then (.nan false, fl ||| fInvalid) else (.inf (x.neg != n), fl)
  | .fin x, .fin y => (.fin (exactMul x y), fl)

/-- a × b + c before the one rounding (R41); 0 × ∞ is invalid whatever the addend (R42). -/
def fvFma (rm : Rm) (a b c : FVal) : FVal × BitVec 5 :=
  let (p, f1) := fvMul a b
  let (s, f2) := fvAdd rm p c
  (s, f1 ||| f2)

/-- minimumNumber and maximumNumber on encodings (R40): −0 orders below +0; a NaN yields the other operand. -/
def fMinMax (f : Fmt) (wantMax : Bool) (a b : Nat) : Nat × BitVec 5 :=
  let va := decodeF f a
  let vb := decodeF f b
  let fl := sigFlag va ||| sigFlag vb
  let key (x : Nat) : Int := if x / 2 ^ f.sbit % 2 == 1 then -((x % 2 ^ f.sbit : Nat) : Int) - 1 else ((x % 2 ^ f.sbit : Nat) : Int)
  match va, vb with
  | .nan _, .nan _ => (f.nanOut, fl)
  | .nan _, _ => (b, fl)
  | _, .nan _ => (a, fl)
  | _, _ => (if wantMax then (if key a < key b then b else a) else (if key b < key a then b else a), fl)

/-- IEEE order of two values: less, equal, greater, or unordered. -/
inductive FOrder where
  | lt | eq | gt | un
deriving DecidableEq, Repr

/-- The order of two values (R40). -/
def fvCmp (a b : FVal) : FOrder :=
  match a, b with
  | .nan _, _ => .un
  | _, .nan _ => .un
  | .inf m, .inf n => if m == n then .eq else if m then .lt else .gt
  | .inf m, .fin _ => if m then .lt else .gt
  | .fin _, .inf n => if n then .gt else .lt
  | .fin x, .fin y => if exactLt x y then .lt else if exactEq x y then .eq else .gt

/-- A condition code on an order: eq, ne, lt, le, gt, ge, ord, uno (R71, R40). -/
def condHolds (cc : Nat) (o : FOrder) : Bool :=
  match cc with
  | 0 => o == .eq
  | 1 => o != .eq
  | 2 => o == .lt
  | 3 => o == .lt || o == .eq
  | 4 => o == .gt
  | 5 => o == .gt || o == .eq
  | 6 => o != .un
  | _ => o == .un

/-- The order of two integers. -/
def intCmp (a b : Int) : FOrder := if a < b then .lt else if a = b then .eq else .gt

/-- An exact value rounded to an integer (R52, R54), with whether it changed. -/
def roundInt (rm : Rm) (u : Nat) (x : Exact) : Int × Bool :=
  let q := x.num / x.den
  let r := x.num % x.den
  let q' := if roundsUp rm x.neg (q % 2 == 1) r x.den u then q + 1 else q
  (if x.neg then -(q' : Int) else q', decide (r ≠ 0))

end Sys2Proof.Machine
end

