-- ==== Sys2Proof/Machine/FpFun.lean ====
section
/-! DEFINITION. FpFun: the correctly rounded unary functions of R41, R149, R150. An algebraic function rounds its exact
fraction; a transcendental one is enclosed between fractions whose roundings are compared, at doubling precision until
both ends round alike (log 7). -/

namespace Sys2Proof.Machine

/-- Round both ends of an enclosure; when they differ, double the precision. -/
def refine (enc : Nat → Exact × Exact) (rnd : Exact → Nat × BitVec 5) : Nat → Nat → Nat × BitVec 5
  | 0, p => rnd (enc p).1
  | fuel + 1, p =>
    let e := enc p
    let a := rnd e.1
    let b := rnd e.2
    if a = b then a else refine enc rnd fuel (2 * p)

/-- Lower sum of 1 / (k 2^k) in units of 2^−p: a lower bound of ln 2. -/
def ln2Go : Nat → Nat → Nat → Nat
  | 0, _, _ => 0
  | fuel + 1, p, k => 2 ^ p / (k * 2 ^ k) + ln2Go fuel p (k + 1)

/-- ln 2 lies between this and this + p + 4, in units of 2^−p. -/
def ln2Low (p : Nat) : Nat := ln2Go (p + 1) p 1

/-- The running Taylor sum: fuel, precision, argument, index, term, sum. -/
def expSum : Nat → Nat → Nat → Nat → Nat → Nat → Nat
  | 0, _, _, _, _, s => s
  | fuel + 1, p, y, k, t, s =>
    if t = 0 then s else expSum fuel p y (k + 1) (t * y / 2 ^ p / (k + 1)) (s + t)

/-- e^y for y in [y, y + slack] units of 2^−p, below 1: lower and upper bounds in units of 2^−p. -/
def expFrac (p y slack : Nat) : Nat × Nat :=
  let s := expSum (p + 2) p y 0 (2 ^ p) 0
  (s, s + 4 * slack + 8 * p + 64)

/-- Square an interval `n` times, in units of 2^−p. -/
def squareTimes : Nat → Nat → Nat × Nat → Nat × Nat
  | 0, _, i => i
  | n + 1, p, i => squareTimes n p (i.1 * i.1 / 2 ^ p, i.2 * i.2 / 2 ^ p + 1)

/-- e^t of a non-negative fraction below 2^9: the argument is halved nine times and the result squared back. -/
def expEnclose (p num den : Nat) : Nat × Nat :=
  let y := num * 2 ^ p / (den * 512)
  squareTimes 9 p (expFrac p y 2)

/-- 2^x enclosed: x = n + f with 0 ≤ f < 1, and 2^f = e^(f ln 2). -/
def exp2Enclose (x : Exact) (p : Nat) : Exact × Exact :=
  let n : Int := x.int / x.den
  let f : Nat := (x.int % x.den).toNat
  let y := f * ln2Low p / x.den
  let (lo, hi) := expFrac p y (p + 6)
  (scaled false lo (n - p), scaled false hi (n - p))

/-- Lower sum of z^(2k+1) / (2k+1), in units of 2^−p: fuel, precision, z², power, index, sum. -/
def atanhSum : Nat → Nat → Nat → Nat → Nat → Nat → Nat
  | 0, _, _, _, _, s => s
  | fuel + 1, p, zz, pw, k, s =>
    if pw = 0 then s else atanhSum fuel p zz (pw * zz / 2 ^ p) (k + 2) (s + pw / k)

/-- log₂ x enclosed, x positive: x = 2^k m with 1 ≤ m < 2, ln m = 2 atanh ((m − 1) / (m + 1)). -/
def log2Enclose (x : Exact) (p : Nat) : Exact × Exact :=
  let k := floorLog2 x.num x.den
  let (mn, md) : Nat × Nat := match k with
    | .ofNat j => (x.num, x.den * 2 ^ j)
    | .negSucc j => (x.num * 2 ^ (j + 1), x.den)
  let z := (mn - md) * 2 ^ p / (mn + md)
  let s := 2 * atanhSum (p + 2) p (z * z / 2 ^ p) z 1 0
  let hi := s + 8 * p + 64
  let l := ln2Low p
  let toE (num den : Nat) : Exact :=
    let i : Int := k * den + num
    ⟨decide (i < 0), i.natAbs, den⟩
  (toE s (l + p + 4), toE hi l)

/-- tanh |a| enclosed by (X − 1) / (X + 1), X = e^(2|a|). -/
def tanhEnclose (x : Exact) (p : Nat) : Exact × Exact :=
  let (lo, hi) := expEnclose p (2 * x.num) x.den
  (⟨x.neg, lo - 2 ^ p, lo + 2 ^ p⟩, ⟨x.neg, hi - 2 ^ p, hi + 2 ^ p⟩)

/-- 1 / (1 + e^(−a)) enclosed. -/
def sigmEnclose (x : Exact) (p : Nat) : Exact × Exact :=
  let (lo, hi) := expEnclose p x.num x.den
  if x.neg then (⟨false, 2 ^ p, hi + 2 ^ p⟩, ⟨false, 2 ^ p, lo + 2 ^ p⟩)
  else (⟨false, lo, lo + 2 ^ p⟩, ⟨false, hi, hi + 2 ^ p⟩)

/-- 1 / √x enclosed, x positive. -/
def rsqEnclose (x : Exact) (p : Nat) : Exact × Exact :=
  let r := isqrt (x.num * x.den * 2 ^ (2 * p))
  (⟨false, r, x.num * 2 ^ p⟩, ⟨false, r + 1, x.num * 2 ^ p⟩)

/-- √x enclosed, x positive. -/
def sqrtEnclose (x : Exact) (p : Nat) : Exact × Exact :=
  let r := isqrt (x.num * x.den * 2 ^ (2 * p))
  (⟨false, r, x.den * 2 ^ p⟩, ⟨false, r + 1, x.den * 2 ^ p⟩)

/-- The unary functions of R149. -/
inductive UnFun where
  | rcp | rsq | sqrt | exp2 | log2 | tanh | sigm
deriving DecidableEq, Repr

/-- A positive value beyond every rounding boundary near 0. -/
def tinyPos (neg : Bool) : Exact := ⟨neg, 1, 2 ^ 2000⟩

/-- A unary function of a finite non-zero value, rounded once. -/
def unFinite (fn : UnFun) (rnd : Exact → Nat × BitVec 5) (x : Exact) : Nat × BitVec 5 :=
  match fn with
  | .rcp => rnd ⟨x.neg, x.den, x.num⟩
  | .sqrt =>
    let r := isqrt (x.num * x.den)
    if r * r = x.num * x.den then rnd ⟨false, r, x.den⟩ else refine (sqrtEnclose x) rnd 6 128
  | .rsq =>
    let r := isqrt (x.num * x.den)
    if r * r = x.num * x.den then rnd ⟨false, r, x.num⟩ else refine (rsqEnclose x) rnd 6 128
  | .exp2 =>
    if 2000 * x.den ≤ x.num then rnd (if x.neg then tinyPos false else ⟨false, 2 ^ 2000, 1⟩)
    else if x.num % x.den = 0 then rnd (scaled false 1 (x.int / x.den))
    else refine (exp2Enclose x) rnd 6 128
  | .log2 =>
    let k := floorLog2 x.num x.den
    if (match k with
        | .ofNat j => decide (x.num = x.den * 2 ^ j)
        | .negSucc j => decide (x.num * 2 ^ (j + 1) = x.den)) then rnd (exactInt k)
    else refine (log2Enclose x) rnd 6 128
  | .tanh =>
    if 200 * x.den ≤ x.num then rnd ⟨x.neg, 2 ^ 2000 - 1, 2 ^ 2000⟩ else refine (tanhEnclose x) rnd 6 128
  | .sigm =>
    if 400 * x.den ≤ x.num then rnd (if x.neg then tinyPos false else ⟨false, 2 ^ 2000 - 1, 2 ^ 2000⟩)
    else refine (sigmEnclose x) rnd 6 128

/-- A unary function with the special results and flags of R150. -/
def unFun (fn : UnFun) (f : Fmt) (rm : Rm) (u : Nat) (v : FVal) : Nat × BitVec 5 :=
  let rnd := roundFin f true rm u
  let put (w : FVal) (fl : BitVec 5) : Nat × BitVec 5 := ((roundIeee f rm u w).1, fl)
  let one (neg : Bool) : FVal := .fin ⟨neg, 1, 1⟩
  match v with
  | .nan s => (f.nanOut, sigFlag (.nan s))
  | .inf neg =>
    match fn with
    | .rcp => put (.fin (exactZero neg)) fNone
    | .rsq => if neg then put (.nan false) fInvalid else put (.fin (exactZero false)) fNone
    | .sqrt => if neg then put (.nan false) fInvalid else put (.inf false) fNone
    | .exp2 => if neg then put (.fin (exactZero false)) fNone else put (.inf false) fNone
    | .log2 => if neg then put (.nan false) fInvalid else put (.inf false) fNone
    | .tanh => put (one neg) fNone
    | .sigm => if neg then put (.fin (exactZero false)) fNone else put (one false) fNone
  | .fin x =>
    if x.num = 0 then
      match fn with
      | .rcp => put (.inf x.neg) fDivZero
      | .rsq => put (.inf x.neg) fDivZero
      | .sqrt => put (.fin x) fNone
      | .exp2 => put (one false) fNone
      | .log2 => put (.inf true) fDivZero
      | .tanh => put (.fin x) fNone
      | .sigm => put (.fin ⟨false, 1, 2⟩) fNone
    else if x.neg && (fn == .rsq || fn == .sqrt || fn == .log2) then put (.nan false) fInvalid
    else unFinite fn rnd x

end Sys2Proof.Machine
end

