-- ==== Sys2Proof/Machine/Convert.lean ====
section
/-! DEFINITION. Convert: element widths and packing (R36), D8 (R48 to R50), every pair of conversions (R54), and the MX
block encodings with their scale selection (R43 to R47). -/

namespace Sys2Proof

/-- Width of one element (R35, R36, R43). -/
def Ty.width : Ty → Nat
  | .i32 | .n32 | .f32 => 32
  | .i16 | .n16 | .f16 | .bf16 => 16
  | .i8 | .n8 | .e4m3 | .e5m2 | .d8 | .mxi8 => 8
  | .i4 | .n4 | .e2m1 => 4
  | .e2m3 | .e3m2 => 6
  | .i64 | .n64 => 64
  | .b128 => 128

/-- Width of the slot an element takes in a register: 6-bit elements stand in 8-bit slots (R36). -/
def Ty.slot (t : Ty) : Nat := if t.width = 6 then 8 else t.width

/-- Integer type (R35). -/
def Ty.isInt : Ty → Bool
  | .i32 | .n32 | .i16 | .n16 | .i8 | .n8 | .i4 | .n4 | .i64 | .n64 => true
  | _ => false

/-- Signed integer type (R35). -/
def Ty.signed : Ty → Bool
  | .i32 | .i16 | .i8 | .i4 | .i64 => true
  | _ => false

/-- A 64-bit register pair type (R36). -/
def Ty.is64 : Ty → Bool
  | .i64 | .n64 => true
  | _ => false

/-- FL of R143. -/
def Ty.isFL : Ty → Bool
  | .f32 | .f16 | .bf16 => true
  | _ => false

/-- Elements of a unit: one register word, or a pair for a 64-bit type (R152). -/
def Ty.perUnit (t : Ty) : Nat := if t.is64 then 1 else 32 / t.slot

/-- Type minimum (R35). -/
def Ty.imin (t : Ty) : Int := if t.signed then -((2 ^ (t.width - 1) : Nat) : Int) else 0

/-- Type maximum (R35). -/
def Ty.imax (t : Ty) : Int := if t.signed then ((2 ^ (t.width - 1) : Nat) : Int) - 1 else ((2 ^ t.width : Nat) : Int) - 1

/-- The integer an element code holds (R35). -/
def Ty.intOf (t : Ty) (x : Nat) : Int := if t.signed then Machine.signedOf t.width x else ((x % 2 ^ t.width : Nat) : Int)

/-- The NaN a format writes, if it has one (R37, R43, R48). -/
def Ty.nanCode (t : Ty) : Nat :=
  match t with
  | .f32 => 0x7FC00000
  | .f16 => 0x7E00
  | .bf16 => 0x7FC0
  | .e4m3 | .e5m2 => 0x7F
  | .d8 => 0x80
  | _ => 0

/-- emax of R43. -/
def Ty.emax : Ty → Int
  | .e4m3 => 8
  | .e5m2 => 15
  | .e2m3 => 2
  | .e3m2 => 4
  | .e2m1 => 2
  | _ => 0

/-- MX element types (R43). -/
def Ty.isMx : Ty → Bool
  | .e4m3 | .e5m2 | .e2m3 | .e3m2 | .e2m1 | .mxi8 => true
  | _ => false

end Sys2Proof

namespace Sys2Proof.Machine

/-- `Sat` (R6). -/
def satInt (x lo hi : Int) : Int := if x < lo then lo else if hi < x then hi else x

/-! ### D8 (R48 to R50) -/

/-- Length of the run of equal bits counted down from bit k + 1. -/
def runLength (m : Nat) (b : Bool) : Nat → Nat
  | 0 => if (m % 2 == 1) == b then 1 else 0
  | k + 1 => if (m / 2 ^ (k + 1) % 2 == 1) == b then 1 + runLength m b k else 0

/-- The magnitude of a D8 code m in 0x01 to 0x7E (R48), and 0 for code 0. -/
def d8Mag (m : Nat) : Exact :=
  if m = 0 then exactZero false
  else
    let b := m / 64 % 2 == 1
    let r := min (runLength m b 6) 6
    let w := 6 - r
    let fr := m % 2 ^ w
    if b then ⟨false, 10 ^ (r - 1) * (2 ^ w + 9 * fr), 2 ^ w⟩ else ⟨false, 2 ^ w + 9 * fr, 10 ^ r * 2 ^ w⟩

/-- The value of a D8 code (R48). -/
def decodeD8 (x : Nat) : FVal :=
  let neg := x / 128 % 2 == 1
  let m := x % 128
  if m = 0 then (if neg then .nan false else .fin (exactZero false))
  else if m = 0x7F then .inf neg
  else .fin { d8Mag m with neg := neg }

/-- Number of codes 1 to n whose magnitude is at most x: magnitudes rise with their codes (R49). -/
def d8Below (x : Exact) : Nat → Nat
  | 0 => 0
  | n + 1 => if exactLt { x with neg := false } (d8Mag (n + 1)) then d8Below x n else n + 1

/-- A value into D8 (R50, R53, R55). -/
def encodeD8 (rm : Rm) (inf : Bool) (u : Nat) (v : FVal) : Nat × BitVec 5 :=
  let s (neg : Bool) : Nat := if neg then 128 else 0
  match v with
  | .nan _ => (0x80, fInvalid)
  | .inf neg => if inf then (s neg + 0x7F, fNone) else (s neg + 0x7E, fInvalid)
  | .fin x =>
    if x.num = 0 then (0, fNone)
    else if 100000 * x.den < x.num then
      let rm := if rm == .rsr then .rne else rm
      (s x.neg + (if inf && !(rm == .rtz || (rm == .rup && x.neg) || (rm == .rdn && !x.neg)) then 0x7F else 0x7E), fOverflow)
    else
      let t := d8Below x 126
      let lo := d8Mag t
      if x.num * lo.den = lo.num * x.den then (s x.neg + t, fNone)
      else
        let hi := d8Mag (t + 1)
        let up := roundsUp rm x.neg (t % 2 == 1) ((x.num * lo.den - lo.num * x.den) * hi.den)
          ((hi.num * lo.den - lo.num * hi.den) * x.den) u
        let m := if up then t + 1 else t
        (if m = 0 then 0 else s x.neg + m, fInexact)

/-! ### Conversions (R54) -/

/-- The value of a source element, MXINT8 included (R43, R54). -/
def decodeElem (t : Ty) (x : Nat) : FVal :=
  match t.fmt? with
  | some f => decodeF f (x % 2 ^ t.width)
  | none =>
    match t with
    | .d8 => decodeD8 (x % 256)
    | .mxi8 => let i := signedOf 8 x; .fin ⟨decide (i < 0), i.natAbs, 64⟩
    | _ => .fin (exactInt (t.intOf x))

/-- A value into an MX float element, saturating (R53, R54). -/
def encodeNarrow (t : Ty) (f : Fmt) (rm : Rm) (inf : Bool) (u : Nat) (v : FVal) : Nat × BitVec 5 :=
  match v with
  | .nan _ => (if t == .e4m3 || t == .e5m2 then f.nanOut else 0, fInvalid)
  | .inf neg =>
    let s := if neg then 2 ^ f.sbit else 0
    if inf && t == .e5m2 then (s + 0x7C, fNone) else (s + f.maxCode, fInvalid)
  | .fin x => roundFin f (inf && t == .e5m2) rm u x

/-- A value into an integer type (R54). -/
def encodeInt (t : Ty) (rm : Rm) (u : Nat) (v : FVal) : Nat × BitVec 5 :=
  match v with
  | .nan _ => (0, fInvalid)
  | .inf neg => (lowBits t.width (if neg then t.imin else t.imax), fInvalid)
  | .fin x =>
    let (i, inexact) := roundInt rm u x
    if i < t.imin || t.imax < i then (lowBits t.width (satInt i t.imin t.imax), fInvalid)
    else (lowBits t.width i, if inexact then fInexact else fNone)

/-- A value into an MXINT8 code, saturating to ±127 (R46; NaN and infinity by the form of R54's row for formats without
either, log 8). -/
def encodeMxi8 (rm : Rm) (u : Nat) (v : FVal) : Nat × BitVec 5 :=
  match v with
  | .nan _ => (0, fInvalid)
  | .inf neg => (lowBits 8 (if neg then -127 else 127), fInvalid)
  | .fin x =>
    let (i, inexact) := roundInt rm u ⟨x.neg, 64 * x.num, x.den⟩
    if i < -127 || 127 < i then (lowBits 8 (satInt i (-127) 127), fOverflow)
    else (lowBits 8 i, if inexact then fInexact else fNone)

/-- A value into a destination element (R54). -/
def encodeElem (t : Ty) (rm : Rm) (inf : Bool) (u : Nat) (v : FVal) : Nat × BitVec 5 :=
  match t.fmt? with
  | some f => if t.isFL then roundIeee f rm u v else encodeNarrow t f rm inf u v
  | none =>
    match t with
    | .d8 => encodeD8 rm inf u v
    | .mxi8 => encodeMxi8 rm u v
    | _ => encodeInt t rm u v

/-- One element converted from type `ts` to type `td` (R54). -/
def convertElem (td ts : Ty) (rm : Rm) (sat inf : Bool) (u x : Nat) : Nat × BitVec 5 :=
  if td.isInt && ts.isInt then
    let i := ts.intOf x
    (lowBits td.width (if sat then satInt i td.imin td.imax else i), fNone)
  else
    let v := decodeElem ts x
    let sig := sigFlag v
    if td == ts then
      match v with
      | .nan _ => (td.nanCode, if td.isFL then sig else fInvalid)
      | _ => (x % 2 ^ td.width, fNone)
    else
      let (c, fl) := encodeElem td rm inf u v
      (c, fl ||| sig)

/-! ### MX blocks (R44, R46, R47) -/

/-- Whether a value is a NaN or an infinity. -/
def FVal.special : FVal → Bool
  | .fin _ => false
  | _ => true

/-- The larger magnitude of two. -/
def maxMag (a b : Exact) : Exact := if exactLt { a with neg := false } { b with neg := false } then b else a

/-- The base scale exponent X₀ of a block (R46); `none` where a value is a NaN or an infinity. -/
def mxBase (e : Ty) (vs : List FVal) : Option Int :=
  if vs.any FVal.special then none
  else
    let m := vs.foldl (fun m v => match v with | .fin x => maxMag m x | _ => m) (exactZero false)
    if m.num = 0 then some (-127) else some (satInt (floorLog2 m.num m.den - e.emax) (-127) 127)

/-- v / 2^X. -/
def scaleDown (x : Exact) (k : Int) : Exact :=
  match k with
  | .ofNat n => ⟨x.neg, x.num, x.den * 2 ^ n⟩
  | .negSucc n => ⟨x.neg, x.num * 2 ^ (n + 1), x.den⟩

/-- v × 2^X. -/
def scaleUp (x : Exact) (k : Int) : Exact := scaleDown x (-k)

/-- Scale a value of any kind. -/
def fvScale (v : FVal) (k : Int) : FVal :=
  match v with
  | .fin x => .fin (scaleUp x k)
  | _ => v

/-- Element i of a block at scale exponent X (R46). -/
def mxElem (e : Ty) (rm : Rm) (u : Nat) (k : Int) (v : FVal) : Nat × BitVec 5 :=
  encodeElem e rm false u (fvScale v (-k))

/-- S(X) of R47: elements that would saturate. -/
def mxSat (e : Ty) (rm : Rm) (k : Int) (vs : List FVal) : Nat :=
  vs.countP (fun v => (mxElem e rm 0 k v).2 == fOverflow)

/-- Z(X) of R47: non-zero elements that encode to a zero magnitude. -/
def mxZero (e : Ty) (rm : Rm) (k : Int) (vs : List FVal) : Nat :=
  vs.countP (fun v => match v with
    | .fin x => decide (x.num ≠ 0) && decide ((mxElem e rm 0 k v).1 % 2 ^ (e.width - 1) = 0)
    | _ => false)

/-- The exponent R47 chooses; the counts are made with `.rne` under `.rsr`. -/
def mxAuto (e : Ty) (rm : Rm) (x0 : Int) (vs : List FVal) : Int :=
  let rm := if rm == .rsr then .rne else rm
  if mxSat e rm x0 vs = 0 || x0 == 127 then x0
  else if mxZero e rm (x0 + 1) vs = mxZero e rm x0 vs then x0 + 1 else x0

/-- The flags of a block's special values (R46). -/
def mxSpecialFlag (vs : List FVal) : BitVec 5 := if vs.any FVal.special then fInvalid else fNone

/-- The value of an MX element under scale code c (R44). -/
def mxDecode (e : Ty) (c x : Nat) : FVal :=
  if c = 0xFF then .nan false else fvScale (decodeElem e x) ((c : Int) - 127)

end Sys2Proof.Machine
end

