-- ==== Sys2Proof/Machine/Legal.lean ====
section
/-! DEFINITION. Legal: who issues each instruction (R70, R80 to R88), how it uses its register fields, and the reasons of
the illegal-instruction trap for an instruction whose typed fields are all representable (R74, R99, R143, R144, R177,
R204; log 10). -/

namespace Sys2Proof.Machine

/-- How an instruction uses a register field. -/
inductive Role where
  /-- Not used: must be zero. -/
  | none
  /-- A predicate or c-bit index 0 to 7. -/
  | idx
  /-- A pigeonhole code that designates the queue (R187). -/
  | qname
  /-- One register word in a crew, one scalar register in the pilot; pigeonholes pop or push. -/
  | word
  /-- As `word`, but a pigeonhole is an illegal operand (R170, R205). -/
  | wordNoQ
  /-- A general register and nothing else (R107, R113). -/
  | plain
  /-- A 64-bit pair (R142). -/
  | pair
  /-- Four registers, the first a multiple of 4 (R172). -/
  | quad
  /-- n consecutive registers, the first a multiple of n (R221). -/
  | multi (n : Nat)
deriving DecidableEq, Repr

/-- The roles of the four register fields. -/
structure Use where
  dst : Role
  a : Role
  b : Role
  c : Role
deriving DecidableEq, Repr

/-- No register field used. -/
def useNone : Use := ⟨.none, .none, .none, .none⟩

/-- A register operand of a type in a crew: a pair for a 64-bit type. -/
def roleT (t : Ty) : Role := if t.is64 then .pair else .word

/-- A source that may not name a pigeonhole. -/
def roleTNoQ (t : Ty) : Role := if t.is64 then .pair else .wordNoQ

/-- A 64-bit operand: a pair in a crew, a scalar register in the pilot. -/
def role64 (k : CtxKind) : Role := if k == .crew then .pair else .word

/-- A 64-bit scalar operand of an engine command (R205). -/
def scalar64 (k : CtxKind) : Role := if k == .crew then .pair else .wordNoQ

/-- The address operand of R170. -/
def roleAddr (k : CtxKind) (quay : Bool) : Role := if k == .crew && !quay then .pair else .wordNoQ

/-- A data operand of format M (R170, R172). -/
def roleData (k : CtxKind) (t : Ty) : Role :=
  if k == .pilot then .word else if t == .b128 then .quad else roleT t

/-- Registers of one crane operand of a type (R221). -/
def craneRegs (t : Ty) : Nat :=
  match t.slot with
  | 4 => 4
  | 8 => 8
  | _ => 16

/-- The type a code names (R73). -/
def tyOfCode : Nat → Option Ty
  | 0x00 => some .i32 | 0x01 => some .n32 | 0x02 => some .i16 | 0x03 => some .n16 | 0x04 => some .i8 | 0x05 => some .n8
  | 0x06 => some .i4 | 0x07 => some .n4 | 0x08 => some .i64 | 0x09 => some .n64 | 0x0A => some .f32 | 0x0B => some .f16
  | 0x0C => some .bf16 | 0x0D => some .e4m3 | 0x0E => some .e5m2 | 0x0F => some .e2m3 | 0x10 => some .e3m2
  | 0x11 => some .e2m1 | 0x12 => some .d8 | 0x13 => some .mxi8 | 0x14 => some .b128
  | _ => none

/-- The `TB` field of a crane command (R219). -/
def cmmaTb (x : FormE) : Option Ty := tyOfCode (bits x.cs 8 4)

/-- Width of a system register in bits, if the number is assigned (R128, R357, R368, R395). -/
def sysWidth (n : Nat) : Option Nat :=
  match n with
  | 0x001 | 0x002 | 0x003 | 0x004 | 0x005 | 0x006 | 0x007 | 0x008 | 0x010 | 0x030 | 0x040 | 0x043 | 0x045 | 0x046 | 0x047
  | 0x048 | 0x049 | 0x04A | 0x04B | 0x060 | 0x070 | 0x071 => some 32
  | 0x011 | 0x020 | 0x041 | 0x042 | 0x044 => some 64
  | _ => none

/-- The role of a system register's value in a context. -/
def roleSys (k : CtxKind) (x : FormX) : Role :=
  if k == .crew && sysWidth (bits x.imm 11 0) == some 64 then .pair else .word

/-- How an instruction uses its register fields, by the kind of context that issues it. A result of `accld`, `fork`, `join` and `discard` may go to a
pigeonhole: R205 forbids one as an operand, and a destination is read as none (DEDUCED, log 67). The
destination of `sample` is a pair, so that a pigeonhole there is an illegal operand as of a 64-bit type: R165 says only 'even register' (DESIGN CHOICE,
log 65). -/
def useOf (k : CtxKind) (i : Instr) : Use :=
  match i with
  | .add x | .sub x | .mul x | .mulhi x | .min x | .max x | .and x | .or x | .xor x | .shl x | .shr x
  | .div x | .rem x => ⟨roleT x.ty, roleT x.ty, roleT x.ty, .none⟩
  | .mad x | .fma x => ⟨roleT x.ty, roleT x.ty, roleT x.ty, roleT x.ty⟩
  | .abs x | .neg x | .not x | .mov x => ⟨roleT x.ty, roleT x.ty, .none, .none⟩
  | .popc _ | .clz _ | .brev _ | .rcp _ | .rsq _ | .sqrt _ | .exp2 _ | .log2 _ | .tanh _ | .sigm _ | .fclass _
  | .rint _ => ⟨.word, .word, .none, .none⟩
  | .bfe _ | .avg _ | .csgn _ | .fscl _ | .mxunpack _ => ⟨.word, .word, .word, .none⟩
  | .bfi _ | .dot4 _ => ⟨.word, .word, .word, .word⟩
  | .cmp x => ⟨.idx, roleT x.ty, roleT x.ty, .none⟩
  | .sel x => ⟨roleT x.ty, roleT x.ty, roleT x.ty, .idx⟩
  | .lea x => ⟨roleT x.ty, roleT x.ty, .word, .none⟩
  | .cvt x => ⟨roleT x.ty, roleT x.t2, .none, .none⟩
  | .mxscale x => ⟨.word, .word, if x.sub == 2 then .word else .none, .none⟩
  | .mxpack x => ⟨.word, .word, if x.sub == 0 then .word else .none, .none⟩
  | .rand x => ⟨roleT x.ty, .none, .none, .none⟩
  | .plog _ => ⟨.idx, .idx, .idx, .none⟩
  | .pget _ => ⟨.word, .idx, .none, .none⟩
  | .pset _ => ⟨.idx, .word, .none, .none⟩
  | .addVi x | .subVi x | .mulVi x | .minVi x | .maxVi x | .andVi x | .orVi x | .xorVi x | .shlVi x | .shrVi x
  | .leaVi x => ⟨roleT x.ty, roleT x.ty, .none, .none⟩
  | .bfeVi _ => ⟨.word, .word, .none, .none⟩
  | .cmpVi x => ⟨.idx, roleT x.ty, .none, .none⟩
  | .movVi x => ⟨roleT x.ty, .none, .none, .none⟩
  | .shfl x => ⟨roleT x.ty, roleT x.ty, roleT x.ty, .none⟩
  | .bclane x | .scan x | .red x | .cmpct x => ⟨roleT x.ty, roleT x.ty, .none, .none⟩
  | .vote _ => ⟨.idx, .idx, .none, .none⟩
  | .ballot _ => ⟨.word, .idx, .none, .none⟩
  | .match _ => ⟨.word, .word, .none, .none⟩
  | .sample _ => ⟨.pair, .word, .none, .word⟩
  | .perm x => ⟨roleT x.ty, roleT x.ty, roleT x.ty, roleT x.ty⟩
  | .ld x => ⟨roleData k x.ty, roleAddr k x.quay, .none, .none⟩
  | .st x => ⟨.none, roleAddr k x.quay, roleData k x.ty, .none⟩
  | .ldx x => ⟨roleData k x.ty, roleAddr k x.quay, .wordNoQ, .none⟩
  | .stx x => ⟨.none, roleAddr k x.quay, roleData k x.ty, .wordNoQ⟩
  | .atom x => ⟨roleData k x.ty, roleAddr k x.quay, roleData k x.ty, .none⟩
  | .cas x => ⟨roleData k x.ty, roleAddr k x.quay, roleData k x.ty, roleData k x.ty⟩
  | .fence _ => useNone
  | .hacc x => ⟨.word, roleAddr k x.quay, .word, .word⟩
  | .lcopy _ | .lfill _ => ⟨.none, scalar64 k, scalar64 k, .none⟩
  | .lgather _ | .lscatter _ => ⟨.none, scalar64 k, scalar64 k, .wordNoQ⟩
  | .cmma x =>
    if x.sub == 1 then
      ⟨.none, .multi (craneRegs x.ty), .multi (craneRegs ((cmmaTb x).getD .i32)), if x.ty.isMx then .wordNoQ else .none⟩
    else ⟨.none, scalar64 k, scalar64 k, if x.ty.isMx then scalar64 k else .none⟩
  | .czero _ => useNone
  | .cdrain x => ⟨.none, scalar64 k, if bitAt x.sub 1 then scalar64 k else .none, scalar64 k⟩
  | .accld _ => ⟨.word, .none, .none, .none⟩
  | .bycoup _ => ⟨.none, .wordNoQ, .none, .none⟩
  | .bybias _ | .byclamp _ | .bycount _ | .bystate _ | .bybmap _ => ⟨.none, .wordNoQ, scalar64 k, .none⟩
  | .byfree _ => ⟨.none, .none, scalar64 k, .none⟩
  | .bysweep _ => ⟨.none, scalar64 k, .wordNoQ, .none⟩
  | .bymode _ => ⟨.none, scalar64 k, .none, .none⟩
  | .look x => ⟨.none, .wordNoQ, .wordNoQ, if x.sub == 1 then .wordNoQ else .none⟩
  | .tarm x => ⟨.none, if x.sub == 1 then .none else .wordNoQ, .none, .none⟩
  | .steer x => ⟨.none, .wordNoQ, if x.sub == 1 then .none else .wordNoQ, .none⟩
  | .region _ => ⟨.none, .wordNoQ, .wordNoQ, .none⟩
  | .fork _ | .join _ | .discard _ => ⟨.word, .wordNoQ, .none, .none⟩
  | .sadd x | .ssub x | .smul x | .smulh x | .sdiv x | .srem x | .smin x | .smax x | .sand x | .sor x | .sxor x
  | .sshl x | .sshr x | .sbfe x | .sext x => ⟨.word, .word, if x.useImm then .none else .word, .none⟩
  | .scmp x => ⟨.idx, .word, if x.useImm then .none else .word, .none⟩
  | .ssel x => ⟨.word, .word, if x.useImm then .none else .word, .idx⟩
  | .sbfi x => ⟨.word, .word, if x.useImm then .none else .word, .word⟩
  | .smov _ | .spopc _ | .sclz _ | .sctz _ => ⟨.word, .word, .none, .none⟩
  | .sli _ => ⟨.word, .none, .none, .none⟩
  | .cop _ => ⟨.idx, .idx, .idx, .none⟩
  | .brx _ | .sbrx _ | .sret _ | .loop _ => ⟨.none, .plain, .none, .none⟩
  | .scall _ => ⟨.plain, .none, .none, .none⟩
  | .qbind _ => ⟨.qname, .word, .none, .none⟩
  | .qunbind _ => ⟨.qname, .none, .none, .none⟩
  | .qtrypop _ | .qcount _ | .qmask _ | .qpeek _ => ⟨.word, .qname, .none, .none⟩
  | .qtrypush _ | .bcast _ => ⟨.qname, .word, .none, .none⟩
  | .bget x => ⟨if x.ty == .n64 then .pair else .word, .qname, .none, .none⟩
  | .await x =>
    if k == .crew then ⟨roleT x.ty, roleAddr k (bitAt x.sub 0), roleTNoQ x.ty, .none⟩
    else ⟨.word, .wordNoQ, .wordNoQ, .none⟩
  | .own _ => ⟨.none, .word, .none, .none⟩
  | .twait _ | .tfirst _ => ⟨.word, role64 k, .none, .none⟩
  | .sysrd x => ⟨roleSys k x, if bits x.imm 11 0 = 0x030 then .word else .none, .none, .none⟩
  | .syswr x => ⟨.none, roleSys k x, .none, .none⟩
  | .spawn _ => ⟨.word, role64 k, .none, .none⟩
  | .depdec _ => ⟨role64 k, role64 k, .none, .none⟩
  | _ => useNone

/-- Whether crews and the pilot issue an instruction (R70, R80 to R88); neither issues a step of the part. -/
def issuedBy (k : CtxKind) (i : Instr) : Bool :=
  match i with
  | .add _ | .sub _ | .mul _ | .mulhi _ | .mad _ | .fma _ | .min _ | .max _ | .abs _ | .neg _ | .and _ | .or _ | .xor _
  | .not _ | .shl _ | .shr _ | .popc _ | .clz _ | .brev _ | .bfe _ | .bfi _ | .cmp _ | .sel _ | .lea _ | .div _ | .rem _
  | .rcp _ | .rsq _ | .sqrt _ | .exp2 _ | .log2 _ | .tanh _ | .sigm _ | .cvt _ | .mxscale _ | .mxpack _ | .mxunpack _
  | .mov _ | .rand _ | .plog _ | .pget _ | .pset _ | .avg _ | .dot4 _ | .fclass _ | .csgn _ | .rint _ | .fscl _
  | .addVi _ | .subVi _ | .mulVi _ | .minVi _ | .maxVi _ | .andVi _ | .orVi _ | .xorVi _ | .shlVi _ | .shrVi _ | .bfeVi _
  | .cmpVi _ | .leaVi _ | .movVi _ | .shfl _ | .bclane _ | .scan _ | .red _ | .vote _ | .ballot _ | .match _ | .sample _
  | .perm _ | .cmpct _ | .ldx _ | .stx _ | .hacc _ | .accld _ | .look _ | .bra _ | .bru _ | .brx _ | .call _ | .ret _
  | .qmask _ | .bget _ => k == .crew
  | .sadd _ | .ssub _ | .smul _ | .smulh _ | .sdiv _ | .srem _ | .smin _ | .smax _ | .sand _ | .sor _ | .sxor _ | .sshl _
  | .sshr _ | .scmp _ | .ssel _ | .smov _ | .sli _ | .spopc _ | .sclz _ | .sbfe _ | .sbfi _ | .cop _ | .sctz _ | .sext _
  | .region _ | .fork _ | .join _ | .discard _ | .sbr _ | .sbrx _ | .scall _ | .sret _ | .loop _ | .bcast _ => k == .pilot
  | .ld _ | .st _ | .atom _ | .cas _ | .fence _ | .lcopy _ | .lgather _ | .lscatter _ | .lfill _ | .cmma _ | .czero _
  | .cdrain _ | .bycoup _ | .bybias _ | .byclamp _ | .byfree _ | .bysweep _ | .bycount _ | .bystate _ | .bymode _
  | .bybmap _ | .tarm _ | .steer _ | .exit _ | .yield _ | .bsync _ | .qbind _ | .qunbind _ | .qtrypop _ | .qtrypush _
  | .qcount _ | .qpeek _ | .await _ | .own _ | .twait _ | .tfirst _ | .nop _ | .trap _ | .sysrd _ | .syswr _ | .rft _
  | .halt _ | .ckpt _ | .spawn _ | .depdec _ => true
  | _ => false

/-- Marked L in the opcode map: may set a flag (R76). -/
def isLong (i : Instr) : Bool :=
  match i with
  | .div _ | .rem _ | .rcp _ | .rsq _ | .sqrt _ | .exp2 _ | .log2 _ | .tanh _ | .sigm _ | .mxscale _ | .mxpack _
  | .mxunpack _ | .rand _ | .shfl _ | .bclane _ | .scan _ | .red _ | .vote _ | .ballot _ | .match _ | .sample _ | .perm _
  | .cmpct _ | .ld _ | .ldx _ | .atom _ | .cas _ | .hacc _ | .accld _ | .sdiv _ | .srem _ | .qtrypop _ => true
  | _ => false

/-- The fields every format shares, and the four register codes. -/
structure Fields where
  pre : Pre
  dst : BitVec 8
  sa : BitVec 8
  sb : BitVec 8
  sc : BitVec 8
deriving DecidableEq, Repr

/-- Fields of a VV form. -/
def fieldsVV (x : FormVV) : Fields := ⟨x.pre, x.dst, x.sa, x.sb, x.sc⟩
/-- Fields of a VI form. -/
def fieldsVI (x : FormVI) : Fields := ⟨x.pre, x.dst, x.sa, 0, 0⟩
/-- Fields of a VX form. -/
def fieldsVX (x : FormVX) : Fields := ⟨x.pre, x.dst, x.sa, x.sb, x.sc⟩
/-- Fields of an M form. -/
def fieldsM (x : FormM) : Fields := ⟨x.pre, x.dst, x.sa, x.sb, x.sc⟩
/-- Fields of an E form. -/
def fieldsE (x : FormE) : Fields := ⟨x.pre, x.dst, x.sa, x.sb, x.sc⟩
/-- Fields of a P form. -/
def fieldsP (x : FormP) : Fields := ⟨x.pre, x.dst, x.sa, x.sb, x.sc⟩
/-- Fields of a B form. -/
def fieldsB (x : FormB) : Fields := ⟨x.pre, x.dst, x.sa, 0, 0⟩
/-- Fields of a Q form. -/
def fieldsQ (x : FormQ) : Fields := ⟨x.pre, x.dst, x.sa, x.sb, 0⟩
/-- Fields of an X form. -/
def fieldsX (x : FormX) : Fields := ⟨x.pre, x.dst, x.sa, 0, 0⟩

/-- The shared fields of an instruction; `none` for a step of the part. -/
def fieldsOf (i : Instr) : Option Fields :=
  match i with
  | .add x | .sub x | .mul x | .mulhi x | .mad x | .fma x | .min x | .max x | .abs x | .neg x | .and x | .or x | .xor x
  | .not x | .shl x | .shr x | .popc x | .clz x | .brev x | .bfe x | .bfi x | .cmp x | .sel x | .lea x | .div x | .rem x
  | .rcp x | .rsq x | .sqrt x | .exp2 x | .log2 x | .tanh x | .sigm x | .cvt x | .mxscale x | .mxpack x | .mxunpack x
  | .mov x | .rand x | .plog x | .pget x | .pset x | .avg x | .dot4 x | .fclass x | .csgn x | .rint x | .fscl x =>
    some (fieldsVV x)
  | .addVi x | .subVi x | .mulVi x | .minVi x | .maxVi x | .andVi x | .orVi x | .xorVi x | .shlVi x | .shrVi x | .bfeVi x
  | .cmpVi x | .leaVi x | .movVi x => some (fieldsVI x)
  | .shfl x | .bclane x | .scan x | .red x | .vote x | .ballot x | .match x | .sample x | .perm x | .cmpct x =>
    some (fieldsVX x)
  | .ld x | .st x | .ldx x | .stx x | .atom x | .cas x | .fence x | .hacc x => some (fieldsM x)
  | .lcopy x | .lgather x | .lscatter x | .lfill x | .cmma x | .czero x | .cdrain x | .accld x | .bycoup x | .bybias x
  | .byclamp x | .byfree x | .bysweep x | .bycount x | .bystate x | .bymode x | .bybmap x | .look x | .tarm x | .steer x
  | .region x | .fork x | .join x | .discard x => some (fieldsE x)
  | .sadd x | .ssub x | .smul x | .smulh x | .sdiv x | .srem x | .smin x | .smax x | .sand x | .sor x | .sxor x | .sshl x
  | .sshr x | .scmp x | .ssel x | .smov x | .sli x | .spopc x | .sclz x | .sbfe x | .sbfi x | .cop x | .sctz x
  | .sext x => some (fieldsP x)
  | .bra x | .bru x | .brx x | .call x | .ret x | .exit x | .yield x | .bsync x | .sbr x | .sbrx x | .scall x | .sret x
  | .loop x => some (fieldsB x)
  | .qbind x | .qunbind x | .qtrypop x | .qtrypush x | .qcount x | .qmask x | .qpeek x | .await x | .own x | .twait x
  | .tfirst x | .bcast x | .bget x => some (fieldsQ x)
  | .nop x | .trap x | .sysrd x | .syswr x | .rft x | .halt x | .ckpt x | .spawn x | .depdec x => some (fieldsX x)
  | _ => none

/-! ### Type classes of R143 -/

/-- IA of R143. -/
def clsIA (t : Ty) : Bool := t.isInt && !(t == .i4 || t == .n4)
/-- IS of R143. -/
def clsIS (t : Ty) : Bool := clsIA t && t.signed
/-- IN of R143. -/
def clsIN (t : Ty) : Bool := clsIA t && !t.is64
/-- W of R143. -/
def clsW (t : Ty) : Bool := t == .i32 || t == .n32
/-- WP of R143. -/
def clsWP (t : Ty) : Bool := clsW t || t == .f32 || t.is64
/-- W and the 64-bit integers. -/
def clsW64 (t : Ty) : Bool := clsW t || t.is64
/-- Types of `scan` and `red` (R161). -/
def clsScan (t : Ty) : Bool := clsWP t
/-- Types of `ld` and `st` (R172). -/
def clsLd (k : CtxKind) (t : Ty) : Bool :=
  match t with
  | .i4 | .n4 | .e2m1 | .e2m3 | .e3m2 | .mxi8 => false
  | .b128 => k == .crew
  | _ => true
/-- Types of atomics (R177). -/
def clsAtom (t : Ty) : Bool := clsW64 t || t == .f32

/-- Groups of an MX conversion (R154): packed blocks of a register over value blocks. -/
def mxGroups (e v : Ty) : Nat := v.slot / e.slot

/-- Groups of a `cvt` (R152). -/
def cvtGroups (d s : Ty) : Nat := max d.perUnit s.perUnit / min d.perUnit s.perUnit

/-! ### Reason 0x4: reserved modifier values -/

/-- What a VV instruction accepts: types, sub-operations, whether it rounds, whether it saturates, whether it reads T2, CC and SEL. -/
structure VVSpec where
  ty : Bool
  subs : Nat
  rounds : Bool
  sat : Bool
  t2 : Bool
  cc : Bool
  sel : Bool
deriving DecidableEq, Repr

/-- A VV instruction with a type test and nothing else. -/
def vvPlain (ty : Bool) : VVSpec := ⟨ty, 1, false, false, false, false, false⟩

/-- What each VV instruction accepts (R144 to R159). -/
def vvSpec (i : Instr) : Option (FormVV × VVSpec) :=
  match i with
  | .add x | .sub x | .mul x => some (x, { vvPlain (clsIA x.ty || x.ty.isFL) with rounds := x.ty.isFL, sat := x.ty.isInt })
  | .mulhi x => some (x, vvPlain (clsIA x.ty))
  | .mad x => some (x, { vvPlain (clsIA x.ty) with sat := true })
  | .fma x | .rcp x | .rsq x | .sqrt x | .exp2 x | .log2 x | .tanh x | .sigm x | .rint x | .fscl x =>
    some (x, { vvPlain x.ty.isFL with rounds := true })
  | .min x | .max x => some (x, vvPlain (clsIA x.ty || x.ty.isFL))
  | .abs x | .neg x => some (x, { vvPlain (clsIS x.ty || x.ty.isFL) with sat := x.ty.isInt })
  | .and x | .or x | .xor x | .not x => some (x, vvPlain (clsW64 x.ty))
  | .shl x => some (x, { vvPlain (clsIA x.ty) with sat := true })
  | .shr x => some (x, vvPlain (clsIA x.ty))
  | .popc x | .clz x | .brev x | .bfe x | .bfi x => some (x, vvPlain (clsW x.ty))
  | .cmp x => some (x, { vvPlain (clsW64 x.ty || x.ty.isFL) with cc := true })
  | .sel x | .mov x => some (x, vvPlain (clsWP x.ty))
  | .lea x => some (x, { vvPlain (clsW64 x.ty) with subs := 4 })
  | .div x | .rem x => some (x, vvPlain (clsW64 x.ty))
  | .cvt x =>
    some (x, { ty := !(x.ty == .mxi8 || x.ty == .b128 || x.t2 == .mxi8 || x.t2 == .b128), subs := 1, rounds := true,
               sat := x.ty.isInt && x.t2.isInt, t2 := true, cc := false, sel := true })
  | .mxscale x =>
    some (x, { vvPlain (if x.sub == 2 then x.ty == .i32 else x.ty == .f32) with subs := 3, sel := true })
  | .mxpack x =>
    some (x, { ty := x.ty.isMx && x.t2.isFL, subs := 3, rounds := !(x.sub == 1), sat := false, t2 := true, cc := false, sel := true })
  | .mxunpack x =>
    some (x, { ty := x.t2.isMx && x.ty.isFL, subs := 1, rounds := true, sat := false, t2 := true, cc := false, sel := true })
  | .rand x =>
    some (x, { vvPlain (if x.sub == 1 then x.ty == .f32 else x.ty == .n32 || x.ty == .n64) with subs := 2 })
  | .plog x => some (x, { vvPlain (x.ty == .i32) with cc := true })
  | .pget x | .pset x => some (x, vvPlain (x.ty == .i32))
  | .avg x => some (x, { vvPlain (clsIN x.ty) with subs := 2 })
  | .dot4 x => some (x, { vvPlain (x.ty == .i8 || x.ty == .n8) with subs := 2, sat := true })
  | .fclass x => some (x, vvPlain x.ty.isFL)
  | .csgn x => some (x, { vvPlain x.ty.isFL with subs := 3 })
  | _ => none

/-- Values of CC and SEL that a VV instruction reserves (R148, R152, R154, R158). -/
def vvValueBad (i : Instr) : Bool :=
  match i with
  | .cmp x => decide ((if x.ty.isFL then 7 else 5) < x.cc.toNat)
  | .plog x => decide (5 < x.cc.toNat)
  | .cvt x => decide (cvtGroups x.ty x.t2 ≤ bits x.sel 2 0)
  | .mxpack x => decide (mxGroups x.ty x.t2 ≤ bits x.sel 4 2)
  | .mxunpack x => decide (mxGroups x.t2 x.ty ≤ bits x.sel 4 2)
  | _ => false

/-- Non-zero bits of a used SEL field that stay unused (R152, R154, R157). -/
def vvSelSpare (i : Instr) : Bool :=
  match i with
  | .cvt x => decide (bits x.sel 7 3 ≠ 0)
  | .mxpack x | .mxunpack x => decide (bits x.sel 7 5 ≠ 0)
  | .mxscale x => decide (bits x.sel 7 2 ≠ 0)
  | _ => false

/-- Reason 0x4 in format VV. -/
def vvBad4 (i : Instr) : Bool :=
  match vvSpec i with
  | some (x, p) =>
    !p.ty || decide (p.subs ≤ x.sub.toNat) || (!(x.rm == .rne) && !p.rounds) || (x.sat && !p.sat)
      || (x.inf && !((match i with | .cvt _ => true | _ => false) && (x.ty == .e5m2 || x.ty == .d8))) || vvValueBad i
  | none => false

/-- Reason 0x5 in format VV, the register fields apart. -/
def vvBad5 (i : Instr) : Bool :=
  match vvSpec i with
  | some (x, p) => (!(x.t2 == .i32) && !p.t2) || (!(x.cc == 0) && !p.cc) || (!(x.sel == 0) && !p.sel) || vvSelSpare i
  | none => false

/-- What a VI instruction accepts: types and saturation, with its condition code (R145, R146, R148). -/
def viSpec (i : Instr) : Option (FormVI × Bool × Bool × Bool) :=
  match i with
  | .addVi x | .subVi x | .mulVi x => some (x, clsIA x.ty || x.ty.isFL, x.ty.isInt, false)
  | .minVi x | .maxVi x => some (x, clsIA x.ty || x.ty.isFL, false, false)
  | .andVi x | .orVi x | .xorVi x => some (x, clsW64 x.ty, false, false)
  | .shlVi x => some (x, clsIA x.ty, true, false)
  | .shrVi x => some (x, clsIA x.ty, false, false)
  | .bfeVi x => some (x, clsW x.ty, false, false)
  | .cmpVi x => some (x, clsW64 x.ty || x.ty.isFL, false, true)
  | .leaVi x => some (x, clsW64 x.ty, false, false)
  | .movVi x => some (x, clsWP x.ty, false, false)
  | _ => none

/-- Reason 0x4 in format VI; a saturation that a form does not accept is a reserved value (R146). -/
def viBad4 (i : Instr) : Bool :=
  match viSpec i with
  | some (x, ty, sat, cc) => !ty || (x.sat && !sat) || (cc && decide ((if x.ty.isFL then 7 else 5) < x.cc.toNat))
  | none => false

/-- Reason 0x5 in format VI, the register fields apart. -/
def viBad5 (i : Instr) : Bool :=
  match viSpec i with
  | some (x, _, _, cc) => !cc && !(x.cc == 0)
  | none => false

/-- What a VX instruction accepts: types, sub-operations, rounding, saturation, a used SEL (R161). -/
def vxSpec (i : Instr) : Option (FormVX × Bool × Nat × Bool × Bool × Bool) :=
  match i with
  | .shfl x => some (x, clsWP x.ty, 4, false, false, false)
  | .bclane x => some (x, clsWP x.ty, 2, false, false, x.sub == 0)
  | .scan x => some (x, clsScan x.ty, 2, x.ty == .f32 && bits x.sel 2 0 == 0, x.ty.isInt && bits x.sel 2 0 == 0, true)
  | .red x => some (x, clsScan x.ty, 1, x.ty == .f32 && bits x.sel 2 0 == 0, x.ty.isInt && bits x.sel 2 0 == 0, true)
  | .vote x => some (x, x.ty == .i32, 3, false, false, false)
  | .ballot x => some (x, x.ty == .i32, 4, false, false, false)
  | .match x => some (x, clsW x.ty || x.ty == .f32, 3, false, false, false)
  | .sample x => some (x, x.ty == .f32, 1, false, false, false)
  | .perm x | .cmpct x => some (x, clsWP x.ty, 1, false, false, false)
  | _ => none

/-- Reserved operator, lane and word values in format VX (R162 to R164). -/
def vxValueBad (i : Instr) : Bool :=
  match i with
  | .bclane x => x.sub == 0 && decide (2 ^ x.seg.toNat ≤ x.sel.toNat)
  | .scan x | .red x => decide ((if x.ty == .f32 then 2 else 5) < bits x.sel 2 0)
  | .ballot x => decide ((if x.seg.toNat ≤ 5 then 0 else if x.seg.toNat = 6 then 1 else 3) < x.sub.toNat)
  | _ => false

/-- Reason 0x4 in format VX. -/
def vxBad4 (i : Instr) : Bool :=
  match vxSpec i with
  | some (x, ty, subs, rounds, sat, _) =>
    !ty || decide (subs ≤ x.sub.toNat) || decide (7 < x.seg.toNat) || (!(x.rm == .rne) && !rounds) || (x.sat && !sat)
      || x.inf || vxValueBad i
  | none => false

/-- Reason 0x5 in format VX, the register fields apart. -/
def vxBad5 (i : Instr) : Bool :=
  match vxSpec i with
  | some (x, _, _, _, _, sel) =>
    !(x.t2 == .i32) || (!(x.sel == 0) && !sel)
      || (match i with | .scan _ | .red _ => decide (bits x.sel 7 3 ≠ 0) | _ => false)
  | none => false

/-- AOP field (R71). -/
def aopOf (x : FormM) : Nat := bits x.imm 30 27
/-- Scope field (R71). -/
def scopeOf (x : FormM) : Nat := bits x.imm 26 24

/-- Reason 0x4 in format M (R169, R172, R177, R182). -/
def mBad4 (k : CtxKind) (i : Instr) : Bool :=
  match i with
  | .ld x | .st x | .ldx x | .stx x => !clsLd k x.ty
  | .atom x =>
    decide (4 < scopeOf x) || !clsAtom x.ty || decide (6 < aopOf x)
      || (x.ty == .f32 && decide (3 ≤ aopOf x) && decide (aopOf x ≤ 5))
  | .cas x => decide (4 < scopeOf x) || !clsAtom x.ty || decide (aopOf x ≠ 0)
  | .fence x => decide (4 < scopeOf x) || !(x.ty == .i32)
  | .hacc x =>
    decide (4 < scopeOf x) || !(clsW x.ty || x.ty == .f32) || decide (6 < aopOf x)
      || (x.ty == .f32 && decide (3 ≤ aopOf x) && decide (aopOf x ≤ 5))
  | _ => false

/-- Reason 0x5 in format M, the register fields apart. -/
def mBad5 (i : Instr) : Bool :=
  match i with
  | .atom x | .cas x | .hacc x => bitAt x.imm 31
  | .fence x => bitAt x.imm 31 || x.quay || decide (bits x.imm 23 0 ≠ 0) || decide (aopOf x ≠ 0)
  | _ => false

/-- Destination types of a drain (R223). -/
def clsDrain (t : Ty) : Bool := t.isFL || t.isMx

/-- Type pairs of `cmma` (R219). -/
def cmmaPair (a : Ty) (b : Option Ty) : Bool :=
  match b with
  | some b => (a.isMx && b.isMx) || (a == .f16 && b == .f16) || (a == .bf16 && b == .bf16)
  | none => false

/-- What an E instruction accepts: types, sub-operations, whether CS holds no reserved value, whether its unused bits are 0, TV, CQV
(R204 to R243). -/
def eSpec (k : CtxKind) (i : Instr) : Option (FormE × Bool × Nat × Bool × Bool × Bool × Bool) :=
  match i with
  | .lcopy x | .lgather x | .lscatter x | .lfill x => some (x, x.ty == .i32, 1, true, x.cs == 0, true, true)
  | .cmma x =>
    some (x, cmmaPair x.ty (cmmaTb x), if k == .crew then 2 else 1,
      decide (bits x.cs 19 9 ≠ 0) && (x.sub == 0 || decide (bits x.cs 19 9 = 1)), decide (bits x.cs 3 2 = 0), false, true)
  | .czero x => some (x, x.ty == .i32, 1, true, decide (bits x.cs 19 2 = 0), false, true)
  | .cdrain x =>
    some (x, clsDrain x.ty, 4, decide (bits x.cs 6 4 ≤ 5) && (!bitAt x.cs 7 || x.ty.isMx) && (!bitAt x.cs 8 || x.ty == .e5m2),
      decide (bits x.cs 3 3 = 0) && decide (bits x.cs 19 9 = 0), true, true)
  | .accld x => some (x, x.ty == .f32, 1, true, decide (bits x.cs 19 9 = 0), false, false)
  | .bycoup x | .bybias x | .byclamp x | .byfree x | .bysweep x | .bymode x | .bybmap x =>
    some (x, x.ty == .i32, 1, true, x.cs == 0, false, true)
  | .bycount x => some (x, x.ty == .i32, 2, true, x.cs == 0, true, true)
  | .bystate x => some (x, x.ty == .i32, 1, true, x.cs == 0, true, true)
  | .look x => some (x, x.ty == .f32, 2, true, x.cs == 0, false, false)
  | .tarm x => some (x, x.ty == .i32, 2, true, decide (bits x.cs 19 4 = 0), false, false)
  | .steer x => some (x, x.ty == .i32, 2, true, x.cs == 0, false, false)
  | .region x => some (x, x.ty == .i32, 1, true, decide (bits x.cs 19 8 = 0), false, false)
  | .fork x | .join x | .discard x => some (x, x.ty == .i32, 1, true, x.cs == 0, false, false)
  | _ => none

/-- Reason 0x4 in format E. -/
def eBad4 (k : CtxKind) (i : Instr) : Bool :=
  match eSpec k i with
  | some (x, ty, subs, cs, _, _, _) => !ty || decide (subs ≤ x.sub.toNat) || !cs
  | none => false

/-- Reason 0x5 in format E, the register fields apart (R204). -/
def eBad5 (k : CtxKind) (i : Instr) : Bool :=
  match eSpec k i with
  | some (x, _, _, _, spare, tv, cqv) =>
    !spare || (x.tv && !tv) || (x.cqv && !cqv) || (!x.tv && !(x.tag == 0)) || (!x.cqv && !(x.cq == 0))
  | none => false

/-- What a P instruction accepts: U, the immediate form, CC, and whether IMM is read without it (R97). -/
def pSpec (i : Instr) : Option (FormP × Bool × Bool × Bool × Bool) :=
  match i with
  | .sadd x | .ssub x | .smul x | .sand x | .sor x | .sxor x | .sshl x | .ssel x | .sbfi x => some (x, false, true, false, false)
  | .smulh x | .sdiv x | .srem x | .smin x | .smax x | .sshr x | .sbfe x | .sext x => some (x, true, true, false, false)
  | .scmp x => some (x, true, true, true, false)
  | .smov x | .spopc x | .sclz x | .sctz x => some (x, false, false, false, false)
  | .sli x => some (x, true, false, false, true)
  | .cop x => some (x, false, false, true, false)
  | _ => none

/-- Reason 0x4 in format P (R99). -/
def pBad4 (i : Instr) : Bool :=
  match pSpec i with
  | some (x, _, _, cc, _) => cc && decide (5 < x.cc.toNat)
  | none => false

/-- Reason 0x5 in format P, the register fields apart (R99). -/
def pBad5 (i : Instr) : Bool :=
  match pSpec i with
  | some (x, u, im, cc, readsImm) =>
    (x.u && !u) || (x.useImm && !im) || (!cc && !(x.cc == 0)) || (!x.useImm && !readsImm && !(x.imm == 0))
  | none => false

/-- Guard fields that must be zero (R107, R113, R124). -/
def guardBad (p : Pre) : Bool := !(p.grd == 0) || p.gneg

/-- Reason 0x5 in format B, the register fields apart (R107, R113). -/
def bBad5 (i : Instr) : Bool :=
  match i with
  | .brx x | .ret x | .exit x | .sbrx x | .sret x => !(x.imm == 0)
  | .yield x => !(x.imm == 0) || guardBad x.pre
  | .bsync x => decide (bits x.imm 31 4 ≠ 0) || guardBad x.pre
  | _ => false

/-- Reason 0x7: the relative target names slot 5 to 7 (R66, R74). -/
def badSlot (i : Instr) : Bool :=
  match i with
  | .bra x | .bru x | .call x | .sbr x | .scall x | .loop x => decide (4 < bits x.imm 2 0)
  | _ => false

/-- What a Q instruction accepts: types, sub-operations, values of IMM that are reserved, bits of IMM it does not use (R120, R187). -/
def qSpec (i : Instr) : Option (FormQ × Bool × Nat × Bool × Bool) :=
  match i with
  | .qbind x => some (x, x.ty == .i32, 2, false, !(x.imm == 0))
  | .qunbind x | .qpeek x | .tfirst x => some (x, x.ty == .i32, 1, false, !(x.imm == 0))
  | .qtrypop x | .qtrypush x | .qmask x => some (x, x.ty == .i32, 1, false, decide (bits x.imm 31 3 ≠ 0))
  | .qcount x | .twait x => some (x, x.ty == .i32, 2, false, !(x.imm == 0))
  | .await x =>
    some (x, clsAtom x.ty, 2, decide (5 < bits x.imm 3 0) || decide (4 < bits x.imm 6 4), decide (bits x.imm 31 7 ≠ 0))
  | .own x =>
    some (x, x.ty == .i32, 2, decide (bits x.imm 8 0 = 0) || decide (256 < bits x.imm 8 0), decide (bits x.imm 31 9 ≠ 0))
  | .bcast x =>
    some (x, x.ty == .i32, 2, decide (bits x.imm 6 0 = 0) || decide (64 < bits x.imm 6 0), decide (bits x.imm 31 7 ≠ 0))
  | .bget x => some (x, x.ty == .n32 || x.ty == .n64, 1, false, !(x.imm == 0))
  | _ => none

/-- Reason 0x4 in format Q. -/
def qBad4 (i : Instr) : Bool :=
  match qSpec i with
  | some (x, ty, subs, bad, _) => !ty || decide (subs ≤ x.sub.toNat) || bad
  | none => false

/-- Reason 0x5 in format Q, the register fields apart. -/
def qBad5 (i : Instr) : Bool :=
  match qSpec i with
  | some (_, _, _, _, spare) => spare
  | none => false

/-- Reason 0x5 in format X, the register fields apart (R124). -/
def xBad5 (i : Instr) : Bool :=
  match i with
  | .nop x | .spawn x | .depdec x => !(x.imm == 0)
  | .trap x => decide (bits x.imm 31 16 ≠ 0)
  | .sysrd x | .syswr x => decide (bits x.imm 31 12 ≠ 0)
  | .rft x | .halt x | .ckpt x => !(x.imm == 0) || guardBad x.pre
  | _ => false

/-- A register field that is not used, or an index field above 7, holds a non-zero value (R13, R99, R148, R158). -/
def fieldBad (r : Role) (code : BitVec 8) : Bool :=
  match r with
  | .none => !(code == 0)
  | .idx => decide (7 < code.toNat)
  | _ => false

/-- Reason 0x5 for the four register fields. -/
def regBad5 (u : Use) (f : Fields) : Bool :=
  fieldBad u.dst f.dst || fieldBad u.a f.sa || fieldBad u.b f.sb || fieldBad u.c f.sc

/-- A source field that an instruction uses. -/
def Role.used (r : Role) : Bool := !(r == .none)

/-- A source field names a register operand. -/
def Role.isReg : Role → Bool
  | .none | .idx | .qname => false
  | _ => true

/-- The role of the source that `HSEL` selects. -/
def holdRole (u : Use) (h : BitVec 2) : Role :=
  if h == 1 then u.a else if h == 2 then u.b else if h == 3 then u.c else .none

/-- Formats whose hold fields must be zero (R107, R124, R204). -/
def noHold (i : Instr) : Bool :=
  match fieldsOf i with
  | none => true
  | some _ =>
    match i with
    | .lcopy _ | .lgather _ | .lscatter _ | .lfill _ | .cmma _ | .czero _ | .cdrain _ | .accld _ | .bycoup _ | .bybias _
    | .byclamp _ | .byfree _ | .bysweep _ | .bycount _ | .bystate _ | .bymode _ | .bybmap _ | .look _ | .tarm _ | .steer _
    | .region _ | .fork _ | .join _ | .discard _ | .bra _ | .bru _ | .brx _ | .call _ | .ret _ | .exit _ | .yield _
    | .bsync _ | .sbr _ | .sbrx _ | .scall _ | .sret _ | .loop _ | .nop _ | .trap _ | .sysrd _ | .syswr _ | .rft _
    | .halt _ | .ckpt _ | .spawn _ | .depdec _ => true
    | _ => false

/-- Reason 0x6: flag, hold and last-read fields (R74). A used source that holds a pigeonhole code or a predicate index is an illegal
operand instead (`markBad`; R16, R77, R78; for the predicate index log 65). -/
def bad6 (k : CtxKind) (i : Instr) (u : Use) (p : Pre) : Bool :=
  (p.sfl == 3) || (!(p.sfl == 0) && !isLong i) || (p.hent == 3)
    || (!(p.hsel == 0) && (k == .pilot || noHold i || !(holdRole u p.hsel).used))
    || (p.hsel == 0 && !(p.hent == 0))
    || (!(p.lr == 0) && (k == .pilot || (bitAt p.lr 0 && !u.a.used) || (bitAt p.lr 1 && !u.b.used) || (bitAt p.lr 2 && !u.c.used)))

/-- Reason 0x4 of an instruction. -/
def bad4 (k : CtxKind) (i : Instr) : Bool :=
  vvBad4 i || viBad4 i || vxBad4 i || mBad4 k i || eBad4 k i || pBad4 i || qBad4 i

/-- Reason 0x5 of an instruction. -/
def bad5 (k : CtxKind) (i : Instr) : Bool :=
  vvBad5 i || viBad5 i || vxBad5 i || mBad5 i || eBad5 k i || pBad5 i || bBad5 i || qBad5 i || xBad5 i
    || (match fieldsOf i with | some f => regBad5 (useOf k i) f | none => false)

/-- The lowest reason of R74 that applies to an instruction whose word is representable, from 0x3 on; `none`: legal. -/
def illegalReason (k : CtxKind) (i : Instr) : Option Nat :=
  if !issuedBy k i then some 3
  else if bad4 k i then some 4
  else if bad5 k i then some 5
  else if (match fieldsOf i with | some f => bad6 k i (useOf k i) f.pre | none => false) then some 6
  else if badSlot i then some 7
  else none

end Sys2Proof.Machine
end

