-- ==== Sys2Proof/Decode.lean ====
section
/-! DEFINITION. Decode: from the 96 bits of a slot to an instruction or a reason of R74, and back (R68 to R74, R80 to
R88); the fetch line and its line word (R59, R60, R63). -/

namespace Sys2Proof

open Machine

/-! ### Codes of typed fields -/

/-- The code of a type (R73). -/
def tyCode : Ty → Nat
  | .i32 => 0x00 | .n32 => 0x01 | .i16 => 0x02 | .n16 => 0x03 | .i8 => 0x04 | .n8 => 0x05 | .i4 => 0x06 | .n4 => 0x07
  | .i64 => 0x08 | .n64 => 0x09 | .f32 => 0x0A | .f16 => 0x0B | .bf16 => 0x0C | .e4m3 => 0x0D | .e5m2 => 0x0E
  | .e2m3 => 0x0F | .e3m2 => 0x10 | .e2m1 => 0x11 | .d8 => 0x12 | .mxi8 => 0x13 | .b128 => 0x14

/-- The code of a rounding mode (R72). -/
def rmCode : Rm → Nat
  | .rne => 0 | .rtz => 1 | .rup => 2 | .rdn => 3 | .rna => 4 | .rsr => 5

/-- The rounding mode a code names (R72). -/
def rmOfCode : Nat → Option Rm
  | 0 => some .rne | 1 => some .rtz | 2 => some .rup | 3 => some .rdn | 4 => some .rna | 5 => some .rsr
  | _ => none

/-- n bits of an instruction word from bit `lo` on. -/
def field (w : BitVec 96) (lo n : Nat) : BitVec n := BitVec.ofNat n (w.toNat / 2 ^ lo)

/-- One bit of an instruction word. -/
def flag (w : BitVec 96) (k : Nat) : Bool := w.toNat / 2 ^ k % 2 == 1

/-- The bit of a flag. -/
def bitOf (b : Bool) : Nat := if b then 1 else 0

/-! ### What every format shares (R68) -/

/-- The shared fields of a word. -/
def parsePre (w : BitVec 96) : Pre :=
  { grd := field w 12 3, gneg := flag w 15, sfl := field w 16 2, hsel := field w 18 2, hent := field w 20 2, lr := field w 22 3 }

/-- The low 25 bits of a word: opcode, format and the shared fields. -/
def packPre (fmt opc : Nat) (p : Pre) : Nat :=
  opc + 2 ^ 8 * fmt + 2 ^ 12 * p.grd.toNat + 2 ^ 15 * bitOf p.gneg + 2 ^ 16 * p.sfl.toNat + 2 ^ 18 * p.hsel.toNat
    + 2 ^ 20 * p.hent.toNat + 2 ^ 22 * p.lr.toNat

/-- The four register fields of a word. -/
def packRegs (d a b c : BitVec 8) : Nat :=
  2 ^ 25 * d.toNat + 2 ^ 33 * a.toNat + 2 ^ 41 * b.toNat + 2 ^ 49 * c.toNat

/-- A parsed form: the form, whether every typed field holds a code that is not reserved, and whether every bit the
format does not use is zero. -/
structure Parsed (α : Type) where
  form : α
  typed : Bool
  spare : Bool

/-! ### The nine formats (R71, R72) -/

/-- Format VV. -/
def parseVV (w : BitVec 96) : Parsed FormVV :=
  let t := tyOfCode (bits w 63 59)
  let r := rmOfCode (bits w 66 64)
  let t2 := tyOfCode (bits w 73 69)
  { form := { pre := parsePre w, dst := field w 25 8, sa := field w 33 8, sb := field w 41 8, sc := field w 49 8,
              ty := t.getD .i32, sub := field w 57 2, rm := r.getD .rne, sat := flag w 67, inf := flag w 68,
              t2 := t2.getD .i32, cc := field w 74 4, sel := field w 80 8 },
    typed := t.isSome && r.isSome && t2.isSome,
    spare := bits w 79 78 == 0 && bits w 95 88 == 0 }

/-- Format VV. -/
def packVV (opc : Nat) (x : FormVV) : BitVec 96 :=
  BitVec.ofNat 96 (packPre 0 opc x.pre + packRegs x.dst x.sa x.sb x.sc + 2 ^ 57 * x.sub.toNat + 2 ^ 59 * tyCode x.ty
    + 2 ^ 64 * rmCode x.rm + 2 ^ 67 * bitOf x.sat + 2 ^ 68 * bitOf x.inf + 2 ^ 69 * tyCode x.t2 + 2 ^ 74 * x.cc.toNat
    + 2 ^ 80 * x.sel.toNat)

/-- Format VI. -/
def parseVI (w : BitVec 96) : Parsed FormVI :=
  let t := tyOfCode (bits w 63 59)
  { form := { pre := parsePre w, dst := field w 25 8, sa := field w 33 8, cc := field w 41 4, ty := t.getD .i32,
              sat := flag w 58, imm := field w 64 32 },
    typed := t.isSome,
    spare := bits w 57 45 == 0 }

/-- Format VI. -/
def packVI (opc : Nat) (x : FormVI) : BitVec 96 :=
  BitVec.ofNat 96 (packPre 1 opc x.pre + 2 ^ 25 * x.dst.toNat + 2 ^ 33 * x.sa.toNat + 2 ^ 41 * x.cc.toNat
    + 2 ^ 58 * bitOf x.sat + 2 ^ 59 * tyCode x.ty + 2 ^ 64 * x.imm.toNat)

/-- Format VX. -/
def parseVX (w : BitVec 96) : Parsed FormVX :=
  let t := tyOfCode (bits w 63 59)
  let r := rmOfCode (bits w 66 64)
  let t2 := tyOfCode (bits w 73 69)
  { form := { pre := parsePre w, dst := field w 25 8, sa := field w 33 8, sb := field w 41 8, sc := field w 49 8,
              ty := t.getD .i32, sub := field w 57 2, rm := r.getD .rne, sat := flag w 67, inf := flag w 68,
              t2 := t2.getD .i32, seg := field w 74 4, sel := field w 80 8 },
    typed := t.isSome && r.isSome && t2.isSome,
    spare := bits w 79 78 == 0 && bits w 95 88 == 0 }

/-- Format VX. -/
def packVX (opc : Nat) (x : FormVX) : BitVec 96 :=
  BitVec.ofNat 96 (packPre 2 opc x.pre + packRegs x.dst x.sa x.sb x.sc + 2 ^ 57 * x.sub.toNat + 2 ^ 59 * tyCode x.ty
    + 2 ^ 64 * rmCode x.rm + 2 ^ 67 * bitOf x.sat + 2 ^ 68 * bitOf x.inf + 2 ^ 69 * tyCode x.t2 + 2 ^ 74 * x.seg.toNat
    + 2 ^ 80 * x.sel.toNat)

/-- Format M. -/
def parseM (w : BitVec 96) : Parsed FormM :=
  let t := tyOfCode (bits w 63 59)
  { form := { pre := parsePre w, dst := field w 25 8, sa := field w 33 8, sb := field w 41 8, sc := field w 49 8,
              ty := t.getD .i32, quay := flag w 58, imm := field w 64 32 },
    typed := t.isSome,
    spare := !flag w 57 }

/-- Format M. -/
def packM (opc : Nat) (x : FormM) : BitVec 96 :=
  BitVec.ofNat 96 (packPre 3 opc x.pre + packRegs x.dst x.sa x.sb x.sc + 2 ^ 58 * bitOf x.quay + 2 ^ 59 * tyCode x.ty
    + 2 ^ 64 * x.imm.toNat)

/-- Format E. -/
def parseE (w : BitVec 96) : Parsed FormE :=
  let t := tyOfCode (bits w 63 59)
  { form := { pre := parsePre w, dst := field w 25 8, sa := field w 33 8, sb := field w 41 8, sc := field w 49 8,
              ty := t.getD .i32, sub := field w 57 2, tag := field w 64 6, tv := flag w 70, cq := field w 71 4,
              cqv := flag w 75, cs := field w 76 20 },
    typed := t.isSome,
    spare := true }

/-- Format E. -/
def packE (opc : Nat) (x : FormE) : BitVec 96 :=
  BitVec.ofNat 96 (packPre 4 opc x.pre + packRegs x.dst x.sa x.sb x.sc + 2 ^ 57 * x.sub.toNat + 2 ^ 59 * tyCode x.ty
    + 2 ^ 64 * x.tag.toNat + 2 ^ 70 * bitOf x.tv + 2 ^ 71 * x.cq.toNat + 2 ^ 75 * bitOf x.cqv + 2 ^ 76 * x.cs.toNat)

/-- Format P. -/
def parseP (w : BitVec 96) : Parsed FormP :=
  { form := { pre := parsePre w, dst := field w 25 8, sa := field w 33 8, sb := field w 41 8, sc := field w 49 8,
              useImm := flag w 57, u := flag w 58, cc := field w 59 4, imm := field w 64 32 },
    typed := true,
    spare := !flag w 63 }

/-- Format P. -/
def packP (opc : Nat) (x : FormP) : BitVec 96 :=
  BitVec.ofNat 96 (packPre 5 opc x.pre + packRegs x.dst x.sa x.sb x.sc + 2 ^ 57 * bitOf x.useImm + 2 ^ 58 * bitOf x.u
    + 2 ^ 59 * x.cc.toNat + 2 ^ 64 * x.imm.toNat)

/-- Format B. -/
def parseB (w : BitVec 96) : Parsed FormB :=
  { form := { pre := parsePre w, dst := field w 25 8, sa := field w 33 8, imm := field w 64 32 },
    typed := true,
    spare := bits w 63 41 == 0 }

/-- Format B. -/
def packB (opc : Nat) (x : FormB) : BitVec 96 :=
  BitVec.ofNat 96 (packPre 6 opc x.pre + 2 ^ 25 * x.dst.toNat + 2 ^ 33 * x.sa.toNat + 2 ^ 64 * x.imm.toNat)

/-- Format Q. -/
def parseQ (w : BitVec 96) : Parsed FormQ :=
  let t := tyOfCode (bits w 63 59)
  { form := { pre := parsePre w, dst := field w 25 8, sa := field w 33 8, sb := field w 41 8, ty := t.getD .i32,
              sub := field w 57 2, imm := field w 64 32 },
    typed := t.isSome,
    spare := bits w 56 49 == 0 }

/-- Format Q. -/
def packQ (opc : Nat) (x : FormQ) : BitVec 96 :=
  BitVec.ofNat 96 (packPre 7 opc x.pre + packRegs x.dst x.sa x.sb 0 + 2 ^ 57 * x.sub.toNat + 2 ^ 59 * tyCode x.ty
    + 2 ^ 64 * x.imm.toNat)

/-- Format X. -/
def parseX (w : BitVec 96) : Parsed FormX :=
  { form := { pre := parsePre w, dst := field w 25 8, sa := field w 33 8, imm := field w 64 32 },
    typed := true,
    spare := bits w 63 41 == 0 }

/-- Format X. -/
def packX (opc : Nat) (x : FormX) : BitVec 96 :=
  BitVec.ofNat 96 (packPre 8 opc x.pre + 2 ^ 25 * x.dst.toNat + 2 ^ 33 * x.sa.toNat + 2 ^ 64 * x.imm.toNat)

/-! ### The opcode map -/

/-- The opcodes of format VV (R80). -/
def opVV : Nat → Option (FormVV → Instr)
  | 0x01 => some .add
  | 0x02 => some .sub
  | 0x03 => some .mul
  | 0x04 => some .mulhi
  | 0x05 => some .mad
  | 0x06 => some .fma
  | 0x07 => some .min
  | 0x08 => some .max
  | 0x09 => some .abs
  | 0x0A => some .neg
  | 0x0B => some .and
  | 0x0C => some .or
  | 0x0D => some .xor
  | 0x0E => some .not
  | 0x0F => some .shl
  | 0x10 => some .shr
  | 0x11 => some .popc
  | 0x12 => some .clz
  | 0x13 => some .brev
  | 0x14 => some .bfe
  | 0x15 => some .bfi
  | 0x16 => some .cmp
  | 0x17 => some .sel
  | 0x18 => some .lea
  | 0x19 => some .div
  | 0x1A => some .rem
  | 0x1B => some .rcp
  | 0x1C => some .rsq
  | 0x1D => some .sqrt
  | 0x1E => some .exp2
  | 0x1F => some .log2
  | 0x20 => some .tanh
  | 0x21 => some .sigm
  | 0x22 => some .cvt
  | 0x23 => some .mxscale
  | 0x24 => some .mxpack
  | 0x25 => some .mxunpack
  | 0x26 => some .mov
  | 0x27 => some .rand
  | 0x28 => some .plog
  | 0x29 => some .pget
  | 0x2A => some .pset
  | 0x2B => some .avg
  | 0x2C => some .dot4
  | 0x2D => some .fclass
  | 0x2E => some .csgn
  | 0x2F => some .rint
  | 0x30 => some .fscl
  | _ => none

/-- The opcodes of format VI (R81). -/
def opVI : Nat → Option (FormVI → Instr)
  | 0x01 => some .addVi
  | 0x02 => some .subVi
  | 0x03 => some .mulVi
  | 0x07 => some .minVi
  | 0x08 => some .maxVi
  | 0x0B => some .andVi
  | 0x0C => some .orVi
  | 0x0D => some .xorVi
  | 0x0F => some .shlVi
  | 0x10 => some .shrVi
  | 0x14 => some .bfeVi
  | 0x16 => some .cmpVi
  | 0x18 => some .leaVi
  | 0x26 => some .movVi
  | _ => none

/-- The opcodes of format VX (R82). -/
def opVX : Nat → Option (FormVX → Instr)
  | 0x00 => some .shfl
  | 0x01 => some .bclane
  | 0x02 => some .scan
  | 0x03 => some .red
  | 0x04 => some .vote
  | 0x05 => some .ballot
  | 0x06 => some .match
  | 0x07 => some .sample
  | 0x08 => some .perm
  | 0x09 => some .cmpct
  | _ => none

/-- The opcodes of format M (R83). -/
def opM : Nat → Option (FormM → Instr)
  | 0x00 => some .ld
  | 0x01 => some .st
  | 0x02 => some .ldx
  | 0x03 => some .stx
  | 0x04 => some .atom
  | 0x05 => some .cas
  | 0x06 => some .fence
  | 0x07 => some .hacc
  | _ => none

/-- The opcodes of format E (R84). -/
def opE : Nat → Option (FormE → Instr)
  | 0x00 => some .lcopy
  | 0x01 => some .lgather
  | 0x02 => some .lscatter
  | 0x03 => some .lfill
  | 0x10 => some .cmma
  | 0x11 => some .czero
  | 0x12 => some .cdrain
  | 0x13 => some .accld
  | 0x20 => some .bycoup
  | 0x21 => some .bybias
  | 0x22 => some .byclamp
  | 0x23 => some .byfree
  | 0x24 => some .bysweep
  | 0x25 => some .bycount
  | 0x26 => some .bystate
  | 0x27 => some .bymode
  | 0x28 => some .bybmap
  | 0x30 => some .look
  | 0x31 => some .tarm
  | 0x32 => some .steer
  | 0x40 => some .region
  | 0x41 => some .fork
  | 0x42 => some .join
  | 0x43 => some .discard
  | _ => none

/-- The opcodes of format P (R85). -/
def opP : Nat → Option (FormP → Instr)
  | 0x00 => some .sadd
  | 0x01 => some .ssub
  | 0x02 => some .smul
  | 0x03 => some .smulh
  | 0x04 => some .sdiv
  | 0x05 => some .srem
  | 0x06 => some .smin
  | 0x07 => some .smax
  | 0x08 => some .sand
  | 0x09 => some .sor
  | 0x0A => some .sxor
  | 0x0B => some .sshl
  | 0x0C => some .sshr
  | 0x0D => some .scmp
  | 0x0E => some .ssel
  | 0x0F => some .smov
  | 0x10 => some .sli
  | 0x11 => some .spopc
  | 0x12 => some .sclz
  | 0x13 => some .sbfe
  | 0x14 => some .sbfi
  | 0x15 => some .cop
  | 0x16 => some .sctz
  | 0x17 => some .sext
  | _ => none

/-- The opcodes of format B (R86). -/
def opB : Nat → Option (FormB → Instr)
  | 0x00 => some .bra
  | 0x01 => some .bru
  | 0x02 => some .brx
  | 0x03 => some .call
  | 0x04 => some .ret
  | 0x05 => some .exit
  | 0x06 => some .yield
  | 0x07 => some .bsync
  | 0x08 => some .sbr
  | 0x09 => some .sbrx
  | 0x0A => some .scall
  | 0x0B => some .sret
  | 0x0C => some .loop
  | _ => none

/-- The opcodes of format Q (R87). -/
def opQ : Nat → Option (FormQ → Instr)
  | 0x00 => some .qbind
  | 0x01 => some .qunbind
  | 0x02 => some .qtrypop
  | 0x03 => some .qtrypush
  | 0x04 => some .qcount
  | 0x05 => some .qmask
  | 0x06 => some .qpeek
  | 0x07 => some .await
  | 0x08 => some .own
  | 0x09 => some .twait
  | 0x0A => some .tfirst
  | 0x0B => some .bcast
  | 0x0C => some .bget
  | _ => none

/-- The opcodes of format X (R88). -/
def opX : Nat → Option (FormX → Instr)
  | 0x00 => some .nop
  | 0x01 => some .trap
  | 0x02 => some .sysrd
  | 0x03 => some .syswr
  | 0x04 => some .rft
  | 0x05 => some .halt
  | 0x06 => some .ckpt
  | 0x07 => some .spawn
  | 0x08 => some .depdec
  | _ => none

/-! ### Decoding and encoding -/

/-- The instruction of a parsed form, or the lowest reason of R74 that applies from 0x2 on. -/
def finish {α : Type} (k : CtxKind) (op : Option (α → Instr)) (p : Parsed α) : Except Nat Instr :=
  match op with
  | none => .error 2
  | some f =>
    let i := f p.form
    if !issuedBy k i then .error 3
    else if !p.typed || bad4 k i then .error 4
    else if !p.spare then .error 5
    else match illegalReason k i with
      | some r => .error r
      | none => .ok i

/-- The instruction in a slot as a context of kind k issues it, or the reason of the illegal-instruction trap (R74). -/
def decodeSlot (k : CtxKind) (w : BitVec 96) : Except Nat Instr :=
  let opc := bits w 7 0
  match bits w 11 8 with
  | 0 => finish k (opVV opc) (parseVV w)
  | 1 => finish k (opVI opc) (parseVI w)
  | 2 => finish k (opVX opc) (parseVX w)
  | 3 => finish k (opM opc) (parseM w)
  | 4 => finish k (opE opc) (parseE w)
  | 5 => finish k (opP opc) (parseP w)
  | 6 => finish k (opB opc) (parseB w)
  | 7 => finish k (opQ opc) (parseQ w)
  | 8 => finish k (opX opc) (parseX w)
  | _ => .error 1

/-- The 96 bits of an instruction; a step of the part has no encoding and gives 0, which no opcode decodes (R67). -/
def encode (i : Instr) : BitVec 96 :=
  match i with
  | .add x => packVV 0x01 x
  | .sub x => packVV 0x02 x
  | .mul x => packVV 0x03 x
  | .mulhi x => packVV 0x04 x
  | .mad x => packVV 0x05 x
  | .fma x => packVV 0x06 x
  | .min x => packVV 0x07 x
  | .max x => packVV 0x08 x
  | .abs x => packVV 0x09 x
  | .neg x => packVV 0x0A x
  | .and x => packVV 0x0B x
  | .or x => packVV 0x0C x
  | .xor x => packVV 0x0D x
  | .not x => packVV 0x0E x
  | .shl x => packVV 0x0F x
  | .shr x => packVV 0x10 x
  | .popc x => packVV 0x11 x
  | .clz x => packVV 0x12 x
  | .brev x => packVV 0x13 x
  | .bfe x => packVV 0x14 x
  | .bfi x => packVV 0x15 x
  | .cmp x => packVV 0x16 x
  | .sel x => packVV 0x17 x
  | .lea x => packVV 0x18 x
  | .div x => packVV 0x19 x
  | .rem x => packVV 0x1A x
  | .rcp x => packVV 0x1B x
  | .rsq x => packVV 0x1C x
  | .sqrt x => packVV 0x1D x
  | .exp2 x => packVV 0x1E x
  | .log2 x => packVV 0x1F x
  | .tanh x => packVV 0x20 x
  | .sigm x => packVV 0x21 x
  | .cvt x => packVV 0x22 x
  | .mxscale x => packVV 0x23 x
  | .mxpack x => packVV 0x24 x
  | .mxunpack x => packVV 0x25 x
  | .mov x => packVV 0x26 x
  | .rand x => packVV 0x27 x
  | .plog x => packVV 0x28 x
  | .pget x => packVV 0x29 x
  | .pset x => packVV 0x2A x
  | .avg x => packVV 0x2B x
  | .dot4 x => packVV 0x2C x
  | .fclass x => packVV 0x2D x
  | .csgn x => packVV 0x2E x
  | .rint x => packVV 0x2F x
  | .fscl x => packVV 0x30 x
  | .addVi x => packVI 0x01 x
  | .subVi x => packVI 0x02 x
  | .mulVi x => packVI 0x03 x
  | .minVi x => packVI 0x07 x
  | .maxVi x => packVI 0x08 x
  | .andVi x => packVI 0x0B x
  | .orVi x => packVI 0x0C x
  | .xorVi x => packVI 0x0D x
  | .shlVi x => packVI 0x0F x
  | .shrVi x => packVI 0x10 x
  | .bfeVi x => packVI 0x14 x
  | .cmpVi x => packVI 0x16 x
  | .leaVi x => packVI 0x18 x
  | .movVi x => packVI 0x26 x
  | .shfl x => packVX 0x00 x
  | .bclane x => packVX 0x01 x
  | .scan x => packVX 0x02 x
  | .red x => packVX 0x03 x
  | .vote x => packVX 0x04 x
  | .ballot x => packVX 0x05 x
  | .match x => packVX 0x06 x
  | .sample x => packVX 0x07 x
  | .perm x => packVX 0x08 x
  | .cmpct x => packVX 0x09 x
  | .ld x => packM 0x00 x
  | .st x => packM 0x01 x
  | .ldx x => packM 0x02 x
  | .stx x => packM 0x03 x
  | .atom x => packM 0x04 x
  | .cas x => packM 0x05 x
  | .fence x => packM 0x06 x
  | .hacc x => packM 0x07 x
  | .lcopy x => packE 0x00 x
  | .lgather x => packE 0x01 x
  | .lscatter x => packE 0x02 x
  | .lfill x => packE 0x03 x
  | .cmma x => packE 0x10 x
  | .czero x => packE 0x11 x
  | .cdrain x => packE 0x12 x
  | .accld x => packE 0x13 x
  | .bycoup x => packE 0x20 x
  | .bybias x => packE 0x21 x
  | .byclamp x => packE 0x22 x
  | .byfree x => packE 0x23 x
  | .bysweep x => packE 0x24 x
  | .bycount x => packE 0x25 x
  | .bystate x => packE 0x26 x
  | .bymode x => packE 0x27 x
  | .bybmap x => packE 0x28 x
  | .look x => packE 0x30 x
  | .tarm x => packE 0x31 x
  | .steer x => packE 0x32 x
  | .region x => packE 0x40 x
  | .fork x => packE 0x41 x
  | .join x => packE 0x42 x
  | .discard x => packE 0x43 x
  | .sadd x => packP 0x00 x
  | .ssub x => packP 0x01 x
  | .smul x => packP 0x02 x
  | .smulh x => packP 0x03 x
  | .sdiv x => packP 0x04 x
  | .srem x => packP 0x05 x
  | .smin x => packP 0x06 x
  | .smax x => packP 0x07 x
  | .sand x => packP 0x08 x
  | .sor x => packP 0x09 x
  | .sxor x => packP 0x0A x
  | .sshl x => packP 0x0B x
  | .sshr x => packP 0x0C x
  | .scmp x => packP 0x0D x
  | .ssel x => packP 0x0E x
  | .smov x => packP 0x0F x
  | .sli x => packP 0x10 x
  | .spopc x => packP 0x11 x
  | .sclz x => packP 0x12 x
  | .sbfe x => packP 0x13 x
  | .sbfi x => packP 0x14 x
  | .cop x => packP 0x15 x
  | .sctz x => packP 0x16 x
  | .sext x => packP 0x17 x
  | .bra x => packB 0x00 x
  | .bru x => packB 0x01 x
  | .brx x => packB 0x02 x
  | .call x => packB 0x03 x
  | .ret x => packB 0x04 x
  | .exit x => packB 0x05 x
  | .yield x => packB 0x06 x
  | .bsync x => packB 0x07 x
  | .sbr x => packB 0x08 x
  | .sbrx x => packB 0x09 x
  | .scall x => packB 0x0A x
  | .sret x => packB 0x0B x
  | .loop x => packB 0x0C x
  | .qbind x => packQ 0x00 x
  | .qunbind x => packQ 0x01 x
  | .qtrypop x => packQ 0x02 x
  | .qtrypush x => packQ 0x03 x
  | .qcount x => packQ 0x04 x
  | .qmask x => packQ 0x05 x
  | .qpeek x => packQ 0x06 x
  | .await x => packQ 0x07 x
  | .own x => packQ 0x08 x
  | .twait x => packQ 0x09 x
  | .tfirst x => packQ 0x0A x
  | .bcast x => packQ 0x0B x
  | .bget x => packQ 0x0C x
  | .nop x => packX 0x00 x
  | .trap x => packX 0x01 x
  | .sysrd x => packX 0x02 x
  | .syswr x => packX 0x03 x
  | .rft x => packX 0x04 x
  | .halt x => packX 0x05 x
  | .ckpt x => packX 0x06 x
  | .spawn x => packX 0x07 x
  | .depdec x => packX 0x08 x
  | _ => 0

/-! ### Fetch lines (R59 to R61) -/

/-- The line word of a fetch line. -/
def lineWord (l : BitVec 512) : BitVec 32 := BitVec.ofNat 32 l.toNat
/-- Slot s of a fetch line. -/
def lineSlot (l : BitVec 512) (s : Nat) : BitVec 96 := BitVec.ofNat 96 (l.toNat / 2 ^ (32 + 96 * s))
/-- `TPL` of a line. -/
def lineTpl (l : BitVec 512) : Nat := bits l 4 2
/-- The legal-target bit of slot s (R60). -/
def lineTgt (l : BitVec 512) (s : Nat) : Bool := l.toNat / 2 ^ (5 + s) % 2 == 1
/-- The wait mask of a line. -/
def lineWait (l : BitVec 512) : Nat := bits l 21 10
/-- Flag A of a line. -/
def lineFla (l : BitVec 512) : Nat := bits l 25 22
/-- Flag B of a line. -/
def lineFlb (l : BitVec 512) : Nat := bits l 29 26

/-- Both parity bits of a line hold (R60): P0 covers slots 0 and 1 and line-word bits [31:2], P1 slots 2 to 4. -/
def lineParity (l : BitVec 512) : Bool :=
  !(xor (bitAt l 0) (xor (oddOnes 30 (bits l 31 2)) (oddOnes 192 (bits l 223 32))))
    && !(xor (bitAt l 1) (oddOnes 288 (bits l 511 224)))

/-- The slots a pairing template pairs with their successors (R61). -/
def tplPairs : Nat → List Nat
  | 1 => [0] | 2 => [1] | 3 => [2] | 4 => [3] | 5 => [0, 2] | 6 => [0, 3] | 7 => [1, 3]
  | _ => []

/-- A slot of format VV or VI. -/
def pairable (w : BitVec 96) : Bool := decide (bits w 11 8 ≤ 1)

/-- The reason of the illegal-line trap (R63); of several that apply the lowest (log 65). -/
def lineReason (l : BitVec 512) : Option Nat :=
  if bits l 31 30 ≠ 0 then some 1
  else if (decide (12 ≤ lineFla l) && decide (lineFla l ≤ 14)) || (decide (12 ≤ lineFlb l) && decide (lineFlb l ≤ 14)) then some 2
  else if (tplPairs (lineTpl l)).any (fun s => !(pairable (lineSlot l s) && pairable (lineSlot l (s + 1)))) then some 3
  else if [0, 1, 2, 3, 4].any (fun s =>
      (bits (lineSlot l s) 17 16 == 1 && lineFla l == 15) || (bits (lineSlot l s) 17 16 == 2 && lineFlb l == 15)) then some 4
  else none

/-- The unguarded `nop` (R88). -/
def nopWord : BitVec 96 := 0x800

/-- A line from the upper 30 bits of its line word and five slots, its parity computed last (R60, R94). -/
def buildLine (hi30 : Nat) (s0 s1 s2 s3 s4 : BitVec 96) : BitVec 512 :=
  let a := s0.toNat + 2 ^ 96 * s1.toNat
  let b := s2.toNat + 2 ^ 96 * s3.toNat + 2 ^ 192 * s4.toNat
  let p0 := bitOf (xor (oddOnes 30 hi30) (oddOnes 192 a))
  let p1 := bitOf (oddOnes 288 b)
  BitVec.ofNat 512 (p0 + 2 * p1 + 4 * hi30 + 2 ^ 32 * a + 2 ^ 224 * b)

/-- The upper 30 bits of a line word with no pairs, every slot a legal target, no wait and no flags. -/
def plainLineHi : Nat := 2 ^ 3 * 31 + 2 ^ 20 * 15 + 2 ^ 24 * 15

/-- What the decoder reads from the word of a table row: a slot of 96 bits, as a crew issues it, or else as the pilot. -/
def decodeTableWord (_nbits w : Nat) : Option Instr :=
  match decodeSlot .crew (BitVec.ofNat 96 w) with
  | .ok i => some i
  | .error _ =>
    match decodeSlot .pilot (BitVec.ofNat 96 w) with
    | .ok i => some i
    | .error _ => none

end Sys2Proof
end

