-- ==== Sys2Proof/Config.lean ====
section
/-! DEFINITION. Config: what the part number fixes (R1 to R3), and the free values: constants without a body,
one for each value the manual leaves open, so that no proof can rest on a particular one. -/

namespace Sys2Proof

namespace Config

/-- Compute dies of the package (R1). -/
def dies : Nat := 32
/-- Enabled cores of a die (R2). -/
def coresPerDie : Nat := 20
/-- Physical cores of a die (R2). -/
def physCoresPerDie : Nat := 22
/-- Berths of a core (R3). -/
def berthsPerCore : Nat := 16
/-- Crew places of a core (R3). -/
def crewsPerCore : Nat := 64
/-- Register granules of a core (R3). -/
def granulesPerCore : Nat := 256
/-- Copy tags of a core (R3). -/
def tagsPerCore : Nat := 64
/-- Accumulator tiles of a core (R3). -/
def accsPerCore : Nat := 4
/-- Tap units of a core (R361). -/
def tapsPerCore : Nat := 8
/-- Roadstead entries of the package (R306). -/
def roadsteadEntries : Nat := 4096
/-- Outstanding memory requests of a core (R3, R176). -/
def requestsPerCore : Nat := 3072
/-- Lines of a core's instruction cache of 128 KiB (R3). -/
def icacheLines : Nat := 2048
/-- Entries that a die's walker holds: the manual says that it holds recent ones, and not how many (log 53). -/
def walkerEntries : Nat := 256
/-- Records of a core's countersign buffer (R330). -/
def countersignRecords : Nat := 4096

/-- FREE VALUE. The cycles a step takes beyond its first: timing is left open (log 3). -/
opaque stepTime : Nat → Nat
/-- FREE VALUE. `TDETAIL` of a trap whose detail word the manual does not state, by step (log 16). -/
opaque openDetail : Nat → DWord
/-- FREE VALUE. Physical noise of a node source: array, node, draw number (R341; log 4). -/
opaque noise : Nat → Nat → Nat → BitVec 16
/-- FREE VALUE. The SM3 hash that customs computes: the manual names the standard and gives no text of it (R417; log 5). -/
opaque sm3 : List Byte → BitVec 256
/-- FREE VALUE. The SM2 signature check of customs: public key, message, signature (R417; log 5). -/
opaque sm2Verify : BitVec 512 → List Byte → BitVec 512 → Bool
/-- FREE VALUE. The SM2 signature made with the device identity key, for the n-th report (R418; log 5). -/
opaque sm2Sign : Nat → List Byte → BitVec 512
/-- FREE VALUE. The device identity public key, derived from a fused secret (R418; log 5). -/
opaque identityKey : BitVec 512
/-- FREE VALUE. The vendor certificate of the identity public key (R418; log 5). -/
opaque vendorCertificate : List Byte
/-- FREE VALUE. The fused root-key hash of customs (R417; log 5). -/
opaque rootKeyHash : BitVec 256
/-- FREE VALUE. Mesh hops of a path: the manual leaves m to physical placement (R265; log 3). -/
opaque meshHops : Nat → Nat → Nat

/-- FREE VALUE. The harvest map: two numbers that name the two disabled physical cores of a die, the second among the 21 that the first
leaves (R2, R419; log 22). -/
opaque fusedOff : Nat → Fin 22 × Fin 21

/-- The two disabled physical cores of a die. -/
def disabledCores (die : Nat) : Nat × Nat :=
  let x := fusedOff die
  (x.1.val, if x.2.val < x.1.val then x.2.val else x.2.val + 1)

/-- The rank of a physical core, numbered in row-major mesh order, among its die's enabled cores; none for a disabled one (R2). -/
def coreRank (die phys : Nat) : Option Nat :=
  let off := disabledCores die
  if physCoresPerDie ≤ phys || phys = off.1 || phys = off.2 then none
  else some (phys - (if off.1 < phys then 1 else 0) - (if off.2 < phys then 1 else 0))

/-- FREE VALUE. Fields of a signature record that the manual does not state: the kind of a fence, the kind of a pop, the address of a push (R329;
log 51). -/
opaque openSigField : Nat → DWord
/-- FREE VALUE. The bytes of the n-th logical checkpoint image, whose layout the manual does not give (R336; log 23). -/
opaque imageByte : Nat → Nat → Byte
/-- FREE VALUE. What the device's own read of a physical address that no stack backs finds, by step and address (R268; log 25). -/
opaque unbackedByte : Nat → Nat → Byte

end Config

end Sys2Proof
end

