-- ==== Sys2Proof/Machine/Blocks.lean ====
section
/-! DEFINITION. Blocks: the fields of the control blocks the device reads from memory: kernel header (R30, R31), manifest
(R297), queue descriptor (R188), shape record (R214), page-table entry (R271). -/

namespace Sys2Proof.Machine

/-! ### Kernel header (R30) -/

/-- `PENTRY`. -/
def hPentry (h : BitVec 1024) : Nat := bits h 63 0
/-- `CENTRY`. -/
def hCentry (h : BitVec 1024) : Nat := bits h 127 64
/-- `LANES`. -/
def hLanes (h : BitVec 1024) : Nat := bits h 143 128
/-- `REGS`. -/
def hRegs (h : BitVec 1024) : Nat := bits h 159 144
/-- `QUAYB`. -/
def hQuayb (h : BitVec 1024) : Nat := bits h 191 160
/-- `BARS`. -/
def hBars (h : BitVec 1024) : Nat := bits h 199 192
/-- `BTO`. -/
def hBto (h : BitVec 1024) : Nat := bits h 207 200
/-- `TAGN`. -/
def hTagn (h : BitVec 1024) : Nat := bits h 215 208
/-- `ACCN`. -/
def hAccn (h : BitVec 1024) : Nat := bits h 223 216
/-- `FSPILL`. -/
def hFspill (h : BitVec 1024) : Nat := bits h 231 224
/-- `FLAGS`. -/
def hFlags (h : BitVec 1024) : Nat := bits h 239 232
/-- `HVER`. -/
def hHver (h : BitVec 1024) : Nat := bits h 255 240
/-- `QBINDn` (R31). -/
def hQbind (h : BitVec 1024) (n : Nat) : BitVec 32 := BitVec.ofNat 32 (bits h (287 + 32 * n) (256 + 32 * n))
/-- `PMASK` bit k. -/
def hPmask (h : BitVec 1024) (k : Nat) : Bool := bitAt h (768 + k)
/-- Crews of a workgroup (R8). -/
def hCrews (h : BitVec 1024) : Nat := (hLanes h + 127) / 128
/-- Bytes of the frontier spill areas (R28, R32). -/
def hSpillBytes (h : BitVec 1024) : Nat := 32 * hFspill h * hCrews h
/-- The barrier time-out limit (R118). -/
def hTimeout (h : BitVec 1024) : Nat := if hBto h = 0 then 2 ^ 24 else 2 ^ hBto h
/-- Lanes of crew n that are not permanently inactive (R8). -/
def hLaneMask (h : BitVec 1024) (n : Nat) : LaneMask := BitVec.ofNat 128 (2 ^ (min 128 (hLanes h - 128 * n)) - 1)

/-! ### Manifest (R297) -/

/-- `KHDR`. -/
def mKhdr (m : BitVec 2048) : Nat := bits m 63 0
/-- `ARGS`. -/
def mArgs (m : BitVec 2048) : Nat := bits m 127 64
/-- `NWG`. -/
def mNwg (m : BitVec 2048) : Nat := bits m 159 128
/-- `ARGSZ`. -/
def mArgsz (m : BitVec 2048) : Nat := bits m 175 160
/-- `PRIO`. -/
def mPrio (m : BitVec 2048) : Nat := bits m 178 176
/-- `BCLS`. -/
def mBcls (m : BitVec 2048) : Bool := bitAt m 179
/-- `BUOY`. -/
def mBuoy (m : BitVec 2048) : Bool := bitAt m 180
/-- `MODE`. -/
def mMode (m : BitVec 2048) : Nat := bits m 187 184
/-- `GANG`. -/
def mGang (m : BitVec 2048) : Nat := bits m 207 192
/-- `ASID`. -/
def mAsid (m : BitVec 2048) : Nat := bits m 223 208
/-- `LID`. -/
def mLid (m : BitVec 2048) : Nat := bits m 255 224
/-- `LKEY`. -/
def mLkey (m : BitVec 2048) : Nat := bits m 319 256
/-- `DEPC`. -/
def mDepc (m : BitVec 2048) : Nat := bits m 383 320
/-- `SUCC`. -/
def mSucc (m : BitVec 2048) : Nat := bits m 447 384
/-- `NSUCC`. -/
def mNsucc (m : BitVec 2048) : Nat := bits m 463 448
/-- `RBUD`. -/
def mRbud (m : BitVec 2048) : Nat := bits m 511 480
/-- `CSTAT`. -/
def mCstat (m : BitVec 2048) : Nat := bits m 575 512
/-- `NTOP`. -/
def mNtop (m : BitVec 2048) : Nat := bits m 579 576
/-- `TOPk`. -/
def mTop (m : BitVec 2048) (k : Nat) : Nat := bits m (703 + 64 * k) (640 + 64 * k)
/-- A reserved field is not zero. -/
def mReserved (m : BitVec 2048) : Bool :=
  decide (bits m 183 181 ≠ 0) || decide (bits m 191 188 ≠ 0) || decide (bits m 479 464 ≠ 0) || decide (bits m 639 580 ≠ 0)
    || decide (bits m 2047 1152 ≠ 0)
/-- The manifest with another priority (R132). -/
def mSetPrio (m : BitVec 2048) (p : Nat) : BitVec 2048 :=
  BitVec.ofNat 2048 (m.toNat - 2 ^ 176 * bits m 178 176 + 2 ^ 176 * (p % 8))

/-! ### Addresses (R259) -/

/-- Base of the Quay window of the address map. -/
def quayWin : Nat := 0xFF00000000000000

/-- Bits [63:57] equal bit 56. -/
def canonical (a : Nat) : Bool := decide (a / 2 ^ 56 % 256 = 0) || decide (a / 2 ^ 56 % 256 = 255)

/-- Inside the Quay window. -/
def inQuayWin (a : Nat) : Bool := decide (quayWin ≤ a) && decide (a < quayWin + 2 ^ 30)

/-- Translated global memory: the lower canonical half. -/
def isGlobal (a : Nat) : Bool := decide (a < 2 ^ 56)

/-- A backed physical address (R268). -/
def paBacked (pa : Nat) : Bool := decide (pa / 2 ^ 36 < 32) && decide (pa % 2 ^ 36 < 48000000000)

/-- A physical address in the remote window (R407). -/
def paRemote (pa : Nat) : Bool := decide (pa / 2 ^ 51 = 1)

/-! ### Page-table entries (R271) -/

/-- Valid. -/
def eValid (e : DWord) : Bool := bitAt e 0
/-- Leaf. -/
def eLeaf (e : DWord) : Bool := bitAt e 1
/-- Writable. -/
def eWrite (e : DWord) : Bool := bitAt e 2
/-- Executable. -/
def eExec (e : DWord) : Bool := bitAt e 3
/-- Rebuildable. -/
def eRb (e : DWord) : Bool := bitAt e 4
/-- Physical address. -/
def ePa (e : DWord) : Nat := 256 * bits e 51 8
/-- Reserved bits are zero. -/
def eClean (e : DWord) : Bool := decide (bits e 7 5 = 0) && decide (bits e 63 52 = 0)

/-! ### Queue descriptors (R188) -/

/-- `ROFF`. -/
def dRoff (d : BitVec 512) : Int := signedOf 21 (bits d 20 0)
/-- `EW`. -/
def dWide (d : BitVec 512) : Bool := bitAt d 21
/-- `PSC`. -/
def dPsc (d : BitVec 512) : BitVec 3 := BitVec.ofNat 3 (bits d 24 22)
/-- `CSC`. -/
def dCsc (d : BitVec 512) : BitVec 3 := BitVec.ofNat 3 (bits d 27 25)
/-- `CAP`. -/
def dCap (d : BitVec 512) : Nat := bits d 49 32
/-- `SOFF`. -/
def dSoff (d : BitVec 512) : Int := signedOf 21 (bits d 84 64)
/-- `HEAD`. -/
def dHead (d : BitVec 512) : Word := BitVec.ofNat 32 (bits d 127 96)
/-- `TAIL`. -/
def dTail (d : BitVec 512) : Word := BitVec.ofNat 32 (bits d 159 128)
/-- Reserved fields are zero. -/
def dClean (d : BitVec 512) : Bool :=
  decide (bits d 31 28 = 0) && decide (bits d 63 50 = 0) && decide (bits d 95 85 = 0) && decide (bits d 511 160 = 0)
/-- Bytes of an entry. -/
def entryBytes (wide : Bool) : Nat := if wide then 512 else 8

/-! ### Code points (R66) -/

/-- The code index or pilot pointer of the following slot: slot 4 falls through to the next line. -/
def nextCix (c : Nat) : Nat := if c % 8 = 4 then c + 4 else c + 1
/-- The pilot code pointer of the following slot. -/
def nextPc (p : Nat) : Nat := if p % 8 = 4 then p + 60 else p + 1
/-- Line address of a crew code index. -/
def cixLine (centry c : Nat) : Nat := (centry + 64 * (c / 8 - 1)) % 2 ^ 64
/-- Line address of a pilot code pointer. -/
def pcLine (p : Nat) : Nat := p / 64 * 64
/-- A crew code index names a code point (R66, R101). -/
def cixValid (c : Nat) : Bool := decide (8 ≤ c) && decide (c % 8 ≤ 4) && decide (c < 2 ^ 32)
/-- A pilot code pointer names a code point (R66, R101). -/
def pcValid (p : Nat) : Bool := decide (p % 8 ≤ 4) && decide (p / 8 % 8 = 0)
/-- The relative target of a crew branch, which may lie outside the crew's range (R66). -/
def relCix (c : Nat) (imm : Word) : Int := ((c / 8 : Nat) : Int) * 8 + signedOf 29 (bits imm 31 3) * 8 + (bits imm 2 0 : Nat)
/-- The relative target of a pilot branch (R66). -/
def relPc (p : Nat) (imm : Word) : Nat := lowBits 64 ((pcLine p : Nat) + 64 * signedOf 29 (bits imm 31 3) + (bits imm 2 0 : Nat))

end Sys2Proof.Machine
end

