-- ==== Sys2Proof/Machine/Ops.lean ====
section
/-! DEFINITION. Ops: the named operations over the state: reaching a workgroup, context, core, partition or launch in it; the
thread frontier (R102 to R106); records for harbour software (R275, R276, R408); writing back outstanding results (R23); taking a
trap (R389 to R398) and returning from its handler (R396); barriers (R115 to R118). -/

namespace Sys2Proof.Machine

/-! ### Reaching the parts of the state -/

/-- The workgroup in a berth. -/
def wgOf (s : State) (b : Nat) : Option WG := alookup b s.wgs
/-- Put a workgroup in a berth. -/
def setWg (s : State) (b : Nat) (g : WG) : State := { s with wgs := ainsert b g s.wgs }
/-- Change the workgroup in a berth. -/
def modWg (s : State) (b : Nat) (f : WG → WG) : State :=
  match wgOf s b with
  | some g => setWg s b (f g)
  | none => s

/-- A crew of a workgroup. -/
def crewOf (g : WG) (n : Nat) : Option Crew := g.crews[n]?
/-- Change a crew of a workgroup. -/
def modCrew (g : WG) (n : Nat) (f : Crew → Crew) : WG := { g with crews := g.crews.modify n f }
/-- The part every context holds. -/
def ctxIn (g : WG) (w : Who) : Option Ctx :=
  match w with
  | .pilot => some g.pilot.ctx
  | .crew n => (crewOf g n).map (fun c => c.ctx)
/-- Change the part every context holds. -/
def modCtxIn (g : WG) (w : Who) (f : Ctx → Ctx) : WG :=
  match w with
  | .pilot => { g with pilot := { g.pilot with ctx := f g.pilot.ctx } }
  | .crew n => modCrew g n (fun c => { c with ctx := f c.ctx })
/-- A context of the machine. -/
def ctxOf (s : State) (c : CtxId) : Option Ctx := (wgOf s c.berth).bind (fun g => ctxIn g c.who)
/-- Change a context of the machine. -/
def modCtx (s : State) (c : CtxId) (f : Ctx → Ctx) : State := modWg s c.berth (fun g => modCtxIn g c.who f)
/-- Every context of a workgroup, the pilot first. -/
def whos (g : WG) : List Who := .pilot :: tabulate g.crews.length (fun n => .crew n)
/-- Change every context of a workgroup. -/
def modAllCtx (g : WG) (f : Ctx → Ctx) : WG :=
  { g with pilot := { g.pilot with ctx := f g.pilot.ctx }, crews := g.crews.map (fun c => { c with ctx := f c.ctx }) }

/-- A core; one that is not listed is idle. -/
def coreOf (s : State) (k : Nat) : Core := agetD Core.idle k s.cores
/-- Change a core. -/
def modCore (s : State) (k : Nat) (f : Core → Core) : State := { s with cores := ainsert k (f (coreOf s k)) s.cores }
/-- A partition block. -/
def partOf (s : State) (p : Nat) : Part := agetD Part.off p s.parts
/-- Change a partition block. -/
def modPart (s : State) (p : Nat) (f : Part → Part) : State := { s with parts := ainsert p (f (partOf s p)) s.parts }
/-- An address-space block. -/
def spaceOf (s : State) (a : Nat) : ASpace := agetD ASpace.off a s.spaces
/-- A launch by its submission number. -/
def launchOf (s : State) (l : Nat) : Option Launch := s.launches.find? (fun x => x.lid == l)
/-- Change a launch. -/
def modLaunch (s : State) (l : Nat) (f : Launch → Launch) : State :=
  { s with launches := s.launches.map (fun x => if x.lid = l then f x else x) }
/-- Change the package registers. -/
def modPkg (s : State) (f : Pkg → Pkg) : State := { s with pkg := f s.pkg }

/-- The core a berth lies on. -/
def berthCore (b : Nat) : Nat := b / Config.berthsPerCore
/-- Crew or pilot. -/
def whoKind : Who → CtxKind
  | .pilot => .pilot
  | .crew _ => .crew
/-- How records and trap details name a context (R276, R335). -/
def whoCode : Who → Nat
  | .pilot => 0x80
  | .crew n => n % 256

/-! ### Places of a partition (R300) -/

/-- Dies of a partition. -/
def partDies (p : Part) : Nat := 2 ^ p.lgp
/-- The physical die of a logical die. -/
def physDie (p : Part) (d : Nat) : Nat :=
  if p.lgp = 0 then p.cols + (if p.row then 16 else 0)
  else if d < partDies p / 2 then p.cols + d else 16 + p.cols + d - partDies p / 2
/-- The logical die of a physical die. -/
def logicalDie (p : Part) (phys : Nat) : Option Nat := (List.range (partDies p)).find? (fun d => physDie p d == phys)
/-- The core that owns the slice with a logical index (R260). -/
def sliceCore (p : Part) (idx : Nat) : Nat := Config.coresPerDie * physDie p (idx / Config.coresPerDie) + idx % Config.coresPerDie
/-- The logical index of a core in its partition. -/
def coreSlice (p : Part) (k : Nat) : Option Nat :=
  (logicalDie p (k / Config.coresPerDie)).map (fun d => Config.coresPerDie * d + k % Config.coresPerDie)
/-- The cores of a partition, in logical order. -/
def partCores (p : Part) : List Nat := tabulate (Config.coresPerDie * partDies p) (sliceCore p)
/-- `SGRP` of the workgroup in a berth (R9). -/
def sgrpOf (s : State) (b : Nat) (g : WG) : Nat := (logicalDie (partOf s g.part) (berthCore b / Config.coresPerDie)).getD 0
/-- `LAUNCH` of a workgroup (R9, R299). -/
def launchIdOf (s : State) (g : WG) : Word := ((launchOf s g.lid).map (fun l => l.id)).getD 0
/-- The address space of a workgroup. -/
def asidOf (g : WG) : Nat := mAsid g.man

/-- Key of a window offset of a workgroup in Quay memory (R261). -/
def winKey (b : Nat) (g : WG) (o : Nat) : Nat := berthCore b * 2 ^ 20 + g.wbase + o

/-- Mode bits (R30). -/
def isIdem (g : WG) : Bool := bitAt g.mode 0
/-- DUP in force. -/
def isDup (g : WG) : Bool := bitAt g.mode 1
/-- DET in force. -/
def isDet (g : WG) : Bool := bitAt g.mode 2

/-! ### Lane masks -/

/-- The lowest lane of a mask, 0 for an empty one. -/
def lowestLane (m : LaneMask) : Nat := if m = 0 then 0 else trailingZeros 128 m.toNat
/-- The lanes of a mask in increasing order. -/
def laneList (m : LaneMask) : List Nat := (List.range 128).filter (fun l => bitAt m l)
/-- The mask of the lanes that satisfy a test. -/
def maskOf (f : Nat → Bool) : LaneMask :=
  BitVec.ofNat 128 ((List.range 128).foldl (fun a l => if f l then a + 2 ^ l else a) 0)

/-! ### The thread frontier (R102 to R106) -/

/-- Merge an entry with another at the same code index (R105, R116): it stays parked only where both wait at one target. -/
def fMerge (x y : FEntry) : FEntry := { cix := x.cix, mask := x.mask ||| y.mask, park := if x.park = y.park then x.park else none }

/-- Put an entry in its place by code index. -/
def fInsert (e : FEntry) : List FEntry → List FEntry
  | [] => [e]
  | x :: xs => if e.cix < x.cix then e :: x :: xs else if e.cix = x.cix then fMerge x e :: xs else x :: fInsert e xs

/-- Put several entries in their places. -/
def fInsertAll (es xs : List FEntry) : List FEntry := es.foldl (fun a e => if e.mask = 0 then a else fInsert e a) xs

/-- The head: the lowest entry that is not parked. -/
def fHead (xs : List FEntry) : Option FEntry := xs.find? (fun e => e.park.isNone)

/-- The bits of a spilled entry (R104). -/
def spillBits (e : FEntry) : Nat :=
  e.cix.toNat + (match e.park with
    | none => 0
    | some (.barrier n) => 2 ^ 32 + 2 ^ 33 * (n % 16)
    | some .ckpt => 2 ^ 32 + 2 ^ 33 * 16) + 2 ^ 128 * e.mask.toNat

/-- A spilled entry as read (R105). -/
def spillEntry (v : Nat) : FEntry :=
  { cix := BitVec.ofNat 32 v, mask := BitVec.ofNat 128 (v / 2 ^ 128),
    park := if v / 2 ^ 32 % 2 = 0 then none
      else if v / 2 ^ 33 % 32 < 16 then some (.barrier (v / 2 ^ 33 % 32)) else if v / 2 ^ 33 % 32 = 16 then some .ckpt else none }

/-- What moving entries between hardware and the spill area leaves: both lists, lanes lost with an invalid entry, and those
entries (R105). -/
structure FPlace where
  hw : List FEntry
  sp : List FEntry
  retired : LaneMask
  bad : List FEntry

/-- Bring spilled entries back and send entries out until the hardware holds the 16 lowest (R104, R105). -/
def fSettle (live : LaneMask) : Nat → FPlace → FPlace
  | 0, p => p
  | fuel + 1, p =>
    match p.sp with
    | [] =>
      if 16 < p.hw.length then fSettle live fuel { p with hw := p.hw.dropLast, sp := (p.hw.drop (p.hw.length - 1)) } else p
    | r :: rest =>
      let inHw := p.hw.foldl (fun a e => a ||| e.mask) 0
      if 16 < p.hw.length then
        fSettle live fuel { p with hw := p.hw.dropLast, sp := (p.hw.drop (p.hw.length - 1)).foldl (fun a e => fInsert e a) p.sp }
      else if p.hw.length < 16 then
        let m := r.mask &&& live &&& ~~~inHw &&& ~~~p.retired
        if m = 0 then fSettle live fuel { p with sp := rest }
        else if cixValid r.cix.toNat then fSettle live fuel { p with hw := fInsert { r with mask := m } p.hw, sp := rest }
        else fSettle live fuel { p with sp := rest, retired := p.retired ||| m, bad := p.bad ++ [{ r with mask := m }] }
      else
        match p.hw.getLast? with
        | some l => if r.cix ≤ l.cix then fSettle live fuel { p with hw := p.hw.dropLast, sp := fInsert l p.sp } else p
        | none => p

/-- First byte of a crew's spill area (R28), in Quay memory. -/
def spillBase (b : Nat) (g : WG) (n : Nat) : Nat := winKey b g (hQuayb g.hdr - 32 * hFspill g.hdr * (n + 1))

/-- Entries that a handler's set-aside frontier holds in the spill area. -/
def asideSpilled (c : Crew) : Nat := (c.ctx.handler.map (fun h => h.spilled)).getD 0

/-- The spilled entries of a crew's present frontier, as stored. -/
def spilledOf (s : State) (b : Nat) (g : WG) (n : Nat) (c : Crew) : List FEntry :=
  tabulate c.spilled (fun k => spillEntry (cellsNat s.quay (spillBase b g n + 32 * (asideSpilled c + k)) 32))

/-- The whole frontier of a crew. -/
def frontierOf (s : State) (b : Nat) (g : WG) (n : Nat) (c : Crew) : List FEntry := c.frontier ++ spilledOf s b g n c

/-- Store entries in a spill area from a position on. -/
def spillStore (m : List Host.Cell) (base : Nat) : List FEntry → List Host.Cell
  | [] => m
  | e :: es => spillStore (cellsWriteN m base (leBytes 32 (spillBits e))) (base + 32) es

/-- Entries a crew's frontier may hold now (R104); a handler's shares the spill area with the set-aside ones (R393). -/
def frontierRoom (g : WG) (c : Crew) : Nat := 16 + hFspill g.hdr - asideSpilled c

/-- The frontier after entries are removed by code index and others added. -/
def fPlace (s : State) (b : Nat) (g : WG) (n : Nat) (c : Crew) (hw new : List FEntry) (live : LaneMask) : FPlace :=
  fSettle live 1000 { hw := fInsertAll new hw, sp := spilledOf s b g n c, retired := 0, bad := [] }

/-- A trap of a cause with its detail, for a set of lanes (R395). -/
def mkTrap (cause detail : Nat) (lanes : LaneMask) : PendTrap :=
  { cause := BitVec.ofNat 6 cause, detail := BitVec.ofNat 64 detail, tlane := BitVec.ofNat 32 (lowestLane lanes), tmask := lanes, lkval := 0, entry := none, slot := none }

/-! ### Records for harbour software -/

/-- Append a record to a ring's source. -/
def ringPut (r : Ring) (rec : Word → BitVec 256) : Ring := { r with wait := r.wait ++ [rec r.seq], seq := r.seq + 1 }

/-- A fault record (R275, R276). -/
def faultBits (ty : Nat) (wrt fet eng ahead idm : Bool) (asid lnch vpage widx spec : Nat) (seqn : Word) : BitVec 256 :=
  BitVec.ofNat 256 (ty + 2 ^ 8 * (wrt.toNat + 2 * fet.toNat + 4 * eng.toNat + 8 * ahead.toNat + 16 * idm.toNat)
    + 2 ^ 16 * (asid % 2 ^ 16) + 2 ^ 32 * (lnch % 2 ^ 32) + 2 ^ 64 * (vpage % 2 ^ 64) + 2 ^ 128 * (widx % 2 ^ 32)
    + 2 ^ 160 * seqn.toNat + 2 ^ 192 * (spec % 2 ^ 64))

/-- A fault record other than a translation fault. -/
def putFault (s : State) (p ty asid lnch vpage widx spec : Nat) : State :=
  modPart s p (fun q => { q with fr := ringPut q.fr (faultBits ty false false false false false asid lnch vpage widx spec) })

/-- A harbour event record (R408). -/
def eventBits (ety cause ctx lnch widx epc edet : Nat) (seq : Word) : BitVec 256 :=
  BitVec.ofNat 256 (ety + 2 ^ 8 * (cause % 256) + 2 ^ 16 * (ctx % 2 ^ 16) + 2 ^ 32 * (lnch % 2 ^ 32) + 2 ^ 64 * (widx % 2 ^ 32)
    + 2 ^ 96 * (epc % 2 ^ 64) + 2 ^ 160 * (edet % 2 ^ 64) + 2 ^ 224 * seq.toNat)

/-- Post a harbour event. -/
def putEvent (s : State) (p ety cause ctx lnch widx epc edet : Nat) : State :=
  modPart s p (fun q => { q with hev := ringPut q.hev (eventBits ety cause ctx lnch widx epc edet) })

/-- A ring has room for one more record, those that wait for it counted. -/
def ringRoom (r : Ring) : Bool := decide (r.wait.length + (r.tail - r.head).toNat < r.cap.toNat)

/-- A partition whose event ring takes records: defined, its ring enabled. -/
def takesEvents (p : Part) : Bool := p.en && decide (p.hev.cap ≠ 0)

/-- The event of a launch, or of its workgroup, that waits for room in a partition's ring: its source waits with it (R408). Where no ring takes events
nothing waits for one. -/
def eventHeld (s : State) (part ety : Nat) (lnch : Word) (widx : Nat) : Bool :=
  takesEvents (partOf s part) && (partOf s part).hev.wait.any (fun r =>
    decide (bits r 7 0 = ety) && decide (bits r 63 32 = lnch.toNat) && decide (bits r 95 64 = widx))

/-- Package events that wait enter the ring of every defined partition, in order, once each of those rings has room (R408; log 12). -/
def flushEvents : Nat → State → State
  | 0, s => s
  | n + 1, s =>
    match s.pkg.events with
    | [] => s
    | (ety, cause, epc) :: es =>
      if s.parts.any (fun p => takesEvents p.2) && s.parts.all (fun p => !takesEvents p.2 || ringRoom p.2.hev) then
        flushEvents n (s.parts.foldl (fun s p => if takesEvents p.2 then putEvent s p.1 ety cause 0 0 0 epc 0 else s) (modPkg s (fun p => { p with events := es })))
      else s

/-- Post an event of the package: its source has waited until no earlier one waits. -/
def putEventAll (s : State) (ety cause epc : Nat) : State :=
  flushEvents (s.pkg.events.length + 1) (modPkg s (fun p => { p with events := p.events ++ [(ety, cause, epc)] }))

/-- An event of the package waits for room, and the sources of others wait behind it (R408). -/
def eventsWait (s : State) : Bool := !s.pkg.events.isEmpty

/-- Change the workgroup's copies, resident or saved. -/
def modHomes (s : State) (lid wgix : Nat) (f : WG → WG) : State :=
  let s := { s with wgs := s.wgs.map (fun x => if x.2.lid = lid && x.2.wgix = wgix then (x.1, f x.2) else x) }
  modLaunch s lid (fun l => { l with saved := l.saved.map (fun v => if v.wg.wgix = wgix then { v with wg := f v.wg } else v) })

/-! ### Registers -/

/-- Write masked lanes of a register's words. -/
def mergeLanes (old new : LaneWords) (m : LaneMask) : LaneWords := lanes (fun l => if bitAt m l then laneWord new l else laneWord old l)

/-- Write lanes of one crew register, mapping the name if needed (R14). -/
def crewWrite (c : Crew) (w : VecWrite) : Crew :=
  if w.mask = 0 then c
  else { c with regs := ainsert w.name (mergeLanes (agetD [] w.name c.regs) w.words w.mask) c.regs }

/-- Write lanes of a predicate; `p0` ignores writes (R21). -/
def predWrite (c : Crew) (k : Nat) (m b : LaneMask) : Crew :=
  if k = 0 then c else { c with preds := c.preds.modify k (fun p => (p &&& ~~~m) ||| (b &&& m)) }

/-- Write a scalar register. -/
def scalarWrite (p : Pilot) (n : Nat) (v : DWord) : Pilot := { p with sregs := p.sregs.set n v }

/-- Write a c-bit; `c0` ignores writes (R22). -/
def cbitWrite (p : Pilot) (k : Nat) (v : Bool) : Pilot :=
  if k = 0 then p
  else { p with cbits := if v then p.cbits ||| (1#8 <<< k) else p.cbits &&& ~~~(1#8 <<< k) }

/-- `DRAW` advances by 1 in lanes of a mask (R56). -/
def drawAdvance (c : Crew) (m : LaneMask) : Crew :=
  if m = 0 then c else { c with draw := lanes (fun l => if bitAt m l then laneWord c.draw l + 1 else laneWord c.draw l) }

/-- The stall count of a buoy array at a cycle, a wait that goes on included; it saturates (R347). -/
def stallCount (cycle : Nat) (y : Buoy) : Nat := min 0xFFFFFFFF (y.stall.toNat + match y.stallFrom with | some t => cycle - t | none => 0)

/-- An array's wait ends. -/
def stallEnd (cycle : Nat) (y : Buoy) : Buoy := { y with stall := BitVec.ofNat 32 (stallCount cycle y), stallFrom := none }

/-- What a sweep that ends at a phase boundary leaves (R347, R348): its wait is over, and a part sweep has a resume point. -/
def sweepLeft (cycle : Nat) (x : Cmd) (y : Buoy) : Buoy :=
  { stallEnd cycle y with resume := if x.phase = 0 then y.resume else some (x.a, x.phase) }

/-- The monitor of an array starts fresh windows (R353). -/
def monitorStart (y : Buoy) : Buoy := { y with window := 0, winStart := y.draws }

/-- Write the register results of an instruction. -/
def applyResult (g : WG) (w : Who) (r : Result) : WG :=
  match w with
  | .crew n =>
    modCrew g n (fun c =>
      let c := r.vec.foldl crewWrite (drawAdvance c r.draw)
      match r.pred with
      | some (k, m, b) => predWrite c k m b
      | none => c)
  | .pilot =>
    let p := match r.scalar with
      | some (n, v) => scalarWrite g.pilot n v
      | none => g.pilot
    { g with pilot := match r.cbit with
        | some (k, v) => cbitWrite p k v
        | none => p }

/-- A result that writes nothing. -/
def Result.none : Result := { vec := [], scalar := .none, pred := .none, cbit := .none, draw := 0, chain := .none }

/-- A result with nothing left to write. -/
def Result.isEmpty (r : Result) : Bool := r.vec.isEmpty && r.scalar.isNone && r.pred.isNone && r.cbit.isNone && decide (r.draw = 0) && r.chain.isNone

/-! ### Outstanding results (R23, R76) -/

/-- Change a flag's count. -/
def flagAdd (c : Ctx) (k : Nat) (f : Nat → Nat) : Ctx := { c with flags := c.flags.modify k f }

/-- Write the outstanding result at a position, and take it off its flag; a result that waits for its staging record stays. -/
def commitAt (g : WG) (w : Who) (k : Nat) : WG :=
  match (ctxIn g w).bind (fun c => c.pend[k]?) with
  | none => g
  | some p =>
    if p.waits.isSome then g
    else
      modCtxIn (applyResult g w p.res) w (fun c =>
        let c := match p.flag with
          | some f => flagAdd c f (fun n => n - 1)
          | none => c
        { c with pend := c.pend.eraseIdx k })

/-- Write the outstanding results that satisfy a test, oldest first. -/
def commitWhere (w : Who) (test : PendWrite → Bool) : Nat → Nat → WG → WG
  | 0, _, g => g
  | n + 1, k, g =>
    match (ctxIn g w).bind (fun c => c.pend[k]?) with
    | none => g
    | some p => if test p && p.waits.isNone then commitWhere w test n k (commitAt g w k) else commitWhere w test n (k + 1) g

/-- Write every outstanding result of a context that is ready (R391). -/
def commitAll (g : WG) (w : Who) : WG :=
  commitWhere w (fun _ => true) (((ctxIn g w).map (fun c => c.pend.length)).getD 0) 0 g

/-! ### Traps (R389 to R398) -/

/-- Causes that always go to harbour software (R389). -/
def alwaysHarbour (cause : Nat) : Bool := cause == 0x14 || cause == 0x17 || cause == 0x19

/-- A workgroup stops for harbour software, which receives the event of R398. `entry`: the crew entry that the trap stopped. -/
def harbourStop (s : State) (id : CtxId) (t : PendTrap) (epc : DWord) (entry : Word) : State :=
  match wgOf s id.berth with
  | none => s
  | some g =>
    let g := (whos g).foldl commitAll g
    putEvent (setWg s id.berth
      { g with run := .stopped, stopper := some id.who, stopPt := some (epc, entry), preempt := g.preempt || decide (g.run = .draining) }) g.part 1 t.cause.toNat (whoCode id.who) (launchIdOf s g).toNat g.wgix epc.toNat t.detail.toNat

/-- Change both copies of a pair. -/
def modPair (s : State) (b : Nat) (f : WG → WG) : State :=
  match wgOf s b with
  | none => s
  | some g => match g.peer with
    | some p => modWg (modWg s b f) p f
    | none => modWg s b f

/-- The pair of a context stops for harbour software, in this copy's context (R405). -/
def pairStop (s : State) (id : CtxId) (t : PendTrap) (epc : DWord) (entry : Word) : State :=
  modPair (harbourStop s id t epc entry) id.berth (fun g => { g with run := .stopped })

/-- The latch entries before any hold: none readable (R19). -/
def latchesEmpty : List Latch := [⟨[], none⟩, ⟨[], none⟩, ⟨[], none⟩]

/-- The trap context a handler reads. -/
def trapCtx (t : PendTrap) (epc : DWord) : TrapCtx :=
  { cause := t.cause, detail := t.detail, epc := epc, tlane := t.tlane, tmask := t.tmask, lkval := t.lkval }

/-- A crew enters its handler (R393): the frontier is set aside, and the single entry (`TVEC`, M) starts. `entry` is the code
index of the entry the trap stopped. -/
def crewEnter (c : Crew) (t : PendTrap) (epc : DWord) (entry : Word) (m : LaneMask) (tvec : Word) : Crew :=
  { c with
    ctx := { c.ctx with
      handler := some { trap := trapCtx t epc, frontier := c.frontier, spilled := c.spilled, latches := c.latches, entry := entry,
                        landings := c.landings.filter (fun l => l.1 != entry) }
      line := none },
    frontier := [{ cix := tvec, mask := m, park := none }], spilled := 0,
    landings := [(tvec, tvec.setWidth 64)] }

/-- The pilot enters its handler (R394). -/
def pilotEnter (p : Pilot) (t : PendTrap) (epc ptvec : DWord) : Pilot :=
  { p with
    ctx := { p.ctx with
      handler := some { trap := { trapCtx t epc with tlane := 0, tmask := 0 }, frontier := [], spilled := 0, latches := [], entry := 0,
                        landings := [] }
      line := none },
    pc := ptvec, landing := some ptvec }

/-- Before a trap of a cause is delivered: results are written, and the context holds at no slot; a breakpoint lets the next issue pass (R390). -/
def quiesce (g : WG) (w : Who) (cause : BitVec 6) : WG :=
  modCtxIn (commitAll g w) w (fun c => { c with blocked := none, granted := false, bpPass := decide (cause = 0x19), divided := none })

/-- Results of a context that wait for the release of their staging records (R326). -/
def unwritten (c : Ctx) : Bool := c.pend.any (fun p => p.waits.isSome)

/-- DELIVER A TRAP (R389 to R398): the context enters its handler, or the workgroup stops for harbour software: by its cause, with
no handler set, or in a handler (a double trap). `entry` and `m` are the crew entry that the trap stopped. -/
def deliverTrap (s : State) (id : CtxId) (t : PendTrap) (epc : DWord) (entry : Word) (m : LaneMask) : State :=
  match wgOf s id.berth with
  | none => s
  | some g0 =>
    let g := quiesce g0 id.who t.cause
    let s := setWg s id.berth g
    match id.who with
    | .pilot =>
      if alwaysHarbour t.cause.toNat || g.pilot.ctx.handler.isSome || g.ptvec = 0 then harbourStop s id t epc entry
      else if pcValid g.ptvec.toNat then setWg s id.berth { g with pilot := pilotEnter g.pilot t epc g.ptvec }
      else
        harbourStop (setWg s id.berth { g with pilot := pilotEnter g.pilot t epc g.ptvec }) id (mkTrap 0x03 g.ptvec.toNat 0) g.ptvec entry
    | .crew n =>
      match crewOf g n with
      | none => s
      | some c =>
        if alwaysHarbour t.cause.toNat || c.ctx.handler.isSome || g.tvec = 0 then harbourStop s id t epc entry
        else if cixValid g.tvec.toNat then setWg s id.berth (modCrew g n (fun c => crewEnter c t epc entry m g.tvec))
        else
          harbourStop (setWg s id.berth (modCrew g n (fun c => crewEnter c t epc entry m g.tvec))) id
            (mkTrap 0x03 g.tvec.toNat m) (g.tvec.setWidth 64) g.tvec

/-- TAKE A TRAP: it is delivered at once, or, under DET, as soon as the results its context has issued are released and written (R391); the context
issues nothing until then. -/
def takeTrap (s : State) (id : CtxId) (t : PendTrap) (epc : DWord) (entry : Word) (m : LaneMask) : State :=
  if (ctxOf s id).any unwritten then
    modCtx s id (fun c => { c with taking := some { trap := t, epc := epc, entry := entry, mask := m, pair := false }, blocked := none })
  else deliverTrap s id t epc entry m

/-- The trap that a context is taking is delivered, its results being written. -/
def finishTrap (s : State) (id : CtxId) : State :=
  match (ctxOf s id).bind (fun c => if unwritten c then none else c.taking) with
  | some k =>
    let s := modCtx s id (fun c => { c with taking := none })
    if k.pair then pairStop s id k.trap k.epc k.entry else deliverTrap s id k.trap k.epc k.entry k.mask
  | none => s

/-- The entry a crew issues from. -/
def headOf (s : State) (b : Nat) (g : WG) (n : Nat) : Option FEntry := (crewOf g n).bind (fun c => fHead (frontierOf s b g n c))

/-- The head of a crew, which a trap at another code point stops. -/
def headPoint (s : State) (id : CtxId) : Word × LaneMask :=
  match wgOf s id.berth, id.who with
  | some g, .crew n => ((headOf s id.berth g n).map (fun h => (h.cix, h.mask))).getD (0, 0)
  | _, _ => (0, 0)

/-- A trap at the slot a context is at, with no effect (R391). -/
def trapHere (s : State) (id : CtxId) (t : PendTrap) : State :=
  match wgOf s id.berth, id.who with
  | some g, .pilot => takeTrap s id t g.pilot.pc 0 0
  | some g, .crew n =>
    match headOf s id.berth g n with
    | some h => takeTrap s id t (h.cix.setWidth 64) h.cix h.mask
    | none => s
  | none, _ => s

/-! ### Barriers and checkpoints (R115 to R118, R137) -/

/-- Every entry of a crew: its frontier, and one a handler has set aside. -/
def allEntries (s : State) (b : Nat) (g : WG) (n : Nat) (c : Crew) : List FEntry :=
  match c.ctx.handler with
  | none => frontierOf s b g n c
  | some h => h.frontier ++ tabulate h.spilled (fun k => spillEntry (cellsNat s.quay (spillBase b g n + 32 * k) 32))

/-- A crew has arrived (R116, R397). -/
def crewArrived (s : State) (b : Nat) (g : WG) (at_ : Park) (n : Nat) (c : Crew) : Bool :=
  c.ctx.ended || (c.ctx.handler.isNone && (frontierOf s b g n c).all (fun e => e.park = some at_))

/-- The pilot has arrived. -/
def pilotArrived (g : WG) (at_ : Park) : Bool :=
  g.pilot.ctx.ended || (g.pilot.ctx.handler.isNone && decide (g.pilot.park = some at_))

/-- A crew holds a live arrival (R118). -/
def crewLive (s : State) (b : Nat) (g : WG) (at_ : Park) (n : Nat) (c : Crew) : Bool :=
  !c.ctx.ended && (allEntries s b g n c).any (fun e => e.park = some at_)

/-- The pilot holds a live arrival (R118). -/
def pilotLive (g : WG) (at_ : Park) : Bool := !g.pilot.ctx.ended && decide (g.pilot.park = some at_)

/-- Crews with their numbers. -/
def numbered (g : WG) : List (Nat × Crew) := tabulate g.crews.length (fun n => n) |>.zip g.crews

/-- All participants have arrived, one of them live. -/
def barrierDone (s : State) (b : Nat) (g : WG) (at_ : Park) : Bool :=
  pilotArrived g at_ && (numbered g).all (fun x => crewArrived s b g at_ x.1 x.2)
    && (pilotLive g at_ || (numbered g).any (fun x => crewLive s b g at_ x.1 x.2))

/-- Some participant holds a live arrival. -/
def barrierLive (s : State) (b : Nat) (g : WG) (at_ : Park) : Bool :=
  pilotLive g at_ || (numbered g).any (fun x => crewLive s b g at_ x.1 x.2)

/-- Start or clear a timer (R118). -/
def timerFor (s : State) (b : Nat) (g : WG) (at_ : Park) (x : Barrier) : Barrier :=
  { x with start := if barrierLive s b g at_ then some (x.start.getD s.cycle) else none }

/-- Start or clear every timer of a workgroup. -/
def refreshTimers (s : State) (b : Nat) : State :=
  modWg s b (fun g =>
    { g with bars := (tabulate g.bars.length (fun n => n)).zip g.bars |>.map (fun x => timerFor s b g (.barrier x.1) x.2),
             ckBar := timerFor s b g .ckpt g.ckBar })

/-- Put a crew's frontier in place; lanes lost with invalid spilled entries retire and the trap of R105 becomes pending. -/
def setFrontier (s : State) (b n : Nat) (p : FPlace) : State :=
  match (wgOf s b).bind (fun g => (crewOf g n).map (fun c => (g, c))) with
  | none => s
  | some (g, c) =>
    let s := { s with quay := spillStore s.quay (spillBase b g n + 32 * asideSpilled c) p.sp }
    setWg s b (modCrew g n (fun c =>
      { c with frontier := p.hw, spilled := p.sp.length, live := c.live &&& ~~~p.retired,
               ctx := { c.ctx with traps := p.bad.foldl (fun ts e => ts ++ [mkTrap 0x03 e.cix.toNat e.mask]) c.ctx.traps } }))

/-- The entries of one park go on at the slot after it (R117). -/
def unparkCrew (at_ : Park) (s : State) (b n : Nat) : State :=
  match (wgOf s b).bind (fun g => (crewOf g n).map (fun c => (g, c))) with
  | none => s
  | some (g, c) =>
    let step (e : FEntry) : FEntry := if e.park = some at_ then { e with cix := BitVec.ofNat 32 (nextCix e.cix.toNat), park := none } else e
    setFrontier s b n (fSettle c.live 1000
      { hw := fInsertAll (c.frontier.map step) [], sp := fInsertAll ((spilledOf s b g n c).map step) [], retired := 0, bad := [] })

/-- Let every participant of a barrier or checkpoint go on, in a new generation. -/
def releasePark (at_ : Park) (s : State) (b : Nat) : State :=
  let s := modWg s b (fun g =>
    let g := if g.pilot.park = some at_ then
        { g with pilot := { g.pilot with park := none, pc := BitVec.ofNat 64 (nextPc g.pilot.pc.toNat) } } else g
    match at_ with
    | .barrier k => { g with bars := g.bars.modify k (fun x => { gen := x.gen + 1, start := none }) }
    | .ckpt => { g with ckBar := { gen := g.ckBar.gen + 1, start := none } })
  match wgOf s b with
  | none => s
  | some g => (List.range g.crews.length).foldl (fun s n => unparkCrew at_ s b n) s

/-- Complete the barriers, and outside DUP the checkpoint, whose participants have all arrived, and keep the timers. -/
def settleBarriers (s : State) (b : Nat) : State :=
  let s := (List.range 16).foldl (fun s k =>
    match wgOf s b with
    | some g => if barrierDone s b g (.barrier k) then releasePark (.barrier k) s b else s
    | none => s) s
  let s := match wgOf s b with
    | some g =>
      if barrierDone s b g .ckpt && !isDup g then modWg (releasePark .ckpt s b) b (fun g => { g with ckcnt := g.ckcnt + 1 }) else s
    | none => s
  refreshTimers s b

/-! ### Ends of contexts (R110, R114) -/

/-- A crew with no live lane ends: its results are written and its registers return. -/
def endCrew (s : State) (b n : Nat) : State :=
  modWg s b (fun g =>
    modCrew (commitAll g (.crew n)) n (fun c =>
      { c with regs := [], frontier := [], spilled := 0, landings := [],
               ctx := { c.ctx with ended := true, pend := [], flags := Ctx.start.flags, blocked := none } }))

/-- The set-aside frontier returns (R396): its stopped entry moves to `TEPC`, masks lose retired lanes, latches are restored. -/
def crewReturn (s : State) (b n : Nat) : State :=
  match (wgOf s b).bind (fun g => (crewOf g n).bind (fun c => c.ctx.handler.map (fun h => (g, c, h)))) with
  | none => s
  | some (g, c, h) =>
    let step (e : FEntry) : FEntry :=
      { e with mask := e.mask &&& c.live, cix := if e.cix = h.entry then BitVec.ofNat 32 h.trap.epc.toNat else e.cix }
    let sp := tabulate h.spilled (fun k => spillEntry (cellsNat s.quay (spillBase b g n + 32 * k) 32))
    let s := setWg s b (modCrew g n (fun c =>
      { c with latches := h.latches, landings := h.landings, ctx := { c.ctx with handler := none, line := none } }))
    setFrontier s b n (fSettle c.live 1000
      { hw := fInsertAll (h.frontier.map step) [], sp := fInsertAll (sp.map step) [], retired := 0, bad := [] })

/-- After lanes retire: the crew ends, with the refill trap of R105 if one waits, or a handler left by all its lanes gives way to the frontier
set aside (log 13). -/
def afterRetire (s : State) (b n : Nat) : State :=
  match (wgOf s b).bind (fun g => (crewOf g n).map (fun c => (g, c))) with
  | none => s
  | some (g, c) =>
    if c.live = 0 then
      let s' := endCrew s b n
      settleBarriers (match c.ctx.traps.find? (fun t => decide (t.cause = 0x03)) with
        | some t => harbourStop s' { berth := b, who := .crew n } t 0 0
        | none => s') b
    else if c.frontier.isEmpty && c.ctx.handler.isSome then settleBarriers (crewReturn s b n) b
    else if g.run = .running then settleBarriers s b else s

/-- `rft` of a pilot (R396). -/
def pilotReturn (p : Pilot) : Pilot :=
  match p.ctx.handler with
  | none => p
  | some h => { p with pc := h.trap.epc, landing := none, ctx := { p.ctx with handler := none, line := none } }

/-! ### Blocking -/

/-- Hold a context at its slot, the instruction without effect. -/
def block (s : State) (id : CtxId) (r : Block) : State := modCtx s id (fun c => { c with blocked := some r })

/-- Release every context of a workgroup that is blocked for a reason. -/
def unblockWhere (g : WG) (test : Block → Bool) : WG :=
  modAllCtx g (fun c => match c.blocked with
    | some r => if test r then { c with blocked := none } else c
    | none => c)

/-- Release every context of the machine that is blocked for a reason. -/
def unblockAll (s : State) (test : Nat → WG → Block → Bool) : State :=
  { s with wgs := s.wgs.map (fun x => (x.1, unblockWhere x.2 (test x.1 x.2))) }

end Sys2Proof.Machine
end

