-- ==== Sys2Proof/Machine/Memory.lean ====
section
/-! DEFINITION. Memory: where a byte lies (R247, R259 to R261, R268), translation (R271, R272), the views of forked revisions and their
page copies (R280 to R284), reading and writing bytes and poison marks (R270, R403), the rebuild table (R384). -/

namespace Sys2Proof.Machine

/-- Where bytes lie: HBM by physical address, Quay memory by key, a page the sorting office holds for a revision (its child or its
ancestor page, by virtual page number), another package. -/
inductive Loc where
  | hbm (pa : Nat)
  | quay (key : Nat)
  | page (rev : Nat) (child : Bool) (vpn off : Nat)
  | remote (pa : Nat)
deriving DecidableEq, Repr

/-- Bytes of a page of a revision. -/
def pageSize : Nat := 65536

/-- The pages of one side of a revision. -/
def revSide (r : Rev) (child : Bool) : List RevPage := if child then r.childPages else r.ancPages
/-- A page that a revision holds. -/
def revPage (s : State) (rev : Nat) (child : Bool) (vpn : Nat) : Option RevPage :=
  (alookup rev s.revs).bind (fun r => (revSide r child).find? (fun p => p.page == vpn))
/-- Change a page that a revision holds. -/
def modRevPage (s : State) (rev : Nat) (child : Bool) (vpn : Nat) (f : RevPage → RevPage) : State :=
  { s with revs := s.revs.map (fun x =>
      if x.1 = rev then
        let upd := fun (ps : List RevPage) => ps.map (fun p => if p.page = vpn then f p else p)
        (x.1, if child then { x.2 with childPages := upd x.2.childPages } else { x.2 with ancPages := upd x.2.ancPages })
      else x) }

/-- The n bytes at a location; remote bytes are read by the transport, not here. -/
def locRead (s : State) (l : Loc) (n : Nat) : List Byte :=
  match l with
  | .hbm pa => cellsReadN s.hbm pa n
  | .quay k => cellsReadN s.quay k n
  | .page r c v o => match revPage s r c v with
    | some p => cellsReadN p.cells o n
    | none => []
  | .remote _ => []

/-! ### Requests to other packages (R410, R411) -/

/-- Make a number of little-endian bytes. -/
def natLe (n v : Nat) : List Byte := leBytes n v

/-- The bytes of a transport frame after its EtherType (R411). -/
def frameBytes (op src dst : Nat) (seq : Word) (pa rmw : Nat) (payload : List Byte) : List Byte :=
  [1, BitVec.ofNat 8 op] ++ natLe 2 src ++ natLe 2 dst ++ natLe 2 payload.length ++ natLe 4 seq.toNat ++ natLe 8 pa ++ natLe 4 rmw ++ payload

/-- A scale-out port. -/
def portOf (s : State) (j : Nat) : Port := agetD Port.off j s.pkg.ports
/-- Change a scale-out port. -/
def modPort (s : State) (j : Nat) (f : Port → Port) : State := modPkg s (fun p => { p with ports := ainsert j (f (portOf s j)) p.ports })

/-- Send a frame to a rank through its port (R410): the sequence number it carries and the state after it. -/
def portSend (s : State) (rank op pa rmw : Nat) (payload : List Byte) : Word × State :=
  let j := rank % 8
  let seq := agetD 0 rank (portOf s j).txSeq
  (seq, modPort s j (fun p =>
    { p with tx := p.tx ++ [frameBytes op s.pkg.rank rank seq pa rmw payload], txSeq := ainsert rank (seq + 1) p.txSeq }))

/-- Send a request to the package of a remote address (R410): its number and the state after it. -/
def remoteSend (s : State) (ctx : Option CtxId) (lane op pa width rmw : Nat) (payload : List Byte) : Nat × State :=
  let rank := pa / 2 ^ 42 % 2 ^ 9
  let r := portSend s rank op (pa % 2 ^ 42) rmw payload
  (s.pkg.nextRemote, modPkg r.2 (fun p =>
    { p with
      nextRemote := p.nextRemote + 1,
      remote := p.remote ++ [{ id := p.nextRemote, sent := s.steps, ctx := ctx, lane := lane, parts := [], core := ctx.map (fun c => berthCore c.berth), issuer := none, rank := rank, port := rank % 8, seq := r.1, op := BitVec.ofNat 8 op,
                               pa := pa, width := width, home := none, kept := none, answer := none }] }))

/-- What harbour software does, once the west harbour cores are released (R417, R419). -/
def bySoftware (s : State) (f : State → State) : State := if s.pkg.westUp then f s else s

/-- Released writes of a workgroup sent to other packages that are not acknowledged (R258). -/
def unacked (s : State) (lid wgix : Nat) : Bool := s.pkg.remote.any (fun r => decide (r.home = some (lid, wgix)) && r.answer.isNone)

/-- Change the requests sent since a request number. -/
def stampSent (s : State) (since : Nat) (f : RemoteReq → RemoteReq) : State :=
  modPkg s (fun p => { p with remote := p.remote.map (fun r => if since ≤ r.id then f r else r) })

/-- The writes sent since a request number are a workgroup's, released from a core: a store of a context. -/
def claimSent (s : State) (lid wgix core : Nat) (i : Issuer) (since : Nat) : State :=
  stampSent s since (fun r => if r.ctx.isNone && r.lane == 0 then { r with home := some (lid, wgix), core := some core, issuer := some i } else r)

/-- Requests of a core that are not answered (R176): accesses of one instruction, or of one record, in one 64-byte line are one request (R173). -/
def outstanding (s : State) (core : Nat) : Nat :=
  (((s.pkg.remote.filter (fun r => r.answer.isNone && decide (r.core = some core))).map (fun r => (r.sent, r.ctx, r.home, r.pa / 64))).eraseDups).length

/-- The frame of a decrement: operation add of `.n64` with no operand (DESIGN CHOICE, log 17). -/
def depdecRmw : Nat := 2 ^ 8 * 9

/-- A core has a request free (R176). -/
def requestRoom (s : State) (core : Nat) : Bool := decide (outstanding s core < Config.requestsPerCore)

/-- Lane numbers from which the held accesses of saved contexts count. -/
def parkLane : Nat := 2 ^ 24

/-- Lane number of a completion's accesses to other packages. -/
def masterLane : Nat := 2 ^ 19

/-- A request of the harbourmaster for a launch; it goes on once it is answered. -/
def masterSend (s : State) (lid nwg op pa n rmw : Nat) (payload : List Byte) : State :=
  let r := remoteSend s none masterLane op pa n rmw payload
  stampSent r.2 r.1 (fun y => { y with home := some (lid, nwg) })

/-- The harbourmaster's request of an operation at an address for a launch. -/
def masterAnswer (s : State) (lid nwg op pa : Nat) : Option RemoteReq :=
  s.pkg.remote.find? (fun r => r.lane == masterLane && r.home == some (lid, nwg) && r.op.toNat == op && r.pa == pa)

/-- Take a request off the list. -/
def requestTaken (s : State) (r : RemoteReq) : State := modPkg s (fun p => { p with remote := p.remote.filter (fun y => y.id != r.id) })

/-- Where a read or an update of the harbourmaster in another package's memory stands: sent now or under way, answered with bytes, or refused. -/
inductive MasterGet where
  | held (s : State)
  | bytes (bs : List Byte) (s : State)
  | refused (s : State)

/-- An access of the harbourmaster to another package: it is sent once, and its answer is used once. -/
def masterGet (s : State) (lid nwg op pa n rmw : Nat) (payload : List Byte) : MasterGet :=
  match masterAnswer s lid nwg op pa with
  | none => .held (masterSend s lid nwg op pa n rmw payload)
  | some r =>
    match r.answer with
    | none => .held s
    | some (some bs) => .bytes bs (requestTaken s r)
    | some none => .refused (requestTaken s r)

/-- The held accesses of a copy that is saved stay under way, unchanged (R410). -/
def parkRemote (s : State) (b lid wgix : Nat) (copy : Copy) : State :=
  modPkg s (fun p => { p with remote := p.remote.map (fun r =>
    match r.ctx with
    | some c => if c.berth = b then { r with ctx := none, core := none, lane := r.lane + parkLane, kept := some (lid, wgix, copy, c.who) } else r
    | none => r) })

/-- They are its contexts' again where it is restored. -/
def unparkRemote (s : State) (b lid wgix : Nat) (copy : Copy) : State :=
  modPkg s (fun p => { p with remote := p.remote.map (fun r =>
    match r.kept with
    | some (l, w, k, who) =>
      if l = lid && w = wgix && k = copy then { r with ctx := some { berth := b, who := who }, core := some (b / Config.berthsPerCore), lane := r.lane - parkLane, kept := none } else r
    | none => r) })

/-- Requests of a launch that has no more use for their answers. -/
def disownRemote (s : State) (lid : Nat) : State :=
  modPkg s (fun p => { p with remote := p.remote.map (fun r =>
    if r.kept.any (fun k => k.1 == lid) || (r.lane == masterLane && r.home.any (fun h => h.1 == lid)) then { r with lane := 0, parts := [], kept := none } else r) })

/-- Contexts give up their accesses to other packages: answers have no taker, and a request still under way is nobody's. -/
def orphan (s : State) (test : CtxId → Bool) : State :=
  modPkg s (fun p => { p with remote := p.remote.filterMap (fun r =>
    if r.ctx.any test then (if r.answer.isSome then none else some { r with ctx := none, lane := 0, parts := [] }) else some r) })

/-- Write bytes at a location; a write to another package is sent to it. -/
def locWrite (s : State) (l : Loc) (bs : List Byte) : State :=
  match l with
  | .hbm pa => { s with hbm := cellsWriteN s.hbm pa bs }
  | .quay k => { s with quay := cellsWriteN s.quay k bs }
  | .page r c v o => modRevPage s r c v (fun p => { p with cells := cellsWriteN p.cells o bs })
  | .remote pa => (remoteSend s none 0 1 pa bs.length 0 bs).2

/-- The line a location lies in is poisoned (R403). -/
def locBad (s : State) (l : Loc) : Bool :=
  match l with
  | .hbm pa => s.hbmBad.contains (pa / 64)
  | .quay k => s.quayBad.contains (k / 64)
  | .page r c v o => match revPage s r c v with
    | some p => p.bad.contains (o / 64)
    | none => false
  | .remote _ => false

/-- Mark or clear the line a location lies in. -/
def locMark (s : State) (l : Loc) (b : Bool) : State :=
  let upd := fun (xs : List Nat) (k : Nat) => if b then nsInsert k xs else nsErase k xs
  match l with
  | .hbm pa => { s with hbmBad := upd s.hbmBad (pa / 64) }
  | .quay k => { s with quayBad := upd s.quayBad (k / 64) }
  | .page r c v o => modRevPage s r c v (fun p => { p with bad := upd p.bad (o / 64) })
  | .remote _ => s

/-- The first location of the 64-byte line a location lies in. -/
def locLine : Loc → Loc
  | .hbm pa => .hbm (pa / 64 * 64)
  | .quay k => .quay (k / 64 * 64)
  | .page r c v o => .page r c v (o / 64 * 64)
  | .remote pa => .remote (pa / 64 * 64)

/-- A location n bytes on. -/
def locAdd (l : Loc) (n : Nat) : Loc :=
  match l with
  | .hbm pa => .hbm (pa + n)
  | .quay k => .quay (k + n)
  | .page r c v o => .page r c v (o + n)
  | .remote pa => .remote (pa + n)

/-- Offset of a location in its line. -/
def locOff : Loc → Nat
  | .hbm pa => pa % 64
  | .quay k => k % 64
  | .page _ _ _ o => o % 64
  | .remote pa => pa % 64

/-! ### Translation (R271) -/

/-- A level of the walk: lowest index bit, index bits, alignment of the next table, page size of a leaf (0: no leaf allowed). -/
structure Level where
  shift : Nat
  bits : Nat
  align : Nat
  leaf : Nat

/-- The levels of R271, the root first. -/
def levels : List Level := [⟨48, 9, 4096, 0⟩, ⟨39, 9, 4096, 0⟩, ⟨30, 9, 4096, 2 ^ 30⟩, ⟨21, 9, 256, 2 ^ 21⟩, ⟨16, 5, 0, 65536⟩]

/-- A compute leaf may name HBM or the remote window (R407). -/
def leafPa (pa : Nat) : Bool := paBacked pa || paRemote pa

/-- The entry of a table at a level: held by the walker, or read. -/
def walkEntry (s : State) (held : Nat → Option DWord) (va : Nat) (v : Level) (table : Nat) : Option DWord :=
  let a := table + 8 * (va / 2 ^ v.shift % 2 ^ v.bits)
  match held v.shift with
  | some e => some e
  | none => if paBacked a then some (BitVec.ofNat 64 (cellsNat s.hbm a 8)) else none

/-- Walk from a table, with the entries that a walker holds by level. -/
def walkFrom (s : State) (held : Nat → Option DWord) (va : Nat) : List Level → Nat → Option (DWord × Nat)
  | [], _ => none
  | v :: vs, table =>
    match walkEntry s held va v table with
    | none => none
    | some e =>
      if !eValid e || !eClean e then none
      else if eLeaf e then
        if v.leaf = 0 then none else if ePa e % v.leaf ≠ 0 || !leafPa (ePa e) then none else some (e, v.leaf)
      else if v.align = 0 || ePa e % v.align ≠ 0 then none
      else walkFrom s held va vs (ePa e)

/-- Walk the tables of an address space, with the entries that a walker holds. -/
def walkWith (s : State) (held : Nat → Option DWord) (asid va : Nat) : Option (DWord × Nat) :=
  let root := (spaceOf s asid).ptroot
  if bitAt root 0 then walkFrom s held va levels (4096 * bits root 51 12) else none

/-- Walk the tables of an address space in memory: the leaf and the bytes it maps. -/
def walk (s : State) (asid va : Nat) : Option (DWord × Nat) := walkWith s (fun _ => none) asid va

/-- A translation cached in a TLB (R272, R273). -/
def tlbIn (tlb : List TlbEntry) (asid va : Nat) : Option TlbEntry :=
  tlb.find? (fun t => t.asid == asid && decide (t.page * pageSize ≤ va) && decide (va < t.page * pageSize + t.size))

/-- The entry of a level that a walker holds for an address (R272). -/
def heldIn (ws : List TlbEntry) (asid va shift : Nat) : Option DWord :=
  (tlbIn (ws.filter (fun t => t.size == 2 ^ shift)) asid va).map (fun t => t.leaf)

/-- The entries that the walker of a core's die holds. -/
def walkerOf (s : State) (core : Nat) : List TlbEntry := agetD [] (core / Config.coresPerDie) s.walkers

/-- A walk through the walker of a core's die (R272). -/
def dieWalk (s : State) (core asid va : Nat) : Option (DWord × Nat) := walkWith s (heldIn (walkerOf s core) asid va) asid va

/-- The root, L0 and L1 entries of a walk, as a walker holds them. -/
def walkedFrom (s : State) (held : Nat → Option DWord) (asid va : Nat) : List Level → Nat → List TlbEntry
  | [], _ => []
  | v :: vs, table =>
    match walkEntry s held va v table with
    | none => []
    | some e =>
      if v.shift < 30 || !eValid e || !eClean e then []
      else { asid := asid, page := va / 2 ^ v.shift * 2 ^ v.shift / pageSize, leaf := e, size := 2 ^ v.shift }
        :: (if eLeaf e then [] else walkedFrom s held asid va vs (ePa e))

/-- The walker of a core's die holds the entries of a walk; its oldest ones make room. -/
def walkerFill (s : State) (core asid va : Nat) : State :=
  let ws := walkerOf s core
  let es := (walkedFrom s (heldIn ws asid va) asid va levels (4096 * bits (spaceOf s asid).ptroot 51 12)).filter (fun t => !ws.contains t)
  let all := ws ++ es
  { s with walkers := ainsert (core / Config.coresPerDie) (all.drop (all.length - Config.walkerEntries)) s.walkers }

/-- The leaf that maps an address: cached in a TLB of a core, or walked. -/
def leafOf (s : State) (core : Nat) (tlb : List TlbEntry) (asid va : Nat) : Option (DWord × Nat) :=
  match tlbIn tlb asid va with
  | some t => some (t.leaf, t.size)
  | none => dieWalk s core asid va

/-- Physical address of an access by way of a TLB of a core, with its leaf; `none`: a translation fault. -/
def translateBy (s : State) (core : Nat) (tlb : List TlbEntry) (asid va : Nat) (wrt fet : Bool) : Option (DWord × Nat) :=
  match leafOf s core tlb asid va with
  | none => none
  | some (e, size) =>
    let pa := ePa e + va % size
    if (wrt && !eWrite e) || (fet && !eExec e) || !leafPa pa then none else some (e, pa)

/-- Physical address of an access that the core's TLB serves. -/
def translate (s : State) (core asid va : Nat) (wrt fet : Bool) : Option (DWord × Nat) :=
  translateBy s core (coreOf s core).tlb asid va wrt fet

/-- Physical address of an access that the core's walk-ahead TLB serves. -/
def translateAhead (s : State) (core asid va : Nat) (wrt : Bool) : Option (DWord × Nat) :=
  translateBy s core (coreOf s core).ahead asid va wrt false

/-- A TLB of n entries of a core after it keeps a translation; the oldest entry makes room. -/
def tlbKeep (s : State) (core : Nat) (tlb : List TlbEntry) (n asid va : Nat) : List TlbEntry :=
  match tlbIn tlb asid va with
  | some _ => tlb
  | none =>
    match dieWalk s core asid va with
    | none => tlb
    | some (e, size) =>
      let t := tlb ++ [{ asid := asid, page := va / size * size / pageSize, leaf := e, size := size }]
      t.drop (t.length - n)

/-- A walk that a TLB's miss makes leaves its entries in the walker. -/
def missFill (s : State) (core : Nat) (tlb : List TlbEntry) (asid va : Nat) : State :=
  if (tlbIn tlb asid va).isSome then s else walkerFill s core asid va

/-- Keep a translation in the core's TLB of 1,024 entries. -/
def tlbFill (s : State) (core asid va : Nat) : State :=
  let tlb := (coreOf s core).tlb
  modCore (missFill s core tlb asid va) core (fun c => { c with tlb := tlbKeep s core tlb 1024 asid va })

/-- Keep a translation in the walk-ahead TLB of 256 entries. -/
def aheadFill (s : State) (core asid va : Nat) : State :=
  let tlb := (coreOf s core).ahead
  modCore (missFill s core tlb asid va) core (fun c => { c with ahead := tlbKeep s core tlb 256 asid va })

/-! ### Views of revisions (R280 to R284) -/

/-- An address lies in a declared region. -/
def inRegions (rs : List (Option Region)) (va : Nat) : Bool :=
  rs.any (fun r => match r with
    | some r => decide (r.base.toNat ≤ va) && decide (va < r.base.toNat + r.size.toNat)
    | none => false)

/-- A revision that still holds its versions apart. -/
def revLive (r : Rev) : Bool := match r.state with | .running | .complete => true | _ => false

/-- The nearest revision of a chain of views whose regions hold an address. -/
def effView (s : State) (va : Nat) : Nat → Option Nat → Option Nat
  | 0, _ => none
  | fuel + 1, v =>
    match v with
    | none => none
    | some rid =>
      match alookup rid s.revs with
      | none => none
      | some r => if revLive r && inRegions r.regions va then some rid else effView s va fuel r.outer

/-- Where a view finds the page of an address whose original page is at a physical address. -/
def viewPage (s : State) (va : Nat) (base : Nat) : Nat → Option Nat → Loc
  | 0, _ => .hbm base
  | fuel + 1, v =>
    match effView s va s.nextRev v with
    | none => if paRemote base then .remote base else .hbm base
    | some rid =>
      if paRemote base then .remote base
      else if (revPage s rid true (va / pageSize)).isSome then .page rid true (va / pageSize) (base % pageSize)
      else if (revPage s rid false (va / pageSize)).isSome then .page rid false (va / pageSize) (base % pageSize)
      else viewPage s va base fuel ((alookup rid s.revs).bind (fun r => r.outer))

/-- Where a view finds an address that translates to a physical address. -/
def viewLoc (s : State) (view : Option Nat) (va pa : Nat) : Loc := viewPage s va pa (s.nextRev + 1) view

/-- The copy a write to an address must wait for (R282): the writer's child page, then the ancestor page of every revision forked
from the storage it writes. A write through another page or address space that maps the same physical page makes no copy: the manual is silent on aliases
(DESIGN CHOICE, log 46). -/
def copyNeeded (s : State) (asid : Nat) (view : Option Nat) (va pa : Nat) : Option (Nat × Bool) :=
  if paRemote pa then none
  else
    let me := effView s va s.nextRev view
    let own := match me with
      | some rid => if (revPage s rid true (va / pageSize)).isSome then none else some (rid, true)
      | none => none
    match own with
    | some x => some x
    | none =>
      ((s.revs.find? (fun x => revLive x.2 && x.2.asid == asid && inRegions x.2.regions va
          && (revPage s x.1 false (va / pageSize)).isNone && decide (effView s va s.nextRev x.2.outer = me)
          && decide (some x.1 ≠ me))).map (fun x => (x.1, false)))

/-- The cells and poisoned lines of the 64 KiB page that a location lies in. -/
def pageAt (s : State) (l : Loc) : List Host.Cell × List Nat :=
  match l with
  | .hbm pa =>
    let base := pa / pageSize * pageSize
    (cellsSlice s.hbm base pageSize, (s.hbmBad.filter (fun k => k / 1024 == base / pageSize)).map (fun k => k % 1024))
  | .page r c v _ => match revPage s r c v with
    | some p => (p.cells, p.bad)
    | none => ([], [])
  | _ => ([], [])

/-- The sorting office copies a page (R282): A into the child page, or what the parent side sees into the ancestor page. -/
def copyPage (s : State) (rev vpn : Nat) (child : Bool) (pa : Nat) : State :=
  match alookup rev s.revs with
  | none => s
  | some r =>
    let va := vpn * pageSize
    let base := pa / pageSize * pageSize
    let src := match revPage s rev false vpn with
      | some p => (p.cells, p.bad)
      | none => pageAt s (viewPage s va base (s.nextRev + 1) r.outer)
    if (revPage s rev child vpn).isSome then s
    else
      let p : RevPage := { page := vpn, cells := src.1, bad := src.2 }
      { s with revs := s.revs.map (fun x =>
          if x.1 = rev then (x.1, if child then { x.2 with childPages := x.2.childPages ++ [p] } else { x.2 with ancPages := x.2.ancPages ++ [p] })
          else x) }

/-- Make every copy a write needs, for an agent that waits for them at its progress point. -/
def copyAll (s : State) (asid : Nat) (view : Option Nat) (va pa : Nat) : Nat → State
  | 0 => s
  | fuel + 1 =>
    match copyNeeded s asid view va pa with
    | none => s
    | some (rev, child) => copyAll (copyPage s rev (va / pageSize) child pa) asid view va pa fuel

/-- Before a write by physical address, which is parent-side (R280): ancestor pages of the revisions whose parent sees the original page. -/
def copyForPa (s : State) (pa : Nat) : State :=
  s.revs.foldl (fun s x =>
    if !revLive x.2 then s
    else
      x.2.regions.foldl (fun s r =>
        match r with
        | none => s
        | some r =>
          (List.range (r.size.toNat / pageSize)).foldl (fun s k =>
            let va := r.base.toNat + k * pageSize
            match (if (effView s va s.nextRev x.2.outer).isSome then none else walk s x.2.asid va) with
            | some (e, size) =>
              if (ePa e + va % size) / pageSize = pa / pageSize && (revPage s x.1 false (va / pageSize)).isNone
              then copyPage s x.1 (va / pageSize) false pa else s
            | none => s) s) s) s

/-! ### Bytes by physical address (R407) -/

/-- The bytes at a physical address; where no stack backs it, the manual gives none (R268; log 25). -/
def paRead (s : State) (pa n : Nat) : List Byte :=
  if paBacked pa then cellsReadN s.hbm pa n else tabulate n (fun k => Config.unbackedByte s.steps (pa + k))
/-- The number at a physical address. -/
def paNat (s : State) (pa n : Nat) : Nat := leNat (paRead s pa n)
/-- The device's own writes to harbour memory; where no stack backs the address there is nothing to write (log 25). -/
def paWrite (s : State) (pa : Nat) (bs : List Byte) : State :=
  if paBacked pa then { s with hbm := cellsWriteN s.hbm pa bs } else s

/-- A line is wholly covered by the bytes one store instruction wrote: its mark is cleared (R270, R403). -/
def clearCovered (s : State) (writes : List (Loc × Nat)) : State :=
  writes.foldl (fun s w =>
    let line := locLine w.1
    if locBad s line && (List.range 64).all (fun o => writes.any (fun x =>
        decide (locLine x.1 = line) && decide (locOff x.1 ≤ o) && decide (o < locOff x.1 + x.2)))
    then locMark s line false else s) s

/-! ### The Quay (R260, R261, R171) -/

/-- A workgroup of the core runs under DET or IDEM, so that the staging area is present. -/
def stagingPresent (s : State) (core : Nat) : Bool :=
  s.wgs.any (fun x => berthCore x.1 == core && (isDet x.2 || isIdem x.2))

/-- First byte of the pinned tiles of resident data (log 14). -/
def pinnedBase (s : State) (core : Nat) : Nat := 0xFC000 - 4096 * (coreOf s core).pinned

/-- An offset lies in a workgroup's window. -/
def inWindow (g : WG) (o : Nat) : Bool := decide (g.wbase ≤ o) && decide (o < g.wbase + hQuayb g.hdr)

/-- A Quay byte that R171 lets a workgroup reach by logical address: its own window, or pinned tiles of resident data. -/
def quayReach (s : State) (b : Nat) (g : WG) (key : Nat) : Bool :=
  (berthCore b == key / 2 ^ 20 && inWindow g (key % 2 ^ 20))
    || (decide (pinnedBase s (key / 2 ^ 20) ≤ key % 2 ^ 20) && decide (key % 2 ^ 20 < 0xFC000))

/-- A Quay byte in the workgroup's own window. -/
def ownWindow (b : Nat) (g : WG) (key : Nat) : Bool := berthCore b == key / 2 ^ 20 && inWindow g (key % 2 ^ 20)

/-- The key of a logical Quay address of a partition (R260). -/
def logicalKey (s : State) (p : Nat) (la : Nat) : Option Nat :=
  let q := partOf s p
  if la / 2 ^ 20 < Config.coresPerDie * partDies q then some (sliceCore q (la / 2 ^ 20) * 2 ^ 20 + la % 2 ^ 20) else none

/-- The logical Quay address of a key (R260). -/
def keyLogical (s : State) (p key : Nat) : Nat := (coreSlice (partOf s p) (key / 2 ^ 20)).getD 0 * 2 ^ 20 + key % 2 ^ 20

/-- The tile of a Quay byte is owned by the engines (R199). -/
def engOwned (s : State) (key : Nat) : Bool := s.engTiles.contains (key / 4096)

/-- Flip tiles. -/
def setTiles (s : State) (eng : Bool) (tiles : List Nat) : State :=
  { s with engTiles := tiles.foldl (fun ts t => if eng then nsInsert t ts else nsErase t ts) s.engTiles }

/-! ### The rebuild table (R384) -/

/-- Physical address of the rebuild entry of a page. -/
def rebuildEntry (s : State) (asid vpn : Nat) : Option Nat :=
  let cfg := (spaceOf s asid).rbtcfg
  let z := bits cfg 4 0
  let base := 64 * bits cfg 51 6
  if z < 4 || 20 < z || vpn = 0 then none
  else
    let h := (vpn % 2 ^ 32 * 0x9E3779B1) % 2 ^ 32 / 2 ^ (32 - z)
    let probe := (List.range 8).map (fun i => base + 64 * ((h + i) % 2 ^ z))
    match probe.find? (fun a => paNat s a 8 == vpn * pageSize || paNat s a 8 == 0) with
    | some a => if paNat s a 8 = vpn * pageSize then some a else none
    | none => none

/-- A rebuild of the page is in progress. -/
def rebuildBusy (s : State) (asid vpn : Nat) : Bool :=
  match rebuildEntry s asid vpn with
  | some a => decide (paNat s (a + 16) 1 % 2 = 1)
  | none => false

/-- The last rebuild of the page has failed (R384, R387). -/
def rebuildFailed (s : State) (asid vpn : Nat) : Bool :=
  match rebuildEntry s asid vpn with
  | some a => decide (paNat s (a + 16) 1 / 2 % 2 = 1)
  | none => false

/-- An access that a launch makes through the device to a page under rebuild waits, unless the launch is the one that rebuilds it (R385, R386). -/
def pageHeld (s : State) (lid asid va : Nat) : Bool :=
  (match walk s asid va with | some (e, _) => eRb e | none => false) && rebuildBusy s asid (va / pageSize)
    && decide ((launchOf s lid).bind (fun l => l.rebuilds) ≠ some (asid, va / pageSize))

end Sys2Proof.Machine
end

