-- ==== Sys2Proof/Machine/Layout.lean ====
section
/-! DEFINITION. Layout: the bytes of a save image (R400), section by section, as what is written at each offset, and what a section's bytes say when they
are read back. A byte that nothing is written to is 0. Positions of fields within a section are the model's choice (log 23). -/

namespace Sys2Proof.Machine

/-- Bytes at offsets of a section. -/
abbrev Pieces := List (Nat × List Byte)

/-- Pieces as cells, their addresses counted from the section's start. -/
def pieceCells (ps : Pieces) : List Host.Cell := ps.foldl (fun m p => cellsWriteN m p.1 p.2) []

/-- Little-endian fields one after the other: width in bytes and value. -/
def packLe (xs : List (Nat × Nat)) : List Byte := (xs.map (fun x => natLe x.1 (x.2 % 256 ^ x.1))).flatten

/-- Pieces of the parts of a section, each part from its own offset on. -/
def partsAt (offset : Nat → Nat) (parts : List Pieces) : Pieces :=
  ((tabulate parts.length (fun n => n)).zip parts).map (fun x => x.2.map (fun p => (offset x.1 + p.1, p.2))) |>.flatten

/-- The next multiple of 64. -/
def up64 (n : Nat) : Nat := (n + 63) / 64 * 64

/-- Two ranges overlap; an empty one overlaps nothing. -/
def overlaps (a n b m : Nat) : Bool := decide (0 < n) && decide (0 < m) && decide (a < b + m) && decide (b < a + n)

/-! ### Bindings by logical name (R198, R399) -/

/-- A binding as an image records it: the descriptor by its window offset where it lies in the workgroup's own window, else by its logical address. -/
def savedBind (s : State) (b : Nat) (g : WG) (q : Binding) : Binding :=
  match q.win with
  | some o => { q with desc := o }
  | none =>
    if decide (winKey b g 0 ≤ q.desc) && decide (q.desc < winKey b g 0 + hQuayb g.hdr) then { q with desc := q.desc - winKey b g 0, win := some (q.desc - winKey b g 0) }
    else { q with desc := keyLogical s g.part q.desc }

/-- A recorded binding in a workgroup's place: a descriptor named by window offset moves with the window; one at a logical address that the partition has
not names no queue (log 23). -/
def moveBind (s : State) (part b wbase : Nat) (q : Binding) : Option Binding :=
  match q.win with
  | some o => some { q with desc := berthCore b * 2 ^ 20 + wbase + o }
  | none => (logicalKey s part q.desc).map (fun k => { q with desc := k })

/-! ### Contexts -/

/-- The verdict code of a context in the header: 0 none, 1 a fault and 2 a rebuild still to be answered, 3 a refused fault, 4 a failed rebuild. -/
def verdictCode (c : Ctx) : Nat :=
  match c.blocked with
  | some (.fault _ _ _) => 1
  | some (.rebuild _ _ _) => 2
  | some (.refused 0x09 _ _) => 3
  | some (.refused _ _ _) => 4
  | _ => 0

/-- What a hold is about: the address, the lanes, the record's number or the page. -/
def holdBytes (c : Ctx) : List Byte :=
  let x : Nat × Nat × Nat := match c.blocked with
    | some (.fault n a m) => (a.toNat, m.toNat, n.toNat)
    | some (.rebuild p a m) => (a.toNat, m.toNat, p)
    | some (.refused _ a m) => (a.toNat, m.toNat, 0)
    | _ => (0, 0, 0)
  packLe [(8, x.1), (16, x.2.1), (8, x.2.2)]

/-- The hold that a verdict code and those bytes say. -/
def holdBack (code : Nat) (m : List Host.Cell) (o : Nat) : Option Block :=
  let a : DWord := BitVec.ofNat 64 (cellsNat m o 8)
  let lanes : LaneMask := BitVec.ofNat 128 (cellsNat m (o + 8) 16)
  match code with
  | 1 => some (.fault (BitVec.ofNat 32 (cellsNat m (o + 24) 8)) a lanes)
  | 2 => some (.rebuild (cellsNat m (o + 24) 8) a lanes)
  | 3 => some (.refused 0x09 a lanes)
  | 4 => some (.refused 0x15 a lanes)
  | _ => none

/-- A trap context of 48 bytes: in a handler, cause, the entry that `rft` moves, detail, `TEPC`, `TLANE`, `LKVAL`, `TMASK`. -/
def trapCtxBytes (h : Option Handler) : List Byte :=
  match h with
  | none => []
  | some h => packLe [(1, 1), (1, h.trap.cause.toNat), (2, 0), (4, h.entry.toNat), (8, h.trap.detail.toNat), (8, h.trap.epc.toNat), (4, h.trap.tlane.toNat),
      (4, h.trap.lkval.toNat), (16, h.trap.tmask.toNat)]

/-- A handler from its trap context; what it set aside stays, with the frontier entries that the section has for it. -/
def trapCtxBack (m : List Host.Cell) (o : Nat) (aside : List FEntry) (h : Option Handler) : Option Handler :=
  if cellsNat m o 1 % 2 = 0 then none
  else
    let t : TrapCtx := { cause := BitVec.ofNat 6 (cellsNat m (o + 1) 1), detail := BitVec.ofNat 64 (cellsNat m (o + 8) 8), epc := BitVec.ofNat 64 (cellsNat m (o + 16) 8),
                         tlane := BitVec.ofNat 32 (cellsNat m (o + 24) 4), lkval := BitVec.ofNat 32 (cellsNat m (o + 28) 4), tmask := BitVec.ofNat 128 (cellsNat m (o + 32) 16) }
    let old : Handler := h.getD { trap := t, frontier := aside, spilled := 0, latches := [], entry := 0, landings := [] }
    some { old with trap := t, frontier := aside, entry := BitVec.ofNat 32 (cellsNat m (o + 4) 4) }

/-- A pending trap record of 48 bytes: its context, cause, and what point it names. -/
def pendBytes (w : Who) (t : PendTrap) : List Byte :=
  let who := match w with | .pilot => 0x80 | .crew n => n
  let point : Nat × Nat := match t.entry, t.slot with
    | some e, _ => (1, e.toNat)
    | none, some p => (2, p.toNat)
    | none, none => (0, 0)
  packLe [(1, who), (1, t.cause.toNat), (1, point.1), (1, 0), (4, t.tlane.toNat), (8, t.detail.toNat), (8, point.2), (16, t.tmask.toNat), (4, t.lkval.toNat)]

/-- A pending trap record as read. -/
def pendBack (m : List Host.Cell) (o : Nat) : Nat × PendTrap :=
  let point := cellsNat m (o + 16) 8
  (cellsNat m o 1,
   { cause := BitVec.ofNat 6 (cellsNat m (o + 1) 1), detail := BitVec.ofNat 64 (cellsNat m (o + 8) 8), tlane := BitVec.ofNat 32 (cellsNat m (o + 4) 4),
     tmask := BitVec.ofNat 128 (cellsNat m (o + 24) 16), lkval := BitVec.ofNat 32 (cellsNat m (o + 40) 4),
     entry := if cellsNat m (o + 2) 1 = 1 then some (BitVec.ofNat 32 point) else none,
     slot := if cellsNat m (o + 2) 1 = 2 then some (BitVec.ofNat 64 point) else none })

/-! ### Header -/

/-- `state` of the header: 0 running, 1 halted, 2 in a handler, 3 held. -/
def stateCode (g : WG) : Nat :=
  if g.run ≠ .running then 1
  else if (whos g).any (fun w => (ctxIn g w).any (fun c => c.blocked.isSome)) then 3
  else if (whos g).any (fun w => (ctxIn g w).any (fun c => c.handler.isSome)) then 2
  else 0

/-- Bytes of the sections before one. -/
def sectionAt (v : Saved) (k : Nat) : Nat := v.lens.take k |>.foldl (· + ·) 0

/-- Bytes of an image. -/
def imageLen (v : Saved) : Nat := sectionAt v 12

/-- The header of an image: `HVER`, launch id, `WGIX`, the header's sizes, mode, state, the copy of a pair; section offsets; the verdicts, four bits a
context, the pilot's first; the address of the other copy's image; the owner bits of the window's tiles, for which R400's window section has no
room. All else is reserved. -/
def headerPieces (v : Saved) (id : Word) : Pieces :=
  let g := v.wg
  let copy := match g.copy with | .single => 0 | .lead => 1 | .trail => 2
  let verdicts := (((whos g).filterMap (ctxIn g)).map verdictCode).foldr (fun c a => c + 16 * a) 0
  [(0, packLe [(2, 1), (2, 0), (4, id.toNat), (4, g.wgix), (4, hLanes g.hdr), (4, hRegs g.hdr), (4, hQuayb g.hdr), (2, hTagn g.hdr), (2, hAccn g.hdr), (4, hFspill g.hdr),
      (1, g.mode.toNat), (1, stateCode g), (1, copy)]),
   (64, packLe ((List.range 12).map (fun k => (8, sectionAt v k)))),
   (160, packLe [(33, verdicts)]), (200, packLe [(8, v.link)]), (224, packLe [(32, v.engTiles.foldl (fun a t => a + 2 ^ t) 0)])]

/-! ### Pilot -/

/-- Handle states in two bits: running, complete, merged with status 0 or 1. -/
def handleCode (h : HandleState) : Nat := match h with | .running => 0 | .complete => 1 | .merged n => min 3 (2 + n) | .settled => 0

/-- Offset of the pending trap records in the pilot's section, and how many have room there. -/
def pendAt (v : Saved) : Nat × Nat :=
  let o := 904 + 4 * v.handles.length + (v.handles.length + 3) / 4
  (o, (2048 - o) / 48)

/-- Pending traps of a workgroup, context by context. -/
def pendsOf (g : WG) : List (Who × PendTrap) :=
  ((whos g).map (fun w => (((ctxIn g w).map (fun c => c.traps)).getD []).map (fun t => (w, t)))).flatten

/-- The pilot's section: `s0` to `s63`, c-bits, record counts, code pointer, `LOST` bits of all contexts, trap context, hold, the trap and
checkpoint registers, the region table, the handles with their states, and the pending traps of all contexts. -/
def pilotPieces (v : Saved) : Pieces :=
  let g := v.wg
  let p := g.pilot
  let pends := (pendsOf g).take (pendAt v).2
  let region := fun (r : Option Region) => match r with
    | some r => packLe [(6, r.base.toNat / 65536), (6, r.size.toNat / 65536), (1, r.mtype.toNat), (3, 1)]
    | none => []
  [(0, packLe ((tabulate 64 (fun k => (8, (p.sregs.getD k 0).toNat))) ++ [(1, p.cbits.toNat), (1, 0), (1, pends.length), (1, v.handles.length)])),
   (520, packLe [(8, p.pc.toNat), (16, (((whos g).filterMap (ctxIn g)).map (fun c => c.lost.toNat)).foldr (fun b a => b + 2 * a) 0)]),
   (544, trapCtxBytes p.ctx.handler), (592, holdBytes p.ctx),
   (624, packLe [(4, g.tvec.toNat), (4, g.tdiag.toNat), (8, g.ptvec.toNat), (4, g.ckcnt.toNat)])]
    ++ ((tabulate 16 (fun n => (644 + 16 * n, region (p.regions.getD n none)))))
    ++ [(900, packLe [(4, p.lastHandle)]), (904, packLe (v.handles.map (fun h => (4, h.1)))),
        (904 + 4 * v.handles.length, packLe [((v.handles.length + 3) / 4, v.handles.foldr (fun h a => handleCode h.2 + 4 * a) 0)])]
    ++ (tabulate pends.length (fun n => ((pendAt v).1 + 48 * n, ((pends[n]?).map (fun t => pendBytes t.1 t.2)).getD [])))

/-- The section's pilot registers, traps and holds read back; the handles are the sorting office's and are not. -/
def pilotBack (m : List Host.Cell) (v : Saved) : Saved :=
  let g := v.wg
  let read := (tabulate (cellsNat m 514 1) (fun n => pendBack m ((pendAt v).1 + 48 * n)))
  let code := fun (w : Who) => match w with | .pilot => 0x80 | .crew n => n
  let index := fun (w : Who) => match w with | .pilot => 0 | .crew n => n + 1
  let traps := fun (w : Who) => (read.filter (fun t => t.1 == code w)).map (fun t => t.2)
    ++ (((pendsOf g).drop (pendAt v).2).filter (fun t => decide (t.1 = w))).map (fun t => t.2)
  let region := fun (o : Nat) => if cellsNat m (o + 13) 1 % 2 = 0 then none else
    some { base := BitVec.ofNat 64 (65536 * cellsNat m o 6), size := BitVec.ofNat 64 (65536 * cellsNat m (o + 6) 6), mtype := BitVec.ofNat 4 (cellsNat m (o + 12) 1) : Region }
  let p := g.pilot
  let g : WG := { g with
    pilot := { p with
      sregs := tabulate 64 (fun k => BitVec.ofNat 64 (cellsNat m (8 * k) 8)), cbits := BitVec.ofNat 8 (cellsNat m 512 1), pc := BitVec.ofNat 64 (cellsNat m 520 8),
      ctx := { p.ctx with handler := trapCtxBack m 544 [] p.ctx.handler, blocked := holdBack (verdictCode p.ctx) m 592 },
      regions := tabulate 16 (fun n => region (644 + 16 * n)), lastHandle := cellsNat m 900 4 },
    tvec := BitVec.ofNat 32 (cellsNat m 624 4), tdiag := BitVec.ofNat 32 (cellsNat m 628 4), ptvec := BitVec.ofNat 64 (cellsNat m 632 8), ckcnt := BitVec.ofNat 32 (cellsNat m 640 4) }
  { v with wg := (whos g).foldl (fun g w => modCtxIn g w (fun c => { c with traps := traps w, lost := bitAt (BitVec.ofNat 128 (cellsNat m 528 16)) (index w) })) g }

/-! ### Crews -/

/-- Entries of a crew's frontiers: of the set-aside one, then of the present one (R393, R400). -/
def crewEntries (c : Crew) : Nat := ((c.ctx.handler.map (fun h => h.frontier.length + h.spilled)).getD 0) + c.frontier.length + c.spilled

/-- Bytes of a crew's section. -/
def crewSize (c : Crew) : Nat := up64 (2304 + 32 * crewEntries c + 512 * c.regs.length)

/-- The lanes of a register, 4 bytes each. -/
def laneBytes (ws : LaneWords) : List Byte := (tabulate 128 (fun l => natLe 4 (laneWord ws l).toNat)).flatten

/-- The lanes of a register in 512 bytes. -/
def lanesAt (m : List Host.Cell) (o : Nat) : LaneWords := lanes (fun l => BitVec.ofNat 32 (cellsNat m (o + 4 * l) 4))

/-- The frontiers whose entries an image holds outside the window. -/
def entryLists (c : Crew) : List FEntry × List FEntry := ((c.ctx.handler.map (fun h => h.frontier)).getD [], c.frontier)

/-- The age of a latch entry. -/
def ageByte (x : Latch) : Nat := match x.age with | some n => min n 254 | none => 255

/-- A crew's section: the map of its names, `FPX`, latch ages, frontier counts, trap context, `p1` to `p7`, `L0` to `L2`, `DRAW`, hold, entries, values.
The entries that are spilled stand in the window. -/
def crewPieces (c : Crew) : Pieces :=
  let e := entryLists c
  let latch := fun (k : Nat) => c.latches.getD k { val := [], age := none }
  let entries := e.1 ++ e.2
  [(0, packLe [(28, c.regs.foldl (fun a r => a + 2 ^ r.1) 0), (1, c.fpx.toNat), (1, ageByte (latch 0)), (1, ageByte (latch 1)), (1, ageByte (latch 2)),
      (2, e.1.length), (2, e.2.length)]),
   (40, trapCtxBytes c.ctx.handler), (96, packLe (tabulate 7 (fun k => (16, (c.preds.getD (k + 1) 0).toNat)))),
   (208, laneBytes (latch 0).val), (720, laneBytes (latch 1).val), (1232, laneBytes (latch 2).val), (1744, laneBytes c.draw), (2256, holdBytes c.ctx),
   (2304, packLe (entries.map (fun x => (32, spillBits x))))]
    ++ (tabulate c.regs.length (fun k => (2304 + 32 * crewEntries c + 512 * k, ((c.regs[k]?).map (fun r => laneBytes r.2)).getD [])))

/-- A crew as its section has it; `DRAW`, latches and values of names that the section holds. -/
def crewBack (m : List Host.Cell) (c : Crew) : Crew :=
  let e := entryLists c
  let entry := fun (k : Nat) => spillEntry (cellsNat m (2304 + 32 * k) 32)
  let names := (List.range 224).filter (fun k => cellsNat m 0 28 / 2 ^ k % 2 = 1)
  let present := tabulate e.2.length (fun k => entry (e.1.length + k))
  { c with
    fpx := BitVec.ofNat 5 (cellsNat m 28 1),
    latches := tabulate 3 (fun k => { val := lanesAt m (208 + 512 * k), age := if cellsNat m (29 + k) 1 = 255 then none else some (cellsNat m (29 + k) 1) }),
    preds := c.preds.take 1 ++ tabulate 7 (fun k => BitVec.ofNat 128 (cellsNat m (96 + 16 * k) 16)),
    draw := lanesAt m 1744,
    ctx := { c.ctx with handler := trapCtxBack m 40 (tabulate e.1.length entry) c.ctx.handler, blocked := holdBack (verdictCode c.ctx) m 2256 },
    frontier := present,
    regs := (names.zip (tabulate names.length (fun k => k))).map (fun x => (x.1, lanesAt m (2304 + 32 * crewEntries c + 512 * x.2))) }

/-- Offset of a crew's part. -/
def crewAt (v : Saved) (n : Nat) : Nat := (v.wg.crews.take n).foldl (fun a c => a + crewSize c) 0

/-! ### Bindings -/

/-- Entries in transit of all bindings, with the names. -/
def transitOf (g : WG) : List (Nat × QEntry) :=
  (((tabulate g.binds.length (fun n => n)).zip g.binds).map (fun x => ((x.2.map (fun q => q.transit)).getD []).map (fun y => (x.1, y)))).flatten

/-- A binding in 64 bytes: valid, named by window offset, wide, entries in transit, `HEAD`, `TAIL`, the descriptor's offset or logical address. -/
def bindBytes (q : Option Binding) : List Byte :=
  match q with
  | none => []
  | some q => packLe [(1, 1), (1, q.win.isSome.toNat), (1, q.wide.toNat), (1, q.transit.length), (4, q.head.toNat), (4, q.tail.toNat), (8, q.desc)]

/-- The bindings' section. -/
def bindPieces (g : WG) : Pieces :=
  (tabulate g.binds.length (fun n => (64 * n, bindBytes (g.binds.getD n none))))
    ++ (tabulate (transitOf g).length (fun k => (1024 + 544 * k, match (transitOf g)[k]? with
        | some (n, y) => packLe [(1, n), (3, 0), (4, y.bytes.length), (8, 0), (16, y.mask.toNat)] ++ y.bytes
        | none => [])))

/-- A binding as its 64 bytes have it: one that was not there before is to be made from its descriptor (`cap` 0 marks it). -/
def bindRead (m : List Host.Cell) (o : Nat) (q : Option Binding) : Option Binding :=
  if cellsNat m o 1 % 2 = 0 then none
  else
    let d := cellsNat m (o + 12) 8
    let win := if cellsNat m (o + 1) 1 % 2 = 1 then some d else none
    let fresh : Binding := { desc := d, win := win, wide := false, psc := 0, csc := 0, cap := 0, roff := 0, soff := 0, head := 0, tail := 0, transit := [], group := none }
    let old := match q with | some q => if q.desc = d ∧ q.win = win then q else { fresh with transit := q.transit } | none => fresh
    some { old with wide := cellsNat m (o + 2) 1 % 2 = 1, head := BitVec.ofNat 32 (cellsNat m (o + 4) 4), tail := BitVec.ofNat 32 (cellsNat m (o + 8) 4) }

/-- The bindings as their section has them, with the entries in transit. -/
def bindsBack (m : List Host.Cell) (g : WG) : WG :=
  let sent := tabulate (transitOf g).length (fun k =>
    let o := 1024 + 544 * k
    (cellsNat m o 1, ({ bytes := cellsReadN m (o + 32) (cellsNat m (o + 4) 4), mask := BitVec.ofNat 128 (cellsNat m (o + 16) 16) } : QEntry)))
  { g with binds := tabulate g.binds.length (fun n => (bindRead m (64 * n) (g.binds.getD n none)).map (fun q =>
      { q with transit := (sent.filter (fun x => x.1 == n)).map (fun x => x.2) })) }

/-! ### Barriers and tags -/

/-- Arrivals at a barrier: bit 0 the pilot, bit n + 1 crew n. -/
def arrivals (g : WG) (k : Nat) : Nat :=
  (decide (g.pilot.park = some (.barrier k))).toNat
    + 2 * (g.crews.map (fun c => (c.frontier.any (fun e => decide (e.park = some (.barrier k)))).toNat)).foldr (fun b a => b + 2 * a) 0

/-- The barriers' section: of each of b0 to b15 the generation, the arrivals, and the cycles its timer has left, 0 for no timer. -/
def barPieces (v : Saved) : Pieces :=
  let left := fun (k : Nat) => match v.timers.getD k none with | some t => hTimeout v.wg.hdr - t + 1 | none => 0
  tabulate v.wg.bars.length (fun k => (16 * k, packLe [(1, ((v.wg.bars[k]?).map (fun x => x.gen)).getD 0), (9, arrivals v.wg k), (6, left k)]))

/-- The barriers as their section has them: generations, timers, and the pilot's arrival; a crew's arrivals stand in its frontier. -/
def barsBack (m : List Host.Cell) (v : Saved) : Saved :=
  let timer := fun (k : Nat) => match cellsNat m (16 * k + 10) 6 with | 0 => none | n + 1 => some (hTimeout v.wg.hdr - n)
  let park : Option Park := match (List.range 16).find? (fun k => cellsNat m (16 * k + 1) 1 % 2 = 1) with
    | some k => some (.barrier k)
    | none => match v.wg.pilot.park with | some .ckpt => some .ckpt | _ => none
  { v with
    timers := (tabulate v.wg.bars.length timer) ++ v.timers.drop v.wg.bars.length,
    wg := { v.wg with pilot := { v.wg.pilot with park := park },
                      bars := tabulate v.wg.bars.length (fun k => { gen := cellsNat m (16 * k) 1, start := ((v.wg.bars[k]?).bind (fun x => x.start)) }) } }

/-- The tags' section: `TAGS`, the error code of each tag, and for each tag the commands in flight that name it, by their places in the engines'
section. -/
def tagPieces (v : Saved) : Pieces :=
  let mask := fun (t : Nat) => ((tabulate v.cmds.length (fun k => k)).zip v.cmds).foldl (fun a x => if x.2.2.tag = some t ∧ x.1 < 32 then a + 2 ^ x.1 else a) 0
  [(0, packLe ((8, v.wg.tags.toNat) :: tabulate 64 (fun t => (1, agetD 0 t v.wg.tagErr)))), (72, packLe (tabulate 64 (fun t => (4, mask t))))]

/-- The tags as their section has them. -/
def tagsBack (m : List Host.Cell) (v : Saved) : Saved :=
  { v with wg := { v.wg with tags := BitVec.ofNat 64 (cellsNat m 0 8),
                             tagErr := (List.range 64).filterMap (fun t => if cellsNat m (8 + t) 1 = 0 then none else some (t, cellsNat m (8 + t) 1)) } }

/-! ### Accumulators -/

/-- An accumulator: 128 rows of 128 words, sticky error, poison. -/
def accPieces (a : Acc) : Pieces :=
  (tabulate a.rows.length (fun r => (512 * r, packLe ((a.rows.getD r []).map (fun w => (4, w.toNat)))))) ++ [(65536, packLe [(1, a.err.toNat), (1, a.poison.toNat)])]

/-- An accumulator as its part has it. -/
def accBack (m : List Host.Cell) : Acc :=
  { rows := tabulate 128 (fun r => tabulate 128 (fun c => BitVec.ofNat 32 (cellsNat m (512 * r + 4 * c) 4))), err := cellsNat m 65536 1 = 1, poison := cellsNat m 65537 1 = 1 }

/-! ### Engines -/

/-- The code of a context, and of an engine. -/
def whoByte (w : Who) : Nat := match w with | .pilot => 0x80 | .crew n => n
/-- The code of an engine. -/
def engineByte (k : Engine) : Nat := match k with | .lighter => 0 | .crane => 1 | .buoy => 2

/-- A command in 128 bytes: the command, its progress register (R213), and the first of its bound control blocks; others, and the operand registers of
the crane, have no room there (log 23). -/
def cmdPieces (k : Engine) (x : Cmd) : Pieces :=
  let flags := x.started.toNat + 2 * x.edge.toNat + 4 * x.writes.toNat + 8 * x.flipped.toNat + 16 * x.bufBad.toNat + 32 * x.ring.toNat + 64 * x.fin.isSome.toNat
  let fin := x.fin.getD (0, 0, false)
  [(0, packLe [(1, engineByte k), (1, x.opc), (1, whoByte x.who), (1, match x.tag with | some t => t | none => 255), (1, tyCode x.ty), (1, x.sub.toNat), (1, flags),
      (1, match x.cq with | some q => q.1 | none => 255), (4, x.seq), (4, x.cs.toNat), (8, x.a.toNat), (8, x.b.toNat), (8, x.c.toNat), (8, x.done), (1, x.phase), (1, fin.1),
      (1, fin.2.2.toNat), (1, 0), (4, x.term), (4, match x.row with | some r => r + 1 | none => 0), (4, fin.2.1)]),
   (64, match x.bound with | w :: _ => natLe 64 w.toNat | [] => [])]

/-- A command as its part has it. -/
def cmdBack (m : List Host.Cell) (x : Cmd) : Cmd :=
  let n := cellsNat m
  let flag := fun (k : Nat) => decide (n 6 1 / 2 ^ k % 2 = 1)
  { x with
    opc := n 1 1, tag := if n 3 1 = 255 then none else some (n 3 1), ty := (tyOfCode (n 4 1)).getD x.ty, sub := BitVec.ofNat 2 (n 5 1),
    started := flag 0, edge := flag 1, writes := flag 2, flipped := flag 3, bufBad := flag 4, ring := flag 5,
    seq := n 8 4, cs := BitVec.ofNat 20 (n 12 4), a := BitVec.ofNat 64 (n 16 8), b := BitVec.ofNat 64 (n 24 8), c := BitVec.ofNat 64 (n 32 8), done := n 40 8,
    phase := n 48 1, term := n 52 4, row := if n 56 4 = 0 then none else some (n 56 4 - 1), fin := if flag 6 then some (n 49 1, n 60 4, n 50 1 % 2 = 1) else none,
    bound := match x.bound with | _ :: ws => BitVec.ofNat 512 (n 64 64) :: ws | [] => [] }

/-! ### Taps -/

/-- Bytes of an armed tap. -/
def tapSize (t : Tap) : Nat := up64 (64 + 64 + 16 * t.sums.length)

/-- Taps that are armed, with their names. -/
def armed (g : WG) : List (Nat × Tap) := ((tabulate g.taps.length (fun n => n)).zip g.taps).filterMap (fun x => x.2.map (fun t => (x.1, t)))

/-- A tap's part: name, point, probe index, count of sums; the bound entry; the open sums. -/
def tapPieces (n : Nat) (t : Tap) : Pieces :=
  [(0, packLe [(1, n), (1, t.look.toNat), (2, 0), (4, t.sums.length), (8, t.probe)]), (64, natLe 64 t.entry.toNat),
   (128, packLe (t.sums.map (fun o => [(4, o.slot), (4, match o.row with | some r => r + 1 | none => 0), (4, o.next), (4, o.acc.toNat)])).flatten)]

/-- A tap as its part has it. -/
def tapBack (m : List Host.Cell) (t : Tap) : Tap :=
  let n := cellsNat m
  { t with look := n 1 1 % 2 = 1, probe := n 8 8, entry := BitVec.ofNat 512 (n 64 64),
           sums := tabulate t.sums.length (fun k =>
             let o := 128 + 16 * k
             { slot := n o 4, row := if n (o + 4) 4 = 0 then none else some (n (o + 4) 4 - 1), next := n (o + 8) 4, acc := BitVec.ofNat 32 (n (o + 12) 4) }) }

/-! ### Buoy array (R339) -/

/-- Offsets of the array's parts: node words, resident entries, the boundary map, and the links. -/
def buoyNodes : Nat := 64 + 2 * 512 + 2 * 4096 + 4 * 4096
/-- Offset of the resident entries. -/
def buoyEntries : Nat := buoyNodes + 16 * 4096
/-- Offset of the boundary map. -/
def buoyMap : Nat := buoyEntries + 4 * 65536
/-- Offset of the links. -/
def buoyLinks : Nat := buoyMap + 4 * 4096

/-- Bytes of a link: 64, and 512 for each label that it keeps, with the label's number. -/
def linkSize (l : Link) : Nat := 64 + 576 * l.labels.length

/-- Bytes of a buoy array's section: the state of R339, with its links and their history. -/
def buoySize (y : Buoy) : Nat := buoyLinks + y.links.foldl (fun a l => a + linkSize l) 0

/-- A coupling entry's word (R230). -/
def couplingWord (c : Coupling) : Nat := c.nb % 2 ^ 12 + 2 ^ 12 * c.bnd.toNat + 2 ^ 16 * c.j.toNat

/-- Where a node's resident entries start among all of them: nodes in increasing order. -/
def entryStart (y : Buoy) (i : Nat) : Nat :=
  (y.lists.filter (fun x => decide (x.1 < i) && x.2.resident)).foldl (fun a x => a + x.2.entries.length) 0

/-- Offset of a link's part. -/
def linkStart (y : Buoy) (k : Nat) : Nat := buoyLinks + (y.links.take k).foldl (fun a l => a + linkSize l) 0

/-- The array's section: counters, mode and resume point; node states, clamp flags, biases, counts; each node's list; the resident entries; the boundary
map; the links with their labels. -/
def buoyPieces (y : Buoy) : Pieces :=
  let resume := y.resume.getD (0, 0)
  [(0, packLe [(4, y.sweep.toNat), (4, y.stall.toNat), (2, y.id.toNat), (1, y.replay.toNat + 2 * y.err.toNat + 4 * y.resume.isSome.toNat + 8 * y.coupBad.toNat), (1, resume.2),
      (4, y.bmap.length), (8, resume.1.toNat), (4, y.links.length)]),
   (64, natLe 512 y.m.toNat), (576, natLe 512 y.clamp.toNat)]
    ++ y.h.map (fun x => (1088 + 2 * x.1, natLe 2 x.2.toNat)) ++ y.cnt.map (fun x => (1088 + 2 * 4096 + 4 * x.1, natLe 4 x.2.toNat))
    ++ y.lists.map (fun x => (buoyNodes + 16 * x.1, packLe [(1, x.2.entries.length), (1, x.2.colour + 8 * x.2.resident.toNat + 16 * x.2.global.toNat), (6, 0), (8, x.2.addr)]))
    ++ y.lists.filterMap (fun x => if x.2.resident then some (buoyEntries + 4 * entryStart y x.1, packLe (x.2.entries.map (fun c => (4, couplingWord c)))) else none)
    ++ [(buoyMap, packLe (y.bmap.map (fun p => (4, p.1 % 2 ^ 12 + 2 ^ 12 * (p.2 % 2 ^ 16)))))]
    ++ partsAt (linkStart y) (y.links.map (fun l => (0, packLe [(4, l.rid), (1, l.stale), (3, 0), (4, l.base), (4, l.labels.length)])
        :: partsAt (fun k => 64 + 576 * k) (l.labels.map (fun x => [(0, natLe 8 x.1), (64, natLe 512 x.2.toNat)]))))

/-- The array as its section has it. -/
def buoyBack (m : List Host.Cell) (y : Buoy) : Buoy :=
  let n := cellsNat m
  let flag := fun (k : Nat) => decide (n 10 1 / 2 ^ k % 2 = 1)
  let node := fun (i : Nat) => (n (buoyNodes + 16 * i) 1, n (buoyNodes + 16 * i + 1) 1, n (buoyNodes + 16 * i + 8) 8)
  let start := fun (i : Nat) => (List.range i).foldl (fun a j => if (node j).2.1 / 8 % 2 = 1 then a + (node j).1 else a) 0
  let word := fun (v : Nat) => ({ nb := v % 2 ^ 12, bnd := v / 2 ^ 12 % 2 = 1, j := BitVec.ofNat 8 (v / 2 ^ 16) } : Coupling)
  { y with
    sweep := BitVec.ofNat 32 (n 0 4), stall := BitVec.ofNat 32 (n 4 4), id := BitVec.ofNat 16 (n 8 2), replay := flag 0, err := flag 1,
    resume := if flag 2 then some (BitVec.ofNat 64 (n 16 8), n 11 1) else none, coupBad := flag 3,
    m := BitVec.ofNat 4096 (n 64 512), clamp := BitVec.ofNat 4096 (n 576 512),
    h := (List.range 4096).filterMap (fun i => if n (1088 + 2 * i) 2 = 0 then none else some (i, BitVec.ofNat 16 (n (1088 + 2 * i) 2))),
    cnt := (List.range 4096).filterMap (fun i => let o := 1088 + 2 * 4096 + 4 * i; if n o 4 = 0 then none else some (i, BitVec.ofNat 32 (n o 4))),
    lists := (List.range 4096).filterMap (fun i =>
      let x := node i
      if x = (0, 0, 0) then none
      else some (i, { colour := x.2.1 % 8, resident := x.2.1 / 8 % 2 = 1, global := x.2.1 / 16 % 2 = 1, addr := x.2.2,
                      entries := tabulate x.1 (fun k => if x.2.1 / 8 % 2 = 1 then word (n (buoyEntries + 4 * (start i + k)) 4) else ⟨0, false, 0⟩) })),
    bmap := tabulate (n 12 4) (fun k => (n (buoyMap + 4 * k) 4 % 2 ^ 12, n (buoyMap + 4 * k) 4 / 2 ^ 12)),
    links := tabulate y.links.length (fun k =>
      let o := linkStart y k
      { rid := n o 4, stale := n (o + 4) 1, base := n (o + 8) 4, labels := tabulate (n (o + 12) 4) (fun j => (n (o + 64 + 576 * j) 8, BitVec.ofNat 4096 (n (o + 128 + 576 * j) 512))) }) }

/-! ### Staging -/

/-- A staging record in 128 bytes: number, context, kind, flags, lane, code point and lanes of its instruction, then what it does; a manifest, and the
regions of a fork, have no room there (log 23). Descriptors go by window offset or logical address. -/
def stagePieces (s : State) (g : WG) (r : StageRec) : Pieces :=
  let kind := match r.op with
    | .store _ _ => 0 | .atom _ _ _ _ none => 1 | .atom _ _ _ _ (some _) => 2 | .hacc _ _ _ _ _ _ _ => 3 | .spawn _ _ => 4 | .depdec _ => 5 | .fork _ _ _ _ => 6 | .join _ => 7
  let body := match r.op with
    | .store line bs => packLe ((8, line.toNat) :: (8, bs.foldl (fun a x => a + 2 ^ x.1) 0) :: tabulate 64 (fun o => (1, (agetD 0 o bs).toNat)))
    | .atom a aop ty b cmp => packLe [(8, a.toNat), (1, aop.toNat), (1, tyCode ty), (6, 0), (8, b.toNat), (8, (cmp.getD 0).toNat)]
    | .hacc key win d aop ty k v =>
      packLe [(8, match win with | some o => o | none => keyLogical s g.part key), (1, aop.toNat), (1, tyCode ty), (1, win.isSome.toNat), (1, 0), (4, k.toNat), (4, v.toNat), (64, d.toNat)]
    | .spawn _ a => packLe [(8, a.toNat)]
    | .depdec a => packLe [(8, a.toNat)]
    | .fork h _ a _ => packLe [(8, a.toNat), (4, h)]
    | .join h => packLe [(8, 0), (4, h)]
  [(0, packLe [(4, r.id), (1, whoByte r.who), (1, kind), (1, r.poison.toNat + 2 * r.whole.toNat + 4 * r.waited.toNat), (1, 0), (4, r.lane), (8, r.slot.toNat), (16, r.lanes.toNat)]), (40, body)]

/-- A staging record as its part has it; a chain step keeps its descriptor. -/
def stageBack (m : List Host.Cell) (r : StageRec) : StageRec :=
  let n := cellsNat m
  let flag := fun (k : Nat) => decide (n 6 1 / 2 ^ k % 2 = 1)
  let a : DWord := BitVec.ofNat 64 (n 40 8)
  let aop : BitVec 4 := BitVec.ofNat 4 (n 48 1)
  let op : StageOp := match r.op with
    | .store _ _ => .store a ((List.range 64).filterMap (fun o => if n 48 8 / 2 ^ o % 2 = 1 then some (o, BitVec.ofNat 8 (n (56 + o) 1)) else none))
    | .atom _ _ ty _ cmp => .atom a aop ((tyOfCode (n 49 1)).getD ty) (BitVec.ofNat 64 (n 56 8)) (cmp.map (fun _ => BitVec.ofNat 64 (n 64 8)))
    | .hacc key win _ _ ty _ _ => .hacc key win (BitVec.ofNat 512 (n 60 64)) aop ((tyOfCode (n 49 1)).getD ty) (BitVec.ofNat 32 (n 52 4)) (BitVec.ofNat 32 (n 56 4))
    | .spawn man _ => .spawn man a
    | .depdec _ => .depdec a
    | .fork _ man _ rs => .fork (n 48 4) man a rs
    | .join _ => .join (n 48 4)
  { r with id := n 0 4, poison := flag 0, whole := flag 1, waited := flag 2, lane := n 8 4, slot := BitVec.ofNat 64 (n 12 8), lanes := BitVec.ofNat 128 (n 20 16), op := op }

/-! ### The whole image -/

/-- The bytes of the twelve sections, in order (R400). -/
def sections (v : Saved) : List Nat :=
  let g := v.wg
  let q := hQuayb g.hdr
  [256, 2048, crewAt v g.crews.length, up64 (1024 + 544 * (transitOf g).length), 256, 512, 65600 * g.accs.length, 128 * v.cmds.length,
    (armed g).foldl (fun a t => a + tapSize t.2) 0, up64 ((v.buoy.map buoySize).getD 0), 128 * g.staging.length, up64 (q + q / 512)]

/-- Offset of an armed tap's part. -/
def tapAt (g : WG) (k : Nat) : Nat := ((armed g).take k).foldl (fun a t => a + tapSize t.2) 0

/-- What a section of an image holds, but for the window's bytes, which stand in the last one as they are. -/
def sectionPieces (s : State) (v : Saved) (id : Word) (k : Nat) : Pieces :=
  let g := v.wg
  match k with
  | 0 => headerPieces v id
  | 1 => pilotPieces v
  | 2 => partsAt (crewAt v) (g.crews.map crewPieces)
  | 3 => bindPieces g
  | 4 => barPieces v
  | 5 => tagPieces v
  | 6 => partsAt (fun n => 65600 * n) (g.accs.map accPieces)
  | 7 => partsAt (fun n => 128 * n) (v.cmds.map (fun x => cmdPieces x.1 x.2))
  | 8 => partsAt (tapAt g) ((armed g).map (fun t => tapPieces t.1 t.2))
  | 9 => match v.buoy with | some y => buoyPieces y | none => []
  | 10 => partsAt (fun n => 128 * n) (g.staging.map (stagePieces s g))
  | _ => [(hQuayb g.hdr, natLe (hQuayb g.hdr / 512) (v.badLines.foldl (fun a l => a + 2 ^ l) 0))]

/-- The cells of a section of an image in memory. -/
def sectionThere (s : State) (v : Saved) (k : Nat) : List Host.Cell := cellsSlice s.hbm (v.base + sectionAt v k) (v.lens.getD k 0)

/-- The cells that a section of an image is to have, as far as its size at the save goes. -/
def sectionCells (s : State) (v : Saved) (id : Word) (k : Nat) : List Host.Cell :=
  let cells := pieceCells (sectionPieces s v id k)
  cellsSlice (if k = 11 then cellsPlace cells 0 (hQuayb v.wg.hdr) v.window else cells) 0 (v.lens.getD k 0)

/-- Write a section of an image. -/
def sectionWrite (s : State) (v : Saved) (id : Word) (k : Nat) : State :=
  { s with hbm := cellsPlace s.hbm (v.base + sectionAt v k) (v.lens.getD k 0) (sectionCells s v id k) }

/-- Write an image to its area, whose lines are sound from then on. -/
def imageWrite (s : State) (v : Saved) (id : Word) : State :=
  let s := (List.range 12).foldl (fun s k => sectionWrite s v id k) { s with hbm := cellsZero s.hbm v.base v.len }
  { s with hbmBad := s.hbmBad.filter (fun l => !(decide (v.base ≤ 64 * l) && decide (64 * l < v.base + v.len))) }

/-- A part of a section that was edited: its bytes are not what is written for it. -/
def edited (m : List Host.Cell) (ps : Pieces) : Bool := decide (pieceCells ps ≠ m)

/-- Read a list of parts back, those that were edited. -/
def partsBack {α : Type} (m : List Host.Cell) (offset size : Nat → Nat) (pieces : α → Pieces) (back : List Host.Cell → α → α) (xs : List α) : List α :=
  ((tabulate xs.length (fun n => n)).zip xs).map (fun x =>
    let part := cellsSlice m (offset x.1) (size x.1)
    if edited part (pieces x.2) then back part x.2 else x.2)

/-- The image as its area has it now (R398, R401): what harbour software has edited there is in it. -/
def imageRead (s : State) (v : Saved) (id : Word) : Saved :=
  let there := sectionThere s v
  let changed := fun (v : Saved) (k : Nat) => decide (sectionCells s v id k ≠ there k)
  let g := v.wg
  let v : Saved := { v with wg := { g with
    crews := partsBack (there 2) (crewAt v) (fun n => ((g.crews[n]?).map crewSize).getD 0) crewPieces crewBack g.crews,
    accs := partsBack (there 6) (fun n => 65600 * n) (fun _ => 65600) accPieces (fun m _ => accBack m) g.accs,
    staging := partsBack (there 10) (fun n => 128 * n) (fun _ => 128) (stagePieces s g) stageBack g.staging } }
  let v : Saved := { v with
    cmds := partsBack (there 7) (fun n => 128 * n) (fun _ => 128) (fun x => cmdPieces x.1 x.2) (fun m x => (x.1, cmdBack m x.2)) v.cmds,
    buoy := v.buoy.map (fun y => if changed v 9 then buoyBack (there 9) y else y) }
  let taps := partsBack (there 8) (tapAt g) (fun k => (((armed g)[k]?).map (fun t => tapSize t.2)).getD 0) (fun t => tapPieces t.1 t.2) (fun m t => (t.1, tapBack m t.2)) (armed g)
  let v : Saved := { v with wg := { v.wg with taps := tabulate g.taps.length (fun n => (taps.find? (fun t => t.1 == n)).map (fun t => t.2)) } }
  let head := there 0
  let verdict := fun (k : Nat) => cellsNat head 160 33 / 16 ^ k % 16
  let index := fun (w : Who) => match w with | .pilot => 0 | .crew n => n + 1
  let crewPart := fun (n : Nat) => cellsSlice (there 2) (crewAt v n) (((v.wg.crews[n]?).map crewSize).getD 0)
  let hold := fun (w : Who) (c : Ctx) => if verdictCode c = verdict (index w) then c else
    { c with blocked := match w with | .pilot => holdBack (verdict 0) (there 1) 592 | .crew n => holdBack (verdict (n + 1)) (crewPart n) 2256 }
  let v := if changed v 1 then pilotBack (there 1) v else v
  let v : Saved := { v with wg := (whos v.wg).foldl (fun g w => modCtxIn g w (hold w)) v.wg }
  let v : Saved := if changed v 3 then { v with wg := bindsBack (there 3) v.wg } else v
  let v := if changed v 4 then barsBack (there 4) v else v
  let v := if changed v 5 then tagsBack (there 5) v else v
  let q := hQuayb g.hdr
  let poison := cellsNat (there 11) q (q / 512)
  { v with
    window := cellsSlice (there 11) 0 q,
    engTiles := (List.range (q / 4096)).filter (fun t => cellsNat head 224 32 / 2 ^ t % 2 = 1),
    badLines := (List.range (q / 64)).filter (fun l => poison / 2 ^ l % 2 = 1) }

/-- The code points that an image records are valid (R101). -/
def pointsValid (v : Saved) : Bool :=
  pcValid v.wg.pilot.pc.toNat && v.wg.crews.all (fun c =>
    let e := entryLists c
    (e.1 ++ e.2).all (fun x => cixValid x.cix.toNat) && c.ctx.handler.all (fun h => cixValid h.trap.epc.toNat))
    && v.wg.pilot.ctx.handler.all (fun h => pcValid h.trap.epc.toNat)

/-- A section as it stands is one that the layout gives: sizes and counts as they were, reserved fields 0 (R401). The state field of the header is read
by harbour software alone. -/
def sectionGood (s : State) (v : Saved) (id : Word) (k : Nat) : Bool :=
  let drop := fun (m : List Host.Cell) => if k = 0 then m.filter (fun c => c.1 != 33) else m
  decide (drop (sectionThere s v k) = drop (sectionCells s v id k))

/-- The sections have the sizes of the save; the harbourmaster may have released staged records since, and links may have received labels. -/
def sizesMatch (v : Saved) : Bool :=
  (List.range 12).all (fun k => decide (9 ≤ k) && decide (k ≤ 10) || decide ((sections v).getD k 0 = v.lens.getD k 0))

/-- An image that may be restored (R401). -/
def imageGoodAt (s : State) (v : Saved) (id : Word) : Bool :=
  let w := imageRead s v id
  sizesMatch w && (List.range 12).all (sectionGood s w id) && pointsValid w

/-! ### Images in step with what the harbourmaster changes (R277, R388, R400) -/

/-- Write the sections of a saved workgroup that an action has changed: a verdict that has arrived, a staged record released. -/
def imageSync (old : State) (lid : Nat) (id : Word) (s : State) (v : Saved) : State :=
  match ((launchOf old lid).bind (fun l => l.saved.find? (fun u => u.base == v.base))) with
  | none => s
  | some u =>
    if u = v then s
    else (List.range 11).foldl (fun s k => if sectionCells s u id k = sectionCells s v id k then s else sectionWrite s v id k) s

/-- The save areas after an action. -/
def syncImages (old s : State) : State := s.launches.foldl (fun s l => l.saved.foldl (imageSync old l.lid l.id) s) s

/-! ### Save areas and countersign areas (R318, R330, R331, R422) -/

/-- The rollback image of a workgroup, as bytes of its address space's range: address and length. -/
def imageArea (g : WG) : List (Nat × Nat) := match g.image with | some im => if im.len = 0 then [] else [(im.base, im.len)] | none => []

/-- Areas of an address space in use: save images, and rollback images of resident and saved workgroups. -/
def areasOf (s : State) (asid : Nat) : List (Nat × Nat) :=
  ((s.launches.filter (fun l => mAsid l.man == asid)).map (fun l => (l.saved.map (fun v => (v.base, v.len) :: imageArea v.wg)).flatten)).flatten
    ++ ((s.wgs.filter (fun x => asidOf x.2 == asid)).map (fun x => imageArea x.2)).flatten

/-- Held and kept stores of a copy. -/
def heldOf (g : WG) : List HeldStore := ((whos g).map (fun w => ((ctxIn g w).map (fun c => c.held)).getD [])).flatten

/-- Bytes at the end of the range that countersign records take which do not fit the cores' buffers (R330). -/
def recordUse (s : State) (asid : Nat) : Nat :=
  s.wgs.foldl (fun n x => if asidOf x.2 = asid then n + 32 * ((heldOf x.2).filter (fun h => h.spilled)).length else n) 0

/-- Places for n bytes in the range of an address space, beside what is in use and more. -/
def areaPlaces (s : State) (asid : Nat) (more : List (Nat × Nat)) (n : Nat) : List Nat :=
  let lo := (spaceOf s asid).svbase.toNat
  let hi := lo + 65536 * bits (spaceOf s asid).svsize 47 16 - recordUse s asid
  let used := areasOf s asid ++ more
  (lo :: (hi - n) / 64 * 64 :: used.map (fun a => up64 (a.1 + a.2)) ++ used.map (fun a => (a.1 - n) / 64 * 64)).filter (fun p =>
    decide (lo ≤ p) && decide (p + n ≤ hi) && used.all (fun a => !overlaps p n a.1 a.2) && paBacked p && paBacked (p + n - 1))

/-- The lowest place for n bytes in the range of an address space: save areas. -/
def areaAt (s : State) (asid : Nat) (more : List (Nat × Nat)) (n : Nat) : Option Nat :=
  (areaPlaces s asid more n).foldl (fun b p => match b with | some q => some (min p q) | none => some p) none

/-- The highest place: rollback images. -/
def areaTop (s : State) (asid n : Nat) : Option Nat :=
  (areaPlaces s asid [] n).foldl (fun b p => match b with | some q => some (max p q) | none => some p) none

/-- Places for several areas, one after the other. -/
def areasFit (s : State) (asid : Nat) : List Nat → List (Nat × Nat) → Bool
  | [], _ => true
  | n :: ns, more =>
    match areaAt s asid more n with
    | some a => areasFit s asid ns (more ++ [(a, n)])
    | none => false

end Sys2Proof.Machine
end

