-- ==== Sys2Proof/Machine/Submit.lean ====
section
/-! DEFINITION. Submit: the device's own reads of global memory, and submitting a launch: manifest checks (R297, R298), the roadstead
(R304, R306), dependence counters (R134, R135), and the start of a rebuild (R386). -/

namespace Sys2Proof.Machine

/-- Where a device read or write of a global address goes; `none`: a translation fault. -/
def devLoc (s : State) (asid : Nat) (view : Option Nat) (va : Nat) (wrt : Bool) : Option Loc :=
  if !isGlobal va then none
  else
    match walk s asid va with
    | none => none
    | some (e, size) =>
      let pa := ePa e + va % size
      if (wrt && !eWrite e) || !leafPa pa then none else some (viewLoc s view va pa)

/-- A device read of bytes of one 64-byte line. -/
def devRead (s : State) (asid : Nat) (view : Option Nat) (va n : Nat) : Option (List Byte) :=
  (devLoc s asid view va false).map (fun l => locRead s l n)

/-- A read of the harbourmaster for a launch; one of a page under rebuild waits (R385). -/
def masterRead (s : State) (l : Launch) (va n : Nat) : Option (List Byte) :=
  if pageHeld s l.lid (mAsid l.man) va then none else devRead s (mAsid l.man) l.view va n

/-- A device write, after the page copies it needs. -/
def devWrite (s : State) (asid : Nat) (view : Option Nat) (va : Nat) (bs : List Byte) : Option State :=
  match walk s asid va with
  | none => none
  | some (e, size) =>
    let pa := ePa e + va % size
    if !isGlobal va || !eWrite e || !leafPa pa then none
    else
      let s := copyAll s asid view va pa (s.nextRev + 2)
      some (locWrite s (viewLoc s view va pa) bs)

/-- A control block of n lines, read line by line (R256). -/
def devBlock (s : State) (asid : Nat) (view : Option Nat) (va : Nat) : Nat → Option (List Byte)
  | 0 => some []
  | n + 1 =>
    match devRead s asid view va 64, devBlock s asid view (va + 64) n with
    | some a, some b => some (a ++ b)
    | _, _ => none

/-- An address field that R259 does not let name a control block: not canonical, or not global memory. -/
def fieldAddrBad (a align : Nat) : Bool := decide (a % align ≠ 0) || !isGlobal a

/-- `DEPC` passes check 0x10 (R298). -/
def depcOk (m : BitVec 2048) : Bool := !fieldAddrBad (mDepc m) 8

/-- The checks of R298 that the manifest alone decides, in order of reason. -/
def manifestReason (m : BitVec 2048) : Option Nat :=
  if fieldAddrBad (mKhdr m) 128 || fieldAddrBad (mArgs m) 8 || (mDepc m ≠ 0 && fieldAddrBad (mDepc m) 8)
      || (mSucc m ≠ 0 && fieldAddrBad (mSucc m) 8) || (mCstat m ≠ 0 && fieldAddrBad (mCstat m) 8) then some 0x10
  else if mNwg m = 0 || mArgsz m % 8 ≠ 0 || mArgsz m < 8 || 4096 < mArgsz m || 1024 < mNsucc m || 8 < mNtop m
      || 0x80000000 ≤ mLid m then some 0x11
  else if mGang m ≠ 0 && mNwg m % mGang m ≠ 0 then some 0x12
  else if mReserved m then some 0x15
  else none

/-- Submissions among staging records, each of which has reserved an entry (R136, R293). -/
def stagedSubmits (rs : List StageRec) : Nat :=
  (rs.filter (fun r => match r.op with | .spawn _ _ | .fork _ _ _ _ => true | _ => false)).length

/-- Entries of a partition's quota in use or reserved (R136, R306). -/
def quotaUsed (s : State) (p : Nat) : Nat :=
  (s.launches.filter (fun l => l.part == p && decide (l.state ≠ .completed))).length
    + s.wgs.foldl (fun n x => if x.2.part = p then n + stagedSubmits x.2.staging else n) 0
    + s.launches.foldl (fun n l => if l.part = p then l.ended.foldl (fun n e => n + stagedSubmits e.2.2) n else n) 0
    + s.launches.foldl (fun n l => if l.part = p then l.saved.foldl (fun n e => n + stagedSubmits e.wg.staging) n else n) 0
/-- No entry of the quota is free. -/
def quotaFull (s : State) (p : Nat) : Bool := decide ((partOf s p).rsquota ≤ quotaUsed s p)

/-- The affinity die of a launch, as a physical die: whose stack holds most of its mapped top pages (R309). -/
def affinityDie (s : State) (l : Launch) : Option Nat :=
  let tops := (tabulate (mNtop l.man) (mTop l.man)).filterMap (fun va => (walk s (mAsid l.man) va).map (fun x => (ePa x.1 + va % x.2) / 2 ^ 36))
  let dies := tabulate (partDies (partOf s l.part)) (physDie (partOf s l.part))
  let count := fun (d : Nat) => (tops.filter (fun t => t == d)).length
  let best := dies.foldl (fun m d => max m (count d)) 0
  if best = 0 then none else dies.find? (fun d => count d == best)

/-- A gang gives its reservations up; the cores they were on have resources free again (R310, R314). -/
def dropGang (s : State) (part : Nat) : State :=
  match (partOf s part).gang with
  | none => s
  | some y => y.reserved.foldl (fun s r => modCore s r.2 (fun c => { c with freed := true })) (modPart s part (fun p => { p with gang := none }))

/-- The partition in which a launch's gang reserves, and the gang: its own, or the one to which a saved pair returns (R318). -/
def gangOf (s : State) (lid : Nat) : Option (Nat × GangPhase) :=
  s.parts.findSome? (fun p => (p.2.gang.filter (fun y => y.lid == lid)).map (fun y => (p.1, y)))

/-- A launch becomes Ready (R298, R304, R312); a gang of lower priority in its reserve phase gives its reservations up (R314). -/
def makeReady (s : State) (lid : Nat) : State :=
  match launchOf s lid with
  | none => s
  | some l =>
    match manifestReason l.man with
    | some r =>
      modLaunch (putFault s l.part 0x02 (mAsid l.man) l.id.toNat 0 0 r) lid (fun l => { l with state := .completing, status := 2 })
    | none =>
      let s := { modLaunch s lid (fun l => { l with state := .ready, readyAt := s.readyCtr, dealDue := true, affinity := affinityDie s l }) with readyCtr := s.readyCtr + 1 }
      let below := fun (y : GangPhase) => (launchOf s y.lid).any (fun o => decide (mPrio l.man < mPrio o.man))
      let s := if (partOf s l.part).gang.any below then dropGang s l.part else s
      if mBcls l.man then
        putEvent (modLaunch s lid (fun l => { l with handed := true })) l.part 2 0 0 l.id.toNat 0 l.maddr.toNat 0
      else s

/-- The counter of a launch lies in another package's memory, at this address. -/
def counterAway (s : State) (l : Launch) : Option Nat :=
  match devLoc s (mAsid l.man) l.view (mDepc l.man) false with
  | some (.remote pa) => if pageHeld s l.lid (mAsid l.man) (mDepc l.man) then none else some pa
  | _ => none

/-- Register a submitted launch on its counter, in one step with the counter (R135); while the counter cannot be read it stays Submitted. A counter
of another package's memory is read there, and read again while the launch waits on it (log 52). -/
def register (s : State) (lid : Nat) : State :=
  match launchOf s lid with
  | none => s
  | some l =>
    let found := fun (s : State) (bs : List Byte) => if leNat bs = 0 then makeReady s lid else modLaunch s lid (fun l => { l with state := .waiting })
    if mDepc l.man = 0 || !depcOk l.man then makeReady s lid
    else
      match counterAway s l with
      | some pa =>
        match masterGet s lid (mNwg l.man) 2 pa 8 0 (natLe 2 8) with
        | .bytes bs t => found t bs
        | .held t | .refused t => t
      | none =>
        match masterRead s l (mDepc l.man) 8 with
        | some bs => found s bs
        | none => s

/-- A launch that holds nothing yet. -/
def freshLaunch (lid part : Nat) (id : Word) (m : BitVec 2048) (view : Option Nat) (rebuilds : Option (Nat × Nat)) : Launch :=
  { lid := lid, id := id, part := part, man := m, hdr := none, state := .submitted, maddr := 0, status := 0, readyAt := 0, undealt := 0,
    chunks := [], saved := [], aborted := [], retired := [], relHead := 0, ended := [], view := view, budget := mRbud m,
    rebuilds := rebuilds, skips := [], handed := false, dealDue := false, back := [], affinity := none,
    done := { status := false, noted := false, read := [], decs := 0 } }

/-- Submit a manifest to a partition (R297 to R299, R304); `maddr`: the address it was read from, physical, or virtual for one of a program (log 16). -/
def submit (s : State) (part : Nat) (m : BitVec 2048) (view : Option Nat) (rebuilds : Option (Nat × Nat)) (maddr : Nat) : State :=
  let p := partOf s part
  let id := if mLid m ≠ 0 then mLid m else 0x80000000 + p.lidCtr
  let s := if mLid m ≠ 0 then s else modPart s part (fun p => { p with lidCtr := (p.lidCtr + 1) % 2 ^ 31 })
  let lid := s.nextLaunch
  register { s with launches := s.launches ++ [{ freshLaunch lid part (BitVec.ofNat 32 id) m view rebuilds with maddr := BitVec.ofNat 64 maddr }], nextLaunch := lid + 1 } lid

/-- Status of a program's submission (R133). Where several apply, a reserved manifest comes before a `BCLS` one, as R133 orders them, and both
before a full roadstead, whose place R133 leaves open (log 46). -/
def spawnStatus (s : State) (part : Nat) (m : BitVec 2048) : Nat :=
  if mReserved m then 3 else if mBcls m then 2 else if quotaFull s part then 1 else 0

/-- A manifest takes the spawning launch's priority where its own is numerically lower (R132). -/
def demote (m : BitVec 2048) (prio : Nat) : BitVec 2048 := if mPrio m < prio then mSetPrio m prio else m

/-- The launches that wait on the counter at a location, in submission order. -/
def waitersOn (s : State) (l : Loc) : List Nat :=
  (s.launches.filter (fun x => decide (x.state = .waiting) && decide (mDepc x.man ≠ 0)
    && decide (devLoc s (mAsid x.man) x.view (mDepc x.man) false = some l))).map (fun x => x.lid)

/-- One decrement at the counter's atomic unit (R134): the old value and the state after it. -/
def decrement (s : State) (l : Loc) : Nat × State :=
  let old := leNat (locRead s l 8)
  if old = 0 then (0, s)
  else
    let s := locWrite s l (natLe 8 (old - 1))
    (old, if old = 1 then (waitersOn s l).foldl makeReady s else s)

/-- A decrement in another package's memory has answered: waiters of this package are enqueued where it observed 1 (R134). -/
def decremented (s : State) (pa old : Nat) : State := if old = 1 then (waitersOn s (.remote pa)).foldl makeReady s else s

/-- The mode flags of a launch: its header's and its manifest's (R30). -/
def launchMode (l : Launch) : Nat := Nat.lor ((l.hdr.map hFlags).getD 0) (mMode l.man) % 16
/-- DET is in force for a launch. -/
def launchDet (l : Launch) : Bool := decide (launchMode l / 4 % 2 = 1)

/-- The bits of a 256-byte manifest. -/
def manifestOf (bs : List Byte) : BitVec 2048 := BitVec.ofNat 2048 (leNat bs)

/-- A rebuild of the page would start, and its event finds no room: the harbourmaster waits with it (R408), and what is held asks again. -/
def rebuildStalls (s : State) (part asid vpn : Nat) : Bool :=
  !rebuildBusy s asid vpn && (rebuildEntry s asid vpn).isSome && takesEvents (partOf s part) && !ringRoom (partOf s part).hev

/-- Start the rebuild of a page (R386): mark the entry, submit its manifest at priority 0 on the side of the held reader (R295), post the
event. -/
def startRebuild (s : State) (part asid vpn : Nat) (view : Option Nat) : State :=
  match rebuildEntry s asid vpn with
  | none => s
  | some a =>
    let rcnt := paNat s (a + 20) 4
    let s := paWrite s (a + 16) (natLe 4 1)
    let s := paWrite s (a + 20) (natLe 4 (min 0xFFFFFFFF (rcnt + 1)))
    let s := match devBlock s asid none (paNat s (a + 8) 8) 4 with
      | some bs => submit s part (mSetPrio (manifestOf bs) 0) view (some (asid, vpn)) (paNat s (a + 8) 8)
      | none => paWrite s (a + 16) (natLe 4 2)
    putEvent s part 3 0 0 0 0 (vpn * pageSize) 0

end Sys2Proof.Machine
end

