-- ==== Sys2Proof/Machine/Access.lean ====
section
/-! DEFINITION. Access: thread accesses to memory: effective addresses and the checks of R171 and R175, translation faults (R275 to
R278), held rebuilds and poison (R385, R404), what a load returns (R181, R247), where a store goes under each mode (R181, R321, R330),
signatures (R329), memory-side atomics (R178). -/

namespace Sys2Proof.Machine

/-- What an address names: a byte of Quay memory, with its virtual or window address, or translated global memory. -/
inductive Place where
  | quay (key : Nat)
  | global (va : Nat)
deriving DecidableEq, Repr

/-- One lane's checked access: the lane, its address as details report it, where it goes, whether it stays in the issuer's window. -/
structure LaneAcc where
  lane : Nat
  ea : Nat
  loc : Loc
  va : Option Nat
  own : Bool
deriving DecidableEq, Repr

/-- The place of one access, or the cause of the first check of R175 that fails. -/
def placeOf (s : State) (b : Nat) (g : WG) (quay : Bool) (a : Int) (w : Nat) : Except Nat Place :=
  if quay then
    if a % w ≠ 0 then .error 0x08
    else if a < 0 || (hQuayb g.hdr : Int) < a + w then .error 0x07
    else .ok (.quay (winKey b g a.toNat))
  else
    let ea := lowBits 64 a
    if ea % w ≠ 0 then .error 0x08
    else if isGlobal ea then .ok (.global ea)
    else if inQuayWin ea then
      match logicalKey s g.part (ea - quayWin) with
      | some k => if quayReach s b g k then .ok (.quay k) else .error 0x0A
      | none => .error 0x0A
    else .error 0x0A

/-- The order of the checks of R175. -/
def checkRank (cause : Nat) : Nat :=
  match cause with
  | 0x08 => 0
  | 0x0A => 1
  | 0x07 => 2
  | _ => 3

/-- What checking all lanes of an instruction gives. -/
inductive Chk where
  | trap (t : PendTrap)
  | fault (va : Nat) (lanes : LaneMask)
  | copy (rev vpn : Nat) (child : Bool)
  | rebuild (vpn : Nat) (ea : Nat) (lanes : LaneMask)
  | poison (ea : Nat) (lanes : LaneMask) (off : Option Nat)
  | remote (reqs : List LaneAcc)
  | refused (ea : Nat) (lanes : LaneMask)
  | staged
  | ok (accs : List LaneAcc)

/-- The lanes of a list as a mask; an access of line k of a lane's block is numbered 128 × k beyond the lane. -/
def lanesOf (xs : List Nat) : LaneMask := xs.foldl (fun m l => m ||| (1#128 <<< (l % 128))) 0

/-- The view of a workgroup's launch (R280). -/
def viewOf (s : State) (g : WG) : Option Nat := (launchOf s g.lid).bind (fun l => l.view)

/-- The berth whose workgroup keeps the pair's staged stores: the leading copy's. -/
def leadBerth (b : Nat) (g : WG) : Nat := if g.copy = .trail then g.peer.getD b else b

/-- Staging records a workgroup's loads see (R181). -/
def stagingOf (s : State) (b : Nat) (g : WG) : List StageRec :=
  match wgOf s (leadBerth b g) with
  | some g => g.staging
  | none => g.staging

/-- A staged atomic of the workgroup that touches bytes of a load: the load waits for its value (R176, R181, R326). -/
def stagedAtomic (s : State) (b : Nat) (g : WG) (va w : Nat) : Bool :=
  (stagingOf s b g).any (fun r => match r.op with
    | .atom a _ ty _ _ => decide (a.toNat < va + w) && decide (va < a.toNat + ty.width / 8)
    | _ => false)

/-- Answers to a context's remote accesses. -/
def remoteOf (s : State) (id : CtxId) : List RemoteReq := s.pkg.remote.filter (fun r => decide (r.ctx = some id))

/-- The physical address of an access to another package. -/
def LaneAcc.rpa (x : LaneAcc) : Nat := match x.loc with | .remote pa => pa | _ => 0

/-- The 64-byte lines that accesses lie in. -/
def remoteLines (xs : List LaneAcc) : List Nat := (xs.map (fun x => x.rpa / 64)).eraseDups

/-- The context waits at its slot for the answers to its remote accesses, each sent once: those in one 64-byte line are one request (R173). An
instruction that needs more requests than its core has free waits for them first (R176). -/
def sendLines (s : State) (id : CtxId) (xs : List LaneAcc) (send : State → Nat → State) : State :=
  if Config.requestsPerCore < outstanding s (berthCore id.berth) + (remoteLines xs).length then block s id (.remote 1)
  else block ((remoteLines xs).foldl send s) id (.remote 0)

/-- A frame that serves several lanes of a context. -/
def sendParts (s : State) (id : CtxId) (op pa n : Nat) (parts : List (Nat × Nat)) (payload : List Byte) : State :=
  let r := remoteSend s (some id) ((parts.map (fun p => p.1)).headD 0) op pa n 0 payload
  stampSent r.2 r.1 (fun y => { y with parts := parts })

/-- Read w bytes in each lane: one frame a line, from the first byte to the last (log 17, log 57). -/
def sendReads (s : State) (id : CtxId) (w : Nat) (xs : List LaneAcc) : State :=
  sendLines s id xs (fun s line =>
    let here := xs.filter (fun x => x.rpa / 64 == line)
    let lo := here.foldl (fun a x => min a x.rpa) (64 * line + 63)
    let n := here.foldl (fun a x => max a (x.rpa + w)) lo - lo
    sendParts s id 2 lo n (here.map (fun x => (x.lane, x.rpa - lo))) (natLe 2 n))

/-- Put a byte into a record's list of bytes. -/
def putByte (o : Nat) (b : Byte) : List (Nat × Byte) → List (Nat × Byte) := ainsert o b

/-- Bytes by increasing offset, as runs of adjacent ones. -/
def byteRuns : List (Nat × Byte) → List (Nat × List Byte)
  | [] => []
  | x :: xs =>
    match byteRuns xs with
    | r :: rs => if r.1 = x.1 + 1 then (x.1, x.2 :: r.2) :: rs else (x.1, [x.2]) :: r :: rs
    | [] => [(x.1, [x.2])]

/-- Put bytes at an offset into a list of bytes; the later ones win. -/
def putBytes (off : Nat) (bs : List Byte) (old : List (Nat × Byte)) : List (Nat × Byte) :=
  ((List.range bs.length).zip bs).foldl (fun a x => putByte (off + x.1) x.2 a) old

/-- Write each lane's bytes, in lane order: a line's adjacent bytes go in one frame (log 57). -/
def sendWrites (s : State) (id : CtxId) (xs : List (LaneAcc × List Byte)) : State :=
  sendLines s id (xs.map (fun x => x.1)) (fun s line =>
    let here := xs.filter (fun x => x.1.rpa / 64 == line)
    (byteRuns (here.foldl (fun a x => putBytes (x.1.rpa % 64) x.2 a) [])).foldl (fun s r =>
      let mine := here.filter (fun x => decide (r.1 ≤ x.1.rpa % 64) && decide (x.1.rpa % 64 < r.1 + r.2.length))
      sendParts s id 1 (64 * line + r.1) r.2.length (mine.map (fun x => (x.1.lane, 0))) r.2) s)

/-- A context is within an instruction that has acted in part: a division with its sources popped (R100), or an `hacc` whose chain steps wait
for their release (R185). No trap comes between. -/
def midway (c : Ctx) : Bool := c.divided.isSome || c.pend.any (fun p => p.waits.isSome && p.res.chain.isSome)

/-- A context may issue: its workgroup runs, or drains while an access of the context to another package is under way (R318), or a division
whose sources are popped has its result to push (R100, R139). -/
def mayIssue (s : State) (id : CtxId) (g : WG) : Bool :=
  decide (g.run = .running)
    || ((decide (g.run = .draining) || (g.preempt && decide (g.run ≠ .running))) && (!(remoteOf s id).isEmpty || (ctxIn g id.who).any (fun c => c.divided.isSome)))

/-- The place of a lane's bytes in the answer of a request that serves it. -/
def RemoteReq.servesAt (r : RemoteReq) (lane : Nat) : Option Nat := if r.parts.isEmpty then (if r.lane = lane then some 0 else none) else alookup lane r.parts

/-- A lane's access has been performed, with the bytes of its answer, before the instruction is complete: a later lane waits for another package. -/
def noteDone (s : State) (id : CtxId) (lane : Nat) (bs : List Byte) : State :=
  modPkg s (fun p => { p with
    nextRemote := p.nextRemote + 1,
    remote := p.remote ++ [{ id := p.nextRemote, sent := s.steps, ctx := some id, lane := lane, parts := [], core := none, issuer := none, rank := 0, port := 0,
                             seq := 0, op := 0, pa := 0, width := bs.length, home := none, kept := none, answer := some (some bs) }] })

/-- A context has sent the request of a lane, or performed it. -/
def remoteSent (s : State) (id : CtxId) (lane : Nat) : Bool := (remoteOf s id).any (fun r => (r.servesAt lane).isSome)

/-- The answer to one lane's remote access. -/
def remoteAnswer (s : State) (id : CtxId) (lane : Nat) : Option (Option (List Byte)) :=
  (remoteOf s id).findSome? (fun r => (r.servesAt lane).bind (fun o => r.answer.map (fun a => a.map (fun bs => bs.drop o))))

/-- One lane's access with its place, or the cause of the check it fails. -/
structure Placed where
  lane : Nat
  ea : Nat
  place : Except Nat Place

/-- One lane's access with a translation; `rb`: its leaf is rebuildable. -/
structure Found where
  acc : LaneAcc
  rb : Bool

/-- The place of a lane's access after the owner check (R200). -/
def placed (s : State) (b : Nat) (g : WG) (quay : Bool) (w : Nat) (x : Nat × Int) : Placed :=
  { lane := x.1, ea := lowBits 64 x.2,
    place := match placeOf s b g quay x.2 w with
      | .ok (.quay k) => if engOwned s k then .error 0x0E else .ok (.quay k)
      | r => r }

/-- The rank of the check a placed access fails; 9 when it fails none. -/
def Placed.rank (x : Placed) : Nat := match x.place with | .error c => checkRank c | .ok _ => 9

/-- The trap of the first check of R175 that fails in any lane. -/
def placeTrap (xs : List Placed) : Option PendTrap :=
  let worst := xs.foldl (fun m x => min m x.rank) 9
  match xs.filter (fun x => decide (x.rank = worst)) with
  | x :: rest =>
    match x.place with
    | .error c => some (mkTrap c x.ea (lanesOf ((x :: rest).map (fun y => y.lane))))
    | .ok _ => none
  | [] => none

/-- The access of a lane whose place and translation exist. -/
def found (s : State) (b : Nat) (g : WG) (wr : Bool) (x : Placed) : Option Found :=
  match x.place with
  | .error _ => none
  | .ok (.quay k) => some { acc := { lane := x.lane, ea := x.ea, loc := .quay k, va := none, own := ownWindow b g k }, rb := false }
  | .ok (.global va) =>
    match translate s (berthCore b) (asidOf g) va wr false with
    | none => none
    | some (leaf, pa) =>
      some { acc := { lane := x.lane, ea := x.ea, loc := viewLoc s (viewOf s g) va pa, va := some va, own := false }, rb := eRb leaf }

/-- The page copy a lane's write must wait for (R282). -/
def copyFor (s : State) (b : Nat) (g : WG) (x : Placed) : Option (Nat × Nat × Bool) :=
  match x.place with
  | .ok (.global va) =>
    match translate s (berthCore b) (asidOf g) va true false with
    | none => none
    | some (_, pa) => (copyNeeded s (asidOf g) (viewOf s g) va pa).map (fun c => (c.1, va / pageSize, c.2))
  | _ => none

/-- An access to a rebuildable page that must wait for its rebuild (R385, R386); `bad`: it reads a poisoned line. -/
def rebuildHeld (s : State) (g : WG) (bad : Bool) (x : Found) : Bool :=
  match x.acc.va with
  | none => false
  | some va =>
    let mine := (launchOf s g.lid).bind (fun l => l.rebuilds)
    x.rb && decide (mine ≠ some (asidOf g, va / pageSize))
      && (rebuildBusy s (asidOf g) (va / pageSize)
        || (bad && mine.isNone && (rebuildEntry s (asidOf g) (va / pageSize)).isSome))

/-- An access to another package. -/
def LaneAcc.isRemote (x : LaneAcc) : Bool := match x.loc with | .remote _ => true | _ => false

/-- The window offset of an access in the issuer's own window. -/
def windowOff (g : WG) (x : LaneAcc) : Option Nat :=
  match x.loc with
  | .quay k => if x.own then some (k % 2 ^ 20 - g.wbase) else none
  | _ => none

/-- Lanes of found accesses. -/
def foundLanes (xs : List Found) : LaneMask := lanesOf (xs.map (fun x => x.acc.lane))

/-- The workgroup is its launch's release head (R322). -/
def isHead (s : State) (g : WG) : Bool := ((launchOf s g.lid).map (fun l => l.relHead == g.wgix)).getD true

/-- A command of the workgroup that writes global memory is in flight: later releases follow it (R212, R257). -/
def engineWriting (s : State) (b : Nat) (g : WG) : Bool :=
  (coreOf s (berthCore (leadBerth b g))).lighter.any (fun x => x.berth == leadBerth b g && x.writes)

/-- A write or an update of a workgroup in another package is not acknowledged: a released one, or one that a context holds its slot for. -/
def unperformed (s : State) (lid wgix : Nat) : Bool :=
  unacked s lid wgix || s.pkg.remote.any (fun r => r.answer.isNone && decide (r.op ≠ 2)
    && (r.ctx.any (fun c => (wgOf s c.berth).any (fun g => g.lid == lid && g.wgix == wgix)) || r.kept.any (fun k => k.1 == lid && k.2.1 == wgix)))

/-- The head with every record drained and performed at system scope, whose effects are performed at issue (R257, R322). -/
def headDrained (s : State) (b : Nat) (g : WG) : Bool :=
  isHead s g && (stagingOf s b g).isEmpty && !engineWriting s b g && !unperformed s g.lid g.wgix

/-- A store of this lane passes countersign under DUP (R329). -/
def signedStore (g : WG) (x : LaneAcc) : Bool := isDup g && !x.own

/-- The store of this lane is staged when it goes out (R181, R322). Under IDEM alone the stores stay staged across a release of their context,
an engine command or a fork apart, whose instant they precede (DESIGN CHOICE, log 50). -/
def stagedMode (s : State) (b : Nat) (g : WG) (x : LaneAcc) : Bool :=
  x.va.isSome && (isIdem g || (isDet g && !headDrained s b g)) && !(isDet g && headDrained s b g)

/-- An atomic of this lane is staged (R181). -/
def stagedRmw (s : State) (b : Nat) (g : WG) (x : LaneAcc) : Bool := x.va.isSome && isDet g && !headDrained s b g

/-- An access to another package whose instruction waits for the answer: every one but a store or an atomic that is held or staged. An instruction
that has begun to act there goes on so. -/
def awaitsAnswer (s : State) (id : CtxId) (g : WG) (rd wr : Bool) (x : LaneAcc) : Bool :=
  x.isRemote && (!(remoteOf s id).isEmpty
    || !(if rd then wr && stagedRmw s id.berth g x else signedStore g x || stagedMode s id.berth g x))

/-- A byte of a copy's own stores not yet released: the youngest, with its poison (R181, R402). -/
def heldByte (g : WG) (addr : Nat) : Option (Byte × Bool) :=
  let hit := fun (h : HeldStore) => if h.addr.toNat ≤ addr && addr < h.addr.toNat + h.bytes.length then h.bytes[addr - h.addr.toNat]? else none
  let all := g.pilot.ctx.held ++ (g.crews.map (fun c => c.ctx.held)).flatten
  (all.foldl (fun (a : Option (Nat × Byte × Bool)) h =>
    match hit h with
    | none => a
    | some b => match a with
      | some (o, _) => if o ≤ h.order then some (h.order, b, h.poison) else a
      | none => some (h.order, b, h.poison)) none).map (fun x => x.2)

/-- A byte of the workgroup's staged stores: the last staged, with its poison (R181, R321, R402). -/
def stagedByte (rs : List StageRec) (va : Nat) : Option (Byte × Bool) :=
  rs.foldl (fun a r => match r.op with
    | .store line bytes => if line.toNat = va / 64 * 64 then ((bytes.find? (fun x => x.1 == va % 64)).map (fun x => (x.2, r.poison))).orElse (fun _ => a) else a
    | _ => a) none

/-- Byte k of an access where the workgroup's own stores, not yet released, have it (R181). -/
def ownByte (s : State) (id : CtxId) (g : WG) (x : LaneAcc) (k : Nat) : Option (Byte × Bool) :=
  if x.own then none else (heldByte g (x.ea + k)).orElse (fun _ => x.va.bind (fun va => stagedByte (stagingOf s id.berth g) (va + k)))

/-- An access reads some byte in memory, and the line there is poisoned (R404); an atomic reads memory. -/
def readsBadLine (s : State) (id : CtxId) (g : WG) (w : Nat) (wr : Bool) (x : LaneAcc) : Bool :=
  locBad s x.loc && (wr || (List.range w).any (fun k => (ownByte s id g x k).isNone))

/-- An access reads a poisoned line of memory, or a poisoned store of its workgroup that is not released (R403, R404). -/
def readsPoison (s : State) (id : CtxId) (g : WG) (w : Nat) (wr : Bool) (x : LaneAcc) : Bool :=
  readsBadLine s id g w wr x || (!wr && (List.range w).any (fun k => (ownByte s id g x k).any (fun b => b.2)))

/-- The checks on translated accesses: rebuilds, poison, refusals and answers of other packages, staged atomics. -/
def checkFound (s : State) (id : CtxId) (g : WG) (w : Nat) (rd wr : Bool) (xs : List Found) : Chk :=
  match xs.filter (fun x => rebuildHeld s g (rd && readsBadLine s id g w wr x.acc) x) with
  | x :: rest => .rebuild (x.acc.va.getD 0 / pageSize) x.acc.ea (foundLanes (x :: rest))
  | [] =>
    match xs.filter (fun x => rd && readsPoison s id g w wr x.acc) with
    | x :: rest => .poison x.acc.ea (foundLanes (x :: rest)) (windowOff g x.acc)
    | [] =>
      match xs.filter (fun x => awaitsAnswer s id g rd wr x.acc && decide (remoteAnswer s id x.acc.lane = some none)) with
      | x :: rest => .refused x.acc.ea (foundLanes (x :: rest))
      | [] =>
        if xs.any (fun x => awaitsAnswer s id g rd wr x.acc && (remoteAnswer s id x.acc.lane).isNone) then
          .remote ((xs.filter (fun x => awaitsAnswer s id g rd wr x.acc && !remoteSent s id x.acc.lane)).map (fun x => x.acc))
        else if rd && !wr && xs.any (fun x => match x.acc.va with | some va => stagedAtomic s id.berth g va w | none => false) then .staged
        else .ok (xs.map (fun x => x.acc))

/-- Check placed accesses before any is performed (R175, R277, R282, R385, R404, R410). `rd`: a poisoned line is consumed. -/
def checkPlaced (s : State) (id : CtxId) (g : WG) (ps : List Placed) (w : Nat) (rd wr : Bool) : Chk :=
  match placeTrap ps with
  | some t => .trap t
  | none =>
    match ps.filter (fun x => (found s id.berth g wr x).isNone) with
    | x :: rest => .fault x.ea (lanesOf ((x :: rest).map (fun y => y.lane)))
    | [] =>
      match (if wr then ps.filterMap (copyFor s id.berth g) else []) with
      | c :: _ => .copy c.1 c.2.1 c.2.2
      | [] => checkFound s id g w rd wr (ps.filterMap (found s id.berth g wr))

/-- Check every lane's access before any is performed. -/
def checkAccess (s : State) (id : CtxId) (g : WG) (quay : Bool) (as_ : List (Nat × Int)) (w : Nat) (rd wr : Bool) : Chk :=
  checkPlaced s id g (as_.map (placed s id.berth g quay w)) w rd wr

/-- The place of an access that may not lie in the Quay (R132, R134, R182). -/
def globalOnly (p : Placed) : Placed :=
  match p.place with
  | .ok (.quay _) | .error 0x0E => { p with place := .error 0x0A }
  | _ => p

/-- The n lines of a lane's block of global memory, numbered 128 × k beyond the lane. -/
def blockLines (n : Nat) (p : Placed) : List Placed :=
  match p.place with
  | .ok (.global va) => tabulate n (fun k => { lane := p.lane + 128 * k, ea := p.ea + 64 * k, place := .ok (.global (va + 64 * k)) })
  | _ => [p]

/-! ### A workgroup that leaves its core -/

/-- An array that nobody holds: what belongs to the physical array stays (R339). -/
def freeArray (y : Buoy) : Buoy := monitorStart { Buoy.idle with offline := y.offline, draws := y.draws, calBusy := y.calBusy, calPass := y.calPass }

/-- The array of a workgroup that retires keeps its state, and what it has sent still arrives (R444, R445), until a workgroup is placed on it. -/
def keepArray (s : State) (b : Nat) : State :=
  modCore s (berthCore b) (fun c => if c.buoy.holder = some b then { c with buoy := { c.buoy with holder := none } } else c)

/-- Take a workgroup's commands out of its core's queues, and its buoy array. -/
def dropCommands (s : State) (b : Nat) : State :=
  modCore s (berthCore b) (fun c =>
    { c with lighter := c.lighter.filter (fun x => x.berth != b), crane := c.crane.filter (fun x => x.berth != b),
             buoyQ := c.buoyQ.filter (fun x => x.berth != b),
             buoy := if c.buoy.holder = some b then freeArray c.buoy else c.buoy })

/-- A completion queue that outlives a workgroup: other workgroups may read it, and it does not lie in its window. -/
def outlives (b : Nat) (g : WG) (q : Binding) : Bool := decide (2 ≤ max q.psc.toNat q.csc.toNat) && !ownWindow b g q.desc

/-- The commands of a workgroup that ends are cancelled (R209): their records go to the queues that outlive it. -/
def cancelCommands (s : State) (b : Nat) : State :=
  match wgOf s b with
  | none => s
  | some g =>
    let peer := g.peer.bind (fun p => (wgOf s p).map (fun h => (p, h)))
    modCore s (berthCore b) (fun c =>
      let mine := ((c.lighter ++ c.crane ++ c.buoyQ).filter (fun x => x.berth == b)).map (fun x =>
        { x with cq := x.cq.filter (fun q => outlives b g q.2), cqPeer := x.cqPeer.filter (fun q => peer.any (fun h => outlives h.1 h.2 q)) })
      { c with cancelled := c.cancelled ++ mine.filter (fun x => x.cq.isSome || x.cqPeer.isSome) })

/-- A workgroup leaves its berth, and every resource of R307 with it; answers to its remote accesses have no taker, and their requests are free
for contexts that wait for one (R176). -/
def freeBerth (s : State) (b : Nat) : State :=
  let s := orphan (dropCommands s b) (fun c => c.berth == b)
  modCore (unblockAll { s with wgs := aerase b s.wgs } (fun _ _ r => decide (r = .remote 1))) (berthCore b) (fun c => { c with freed := true })

/-- A workgroup ends before its time: its commands end with 0x09, and it leaves its berth. -/
def endBerth (s : State) (b : Nat) : State := freeBerth (cancelCommands s b) b

/-- Abort a workgroup under IDEM (R278, R279): its staged stores are discarded and it is queued again once the record is answered. What
it has forked stays, a fork still staged is dropped with its reservation, and the rerun counts handles from 1: R278 names no fork (DESIGN CHOICE, log 46). -/
def abortWg (s : State) (b : Nat) (rec : Option (Nat × Word)) : State :=
  match wgOf s b with
  | none => s
  | some g =>
    let s := match g.peer with
      | some p => endBerth (endBerth s b) p
      | none => endBerth s b
    modLaunch s g.lid (fun l => { l with aborted := l.aborted ++ [(g.wgix, rec)], state := .placing })

/-! ### Translation faults (R275, R277, R278) -/

/-- The record of a translation fault: an unanswered one of the same core is shared. The record's number and the state after it. -/
def faultRecord (s : State) (p core asid va : Nat) (wrt fet eng ahead idm : Bool) (lnch widx : Nat) : Word × State :=
  let part := partOf s p
  let page := va / pageSize
  match part.openFaults.find? (fun f => f.core == core && f.asid == asid && f.page == page && f.wrt == wrt && f.fet == fet) with
  | some f => (f.seqn, s)
  | none =>
    let n := part.fr.seq
    (n, modPart s p (fun q =>
      { q with
        fr := ringPut q.fr (faultBits 0x01 wrt fet eng ahead idm asid lnch (page * pageSize) widx 0),
        openFaults := q.openFaults ++ [{ seqn := n, part := p, core := core, asid := asid, page := page, wrt := wrt, fet := fet }] }))

/-- A rebuild holds another context of the workgroup (R388). -/
def rebuildWaits (g : WG) : Bool := (whos g).any (fun w => (ctxIn g w).any (fun c => match c.blocked with | some (.rebuild _ _ _) => true | _ => false))

/-- A rebuild holds a context of the workgroup or of its other copy, or a command of theirs: it is not aborted (R388). -/
def keptByRebuild (s : State) (b : Nat) (g : WG) : Bool :=
  let held := fun (b : Nat) (g : WG) =>
    let c := coreOf s (berthCore b)
    rebuildWaits g || (c.lighter ++ c.crane ++ c.buoyQ).any (fun x => x.berth == b && x.rebuild.isSome)
  held b g || (g.peer.bind (fun p => (wgOf s p).map (fun h => (p, h)))).any (fun x => held x.1 x.2)

/-- A thread's translation fault: the workgroup is aborted, unless a rebuild holds it, or the context waits at its slot (R277, R278, R388). -/
def threadFault (s : State) (id : CtxId) (va : Nat) (lanes : LaneMask) (wrt fet : Bool) : State :=
  match wgOf s id.berth with
  | none => s
  | some g =>
    let idm := isIdem g && !g.released && !keptByRebuild s id.berth g
    let r := faultRecord s g.part (berthCore id.berth) (asidOf g) va wrt fet false false idm (launchIdOf s g).toNat g.wgix
    if idm then abortWg r.2 id.berth (some (g.part, r.1))
    else
      modWg (block r.2 id (.fault r.1 (BitVec.ofNat 64 va) lanes)) id.berth (fun g => { g with faultSince := some (g.faultSince.getD s.cycle) })

/-- A held access to a rebuildable page (R385, R386): the rebuild starts unless one runs, and the context waits. -/
def rebuildHold (s : State) (id : CtxId) (vpn ea : Nat) (lanes : LaneMask) : State :=
  match wgOf s id.berth with
  | none => s
  | some g =>
    if rebuildStalls s g.part (asidOf g) vpn then s else
    let s := if rebuildBusy s (asidOf g) vpn then s else startRebuild s g.part (asidOf g) vpn (viewOf s g)
    if rebuildBusy s (asidOf g) vpn then
      modWg (block s id (.rebuild vpn (BitVec.ofNat 64 ea) lanes)) id.berth (fun g => { g with faultSince := some (g.faultSince.getD s.cycle) })
    else trapHere s id (mkTrap 0x15 ea lanes)

/-! ### Signatures (R329) -/

/-- One byte into the CRC-64. -/
def crcBits : Nat → BitVec 64 → BitVec 64
  | 0, c => c
  | n + 1, c => crcBits n (if bitAt c 63 then (c <<< 1) ^^^ 0x42F0E1EBA9EA3693#64 else c <<< 1)

/-- Bytes into the CRC-64. -/
def crcBytes (c : BitVec 64) (bs : List Byte) : BitVec 64 := bs.foldl (fun c b => crcBits 8 (c ^^^ BitVec.ofNat 64 (b.toNat * 2 ^ 56))) c

/-- The record of one lane of a countersigned event. -/
def sigRecord (addr w kind : Nat) (data : List Byte) : List Byte :=
  natLe 8 addr ++ natLe 1 w ++ natLe 1 kind ++ natLe 6 0 ++ ((data ++ natLe 16 0).take 16)

/-! ### What a load returns -/

/-- The bytes a lane's load returns: own stores not released, the workgroup's staged bytes, memory (R181). -/
def accRead (s : State) (id : CtxId) (g : WG) (x : LaneAcc) (w : Nat) : List Byte :=
  let base := match x.loc with
    | .remote _ => ((remoteAnswer s id x.lane).bind (fun a => a)).getD []
    | l => locRead s l w
  (List.range w).map (fun k => ((ownByte s id g x k).map (fun b => b.1)).getD (base.getD k 0))

/-! ### Staging (R321 to R323, R181) -/

/-- A record is a store record. -/
def StageRec.isStore (r : StageRec) : Bool := match r.op with | .store _ _ => true | _ => false

/-- A context has a store or another effect in a record. -/
def StageRec.of (r : StageRec) (w : Who) : Bool := decide (r.who = w) || r.others.contains w

/-- A staging record before it is numbered. -/
def freshRec (g : WG) (who : Who) (lane : Nat) (slot : DWord) (op : StageOp) : StageRec :=
  { id := g.nextRec, who := who, lane := lane, slot := slot, lanes := lanesOf [lane], others := [], op := op, poison := false, whole := false, req := none,
    waited := false }

/-- Stage one lane's store, merging it where R321 lets it. -/
def stageStore (g : WG) (who : Who) (lane : Nat) (slot : DWord) (va : Nat) (bs : List Byte) : WG :=
  let line := va / 64 * 64
  let add := putBytes (va % 64) bs
  let tail := (g.staging.reverse.takeWhile StageRec.isStore)
  let found := tail.any (fun r => match r.op with | .store l _ => l.toNat == line | _ => false)
  if found then
    { g with staging := (g.staging.foldr (fun r (acc : List StageRec × Bool) =>
        match r.op, acc.2 with
        | .store l old, false => if l.toNat = line then ({ r with op := .store l (add old), lanes := if r.who = who && r.slot = slot then r.lanes ||| lanesOf [lane] else r.lanes, others := if r.who = who || r.others.contains who then r.others else r.others ++ [who] } :: acc.1, true) else (r :: acc.1, false)
        | _, _ => (r :: acc.1, acc.2)) ([], false)).1 }
  else
    { g with staging := g.staging ++ [freshRec g who lane slot (.store (BitVec.ofNat 64 line) (add []))], nextRec := g.nextRec + 1 }

/-- Add a record that is not a store. -/
def stageOp (g : WG) (who : Who) (lane : Nat) (slot : DWord) (op : StageOp) : WG :=
  { g with staging := g.staging ++ [freshRec g who lane slot op], nextRec := g.nextRec + 1 }

/-- Records that a workgroup's staging takes in its core's area: all but the places of joins. -/
def recordCount (rs : List StageRec) : Nat := (rs.filter (fun r => match r.op with | .join _ => false | _ => true)).length

/-- Records in the staging area of a core (R321, R323). -/
def stagedOn (s : State) (core : Nat) : Nat :=
  (s.wgs.foldl (fun n x => if berthCore x.1 = core then n + recordCount x.2.staging else n) 0)
    + (s.launches.foldl (fun n l => l.ended.foldl (fun n e => if e.2.1 = core then n + recordCount e.2.2 else n) n) 0)

/-- Records of the area. -/
def stagingCap : Nat := 512

/-- A write to a virtual address leaves the package, and its core has no request free for it (R176). -/
def noRequest (s : State) (core asid va : Nat) : Bool :=
  (match walk s asid va with | some (e, size) => paRemote (ePa e + va % size) | none => false) && !requestRoom s core

/-- Release a store record of a workgroup from a core; `none`: its page has no translation now, or is under rebuild (R385), or the core has no
request free (R176). Adjacent bytes go to another package in one frame, so that no unit of R248 is cut; a line that one instruction wrote whole
loses its mark (R403). -/
def releaseStore (s : State) (lid wgix core asid : Nat) (view : Option Nat) (r : StageRec) (line : Nat) (bytes : List (Nat × Byte)) : Option State :=
  match walk s asid line with
  | none => none
  | some (e, size) =>
    let pa := ePa e + line % size
    if !eWrite e || !leafPa pa || pageHeld s lid asid line || noRequest s core asid line then none
    else
      let s := copyAll s asid view line pa (s.nextRev + 2)
      let loc := viewLoc s view line pa
      let s := (byteRuns bytes).foldl (fun s x =>
        claimSent (locWrite s (viewLoc s view (line + x.1) (pa + x.1)) x.2) lid wgix core { who := r.who, va := line + x.1, slot := r.slot, lanes := r.lanes } s.pkg.nextRemote) s
      some (if r.poison then locMark s loc true else if r.whole then locMark s loc false else s)

/-- A global store of a workgroup has been released (R278): both copies of a pair know it. -/
def markReleased (s : State) (lid wgix : Nat) : State :=
  { s with wgs := s.wgs.map (fun x => if x.2.lid = lid && x.2.wgix = wgix then (x.1, { x.2 with released := true }) else x) }

/-- Release every staged store of a workgroup under IDEM alone that can go out (R278). -/
def flushStaging (s : State) (b : Nat) : State :=
  match wgOf s b with
  | none => s
  | some g =>
    let r := g.staging.foldl (fun (acc : State × List StageRec) x =>
      match x.op with
      | .store line bytes =>
        match releaseStore acc.1 g.lid g.wgix (berthCore b) (asidOf g) (viewOf s g) x line.toNat bytes with
        | some s => (s, acc.2)
        | none => (acc.1, acc.2 ++ [x])
      | _ => (acc.1, acc.2 ++ [x])) (s, [])
    let t := modWg r.1 b (fun g => { g with staging := r.2 })
    if r.2.length < g.staging.length then markReleased t g.lid g.wgix else t

/-! ### Stores -/

/-- A store is performed at its place, unless the answer of another package shows that it has been. -/
def storeNow (s : State) (id : CtxId) (g : WG) (x : LaneAcc) (slot : DWord) (bs : List Byte) : State :=
  let s := if remoteSent s id x.lane then s
    else claimSent (locWrite s x.loc bs) g.lid g.wgix (berthCore id.berth) { who := id.who, va := x.ea, slot := slot, lanes := lanesOf [x.lane] } s.pkg.nextRemote
  if x.va.isSome then markReleased s g.lid g.wgix else s

/-- A store goes out: staged, or performed (R181); `now`: performed whatever the mode. -/
def storeOut (s : State) (id : CtxId) (now : Bool) (x : LaneAcc) (slot : DWord) (bs : List Byte) : State :=
  match wgOf s id.berth with
  | none => s
  | some g =>
    if !now && stagedMode s id.berth g x && !remoteSent s id x.lane then
      modWg s (leadBerth id.berth g) (fun g => stageStore g id.who x.lane slot x.ea bs)
    else storeNow s id g x slot bs

/-- Lines of a workgroup's staged stores that writes of one instruction, given by address and length, cover whole (R403). -/
def coverStaged (s : State) (b : Nat) (writes : List (Nat × Nat)) : State :=
  let covered := fun (line : DWord) =>
    (List.range 64).all (fun o => writes.any (fun x => decide (x.1 ≤ line.toNat + o) && decide (line.toNat + o < x.1 + x.2)))
  modWg s b (fun g => { g with staging := (g.staging.foldr (fun r (acc : List StageRec × List DWord) => match r.op with
    | .store line _ => (if !acc.2.contains line && covered line then { r with whole := true } :: acc.1 else r :: acc.1, line :: acc.2)
    | _ => (r :: acc.1, acc.2)) ([], [])).1 })

/-- New records that the stores of an instruction need. -/
def recordsNeeded (g : WG) (xs : List (LaneAcc × List Byte)) : Nat :=
  let g' := xs.foldl (fun g x => stageStore g .pilot x.1.lane 0 x.1.ea x.2) g
  g'.staging.length - g.staging.length

/-- The records that stores need do not fit the area. -/
def overflows (s : State) (lb : Nat) (xs : List (LaneAcc × List Byte)) : Bool :=
  match wgOf s lb with
  | some g => let n := recordsNeeded g xs; decide (0 < n) && decide (stagingCap < stagedOn s (berthCore lb) + n)
  | none => false

/-- Under IDEM alone the stores of an instruction that would overflow the area release the workgroup's staged stores first (R278). The second value:
the area holds nothing but records that cannot go out and records of others, and the stores are released themselves. -/
def makeRoom (s : State) (id : CtxId) (g : WG) (xs : List (LaneAcc × List Byte)) : State × Bool :=
  let lb := leadBerth id.berth g
  let staged := xs.filter (fun x => stagedMode s id.berth g x.1 && !remoteSent s id x.1.lane)
  if isDet g || !overflows s lb staged then (s, false) else let t := flushStaging s lb; (t, overflows t lb staged)

/-- The instruction holds: its records do not fit the area (R321). -/
def stagingFull (s : State) (b : Nat) (g : WG) (xs : List (LaneAcc × List Byte)) : Bool :=
  isDet g && overflows s (leadBerth b g) (xs.filter (fun x => stagedMode s b g x.1))

/-- Slack of a context's pair (R330). -/
def slackFull (s : State) (id : CtxId) (g : WG) : Bool :=
  decide (g.copy = .lead) && (match g.peer.bind (fun p => ctxOf s { berth := p, who := id.who }), ctxIn g id.who with
    | some t, some l => decide (t.slack + 256 ≤ l.slack)
    | _, _ => false)

/-- Free records of a core's countersign buffer, which its copies share (R330). -/
def bufferFree (s : State) (core : Nat) : Nat :=
  Config.countersignRecords - s.wgs.foldl (fun n x => if berthCore x.1 = core then n + ((heldOf x.2).filter (fun h => !h.spilled)).length else n) 0

/-- Records that the range of an address space has still room for: save areas and rollback images lie in it too (R330, R331; log 51). -/
def areaFree (s : State) (g : WG) : Nat :=
  (65536 * bits (spaceOf s (asidOf g)).svsize 47 16 - (areasOf s (asidOf g)).foldl (fun n a => n + a.2) 0 - recordUse s (asidOf g)) / 32

/-- Countersign has room for n more records of a copy (R330, R335). -/
def countersignRoom (s : State) (b : Nat) (g : WG) (n : Nat) : Bool := decide (n ≤ bufferFree s (berthCore b) + areaFree s g)

/-- The address of a countersigned store in its signature record: virtual, or logical in Quay memory (R329). -/
def signedAddr (s : State) (g : WG) (x : LaneAcc) : Nat := match x.loc with | .quay k => keyLogical s g.part k | _ => x.ea

/-- The code point a context is at: of its head entry, or the pilot's counter. -/
def pointOf (s : State) (id : CtxId) : DWord :=
  match wgOf s id.berth, id.who with
  | some g, .pilot => g.pilot.pc
  | some g, .crew n => ((headOf s id.berth g n).map (fun h => h.cix.setWidth 64)).getD 0
  | none, _ => 0

/-- Stores go out in order: released themselves when `now` says so, and otherwise as their mode has it. A line that they cover whole loses its mark
(R270), one that is staged at its release (R403). -/
def storesGo (s : State) (id : CtxId) (g : WG) (now : Bool) (xs : List (LaneAcc × DWord × List Byte)) : State :=
  let staged := fun (x : LaneAcc × DWord × List Byte) => !now && stagedMode s id.berth g x.1
  let t := xs.foldl (fun s x => storeOut s id now x.1 x.2.1 x.2.2) s
  let t := if (xs.filter staged).isEmpty then t else coverStaged t (leadBerth id.berth g) ((xs.filter staged).map (fun x => (x.1.ea, x.2.2.length)))
  clearCovered t ((xs.filter (fun x => !staged x)).map (fun x => (x.1.loc, x.2.2.length)))

/-- Perform the stores of one instruction (R173, R174, R181): in lane order, held under DUP, staged under DET and IDEM. -/
def storeAll (s : State) (id : CtxId) (w : Nat) (xs : List (LaneAcc × List Byte)) : State :=
  match wgOf s id.berth with
  | none => s
  | some g =>
    let signed := xs.filter (fun x => signedStore g x.1)
    let direct := xs.filter (fun x => !signedStore g x.1)
    let free := bufferFree s (berthCore id.berth)
    let slot := pointOf s id
    let s := if signed.isEmpty then s else
      modCtx s id (fun c =>
        { c with
          sig := signed.foldl (fun h x => crcBytes h (sigRecord (signedAddr s g x.1) w 0 x.2)) c.sig,
          held := c.held ++ ((tabulate signed.length (fun k => k)).zip signed).map (fun x =>
            { addr := BitVec.ofNat 64 x.2.1.ea, bytes := x.2.2, instr := c.slack, order := s.steps, slot := slot, lane := x.2.1.lane, poison := false,
              spilled := decide (free ≤ x.1) }) })
    let r := makeRoom s id g direct
    storesGo r.1 id g r.2 (direct.map (fun x => (x.1, slot, x.2)))

/-- Translations of an instruction's accesses stay in the core's TLB (R272). -/
def fillTlb (s : State) (id : CtxId) (g : WG) (xs : List LaneAcc) : State :=
  xs.foldl (fun s x => match x.va with
    | some va => tlbFill s (berthCore id.berth) (asidOf g) va
    | none => s) s

/-- Forget the answers of a context's remote accesses: its instruction is complete. -/
def dropRemote (s : State) (id : CtxId) : State := orphan s (fun c => decide (c = id))

/-! ### Memory-side atomics (R178) -/

/-- The new value of an atomic operation (R177, R178). -/
def atomOp (aop : Nat) (ty : Ty) (old b : Nat) : Nat :=
  if ty == .f32 then
    match aop with
    | 0 => (roundIeee fmtF32 .rne 0 (fvAdd .rne (decodeF fmtF32 old) (decodeF fmtF32 b)).1).1
    | 1 => (fMinMax fmtF32 false old b).1
    | 2 => (fMinMax fmtF32 true old b).1
    | _ => b
  else
    let n := ty.width
    match aop with
    | 0 => (old + b) % 2 ^ n
    | 1 => if ty.intOf b < ty.intOf old then b else old
    | 2 => if ty.intOf old < ty.intOf b then b else old
    | 3 => Nat.land old b
    | 4 => Nat.lor old b
    | 5 => Nat.xor old b
    | _ => b

/-- One read-modify-write at its memory point: the old value and the state after it. -/
def rmwAt (s : State) (l : Loc) (ty : Ty) (f : Nat → Nat) : Nat × State :=
  let w := ty.width / 8
  let old := leNat (locRead s l w)
  (old, locWrite s l (natLe w (f old)))

/-- `cas` (R178): the new value where the old one equals the compare value bit for bit. -/
def casOp (c b old : Nat) : Nat := if old = c then b else old

end Sys2Proof.Machine
end

