-- ==== Sys2Proof/Machine/Queue.lean ====
section
/-! DEFINITION. Queue: queues in Quay memory and their home agents (R188 to R197): reading and writing entries, binding, what blocks and
what traps. -/

namespace Sys2Proof.Machine

/-- Key of an offset from a descriptor. -/
def offKey (desc : Nat) (o : Int) : Nat := ((desc : Int) + o).toNat

/-- Bytes of an entry of a binding. -/
def qWidth (q : Binding) : Nat := entryBytes q.wide
/-- Key of entry j of the ring (R188). -/
def qEntryKey (q : Binding) (j : Nat) : Nat := offKey q.desc q.roff + j % q.cap * qWidth q
/-- Key of the side record of entry j. -/
def qSideKey (q : Binding) (j : Nat) : Nat := offKey q.desc q.soff + 32 * (j % q.cap)
/-- `HEAD` at the home agent. -/
def qHead (s : State) (q : Binding) : Word := BitVec.ofNat 32 (cellsNat s.quay (q.desc + 12) 4)
/-- `TAIL` at the home agent. -/
def qTail (s : State) (q : Binding) : Word := BitVec.ofNat 32 (cellsNat s.quay (q.desc + 16) 4)
/-- Number of the k-th oldest entry: pops performed count modulo 2^32 (R188). -/
def qAt (s : State) (q : Binding) (k : Nat) : Nat := (qHead s q + BitVec.ofNat 32 k).toNat
/-- Entries in the queue. -/
def qCount (s : State) (q : Binding) : Nat := (qTail s q - qHead s q).toNat
/-- Free entries by the binding's cache (R192). -/
def qCachedFree (q : Binding) : Nat := q.cap - (q.tail - q.head).toNat
/-- The wider of the two scopes (R189). -/
def qScope (q : Binding) : Nat := max q.psc.toNat q.csc.toNat
/-- Refresh the cache from home; an entry still in transit stays counted (R192). -/
def qRefresh (s : State) (q : Binding) : Binding :=
  { q with head := qHead s q, tail := qTail s q + BitVec.ofNat 32 q.transit.length }

/-- The agent finds the descriptor, the entry or its side record in an engine-owned tile (R197 reason 0x6). -/
def qMisowned (s : State) (q : Binding) (j : Nat) : Bool :=
  engOwned s q.desc || engOwned s (qEntryKey q j) || engOwned s (qEntryKey q j + qWidth q - 1) || engOwned s (qSideKey q j)

/-- The places of the next n pushes, by the binding's cache, lie in an engine-owned tile. -/
def pushMisowned (s : State) (q : Binding) (n : Nat) : Bool := (List.range n).any (fun k => qMisowned s q (q.tail + BitVec.ofNat 32 k).toNat)

/-- Bytes of the oldest entry. -/
def qOldest (s : State) (q : Binding) (k : Nat) : List Byte := cellsReadN s.quay (qEntryKey q (qAt s q k)) (qWidth q)
/-- Side record of the oldest entry, as a number. -/
def qSide (s : State) (q : Binding) (k : Nat) : Nat := cellsNat s.quay (qSideKey q (qAt s q k)) 32
/-- A line of the oldest entry is poisoned (R404). -/
def qPoisoned (s : State) (q : Binding) (k : Nat) : Bool :=
  let a := qEntryKey q (qAt s q k)
  (List.range (qWidth q / 8)).any (fun i => s.quayBad.contains ((a + 8 * i) / 64))

/-- The agent removes the oldest entry. -/
def qRemove (s : State) (q : Binding) : State :=
  { s with quay := cellsWriteN s.quay (q.desc + 12) (natLe 4 ((qHead s q).toNat + 1)) }

/-- The bits of a side record (R188). -/
def sideBits (mask : LaneMask) (eng eerr : Bool) : Nat := mask.toNat + 2 ^ 128 * (eng.toNat + 2 * eerr.toNat)

/-- The agent accepts entries at the tail, one after another. -/
def qAppend (s : State) (q : Binding) (eng eerr : Bool) : List QEntry → State
  | [] => s
  | e :: es =>
    let t := (qTail s q).toNat
    let m := cellsWriteN s.quay (qEntryKey q t) e.bytes
    let m := cellsWriteN m (qSideKey q t) (natLe 32 (sideBits e.mask eng eerr))
    qAppend { s with quay := cellsWriteN m (q.desc + 16) (natLe 4 (t + 1)) } q eng eerr es

/-- Contexts waiting for an entry of the queue ask again (R191). -/
def qWakePops (s : State) (desc : Nat) : State :=
  unblockAll s (fun _ g r => match r with
    | .pop n => (g.binds.getD n none).any (fun q => q.desc == desc)
    | _ => false)

/-- Contexts waiting for room in the queue ask again (R192). -/
def qWakePushes (s : State) (desc : Nat) : State :=
  unblockAll s (fun _ g r => match r with
    | .push n => (g.binds.getD n none).any (fun q => q.desc == desc)
    | _ => false)

/-- The binding of a name. -/
def bindOf (g : WG) (n : Nat) : Option Binding := g.binds.getD n none

/-- Change a binding. -/
def modBind (g : WG) (n : Nat) (f : Binding → Binding) : WG := { g with binds := g.binds.modify n (fun q => q.map f) }

/-- Room at home for a group of n entries. -/
def qRoom (s : State) (q : Binding) (n : Nat) : Bool := decide (qCount s q + n ≤ q.cap)

/-- The home slice's die is the die of a berth. -/
def sameDie (desc b : Nat) : Bool := desc / 2 ^ 20 / Config.coresPerDie == berthCore b / Config.coresPerDie

/-- The launch of a queue's stack-group instance (R189): the one whose workgroups on the home slice's die have had it bound since none had
(log 15). -/
def groupOwner (s : State) (desc : Nat) : Option Nat :=
  s.wgs.findSome? (fun x => x.2.binds.findSome? (fun q => q.bind (fun q => if q.desc = desc then q.group else none)))

/-- A workgroup lies in a scope instance of a descriptor's home slice (R189; log 15). -/
def inScope (s : State) (b : Nat) (g : WG) (desc scope : Nat) : Bool :=
  match scope with
  | 1 => ownWindow b g desc
  | 2 => sameDie desc b && (groupOwner s desc).all (fun l => l == g.lid)
  | 3 => (partCores (partOf s g.part)).contains (desc / 2 ^ 20)
  | 4 => true
  | _ => false

/-- The descriptor, ring or side array of n bytes at a key lies in the binder's window, or in no window. R189 says so of the descriptor; of the
ring and the side array it is the model's choice (log 39). -/
def regionPlaced (s : State) (b : Nat) (g : WG) (own : Bool) (key n : Nat) : Bool :=
  if own then ownWindow b g key && ownWindow b g (key + n - 1)
  else decide (pinnedBase s (key / 2 ^ 20) ≤ key % 2 ^ 20) && decide ((key + n - 1) % 2 ^ 20 < 0xFC000)

/-- The descriptor breaks R188. -/
def descBad (d : BitVec 512) (key : Nat) : Bool :=
  let base : Nat := key % 2 ^ 20
  let inSlice := fun (o : Int) (n : Nat) => decide (0 ≤ (base : Int) + o) && decide ((base : Int) + o + n ≤ 2 ^ 20)
  !dClean d || (dPsc d).toNat = 0 || 4 < (dPsc d).toNat || (dCsc d).toNat = 0 || 4 < (dCsc d).toNat
    || dCap d = 0 || 131072 < dCap d || dRoff d % (entryBytes (dWide d) : Int) ≠ 0 || dSoff d % 32 ≠ 0
    || !inSlice (dRoff d) (dCap d * entryBytes (dWide d)) || !inSlice (dSoff d) (dCap d * 32)

/-- The binding a descriptor gives. -/
def bindingOf (d : BitVec 512) (key : Nat) (win : Option Nat) : Binding :=
  { desc := key, win := win, wide := dWide d, psc := dPsc d, csc := dCsc d, cap := dCap d, roff := dRoff d, soff := dSoff d,
    head := dHead d, tail := dTail d, transit := [], group := none }

/-- A binding that a workgroup makes (R190), of the stack-group instance where it lies in it (R189). -/
def newBinding (s : State) (b : Nat) (g : WG) (d : BitVec 512) (key : Nat) (win : Option Nat) : Binding :=
  { bindingOf d key win with group := if inScope s b g key 2 then some g.lid else none }

/-- Some of n bytes lie in a tile of the engines. -/
def anyOwned (s : State) (key n : Nat) : Bool :=
  (List.range ((key % 4096 + n + 4095) / 4096)).any (fun k => engOwned s (key / 4096 * 4096 + 4096 * k))

/-- The descriptor's line. -/
def descAt (s : State) (key : Nat) : BitVec 512 := BitVec.ofNat 512 (cellsNat s.quay key 64)

/-- The reason of the queue-misuse trap of a bind (R190, R197), the name free. -/
def bindReason (s : State) (b : Nat) (g : WG) (key : Nat) : Option Nat :=
  let d := descAt s key
  let q := bindingOf d key none
  let own := q.psc.toNat = 1 && q.csc.toNat = 1
  if engOwned s key then some 0x6
  else if descBad d key then some 0x4
  else if !regionPlaced s b g own key 64 || !regionPlaced s b g own (offKey key q.roff) (q.cap * qWidth q)
      || !regionPlaced s b g own (offKey key q.soff) (q.cap * 32)
      || !(inScope s b g key q.psc.toNat || inScope s b g key q.csc.toNat) then some 0x5
  else if anyOwned s (offKey key q.roff) (q.cap * qWidth q) || anyOwned s (offKey key q.soff) (q.cap * 32) then some 0x6
  else none

/-- A trap of queue misuse (R197). -/
def qTrap (reason n : Nat) (lanes : LaneMask) : PendTrap := mkTrap 0x0B (reason + 16 * n) lanes

/-- Misuse that naming a queue for a pop or a push shows at once: unbound, the wrong width, outside the scope (R24, R189). -/
def useReason (s : State) (b : Nat) (g : WG) (n : Nat) (wide push : Bool) : Option Nat :=
  match bindOf g n with
  | none => some 0x1
  | some q =>
    if q.wide != wide then some 0x2
    else if !inScope s b g q.desc (if push then q.psc.toNat else q.csc.toNat) then some 0x5
    else none

end Sys2Proof.Machine
end

