-- ==== Sys2Proof/Machine/Redundancy.lean ====
section
/-! DEFINITION. Redundancy: the rollback image of a DUP pair and the return to it (R331, R333), errors that only one copy sees (R405). -/

namespace Sys2Proof.Machine

/-- Entries of a set of numbers that lie in a range, counted from its start. -/
def nsSlice (xs : List Nat) (a n : Nat) : List Nat := (xs.filter (fun x => decide (a ≤ x) && decide (x < a + n))).map (fun x => x - a)

/-- Put entries of a range of a set back. -/
def nsPlace (xs : List Nat) (a n : Nat) (ys : List Nat) : List Nat :=
  ys.foldl (fun s y => nsInsert (a + y) s) (xs.filter (fun x => !(decide (a ≤ x) && decide (x < a + n))))

/-- A context as an interval starts: nothing held, the signature closed. -/
def intervalStart (c : Ctx) : Ctx := { c with sig := 0, closed := 0, held := [], slack := 0, ordinal := 0, granted := false, copied := none, blocked := none }

/-- A workgroup's commands in its core's queues, each with its engine. -/
def flightOf (s : State) (b : Nat) : List (Engine × Cmd) :=
  let c := coreOf s (berthCore b)
  let mine := fun (k : Engine) (q : List Cmd) => (q.filter (fun x => x.berth == b)).map (fun x => (k, x))
  mine .lighter c.lighter ++ mine .crane c.crane ++ mine .buoy c.buoyQ

/-- Put a workgroup's commands back into its core's queues, after those of others. -/
def putFlight (s : State) (b : Nat) (cmds : List (Engine × Cmd)) : State :=
  let back := fun (k : Engine) (q : List Cmd) => q.filter (fun x => x.berth != b) ++ (cmds.filter (fun x => decide (x.1 = k))).map (fun x => x.2)
  modCore s (berthCore b) (fun c => { c with lighter := back .lighter c.lighter, crane := back .crane c.crane, buoyQ := back .buoy c.buoyQ })

/-- The rollback image of a workgroup at this point (R331). -/
def imageOf (s : State) (b : Nat) (g : WG) : Image :=
  let g := modAllCtx g intervalStart
  { pilot := g.pilot, crews := g.crews, binds := g.binds, bars := g.bars, ckBar := g.ckBar, accs := g.accs, tags := g.tags,
    tagErr := g.tagErr, tvec := g.tvec, ptvec := g.ptvec, tdiag := g.tdiag, ckcnt := g.ckcnt,
    cmds := flightOf s b,
    sweep := if (flightOf s b).any (fun x => decide (x.1 = .buoy) && x.2.started && x.2.opc == 0x24) then
      (let y := (coreOf s (berthCore b)).buoy; some (y.sweep, y.chosen)) else none,
    taps := g.taps,
    window := cellsSlice s.quay (winKey b g 0) (hQuayb g.hdr),
    tiles := nsSlice s.engTiles (winKey b g 0 / 4096) (hQuayb g.hdr / 4096),
    bad := nsSlice s.quayBad (winKey b g 0 / 64) (hQuayb g.hdr / 64), base := 0, len := 0 }

/-- A rollback image in the form in which its bytes are laid out (R331): as a save image's. -/
def savedImage (s : State) (b : Nat) (g : WG) (im : Image) : Saved :=
  let g0 := g
  let g : WG := { g with pilot := im.pilot, crews := im.crews, binds := im.binds.map (fun q => q.map (savedBind s b g0)), bars := im.bars, ckBar := im.ckBar, accs := im.accs,
                         tags := im.tags, tagErr := im.tagErr, tvec := im.tvec, ptvec := im.ptvec, tdiag := im.tdiag, ckcnt := im.ckcnt, taps := im.taps,
                         staging := [], run := .running, image := none }
  let v : Saved := { wg := g, base := im.base, len := im.len, lens := [], window := im.window, engTiles := im.tiles, badLines := im.bad, cmds := im.cmds,
                     buoy := none, timers := im.bars.map (fun _ => none), link := 0, handles := [], swapped := false }
  { v with lens := sections v }

/-- Take the rollback image of a copy at this point, and write it to the countersign area (R331). -/
def keepImage (s : State) (b : Nat) : State :=
  match wgOf s b with
  | none => s
  | some g =>
    let im := imageOf s b g
    let v := savedImage s b g im
    match areaTop (setWg s b { g with image := none }) (asidOf g) (imageLen v) with
    | some a => setWg (imageWrite s { v with base := a, len := imageLen v } (launchIdOf s g)) b { g with image := some { im with base := a, len := imageLen v } }
    | none => setWg s b { g with image := some im }

/-- The rollback image as the countersign area has it (R333). -/
def imageBack (s : State) (b : Nat) (g : WG) (im : Image) : Image :=
  if im.len = 0 then im
  else
    let v := savedImage s b g im
    let w := imageRead s v (launchIdOf s g)
    if w = v then im
    else
      { im with pilot := w.wg.pilot, crews := w.wg.crews,
                binds := if w.wg.binds = v.wg.binds then im.binds else w.wg.binds.map (fun q => q.bind (moveBind s g.part b g.wbase)),
                bars := w.wg.bars, accs := w.wg.accs, tags := w.wg.tags, tagErr := w.wg.tagErr, tvec := w.wg.tvec, ptvec := w.wg.ptvec, tdiag := w.wg.tdiag,
                ckcnt := w.wg.ckcnt, taps := w.wg.taps, cmds := w.cmds, window := w.window, tiles := w.engTiles, bad := w.badLines }

/-- Write the window bytes with their owner and poison bits. -/
def placeWindow (s : State) (b : Nat) (g : WG) (cells : List Host.Cell) (tiles bad : List Nat) : State :=
  { s with
    quay := cellsPlace s.quay (winKey b g 0) (hQuayb g.hdr) cells,
    engTiles := nsPlace s.engTiles (winKey b g 0 / 4096) (hQuayb g.hdr / 4096) tiles,
    quayBad := nsPlace s.quayBad (winKey b g 0 / 64) (hQuayb g.hdr / 64) bad }

/-- A binding of a queue that other workgroups use: what went into it is there, whatever is rolled back. -/
def sharedBind (q : Binding) : Bool := decide (2 ≤ max q.psc.toNat q.csc.toNat)

/-- A binding as a rollback leaves it: the image's, but a push to a shared queue that is performed once is neither lost nor doubled (R192,
R334), so the entries in transit to one are those of now. -/
def bindBack (now image : Option Binding) : Option Binding :=
  match image with
  | none => none
  | some im =>
    if !sharedBind im then some im
    else
      match now with
      | some q => if q.desc = im.desc then some q else some { im with transit := [] }
      | none => some { im with transit := [] }

/-- Bindings with entries in transit to a shared queue that the image binds elsewhere, or not at all. -/
def strayBinds (now image : List (Option Binding)) : List Binding :=
  (now.zip image).filterMap (fun x => match x.1 with
    | some q => if sharedBind q && !q.transit.isEmpty && !(x.2.any (fun im => sharedBind im && im.desc == q.desc)) then some q else none
    | none => none)

/-- One copy returns to its image (R333): its registers, its window, the commands in flight with their progress. Accesses to other packages that the
abandoned run has under way have no taker. -/
def restoreImage (s : State) (b : Nat) : State :=
  match wgOf s b with
  | none => s
  | some g =>
    match g.image with
    | none => s
    | some im =>
      let im := imageBack s b g im
      let s := orphan s (fun c => c.berth == b)
      let s := if (coreOf s (berthCore b)).buoy.holder = some b then modCore s (berthCore b) (fun c => { c with buoy := stallEnd s.cycle c.buoy }) else s
      let s := match im.sweep with | some x => modCore s (berthCore b) (fun c => { c with buoy := { c.buoy with sweep := x.1, chosen := x.2 } }) | none => s
      let s := placeWindow (putFlight s b (im.cmds.map (fun x => (x.1, { x.2 with wait := none, rebuild := none, buf := [], chunk := none })))) b g im.window im.tiles im.bad
      setWg s b
        { g with pilot := im.pilot, crews := im.crews, binds := (g.binds.zip im.binds).map (fun x => bindBack x.1 x.2),
                 strays := g.strays ++ strayBinds g.binds im.binds, bars := im.bars, ckBar := im.ckBar, accs := im.accs,
                 tags := im.tags, tagErr := im.tagErr, tvec := im.tvec, ptvec := im.ptvec, tdiag := im.tdiag, ckcnt := im.ckcnt, taps := im.taps }

/-- Both copies of a pair return to their images (R333). -/
def rollback (s : State) (b : Nat) : State :=
  match wgOf s b with
  | none => s
  | some g => match g.peer with
    | some p => restoreImage (restoreImage s b) p
    | none => restoreImage s b

/-- A rollback waits for an atomic of another package's memory that the pair has sent and not yet logged: it is performed once (R334). -/
def rollbackWaits (s : State) (b : Nat) : Bool :=
  match wgOf s b with
  | none => false
  | some g => s.pkg.remote.any (fun r => r.op == 4 && r.ctx.any (fun c => c.berth == b || decide (g.peer = some c.berth)))

/-- An error that the other copy does not see: it lies in a window at an offset that is sound in the other copy's. -/
def loneError (s : State) (g : WG) (off : Option Nat) : Bool :=
  isDup g && (match off, g.peer.bind (fun p => (wgOf s p).map (fun h => (p, h))) with
    | some o, some (p, h) => !(s.quayBad.contains (winKey p h o / 64))
    | _, _ => false)

/-- A trap of cause 0x14 or 0x15 (R405): under DUP one that a single copy raises is the interval's mismatch, and the next of the
same copy goes to harbour software and stops the pair. `lone`: the other copy does not see the error. -/
def softTrap (s : State) (id : CtxId) (t : PendTrap) (lone : Bool) : State :=
  match wgOf s id.berth with
  | none => s
  | some g =>
    if !lone then trapHere s id t
    else if rollbackWaits s id.berth then block s id (.remote 1)
    else if g.softErr then
      let epc : DWord := match id.who with | .pilot => g.pilot.pc | .crew _ => (headPoint s id).1.setWidth 64
      modCtx s id (fun c => { c with taking := some { trap := t, epc := epc, entry := (headPoint s id).1, mask := (headPoint s id).2, pair := true }, blocked := none })
    else
      let s := modWg s id.berth (fun g => { g with softErr := true })
      rollback (modPair s id.berth (fun g => { g with mism := g.mism + 1 })) id.berth

end Sys2Proof.Machine
end

