-- ==== Sys2Proof/Machine/Operands.lean ====
section
/-! DEFINITION. Operands: reading every operand form (R11, R12, R20, R142, R172, R221), the decode traps of an issued instruction in their
order (R75), what holds it at its slot (R24, R76, R192), and completing it: frees, mapping, results, latches (R14 to R19, R23, R141). -/

namespace Sys2Proof.Machine

/-! ### Registers a field names -/

/-- Registers that a field of a role spans. -/
def roleSpan (r : Role) : Nat :=
  match r with
  | .word | .wordNoQ | .plain => 1
  | .pair => 2
  | .quad => 4
  | .multi n => n
  | _ => 0

/-- The vector or scalar registers a field names. -/
def roleNames (k : CtxKind) (r : Role) (code : Nat) : List Nat :=
  let top := if k == .crew then 224 else 64
  if top ≤ code then [] else if k == .pilot then (if roleSpan r = 0 then [] else [code]) else tabulate (roleSpan r) (fun j => code + j)

/-- A latch entry is readable: at most two instructions after its hold (R19). -/
def latchOk (c : Crew) (n : Nat) : Bool :=
  match (c.latches[n]?).bind (fun l => l.age) with
  | some a => decide (a ≤ 1)
  | none => false

/-- A source field is an illegal operand (R11, R12, R142, R170, R172, R187, R205, R221). -/
def srcBad (k : CtxKind) (latch : Nat → Bool) (r : Role) (code : Nat) : Bool :=
  match k, r with
  | _, .none => false
  | _, .idx => false
  | _, .qname => decide (code < 240)
  | .pilot, .plain => decide (64 ≤ code)
  | .pilot, .wordNoQ => decide (64 ≤ code)
  | .pilot, _ => decide (64 ≤ code) && decide (code < 240)
  | .crew, .word => (decide (232 ≤ code) && decide (code < 235) && !latch (code - 232)) || (decide (235 ≤ code) && decide (code < 240))
  | .crew, .wordNoQ => (decide (232 ≤ code) && decide (code < 235) && !latch (code - 232)) || decide (235 ≤ code)
  | .crew, .plain => decide (224 ≤ code)
  | .crew, .pair => !((decide (code < 224) && code % 2 == 0) || code == 230 || code == 231)
  | .crew, .quad => !(decide (code < 224) && code % 4 == 0)
  | .crew, .multi n => !(decide (code + n ≤ 224) && code % n == 0)

/-- A destination field is an illegal operand. -/
def dstBad (k : CtxKind) (r : Role) (code : Nat) : Bool :=
  match k, r with
  | _, .none => false
  | _, .idx => false
  | _, .qname => decide (code < 240)
  | .pilot, .word => decide (64 ≤ code) && decide (code < 240)
  | .pilot, _ => decide (64 ≤ code)
  | .crew, .word => decide (224 ≤ code) && decide (code < 240)
  | .crew, .pair => !(decide (code < 224) && code % 2 == 0)
  | .crew, .quad => !(decide (code < 224) && code % 4 == 0)
  | .crew, .multi n => !(decide (code + n ≤ 224) && code % n == 0)
  | .crew, _ => decide (224 ≤ code)

/-- A used source is no register, or a register whose code lies from `top` on. -/
def outside (r : Role) (top : Nat) (code : BitVec 8) : Bool := r.used && (!r.isReg || decide (top ≤ code.toNat))

/-- A last-read bit or a hold on a source outside what R16, R19, R77 and R78 allow; a predicate index is no register (log 65). -/
def markBad (u : Use) (f : Fields) : Bool :=
  (bitAt f.pre.lr 0 && outside u.a 224 f.sa) || (bitAt f.pre.lr 1 && outside u.b 224 f.sb) || (bitAt f.pre.lr 2 && outside u.c 224 f.sc)
    || (f.pre.hsel == 1 && outside u.a 232 f.sa) || (f.pre.hsel == 2 && outside u.b 232 f.sb) || (f.pre.hsel == 3 && outside u.c 232 f.sc)

/-- A system register that a context may write (R128). -/
def sysWritable (k : CtxKind) (n : Nat) : Bool :=
  n == 0x042 || n == 0x043 || n == 0x044 || n == 0x045 || (n == 0x010 && k == .crew)

/-- A system register that a context may read. -/
def sysReadable (k : CtxKind) (n : Nat) : Bool :=
  (sysWidth n).isSome && (k == .crew || !(n == 0x010 || (decide (0x047 ≤ n) && decide (n ≤ 0x04B))))

/-- `TAG` names a tag of the workgroup, when it is used (R207). -/
def tagBad (g : WG) (x : FormE) : Bool := x.tv && decide (hTagn g.hdr ≤ x.tag.toNat)

/-- An engine command that must complete on a tag or a record does neither (R210). -/
def noCompletion (x : FormE) : Bool := !x.tv && !x.cqv

/-- Illegal operands that fields other than the register fields show (R33, R99, R127, R130, R207, R210, R218). -/
def fieldIllegal (k : CtxKind) (g : WG) (c : Ctx) (i : Instr) : Bool :=
  match i with
  | .sli x => x.u && decide (240 ≤ x.dst.toNat)
  | .bsync x => decide (hBars g.hdr ≤ bits x.imm 3 0)
  | .accld x | .czero x | .cmma x => decide (hAccn g.hdr ≤ bits x.cs 1 0)
  | .cdrain x => decide (hAccn g.hdr ≤ bits x.cs 1 0) || tagBad g x || noCompletion x
  | .lcopy x | .lgather x | .lscatter x | .lfill x => tagBad g x || noCompletion x
  | .bycount x | .bystate x => tagBad g x
  | .sysrd x => !sysReadable k (bits x.imm 11 0)
  | .syswr x => !sysWritable k (bits x.imm 11 0)
  | .rft _ => c.handler.isNone
  | _ => false

/-- The system-register number of an instruction that a program may not use (R127). -/
def privileged (i : Instr) : Bool :=
  match i with
  | .sysrd x | .syswr x => decide (0x800 ≤ bits x.imm 11 0)
  | _ => false

/-! ### What an instruction reads and writes (R76) -/

/-- Predicates or c-bits named outside the four register fields. -/
def extraPreds (i : Instr) : List Nat :=
  match i with
  | .qtrypop x | .qtrypush x | .qmask x => [bits x.imm 2 0]
  | _ => []

/-- Registers used without a field: the link register (R108). -/
def extraRegs (i : Instr) : List Nat :=
  match i with
  | .call _ | .ret _ => [223]
  | _ => []

/-- Register numbers an instruction uses. -/
def usedRegs (k : CtxKind) (i : Instr) (u : Use) (f : Fields) : List Nat :=
  roleNames k u.dst f.dst.toNat ++ roleNames k u.a f.sa.toNat ++ roleNames k u.b f.sb.toNat ++ roleNames k u.c f.sc.toNat ++ extraRegs i

/-- Predicates or c-bits an instruction uses. -/
def usedPreds (i : Instr) (u : Use) (f : Fields) : List Nat :=
  let one := fun (r : Role) (c : BitVec 8) => match r with | .idx => [c.toNat] | _ => []
  f.pre.grd.toNat :: (one u.dst f.dst ++ one u.a f.sa ++ one u.b f.sb ++ one u.c f.sc ++ extraPreds i)

/-- An outstanding result's destination is used (R76). -/
def conflicts (regs preds : List Nat) (p : PendWrite) : Bool :=
  p.res.vec.any (fun v => regs.contains v.name) || (match p.res.scalar with | some (n, _) => regs.contains n | none => false)
    || (match p.res.pred with | some (n, _, _) => preds.contains n | none => false)
    || (match p.res.cbit with | some (n, _) => preds.contains n | none => false)

/-! ### Operand values -/

/-- A name's words; an unmapped name reads 0 (R14). -/
def regWords (c : Crew) (n : Nat) : LaneWords := agetD [] n c.regs

/-- A special's word in a lane (R20). -/
def specialWord (s : State) (b : Nat) (g : WG) (n : Nat) (c : Crew) (code l : Nat) : Word :=
  match code with
  | 224 => BitVec.ofNat 32 l
  | 225 => BitVec.ofNat 32 n
  | 226 => BitVec.ofNat 32 g.wgix
  | 227 => BitVec.ofNat 32 (sgrpOf s b g)
  | 228 => launchIdOf s g
  | 229 => laneWord c.draw l
  | 231 => 0xFFFFFFFF
  | _ => 0

/-- The word of lane l in an entry's bytes. -/
def entryWord (bs : List Byte) (l : Nat) : Nat := leNat ((bs.drop (4 * l)).take 4)

/-- The words a code supplies to the lanes of a crew; `k` earlier sources of the instruction pop the same pigeonhole (R24). -/
def codeWords (s : State) (b : Nat) (g : WG) (n : Nat) (c : Crew) (k code : Nat) : LaneWords :=
  if code < 224 then regWords c code
  else if code < 232 then lanes (specialWord s b g n c code)
  else if code < 235 then ((c.latches[code - 232]?).map (fun l => l.val)).getD []
  else
    match bindOf g (code - 240) with
    | some q => let e := qOldest s q k; lanes (fun l => BitVec.ofNat 32 (entryWord e l))
    | none => []

/-- The value of consecutive words, the first lowest. -/
def joinWords : List Nat → Nat
  | [] => 0
  | w :: ws => w + 2 ^ 32 * joinWords ws

/-- Lane l's value of a crew source: one word, a pair, or consecutive registers. -/
def crewSource (s : State) (b : Nat) (g : WG) (n : Nat) (c : Crew) (r : Role) (k code : Nat) : List Nat :=
  match r with
  | .none | .idx | .qname => []
  | _ =>
    if roleSpan r = 1 then
      let ws := codeWords s b g n c k code
      tabulate 128 (fun l => (laneWord ws l).toNat)
    else
      let ws := tabulate (roleSpan r) (fun j => codeWords s b g n c k (if code < 224 then code + j else code))
      tabulate 128 (fun l => joinWords (ws.map (fun w => (laneWord w l).toNat)))

/-- The value of a pilot source (R12). -/
def pilotSource (s : State) (g : WG) (r : Role) (k code : Nat) : List Nat :=
  match r with
  | .none | .idx | .qname => []
  | _ =>
    if code < 64 then [(g.pilot.sregs.getD code 0).toNat]
    else
      match bindOf g (code - 240) with
      | some q => [leNat (qOldest s q k)]
      | none => [0]

/-- A predicate of a crew: `p0` reads all ones (R21). -/
def predOf (c : Crew) (k : Nat) : LaneMask := if k = 0 then BitVec.allOnes 128 else c.preds.getD k 0

/-- A c-bit of a pilot: `c0` reads 1 (R22). -/
def cbitOf (p : Pilot) (k : Nat) : Bool := if k = 0 then true else bitAt p.cbits k

/-- A guard on a mask (R21). -/
def guarded (m p : LaneMask) (neg : Bool) : LaneMask := if neg then m &&& ~~~p else m &&& p

/-- A source field pops a pigeonhole. -/
def popsQueue (r : Role) (code : Nat) : Bool := r.isReg && decide (240 ≤ code)

/-- The pigeonholes an instruction's sources pop, in order. -/
def popList (u : Use) (f : Fields) : List Nat :=
  (if popsQueue u.a f.sa.toNat then [f.sa.toNat - 240] else []) ++ (if popsQueue u.b f.sb.toNat then [f.sb.toNat - 240] else [])
    ++ (if popsQueue u.c f.sc.toNat then [f.sc.toNat - 240] else [])

/-- The pigeonhole an instruction's destination pushes. -/
def pushName (u : Use) (f : Fields) : Option Nat := if popsQueue u.dst f.dst.toNat then some (f.dst.toNat - 240) else none

/-! ### The issued instruction -/

/-- An instruction that has passed its decode checks, with its operand values; the active mask of a pilot is lane 0 alone. `draws`: the
lanes in which it draws (R56). -/
structure Env where
  s : State
  id : CtxId
  g : WG
  i : Instr
  k : CtxKind
  f : Fields
  u : Use
  head : FEntry
  active : LaneMask
  a : List Nat
  b : List Nat
  c : List Nat
  draws : LaneMask

/-- What checking an instruction gives: a state that is final for this turn, or the instruction ready to act. -/
inductive Prep where
  | done (t : State)
  | go (e : Env)

/-- Operand a in lane l. -/
def Env.av (e : Env) (l : Nat) : Nat := e.a.getD l 0
/-- Operand b in lane l. -/
def Env.bv (e : Env) (l : Nat) : Nat := e.b.getD l 0
/-- Operand c in lane l. -/
def Env.cv (e : Env) (l : Nat) : Nat := e.c.getD l 0
/-- The lanes that act, in order; the pilot is lane 0. -/
def Env.lanes (e : Env) : List Nat := if e.k == .pilot then [0] else laneList e.active
/-- The lane a scalar operand comes from (R187, R205): the lowest active one. -/
def Env.first (e : Env) : Nat := if e.k == .pilot then 0 else lowestLane e.active
/-- The issuing crew's number. -/
def Env.crewNo (e : Env) : Nat := match e.id.who with | .crew n => n | .pilot => 0
/-- The issuing crew. -/
def Env.crew? (e : Env) : Option Crew := crewOf e.g e.crewNo
/-- A predicate of the issuing crew. -/
def Env.pred (e : Env) (k : Nat) : LaneMask := match e.crew? with | some c => predOf c k | none => 0

/-! ### Completing an instruction -/

/-- Names that the last-read bits free (R16, R78): not those the instruction writes. -/
def freedNames (u : Use) (f : Fields) (written : List Nat) : List Nat :=
  let one := fun (bit : Nat) (r : Role) (code : BitVec 8) => if bitAt f.pre.lr bit && r.isReg then roleNames .crew r code.toNat else []
  (one 0 u.a f.sa ++ one 1 u.b f.sb ++ one 2 u.c f.sc).filter (fun n => !written.contains n)

/-- Registers of a bank that a workgroup holds (R15). -/
def bankUse (g : WG) (bank : Nat) : Nat := g.crews.foldl (fun n c => n + (c.regs.filter (fun r => r.1 % 4 == bank)).length) 0

/-- The allocation of names fits the reservation after the frees (R15, R16). -/
def budgetOk (g : WG) (c : Crew) (freed written : List Nat) : Bool :=
  let mapped := fun (n : Nat) => (alookup n c.regs).isSome
  [0, 1, 2, 3].all (fun bank =>
    let new := (written.eraseDups.filter (fun n => n % 4 == bank && !mapped n)).length
    let gone := (freed.eraseDups.filter (fun n => n % 4 == bank && mapped n)).length
    decide (new = 0) || decide (bankUse g bank + new ≤ 2 * hRegs g.hdr + gone))

/-- Map a name, zero-filled, if it is unmapped (R14). -/
def mapName (c : Crew) (n : Nat) : Crew := if (alookup n c.regs).isSome then c else { c with regs := ainsert n [] c.regs }

/-- The latch entries after an instruction issues: each ages, and a hold starts its window (R19). An entry has 32 bits a lane; of a source
that is a pair or several registers it takes the first register's word (log 65). -/
def latchStep (e : Env) (ls : List Latch) : List Latch :=
  let aged := ls.map (fun l => { l with age := l.age.map (fun n => n + 1) })
  let vals := if e.f.pre.hsel == 1 then e.a else if e.f.pre.hsel == 2 then e.b else e.c
  if e.f.pre.hsel == 0 then aged
  else aged.set e.f.pre.hent.toNat { val := tabulate 128 (fun l => BitVec.ofNat 32 (vals.getD l 0)), age := some 0 }

/-- The flag an instruction sets: A or B of its line (R60, R76). -/
def flagOf (c : Ctx) (p : Pre) : Option Nat :=
  match c.line with
  | none => none
  | some l => if p.sfl == 1 then some (bits l.bits 25 22) else if p.sfl == 2 then some (bits l.bits 29 26) else none

/-- Register writes of an instruction's values, lane by lane. -/
def vecWrites (names : List Nat) (mask : LaneMask) (val : Nat → Nat) : List VecWrite :=
  (tabulate names.length (fun j => j)).zip names |>.map (fun x =>
    { name := x.2, mask := mask, words := lanes (fun l => BitVec.ofNat 32 (val l / 2 ^ (32 * x.1))) })

/-- The result of writing per-lane values to the destination, in the lanes of a mask. -/
def dstResult (e : Env) (mask : LaneMask) (val : Nat → Nat) : Result :=
  if 240 ≤ e.f.dst.toNat then Result.none
  else
    match e.k with
    | .crew => { Result.none with vec := if mask = 0 then [] else vecWrites (roleNames .crew e.u.dst e.f.dst.toNat) mask val }
    | .pilot => { Result.none with scalar := some (e.f.dst.toNat, BitVec.ofNat 64 (val 0)) }

/-- The entry that pushing per-lane values makes (R192): inactive lanes are 0, the active mask goes to the side record. -/
def dstEntry (e : Env) (val : Nat → Nat) : Option QEntry :=
  match pushName e.u e.f with
  | none => none
  | some _ =>
    match e.k with
    | .crew => some { bytes := (tabulate 128 (fun l => natLe 4 (if bitAt e.active l then val l else 0))).flatten, mask := e.active }
    | .pilot => some { bytes := natLe 8 (val 0), mask := BitVec.allOnes 128 }

/-- Results of the destination predicate. -/
def predResult (k : Nat) (mask bits : LaneMask) : Result := { Result.none with pred := some (k, mask, bits) }

/-- Another context has issued a slot: contexts of the core that yielded to it wait no more for it (R112). -/
def yieldNote (s : State) (id : CtxId) : State :=
  { s with wgs := s.wgs.map (fun x =>
      if berthCore x.1 = berthCore id.berth then
        (x.1, modAllCtx x.2 (fun c => { c with yields := c.yields.filter (fun y => decide (y ≠ id)) }))
      else x) }

/-- A queue is shared beyond the workgroup: its operations are countersigned, and held for the release head (R325, R332). -/
def sharedQ (g : WG) (n : Nat) : Bool := match bindOf g n with | some q => decide (2 ≤ qScope q) | none => false

/-- Pop a pigeonhole's oldest entry, with the trap of a record that reports an error (R191, R196). -/
def popOne (s : State) (id : CtxId) (n : Nat) : State × Option PendTrap :=
  match (wgOf s id.berth).bind (fun g => bindOf g n) with
  | none => (s, none)
  | some q =>
    let err := qSide s q 0 / 2 ^ 129 % 2 = 1
    let word := leNat ((qOldest s q 0).take 8)
    let lanes := match id.who with
      | .crew m => (((wgOf s id.berth).bind (fun g => headOf s id.berth g m)).map (fun h => h.mask)).getD 0
      | .pilot => 0
    (qWakePushes (qRemove s q) q.desc, if err then some (mkTrap 0x16 word lanes) else none)

/-- Pop several, keeping the first trap. -/
def popAll (s : State) (id : CtxId) (ns : List Nat) : State × Option PendTrap :=
  ns.foldl (fun acc n => let r := popOne acc.1 id n; (r.1, acc.2.orElse (fun _ => r.2))) (s, none)

/-- Put an entry group in the transit buffer of a binding (R192). -/
def pushInto (s : State) (id : CtxId) (n : Nat) (es : List QEntry) : State :=
  modWg s id.berth (fun g => modBind g n (fun q => { q with transit := es, tail := q.tail + BitVec.ofNat 32 es.length }))

/-- The operands that countersign compares (R332): active lanes, and each operand but those that one pop of a shared pigeonhole is to
give both copies. -/
def signedOperands (e : Env) : List Nat :=
  let at_ := fun (r : Role) (code : BitVec 8) (vs : List Nat) =>
    if popsQueue r code.toNat && sharedQ e.g (code.toNat - 240) then [] else e.lanes.map (fun l => vs.getD l 0)
  e.active.toNat :: (at_ e.u.a e.f.sa e.a ++ at_ e.u.b e.f.sb e.b ++ at_ e.u.c e.f.sc e.c)

/-- The kind of the event that an instruction is by itself, beside what it pushes (R329); a fence has no stated kind, and a free one (log 51). -/
def ownKind (i : Instr) : Option Nat :=
  match i with
  | .atom _ | .cas _ | .hacc _ => some 1
  | .spawn _ | .depdec _ => some 3
  | .lcopy _ | .lgather _ | .lscatter _ | .lfill _ | .cmma _ | .czero _ | .cdrain _ | .accld _ | .bycoup _ | .bybias _ | .byclamp _
  | .byfree _ | .bysweep _ | .bycount _ | .bystate _ | .bymode _ | .bybmap _ | .look _ | .tarm _ | .steer _ => some 4
  | .region _ | .fork _ | .join _ | .discard _ => some 5
  | .fence _ => some ((Config.openSigField 0).toNat % 256)
  | _ => none

/-- The kind of the record of an instruction that pushes nothing: its own, or that of a pop, a free one (log 51). -/
def eventKind (i : Instr) : Nat :=
  match i with
  | .qtrypush _ | .bcast _ => 2
  | _ => (ownKind i).getD ((Config.openSigField 1).toNat % 256)

/-- Signed offset of the address of a memory instruction (R169). -/
def offsetOf (i : Instr) : Int :=
  match i with
  | .ld x | .st x | .ldx x | .stx x => signedOf 32 x.imm.toNat
  | .atom x | .cas x | .hacc x => signedOf 24 x.imm.toNat
  | _ => 0

/-- The entry a push of source a makes. -/
def pushEntry (e : Env) : QEntry :=
  match e.k with
  | .crew => { bytes := (tabulate 128 (fun l => natLe 4 (if bitAt e.active l then e.av l else 0))).flatten, mask := e.active }
  | .pilot => { bytes := natLe 8 (e.av 0), mask := BitVec.allOnes 128 }

/-- The entry of a `bcast`: one word in every lane (R195). -/
def bcastEntry (x : FormQ) (e : Env) : QEntry :=
  { bytes := (tabulate 128 (fun _ => natLe 4 (if x.sub == 0 then e.av 0 else e.av 0 / 2 ^ 32))).flatten, mask := BitVec.allOnes 128 }

/-- The entries that a countersigned instruction pushes. -/
def pushedEntries (e : Env) (push : Option QEntry) : List QEntry :=
  match e.i with
  | .qtrypush _ => [pushEntry e]
  | .bcast x => List.replicate (bits x.imm 6 0) (bcastEntry x e)
  | _ => push.toList

/-- The records of one pushed entry (R329): the data of a scalar entry, or the 128 words of a crew entry as four records. A push has no
stated address (log 51). -/
def signEntry (q : QEntry) : List Byte :=
  let addr := (Config.openSigField 2).toNat
  if q.bytes.length ≤ 16 then sigRecord addr q.bytes.length 2 q.bytes
  else ((List.range 4).map (fun k => natLe 8 addr ++ [128, 2] ++ natLe 6 0 ++ (q.bytes.drop (128 * k)).take 128)).flatten

/-- The address of a lane of a performed instruction in its signature record (R329): that of its access, in its own window the
offset, or its operand a. -/
def signAddr (e : Env) (l : Nat) : Nat :=
  let at_ := fun (quay : Bool) =>
    let a := (e.av l : Int) + offsetOf e.i
    match placeOf e.s e.id.berth e.g quay a 1 with
    | .ok (.quay k) => if ownWindow e.id.berth e.g k then k % 2 ^ 20 - e.g.wbase else keyLogical e.s e.g.part k
    | _ => lowBits 64 a
  match e.i with
  | .atom x | .cas x | .hacc x => at_ x.quay
  | _ => e.av l

/-- The bytes of an operand's registers in a lane (R329). -/
def operandBytes (k : CtxKind) (r : Role) (v : Nat) : List Byte := natLe (if k == .pilot && roleSpan r ≠ 0 then 8 else 4 * roleSpan r) v

/-- The record of a performed instruction for each lane (R329). -/
def signOwn (e : Env) : List Byte :=
  (e.lanes.map (fun l =>
    let one := fun (w : Nat) (data : List Byte) => sigRecord (signAddr e l) w (eventKind e.i) data
    match e.i with
    | .atom x | .cas x | .hacc x => one (x.ty.width / 8) (natLe (x.ty.width / 8) (e.bv l) ++ natLe (x.ty.width / 8) (e.cv l))
    | _ => one 8 (operandBytes e.k e.u.a (e.av l) ++ operandBytes e.k e.u.b (e.bv l) ++ operandBytes e.k e.u.c (e.cv l)))).flatten

/-- The signature bytes of a performed instruction of R332 (R329): its own records, one a lane, unless it does nothing but push; then those of
what it pushes. A fence with no active lane adds none. -/
def signBytes (e : Env) (push : Option QEntry) : List Byte :=
  let es := pushedEntries e push
  (if es.isEmpty || (ownKind e.i).isSome then signOwn e else []) ++ (es.map signEntry).flatten

/-- The comparison of a pair closes its signature (R332). -/
def closeSig (c : Ctx) : Ctx := { c with closed := c.sig, sig := 0 }

/-- The leading copy has performed a countersigned instruction: its pair receives the result, and the log an entry (R332, R334). -/
def shareResult (e : Env) (s : State) (got : Shared) : State :=
  match e.g.peer, ctxIn e.g e.id.who with
  | some p, some c =>
    if c.granted then
      let s := modCtx s { berth := p, who := e.id.who } (fun x => { closeSig x with copied := some got, blocked := none })
      modWg s e.id.berth (fun g =>
        if g.log.any (fun y => decide (y.who = e.id.who) && y.ordinal == c.ordinal) then g
        else { g with log := g.log ++ [{ who := e.id.who, ordinal := c.ordinal, instr := e.i, operands := signedOperands e, sig := c.closed, got := got }] })
    else s
  | _, _ => s

/-- The registers after an instruction: frees, mapping, and its result with its draws, at once or outstanding (R14 to R16, R23, R56, R76,
R100). -/
def commitResult (e : Env) (g : WG) (r0 : Result) (waits : Option Nat) : WG :=
  let r : Result := { r0 with draw := e.draws }
  let written := r.vec.map (fun v => v.name)
  let g := match e.id.who with
    | .crew n =>
      modCrew g n (fun c =>
        let c := { c with regs := (freedNames e.u e.f written).foldl (fun rs k => aerase k rs) c.regs }
        written.foldl mapName c)
    | .pilot => g
  if (isLong e.i || waits.isSome) && !r.isEmpty then
    modCtxIn g e.id.who (fun c =>
      let fl := flagOf c e.f.pre
      let c := match fl with | some k => flagAdd c k (fun n => n + 1) | none => c
      { c with pend := c.pend ++ [{ flag := fl, res := r, waits := waits }] })
  else applyResult g e.id.who r

/-- Damaged register state that an instruction replaces whole (R402): registers it frees, those it writes in every lane of its crew, its
predicate, c-bit or scalar register, the latch entry it fills. -/
def upsetGone (e : Env) (r : Result) (u : Upset) : Bool :=
  let full := fun (m : LaneMask) => hLaneMask e.g.hdr (match e.id.who with | .crew n => n | .pilot => 0) &&& ~~~m == 0
  match u with
  | .vreg n => (freedNames e.u e.f (r.vec.map (fun v => v.name))).contains n || r.vec.any (fun v => v.name == n && full v.mask)
  | .sreg n => r.scalar.any (fun x => x.1 == n)
  | .pred n => r.pred.any (fun x => x.1 == n && full x.2.1) || r.cbit.any (fun x => x.1 == n)
  | .latch n => e.k == .crew && e.f.pre.hsel != 0 && e.f.pre.hent.toNat == n
  | _ => false

/-- A store instruction (R330). -/
def storesIn (i : Instr) : Bool := match i with | .st _ | .stx _ => true | _ => false

/-- A trailing context's stores let its leading one go on (R330). -/
def slackWake (s : State) (id : CtxId) : State :=
  match (wgOf s id.berth).bind (fun g => g.peer) with
  | some p => modCtx s { berth := p, who := id.who } (fun c => if c.blocked = some .slack then { c with blocked := none } else c)
  | none => s

/-- Complete an instruction but for the program counter: pops, registers, push, latches, blocking state. The second value is a trap
that follows completion: a popped record's, or `after`. -/
def retireWith (e : Env) (s : State) (r : Result) (push : Option QEntry) (waits : Option Nat) (after : Option PendTrap) : State × Option PendTrap :=
  let copied := (ctxIn e.g e.id.who).bind (fun c => c.copied)
  let divided := (ctxIn e.g e.id.who).bind (fun c => c.divided)
  let mine := fun (n : Nat) => !(copied.isSome && sharedQ e.g n)
  let pops := popAll s e.id ((popList e.u e.f).filter (fun n => mine n && divided.isNone))
  let trap := match copied with | some x => x.trap.orElse (fun _ => pops.2) | none => ((divided.bind (fun d => d.trap)).orElse (fun _ => pops.2)).orElse (fun _ => after)
  let s := modWg pops.1 e.id.berth (fun g => commitResult e g r waits)
  let s := match push, pushName e.u e.f with
    | some q, some n => if mine n then pushInto s e.id n [q] else s
    | _, _ => s
  let s := match e.id.who with
    | .crew n => modWg s e.id.berth (fun g => modCrew g n (fun c => { c with latches := latchStep e c.latches }))
    | .pilot => s
  let s := shareResult e s { vals := [e.a, e.b, e.c], res := r, push := push, trap := trap, waits := waits }
  let s := modCtx s e.id (fun c =>
    let signed := c.granted || c.copied.isSome
    { c with blocked := none, bpPass := false, granted := false, copied := none, divided := none,
             upsets := c.upsets.filter (fun u => !upsetGone e r u),
             ordinal := if signed then c.ordinal + 1 else c.ordinal, sig := if signed then crcBytes c.sig (signBytes e push) else c.sig,
             slack := if isDup e.g && storesIn e.i then c.slack + 1 else c.slack })
  let s := if storesIn e.i then slackWake s e.id else s
  (yieldNote (dropRemote s e.id) e.id, trap)

/-- Complete an instruction but for the program counter. -/
def retire (e : Env) (s : State) (r : Result) (push : Option QEntry) (waits : Option Nat) : State × Option PendTrap :=
  retireWith e s r push waits none

/-- Replace a crew's entry at a code index by others; `none`: the frontier would overflow (R104). A merge that unparks an entry may take away
a live arrival (R118). -/
def frontierEdit (s : State) (b n : Nat) (remove : Word) (new : List FEntry) (gone : LaneMask) : Option State :=
  match (wgOf s b).bind (fun g => (crewOf g n).map (fun c => (g, c))) with
  | none => some s
  | some (g, c) =>
    let live := c.live &&& ~~~gone
    let keep := fun (es : List FEntry) => es.filter (fun e => e.cix != remove)
    let inHw := c.frontier.any (fun e => e.cix == remove)
    let sp := if inHw then spilledOf s b g n c else keep (spilledOf s b g n c)
    let p := fSettle live 1000 { hw := fInsertAll new (keep c.frontier), sp := sp, retired := 0, bad := [] }
    if frontierRoom g c < p.hw.length + p.sp.length then none
    else
      some (refreshTimers
        (setFrontier (modWg s b (fun g => modCrew g n (fun c => { c with live := live, landings := c.landings.filter (fun l => l.1 != remove) }))) b n p) b)

/-- The head carries its code index forward in its place: no entry waits at the following slot, and none has to move (R102, R104). -/
def stepsInPlace (c : Crew) (h : FEntry) : Bool :=
  let next := BitVec.ofNat 32 (nextCix h.cix.toNat)
  c.frontier.any (fun e => e.cix == h.cix) && !c.frontier.any (fun e => e.cix == next)
    && (decide (c.spilled = 0) || c.frontier.any (fun e => decide (next < e.cix)))

/-- A crew whose head has gone on to the following slot in its place. -/
def stepHead (h : FEntry) (c : Crew) : Crew :=
  { c with frontier := c.frontier.map (fun e => if e.cix = h.cix then { h with cix := BitVec.ofNat 32 (nextCix h.cix.toNat) } else e),
           landings := c.landings.filter (fun l => l.1 != h.cix) }

/-- Go on at the following slot (R102, R103). Beyond the last line with a code index the index wraps to 0 (DESIGN CHOICE, log 65). -/
def advance (e : Env) (s : State) : State :=
  match e.id.who with
  | .pilot => modWg s e.id.berth (fun g => { g with pilot := { g.pilot with pc := BitVec.ofNat 64 (nextPc g.pilot.pc.toNat), landing := none } })
  | .crew n =>
    if ((wgOf s e.id.berth).bind (fun g => crewOf g n)).any (fun c => stepsInPlace c e.head) then
      modWg s e.id.berth (fun g => modCrew g n (stepHead e.head))
    else
      match frontierEdit s e.id.berth n e.head.cix [{ e.head with cix := BitVec.ofNat 32 (nextCix e.head.cix.toNat) }] 0 with
      | some t => t
      | none => s

/-- The state after an instruction completes: it goes on at the following slot, and takes the trap that follows it, if any. -/
def completed (e : Env) (s : State) (r : Result) (push : Option QEntry) (waits : Option Nat) : State :=
  let x := retire e s r push waits
  let t := advance e x.1
  match x.2 with
  | none => t
  | some p => trapHere t e.id p

/-- Complete an instruction. -/
def complete (e : Env) (s : State) (r : Result) (push : Option QEntry) (waits : Option Nat) : Out := .next (completed e s r push waits)

/-- Complete an instruction whose destination receives a value in each lane of a mask. -/
def completeVals (e : Env) (s : State) (mask : LaneMask) (val : Nat → Nat) : Out :=
  complete e s (dstResult e mask val) (dstEntry e val) none

/-- Complete an instruction that writes no register. -/
def completeNone (e : Env) (s : State) : Out := complete e s Result.none none none

/-- The state after an instruction completes with the trap of a following slot (R185, R202, R210). -/
def completedTrap (e : Env) (s : State) (r : Result) (push : Option QEntry) (t : PendTrap) : State :=
  let x := retireWith e s r push none (some t)
  trapHere (advance e x.1) e.id (x.2.getD t)

/-- Complete an instruction with the trap of a following slot. -/
def completeTrap (e : Env) (s : State) (r : Result) (push : Option QEntry) (t : PendTrap) : Out := .next (completedTrap e s r push t)

/-! ### Checking an instruction -/

/-- Lanes a crew may write. -/
def crewMask (e : Env) : LaneMask := hLaneMask e.g.hdr e.crewNo

/-- Lanes of blocks of s lanes. -/
def blockLanes (s k : Nat) : LaneMask := maskOf (fun l => l / s == k)

/-- Value blocks of a register whose lanes are all active (R154). -/
def fullBlocks (e : Env) (v : Ty) : List Nat :=
  (List.range (128 / v.slot)).filter (fun k => (blockLanes v.slot k &&& e.active) == blockLanes v.slot k)

/-- The lanes `mxpack` writes (R154, R155, R160): those of the packed blocks of the processed value blocks, or the scale lanes of those
blocks. -/
def packMask (e : Env) (x : FormVV) : LaneMask :=
  let ks := (fullBlocks e x.t2).map (fun k => bits x.sel 4 2 * (128 / x.t2.slot) + k)
  crewMask e &&& maskOf (fun l => ks.contains (if x.sub == 0 then l / x.ty.slot else l))

/-- A trap whose detail word the manual leaves open (log 16). -/
def openTrap (s : State) (cause : Nat) (lanes : LaneMask) : PendTrap := mkTrap cause (Config.openDetail s.steps).toNat lanes

/-- The head entry, or a stand-in for the pilot. -/
def headFor (s : State) (id : CtxId) (g : WG) : Option FEntry :=
  match id.who with
  | .pilot => some { cix := 0, mask := 1, park := none }
  | .crew n => headOf s id.berth g n

/-- Lanes that an instruction acts on (R21, R22). -/
def activeFor (id : CtxId) (g : WG) (h : FEntry) (p : Pre) : LaneMask :=
  match id.who with
  | .pilot => if cbitOf g.pilot p.grd.toNat != p.gneg then 1 else 0
  | .crew n => match crewOf g n with
    | some c => guarded h.mask (predOf c p.grd.toNat) p.gneg
    | none => 0

/-- Earlier sources of the instruction that pop the same pigeonhole. -/
def popsBefore (u : Use) (f : Fields) (which : Nat) (code : BitVec 8) : Nat :=
  (if 0 < which && popsQueue u.a f.sa.toNat && f.sa == code then 1 else 0)
    + (if 1 < which && popsQueue u.b f.sb.toNat && f.sb == code then 1 else 0)

/-- The values of a source. -/
def sourceFor (s : State) (id : CtxId) (g : WG) (r : Role) (k code : Nat) : List Nat :=
  match id.who with
  | .pilot => pilotSource s g r k code
  | .crew n => match crewOf g n with
    | some c => crewSource s id.berth g n c r k code
    | none => []

/-- The instruction with its operands read. -/
def mkEnv (s : State) (id : CtxId) (g : WG) (i : Instr) (u : Use) (f : Fields) (h : FEntry) : Env :=
  { s := s, id := id, g := g, i := i, k := whoKind id.who, f := f, u := u, head := h, active := activeFor id g h f.pre,
    a := sourceFor s id g u.a 0 f.sa.toNat,
    b := sourceFor s id g u.b (popsBefore u f 1 f.sb) f.sb.toNat,
    c := sourceFor s id g u.c (popsBefore u f 2 f.sc) f.sc.toNat, draws := 0 }

/-- One naming of a pigeonhole by an instruction: its number, whether crew entries are expected, and whether it pushes. -/
structure QUse where
  n : Nat
  wide : Bool
  push : Bool
deriving DecidableEq, Repr

/-- The pigeonholes that a field designates for a pop or a push (R187, R194, R195); `qcount` only reads. -/
def designated (k : CtxKind) (i : Instr) : List QUse :=
  match i with
  | .qtrypop x | .qpeek x => [{ n := x.sa.toNat - 240, wide := k == .crew, push := false }]
  | .qmask x => [{ n := x.sa.toNat - 240, wide := true, push := false }]
  | .bget x => [{ n := x.sa.toNat - 240, wide := false, push := false }]
  | .qtrypush x => [{ n := x.dst.toNat - 240, wide := k == .crew, push := true }]
  | .bcast x => [{ n := x.dst.toNat - 240, wide := true, push := true }]
  | _ => []

/-- Every naming of a pigeonhole for a pop or a push, pops in the order of the sources and then pushes. -/
def queueUses (k : CtxKind) (i : Instr) (u : Use) (f : Fields) : List QUse :=
  let all := (popList u f).map (fun n => { n := n, wide := k == .crew, push := false : QUse }) ++ designated k i
    ++ ((pushName u f).toList.map (fun n => { n := n, wide := k == .crew, push := true : QUse }))
  all.filter (fun x => !x.push) ++ all.filter (fun x => x.push)

/-- Queue misuse that naming a pigeonhole shows (R24, R187, R194, R197). -/
def misuseOf (s : State) (id : CtxId) (g : WG) (i : Instr) (u : Use) (f : Fields) : Option (Nat × Nat) :=
  match i with
  | .qcount x =>
    match bindOf g (x.sa.toNat - 240) with
    | none => some (0x1, x.sa.toNat - 240)
    | some q =>
      if q.wide != (whoKind id.who == .crew) then some (0x2, x.sa.toNat - 240)
      else if engOwned s q.desc then some (0x6, x.sa.toNat - 240) else none
  | _ => (((queueUses (whoKind id.who) i u f).filterMap (fun x => (useReason s id.berth g x.n x.wide x.push).map (fun r => (r, x.n)))).head?)

/-- Queue misuse that the home agent finds: the place of an entry to be popped, or of the entry to be pushed by `DST`, in a tile of the
engines (R197 reason 0x6). -/
def agentMisuse (s : State) (g : WG) : List QUse → List Nat → Option (Nat × Nat)
  | [], _ => none
  | x :: xs, seen =>
    match bindOf g x.n with
    | none => agentMisuse s g xs seen
    | some q =>
      if x.push then (if pushMisowned s q 1 then some (0x6, x.n) else agentMisuse s g xs seen)
      else if qMisowned s q (qAt s q (seen.filter (fun m => m == x.n)).length) then some (0x6, x.n)
      else agentMisuse s g xs (x.n :: seen)

/-- The namings that reach the home agent now: those of an instruction with an active lane, but for what one performance has already given
both copies of a pair (R332), and what a division has popped (R100); `qtrypush` and `bcast` meet the agent as they push. -/
def agentUses (g : WG) (c : Ctx) (k : CtxKind) (i : Instr) (u : Use) (f : Fields) : List QUse :=
  if c.divided.isSome then []
  else ((queueUses k i u f).filter (fun x => !(c.copied.isSome && sharedQ g x.n))).filter (fun x =>
    !(x.push && (designated k i).contains x))

/-- Every pigeonhole the instruction pops or pushes. -/
def queueList (u : Use) (f : Fields) : List Nat := popList u f ++ (match pushName u f with | some n => [n] | none => [])

/-- What a pigeonhole operand shows at issue: poison, a tile of the engines, or no entry (R191, R197, R404). -/
inductive QState where
  | ready
  | poison (key : Nat)
  | misowned (n : Nat)
  | empty (n : Nat)

/-- The first source that cannot be popped. -/
def popState (s : State) (g : WG) : List Nat → List Nat → QState
  | [], _ => .ready
  | n :: ns, seen =>
    match bindOf g n with
    | none => popState s g ns (n :: seen)
    | some q =>
      let k := (seen.filter (fun m => m == n)).length
      if qMisowned s q (qAt s q k) then .misowned n
      else if qCount s q ≤ k then .empty n
      else if qPoisoned s q k then .poison (qEntryKey q (qAt s q k))
      else popState s g ns (n :: seen)

/-- The instruction keeps part of the old value of its destination, which it reads for that (R97, R141). -/
def keepsPart (i : Instr) : Bool :=
  match i with
  | .sli x => x.u
  | .cvt x => decide (x.t2.perUnit < x.ty.perUnit)
  | .mxscale x => x.sub != 0
  | .mxpack x => x.sub != 0
  | _ => false

/-- Register state with an uncorrectable error that the instruction reads (R402). -/
def upsetsRead (k : CtxKind) (c : Ctx) (i : Instr) (u : Use) (f : Fields) : List Upset :=
  let src := (if keepsPart i then roleNames k u.dst f.dst.toNat else []) ++ roleNames k u.a f.sa.toNat ++ roleNames k u.b f.sb.toNat ++ roleNames k u.c f.sc.toNat ++ (match i with | .ret _ => [223] | _ => [])
  let idx := fun (r : Role) (c : BitVec 8) => match r with | .idx => [c.toNat] | _ => []
  let preds := f.pre.grd.toNat :: (idx u.a f.sa ++ idx u.b f.sb ++ idx u.c f.sc)
  let latch := fun (r : Role) (code : BitVec 8) (n : Nat) => r.isReg && k == .crew && code.toNat == 232 + n
  c.upsets.filter (fun x => match x with
    | .vreg n | .sreg n => src.contains n
    | .pred n => preds.contains n
    | .latch n => latch u.a f.sa n || latch u.b f.sb n || latch u.c f.sc n
    | .frontier => true
    | _ => false)

/-- A pop from an entry in a poisoned line (R404): the detail is its address, or its offset in the issuer's own window. -/
def poppedPoison (s : State) (id : CtxId) (g : WG) (key : Nat) (lanes : LaneMask) : State :=
  if ownWindow id.berth g key then
    softTrap s id (mkTrap 0x15 (key % 2 ^ 20 - g.wbase) lanes) (loneError s g (some (key % 2 ^ 20 - g.wbase)))
  else trapHere s id (mkTrap 0x15 (keyLogical s g.part key) lanes)

/-- `sdiv` and `srem` pop their sources at issue and push their result later (R100). -/
def dividesIn (i : Instr) : Bool := match i with | .sdiv _ | .srem _ => true | _ => false

/-- A fence of a crew acts with no active lane too (R180). -/
def ordersIdle (e : Env) : Bool := match e.i with | .fence _ => e.k == .crew | _ => false

/-- The operands with what one performance popped for both copies of a pair (R332). -/
def withShared (e : Env) (got : Shared) : Env :=
  let pick := fun (r : Role) (code : BitVec 8) (own : List Nat) (k : Nat) =>
    if popsQueue r code.toNat && sharedQ e.g (code.toNat - 240) then got.vals.getD k [] else own
  { e with a := pick e.u.a e.f.sa e.a 0, b := pick e.u.b e.f.sb e.b 1, c := pick e.u.c e.f.sc e.c 2 }

/-- The operands an instruction acts with. -/
def operandsOf (e : Env) (c : Ctx) : Env := match c.copied with | some got => withShared e got | none => e

/-- A pigeonhole that the instruction is to push has no room (R192); a division looks for room when its result is ready (R100). -/
def pushFull (e : Env) (c : Ctx) (ns : List Nat) : Option Nat :=
  ns.find? (fun n => match bindOf e.g n with
    | some q => !((dividesIn e.i && c.divided.isNone && c.copied.isNone) || (q.transit.isEmpty && decide (0 < qCachedFree q)))
    | none => false)

/-- A format E instruction holds for room in a pigeonhole it pushes after its own checks (R244). -/
def pushesLate (i : Instr) : Bool := match i with | .accld _ | .fork _ | .join _ | .discard _ => true | _ => false

/-- A push at partition or system scope, which releases the issuer's earlier accesses there (R193, R249, R250). -/
def wideQ (g : WG) (n : Nat) : Bool := match bindOf g n with | some q => decide (3 ≤ qScope q) | none => false

/-- The release head of a DET launch, with its records drained where the effect is a release of what came before it (R193, R322, R325). -/
def headFree (s : State) (b : Nat) (g : WG) (release : Bool) : Bool := isHead s g && (!release || headDrained s (leadBerth b g) g)

/-- The checks after decode, on an instruction with its operands read: what it waits for, and what it traps on. -/
def prepQueues (e : Env) : Prep :=
  let s := e.s
  let g := e.g
  match ctxIn g e.id.who with
  | none => .done s
  | some c =>
    let pushes := if pushesLate e.i then [] else (pushName e.u e.f).toList
    let own := fun (ns : List Nat) => ns.filter (fun n => !sharedQ g n)
    let shared := (popList e.u e.f ++ pushes).any (sharedQ g)
    let mine := fun (ns : List Nat) => if c.copied.isSome then own ns else ns
    let wait := fun (ns : List Nat) => popState s g (if c.divided.isSome then [] else ns) []
    if e.active = 0 && !ordersIdle e then
      if storesIn e.i && slackFull s e.id g then .done (block s e.id .slack)
      else .done (advance e (retire { e with u := useNone } s Result.none none none).1)
    else
      match wait (own (popList e.u e.f)) with
      | .poison key => .done (poppedPoison s e.id g key e.head.mask)
      | .misowned n => .done (trapHere s e.id (qTrap 0x6 n e.head.mask))
      | .empty n => .done (block s e.id (.pop n))
      | .ready =>
        if shared && isDet g && !headFree s e.id.berth g (pushes.any (sharedQ g)) then .done (block s e.id .headHold)
        else if shared && isDup g && !c.granted && c.copied.isNone then .done (block s e.id .countersign)
        else
          match wait (mine (popList e.u e.f)) with
          | .poison key => .done (poppedPoison s e.id g key e.head.mask)
          | .misowned n => .done (trapHere s e.id (qTrap 0x6 n e.head.mask))
          | .empty n => .done (block s e.id (.pop n))
          | .ready =>
            match pushFull e c (mine pushes) with
            | some n => .done (block s e.id (.push n))
            | none =>
              if (mine pushes).any (wideQ g) && unacked s g.lid g.wgix then .done (block s e.id (.remote 1)) else .go (operandsOf e c)

/-- What holds the push of a format E instruction that has passed its checks (R192, R244, R325). -/
def pushGate (e : Env) (act : Out) : Out :=
  match ctxIn e.g e.id.who with
  | none => .next e.s
  | some c =>
    let pushes := (pushName e.u e.f).toList.filter (fun n => !(c.copied.isSome && sharedQ e.g n))
    if pushes.any (sharedQ e.g) && isDet e.g && !headFree e.s e.id.berth e.g true then .next (block e.s e.id .headHold)
    else
      match pushFull e c pushes with
      | some n => .next (block e.s e.id (.push n))
      | none => if pushes.any (wideQ e.g) && unacked e.s e.g.lid e.g.wgix then .next (block e.s e.id (.remote 1)) else act

/-- The crew registers that the instruction writes, in some lane: those of `DST`, but for a pack or unpack that processes no block (R154)
and a `qtrypop` that finds no entry (R194). -/
def writtenNames (e : Env) (c : Ctx) : List Nat :=
  let dst := roleNames .crew e.u.dst e.f.dst.toNat
  let some_ := match e.i with
    | .mxpack x => decide (packMask e x ≠ 0)
    | .mxunpack x => !(fullBlocks e x.ty).isEmpty
    | .qtrypop x =>
      match c.copied with
      | some got => !got.res.vec.isEmpty
      | none => match popState e.s e.g [x.sa.toNat - 240] [] with | .empty _ => false | _ => true
    | _ => true
  if e.active = 0 then [] else (if some_ then dst else []) ++ (match e.i with | .call _ => [223] | _ => [])

/-- The allocation that the instruction needs does not fit the reservation (R15, R75). -/
def overruns (e : Env) (c : Ctx) : Bool :=
  match e.id.who with
  | .crew n => match crewOf e.g n with
    | some x => !budgetOk e.g x (if e.active = 0 then [] else freedNames e.u e.f (writtenNames e c)) (writtenNames e c)
    | none => false
  | .pilot => false

/-- The revision of a workgroup's handle. -/
def revOfHandle (s : State) (lid wgix h : Nat) : Option (Nat × Rev) :=
  s.revs.find? (fun x => x.2.lid == lid && x.2.wgix == wgix && x.2.handle == h)

/-- A staged fork of a handle that has not taken its place (R293). -/
def stagedFork (rs : List StageRec) (h : Nat) : Bool := rs.any (fun r => match r.op with | .fork k _ _ _ => k == h | _ => false)

/-- A handle that `join` and `discard` refuse: unknown, or settled (R241, R289). -/
def handleBad (s : State) (b : Nat) (g : WG) (h : Nat) : Bool :=
  decide (h = 0) || decide (g.pilot.lastHandle < h) || (match revOfHandle s g.lid g.wgix h with
    | some (_, r) => decide (r.state = .settled)
    | none => !stagedFork (stagingOf s b g) h)

/-- The performed-once log holds the instruction that a context is at (R334). -/
def loggedNow (s : State) (id : CtxId) (g : WG) (c : Ctx) : Bool :=
  (wgOf s (leadBerth id.berth g)).any (fun l => l.log.any (fun y => decide (y.who = id.who) && y.ordinal == c.ordinal))

/-- The handle check of `join` and `discard`, but for an instruction whose result is already known (R332, R334). -/
def handleRefused (e : Env) (h : Nat) : Bool :=
  match ctxIn e.g e.id.who with
  | some c => !(c.copied.isSome || (isDup e.g && loggedNow e.s e.id e.g c)) && handleBad e.s e.id.berth e.g h
  | none => false

/-- Bits of a tag mask that name no tag of the workgroup (R33). -/
def tagMaskBad (g : WG) (m : Nat) : Bool := decide (2 ^ hTagn g.hdr ≤ m)

/-- An illegal operand that the value of a register shows, before every other check of the operands (R75, R201, R244): a handle that `join` or
`discard` refuses, a mask of `twait` or `tfirst` with a tag that the workgroup has not. -/
def valueIllegal (s : State) (id : CtxId) (g : WG) (i : Instr) (u : Use) (f : Fields) (h : FEntry) : Bool :=
  let e := mkEnv s id g i u f h
  match i with
  | .join x | .discard x => decide (e.active ≠ 0) && decide (x.sa.toNat < 240) && handleRefused e (e.av 0)
  | .twait x | .tfirst x => decide (e.active ≠ 0) && decide (x.sa.toNat < 240) && tagMaskBad g (e.av e.first)
  | _ => false

/-- Instructions that check the address of their operand before the budget (R140). -/
def addressFirst (i : Instr) : Bool := match i with | .await _ | .spawn _ | .depdec _ => true | _ => false

/-- Decode checks in the order of R75, once the operands can be read. -/
def prepChecks (s : State) (id : CtxId) (g : WG) (i : Instr) (f : Fields) (h : FEntry) : Prep :=
  let k := whoKind id.who
  let u := useOf k i
  let e := mkEnv s id g i u f h
  match ctxIn g id.who with
  | none => .done s
  | some c =>
    match (if c.divided.isSome then none else misuseOf s id g i u f).orElse (fun _ => if e.active = 0 then none else agentMisuse s g (agentUses g c k i u f) []) with
    | some (r, n) => .done (trapHere s id (qTrap r n h.mask))
    | none => if overruns e c && !addressFirst i then .done (trapHere s id (openTrap s 0x06 h.mask)) else prepQueues e

/-- The budget check of an instruction whose operand's address has passed its own (R140). -/
def budgetLate (e : Env) (act : Out) : Out :=
  if ((ctxIn e.g e.id.who).map (overruns e)).getD false then .next (trapHere e.s e.id (openTrap e.s 0x06 e.head.mask)) else act

/-- The slot of the instruction a context is at. -/
def slotOf (g : WG) (h : FEntry) (w : Who) : Nat :=
  match w with
  | .pilot => g.pilot.pc.toNat % 8
  | .crew _ => h.cix.toNat % 8

/-- The instruction may draw: it rounds stochastically, or is `rand` (R56). -/
def mayDraw (i : Instr) : Bool :=
  (match i with | .rand _ => true | _ => false) || (match vvSpec i with | some (x, _) => x.rm == .rsr | none => false)
    || (match vxSpec i with | some (x, _) => x.rm == .rsr | none => false)

/-- An outstanding result that the instruction waits for: its destination is used, or both draw (R56, R76). -/
def holdsUp (k : CtxKind) (i : Instr) (u : Use) (f : Fields) (p : PendWrite) : Bool :=
  conflicts (usedRegs k i u f) (usedPreds i u f) p || (mayDraw i && decide (p.res.draw ≠ 0))

/-- Results that must be written before the instruction (R23, R56, R76): those it waits for, and one of a full flag. -/
def settlePend (g : WG) (w : Who) (k : CtxKind) (i : Instr) (u : Use) (f : Fields) : WG :=
  let g := commitWhere w (holdsUp k i u f) 4096 0 g
  match (ctxIn g w).bind (fun c => (flagOf c f.pre).map (fun n => (c, n))) with
  | some (c, n) => if 15 ≤ c.flags.getD n 0 then commitWhere w (fun p => decide (p.flag = some n)) 4096 0 g else g
  | none => g

/-- A result that waits for its release holds the instruction (R326); the status words of an `hacc` hold every one (R185). -/
def pendHolds (g : WG) (w : Who) (k : CtxKind) (i : Instr) (u : Use) (f : Fields) : Bool :=
  match ctxIn g w with
  | none => false
  | some c =>
    c.pend.any (holdsUp k i u f) || c.pend.any (fun p => p.waits.isSome && p.res.chain.isSome)
      || (match flagOf c f.pre with | some n => decide (15 ≤ c.flags.getD n 0) | none => false)

/-- CHECK AN INSTRUCTION of the context that is issuing: the decode traps of R75 in order, then everything that holds it. -/
def prep (i : Instr) (s : State) : Prep :=
  match wgOf s s.cur.berth, fieldsOf i with
  | some g, some f =>
    let id := s.cur
    let k := whoKind id.who
    let u := useOf k i
    match ctxIn g id.who, headFor s id g with
    | some c, some h =>
      if c.ended || c.blocked.isSome || c.taking.isSome || !mayIssue s id g then .done s
      else
        match illegalReason k i with
        | some r => .done (trapHere s id (mkTrap 0x01 (r + 16 * slotOf g h id.who) h.mask))
        | none =>
          if privileged i then .done (trapHere s id (openTrap s 0x17 h.mask))
          else
            let latch := fun (n : Nat) => match id.who with
              | .crew m => ((crewOf g m).map (fun c => latchOk c n)).getD false
              | .pilot => false
            if srcBad k latch u.a f.sa.toNat || srcBad k latch u.b f.sb.toNat || srcBad k latch u.c f.sc.toNat
                || dstBad k u.dst f.dst.toNat || (k == .crew && markBad u f) || fieldIllegal k g c i then
              .done (trapHere s id (openTrap s 0x05 h.mask))
            else if c.divided.isNone && !(upsetsRead k c i u f).isEmpty then
              if isDup g && rollbackWaits s id.berth then .done (block s id (.remote 1))
              else .done (softTrap (modCtx s id (fun c => { c with upsets := c.upsets.filter (fun x => !(upsetsRead k c i u f).contains x) })) id
                (openTrap s 0x14 h.mask) (isDup g))
            else
              let g := settlePend g id.who k i u f
              let s := setWg s id.berth g
              if pendHolds g id.who k i u f then .done (block s id .staging)
              else if c.divided.isNone && valueIllegal s id g i u f h then .done (trapHere s id (openTrap s 0x05 h.mask))
              else prepChecks s id g i f h
    | _, _ => .done s
  | _, _ => .done s

/-- ISSUE: check an instruction, then let it act. -/
def issue (i : Instr) (s : State) (act : Env → Out) : Out :=
  match prep i s with
  | .done t => .next t
  | .go e => act e

/-- Countersign (R332): outside DUP an instruction acts at once; under DUP it holds until the pair has compared, the leading copy
then acts for both, and the other, or both on a rerun, take the recorded result. -/
def countersigned (e : Env) (act : Env → Out) : Out :=
  match ctxIn e.g e.id.who with
  | none => .next e.s
  | some c =>
    if !isDup e.g then act e
    else
      match c.copied with
      | some got =>
        let taken := complete e e.s got.res got.push got.waits
        if pushesLate e.i then pushGate e taken else taken
      | none => if c.granted then act e else .next (block e.s e.id .countersign)

/-- What an access check that is not passed does to the context. -/
def accessStop (e : Env) (s : State) (wr : Bool) (c : Chk) : Option State :=
  match c with
  | .trap t => some (trapHere s e.id t)
  | .fault va lanes => some (threadFault s e.id va lanes wr false)
  | .copy rev vpn child => some (block s e.id (.copy rev vpn child))
  | .rebuild vpn ea lanes => some (rebuildHold s e.id vpn ea lanes)
  | .poison ea lanes off => some (softTrap s e.id (mkTrap 0x15 ea lanes) (loneError s e.g off))
  | .refused ea lanes => some (trapHere (dropRemote s e.id) e.id (mkTrap 0x0A ea lanes))
  | .staged => some (block s e.id .staging)
  | .remote _ => none
  | .ok _ => none

end Sys2Proof.Machine
end

