-- ==== Sys2Proof/Machine/Philox.lean ====
section
/-! DEFINITION. Philox: the keyed generator of R6 and the uniforms drawn from it (R56). The manual names
Philox4x32-10; its constants are the published ones (log 9). -/

namespace Sys2Proof.Machine

/-- Four words of a counter or a block. -/
structure Quad where
  w0 : Nat
  w1 : Nat
  w2 : Nat
  w3 : Nat
deriving DecidableEq, Repr

/-- One round under the round keys k0, k1. -/
def philoxRound (c : Quad) (k0 k1 : Nat) : Quad :=
  let p0 := 0xD2511F53 * c.w0
  let p1 := 0xCD9E8D57 * c.w2
  { w0 := Nat.xor (Nat.xor (p1 / 2 ^ 32) c.w1) k0, w1 := p1 % 2 ^ 32,
    w2 := Nat.xor (Nat.xor (p0 / 2 ^ 32) c.w3) k1, w3 := p0 % 2 ^ 32 }

/-- n rounds, the round keys bumped between rounds. -/
def philoxRounds : Nat → Quad → Nat → Nat → Quad
  | 0, c, _, _ => c
  | n + 1, c, k0, k1 => philoxRounds n (philoxRound c k0 k1) ((k0 + 0x9E3779B9) % 2 ^ 32) ((k1 + 0xBB67AE85) % 2 ^ 32)

/-- `Philox(key, ctr)` (R6). -/
def philox (key : Nat) (c : Quad) : Quad := philoxRounds 10 c (key % 2 ^ 32) (key / 2 ^ 32 % 2 ^ 32)

/-- u[j]: bits [16j + 15 : 16j] of the four words (R56). -/
def Quad.uniform (q : Quad) (j : Nat) : Nat :=
  (q.w0 + 2 ^ 32 * q.w1 + 2 ^ 64 * q.w2 + 2 ^ 96 * q.w3) / 2 ^ (16 * j) % 65536

end Sys2Proof.Machine
end

