-- ==== Sys2Proof/Machine/Flags.lean ====
section
/-! DEFINITION. Flags: the sticky floating-point flags (R42), the draws of a lane (R56), elements of a lane word (R36), and
completing an instruction that computes one value in each active lane (R141). -/

namespace Sys2Proof.Machine

/-- OR floating-point flags into `FPX` of the issuing crew (R42). -/
def fpxOr (s : State) (id : CtxId) (fl : BitVec 5) : State :=
  match id.who with
  | .crew n => modWg s id.berth (fun g => modCrew g n (fun c => { c with fpx := c.fpx ||| fl }))
  | .pilot => s

/-- The Philox block of a lane's present draw (R56). -/
def drawBlock (e : Env) (l : Nat) : Quad :=
  let count := (e.crew?.map (fun c => laneWord c.draw l)).getD 0
  philox (mLkey e.g.man) { w0 := count.toNat, w1 := 128 * e.crewNo + l, w2 := e.g.wgix, w3 := (launchIdOf e.s e.g).toNat }

/-- u[j] of a lane where the mode draws, else 0. -/
def uniformAt (e : Env) (rm : Rm) (l j : Nat) : Nat := if rm == .rsr then (drawBlock e l).uniform j else 0

/-- The instruction draws in the lanes of a mask: `DRAW` advances there when it retires (R56). -/
def Env.drawing (e : Env) (m : LaneMask) : Env := { e with draws := m }

/-- The draws of an instruction that rounds stochastically. -/
def Env.consuming (e : Env) (rm : Rm) (m : LaneMask) : Env := if rm == .rsr then e.drawing m else e

/-- Element j of a lane value (R36). -/
def elemAt (t : Ty) (v j : Nat) : Nat := v / 2 ^ (t.slot * j) % 2 ^ t.width

/-- The elements put together again. -/
def packElems (t : Ty) (f : Nat → Nat) : Nat → Nat
  | 0 => 0
  | n + 1 => packElems t f n + f n % 2 ^ t.width * 2 ^ (t.slot * n)

/-- Values computed once in the lanes of a mask. -/
def overLanes (m : LaneMask) (f : Nat → Nat × BitVec 5) : List (Nat × BitVec 5) :=
  tabulate 128 (fun l => if bitAt m l then f l else (0, fNone))

/-- The flags of all lanes together. -/
def flagsOf (rs : List (Nat × BitVec 5)) : BitVec 5 := rs.foldl (fun a r => a ||| r.2) 0

/-- Complete with values and flags computed in the active lanes. The flags reach `FPX` at issue, of a long-latency result too, whose value is written
later: the manual does not say when (DESIGN CHOICE, log 66; R26, R42, R145). -/
def completeFlagged (e : Env) (s : State) (f : Nat → Nat × BitVec 5) : Out :=
  let rs := overLanes e.active f
  completeVals e (fpxOr s e.id (flagsOf rs)) e.active (fun l => (rs.getD l (0, fNone)).1)

/-- Complete with values computed in the active lanes. -/
def completeLanes (e : Env) (f : Nat → Nat) : Out := completeFlagged e e.s (fun l => (f l, fNone))

/-- One operation on every element of a type in every active lane; source b is given apart, for the VI forms (R141, R145). -/
def elementwise (e : Env) (t : Ty) (rm : Rm) (b : Nat → Nat) (f : Nat → Nat → Nat → Nat → Nat × BitVec 5) : Out :=
  completeFlagged (e.consuming rm e.active) e.s (fun l =>
    let rs := tabulate t.perUnit (fun j => f (uniformAt e rm l j) (elemAt t (e.av l) j) (elemAt t (b l) j) (elemAt t (e.cv l) j))
    (packElems t (fun j => (rs.getD j (0, fNone)).1) t.perUnit, flagsOf rs))

/-- `IMM` as source b (R145). -/
def immSource (t : Ty) (imm : Word) : Nat :=
  match t with
  | .i64 => lowBits 64 (signedOf 32 imm.toNat)
  | _ => imm.toNat

/-- Complete with a predicate result in the active lanes. -/
def completePred (e : Env) (s : State) (f : Nat → Bool) : Out :=
  complete e s (predResult e.f.dst.toNat e.active (maskOf (fun l => bitAt e.active l && f l))) none none

/-- The value of the destination before the instruction, for forms that keep part of it (R141). -/
def oldDst (e : Env) (l : Nat) : Nat :=
  match e.crew? with
  | some c => if e.f.dst.toNat < 224 then (crewSource e.s e.id.berth e.g e.crewNo c e.u.dst 0 e.f.dst.toNat).getD l 0 else 0
  | none => 0

end Sys2Proof.Machine
end

