-- ==== Sys2Proof/Machine/VectorInt.lean ====
section
/-! DEFINITION. VectorInt: the integer, bit, compare, select and move instructions of formats VV and VI (R145 to R148), and the
predicate instructions (R158). The floating-point forms of an opcode stand beside its integer ones. -/

namespace Sys2Proof.Machine

/-- An exact integer into a type: wrapped, or saturated (R35). -/
def intFit (t : Ty) (sat : Bool) (x : Int) : Nat := lowBits t.width (if sat then satInt x t.imin t.imax else x)

/-- An integer result sets no flag. -/
def intRes (t : Ty) (sat : Bool) (x : Int) : Nat × BitVec 5 := (intFit t sat x, fNone)

/-- Round a value with the flags that forming it set (R41, R42). -/
def roundWith (f : Fmt) (rm : Rm) (u : Nat) (v : FVal × BitVec 5) : Nat × BitVec 5 :=
  let r := roundIeee f rm u v.1
  (r.1, v.2 ||| r.2)

/-- a + b (R146). -/
def addElem (t : Ty) (rm : Rm) (sat : Bool) (u a b : Nat) : Nat × BitVec 5 :=
  match t.fmt? with
  | some f => roundWith f rm u (fvAdd rm (decodeF f a) (decodeF f b))
  | none => intRes t sat (t.intOf a + t.intOf b)

/-- a − b (R146). -/
def subElem (t : Ty) (rm : Rm) (sat : Bool) (u a b : Nat) : Nat × BitVec 5 :=
  match t.fmt? with
  | some f => roundWith f rm u (fvAdd rm (decodeF f a) (fvNeg (decodeF f b)))
  | none => intRes t sat (t.intOf a - t.intOf b)

/-- a × b (R146). -/
def mulElem (t : Ty) (rm : Rm) (sat : Bool) (u a b : Nat) : Nat × BitVec 5 :=
  match t.fmt? with
  | some f => roundWith f rm u (fvMul (decodeF f a) (decodeF f b))
  | none => intRes t sat (t.intOf a * t.intOf b)

/-- Bits [2n−1:n] of the exact product (R146). -/
def mulhiElem (t : Ty) (a b : Nat) : Nat × BitVec 5 := intRes t false (t.intOf a * t.intOf b / (2 ^ t.width : Nat))

/-- The lesser or the greater (R146, R40). -/
def minMaxElem (t : Ty) (wantMax : Bool) (a b : Nat) : Nat × BitVec 5 :=
  match t.fmt? with
  | some f => fMinMax f wantMax a b
  | none =>
    if wantMax then (if t.intOf a < t.intOf b then b else a, fNone) else (if t.intOf b < t.intOf a then b else a, fNone)

/-- |a| (R146): a float's sign bit is cleared. -/
def absElem (t : Ty) (sat : Bool) (a : Nat) : Nat × BitVec 5 :=
  match t.fmt? with
  | some f => (a % 2 ^ f.sbit, fNone)
  | none => intRes t sat (t.intOf a).natAbs

/-- −a (R146): a float's sign bit is flipped. -/
def negElem (t : Ty) (sat : Bool) (a : Nat) : Nat × BitVec 5 :=
  match t.fmt? with
  | some f => (Nat.xor a (2 ^ f.sbit), fNone)
  | none => intRes t sat (-(t.intOf a))

/-- Left shift (R146). -/
def shlElem (t : Ty) (sat : Bool) (a k : Nat) : Nat × BitVec 5 :=
  if k < t.width then intRes t sat (t.intOf a * (2 ^ k : Nat))
  else if !sat || t.intOf a = 0 then (0, fNone)
  else intRes t true (if t.intOf a < 0 then t.imin else t.imax)

/-- Right shift, arithmetic for signed types (R146). -/
def shrElem (t : Ty) (a k : Nat) : Nat × BitVec 5 := intRes t false (t.intOf a / (2 ^ (min k t.width) : Nat))

/-- Offset of a bit field (R146). -/
def fieldOff (b : Nat) : Nat := b % 32
/-- Width of a bit field. -/
def fieldLen (b : Nat) : Nat := min (b / 256 % 64) (32 - fieldOff b)

/-- Bit-field extract (R146). -/
def bfeElem (t : Ty) (a b : Nat) : Nat × BitVec 5 :=
  let x := a / 2 ^ fieldOff b % 2 ^ fieldLen b
  (if t.signed then lowBits 32 (signedOf (fieldLen b) x) else x, fNone)

/-- Bit-field insert (R146). -/
def bfiElem (a b c : Nat) : Nat × BitVec 5 :=
  let o := fieldOff b
  let w := fieldLen b
  (c - c / 2 ^ o % 2 ^ w * 2 ^ o + a % 2 ^ w * 2 ^ o, fNone)

/-- Exact average (R146). -/
def avgElem (t : Ty) (up : Bool) (a b : Nat) : Nat × BitVec 5 := intRes t false ((t.intOf a + t.intOf b + (if up then 1 else 0)) / 2)

/-- Byte signedness of source b of a dot product. -/
def dotTy (t : Ty) (opposite : Bool) : Ty := if t.signed != opposite then .i8 else .n8

/-- Four-byte dot product (R146). -/
def dot4Elem (t : Ty) (opposite sat : Bool) (a b c : Nat) : Nat × BitVec 5 :=
  let tb := dotTy t opposite
  let tc : Ty := if t.signed || tb.signed then .i32 else .n32
  let sum := (List.range 4).foldl (fun (x : Int) j => x + t.intOf (elemAt t a j) * tb.intOf (elemAt tb b j)) (tc.intOf c)
  intRes tc sat sum

/-- Quotient (R147). -/
def divElem (t : Ty) (a b : Nat) : Nat × BitVec 5 :=
  let x := t.intOf a
  let y := t.intOf b
  intRes t true (if y = 0 then (if x < 0 then t.imin else t.imax) else x.tdiv y)

/-- Remainder (R147). -/
def remElem (t : Ty) (a b : Nat) : Nat × BitVec 5 :=
  let x := t.intOf a
  let y := t.intOf b
  intRes t false (if y = 0 then x else x.tmod y)

/-- The order of two elements with the flag of a signalling NaN (R148). -/
def orderElem (t : Ty) (a b : Nat) : FOrder × BitVec 5 :=
  match t.fmt? with
  | some f => (fvCmp (decodeF f a) (decodeF f b), sigFlag (decodeF f a) ||| sigFlag (decodeF f b))
  | none => (intCmp (t.intOf a) (t.intOf b), fNone)

/-- Address add (R148): `b` is extended from 32 bits by T's signedness. -/
def leaElem (t : Ty) (shift a b : Nat) : Nat × BitVec 5 :=
  (lowBits t.width ((a : Int) + (if t.signed then signedOf 32 b else (b : Int)) * (2 ^ shift : Nat)), fNone)

/-- The compare of VV and VI: element 0 of each active lane (R148). -/
def compareLanes (e : Env) (t : Ty) (cc : Nat) (b : Nat → Nat) : Out :=
  let rs := overLanes e.active (fun l =>
    let o := orderElem t (elemAt t (e.av l) 0) (elemAt t (b l) 0)
    ((condHolds cc o.1).toNat, o.2))
  completePred e (fpxOr e.s e.id (flagsOf rs)) (fun l => decide ((rs.getD l (0, fNone)).1 = 1))

/-- `add` (R146). -/
def execAdd (x : FormVV) (s : State) : Out :=
  issue (.add x) s (fun e => elementwise e x.ty x.rm e.bv (fun u a b _ => addElem x.ty x.rm x.sat u a b))
/-- `sub` (R146). -/
def execSub (x : FormVV) (s : State) : Out :=
  issue (.sub x) s (fun e => elementwise e x.ty x.rm e.bv (fun u a b _ => subElem x.ty x.rm x.sat u a b))
/-- `mul` (R146). -/
def execMul (x : FormVV) (s : State) : Out :=
  issue (.mul x) s (fun e => elementwise e x.ty x.rm e.bv (fun u a b _ => mulElem x.ty x.rm x.sat u a b))
/-- `mulhi` (R146). -/
def execMulhi (x : FormVV) (s : State) : Out :=
  issue (.mulhi x) s (fun e => elementwise e x.ty .rne e.bv (fun _ a b _ => mulhiElem x.ty a b))
/-- `mad` (R146). -/
def execMad (x : FormVV) (s : State) : Out :=
  issue (.mad x) s (fun e => elementwise e x.ty .rne e.bv (fun _ a b c =>
    intRes x.ty x.sat (x.ty.intOf a * x.ty.intOf b + x.ty.intOf c)))
/-- `min` (R146). -/
def execMin (x : FormVV) (s : State) : Out :=
  issue (.min x) s (fun e => elementwise e x.ty .rne e.bv (fun _ a b _ => minMaxElem x.ty false a b))
/-- `max` (R146). -/
def execMax (x : FormVV) (s : State) : Out :=
  issue (.max x) s (fun e => elementwise e x.ty .rne e.bv (fun _ a b _ => minMaxElem x.ty true a b))
/-- `abs` (R146). -/
def execAbs (x : FormVV) (s : State) : Out :=
  issue (.abs x) s (fun e => elementwise e x.ty .rne e.bv (fun _ a _ _ => absElem x.ty x.sat a))
/-- `neg` (R146). -/
def execNeg (x : FormVV) (s : State) : Out :=
  issue (.neg x) s (fun e => elementwise e x.ty .rne e.bv (fun _ a _ _ => negElem x.ty x.sat a))
/-- `and` (R146). -/
def execAnd (x : FormVV) (s : State) : Out := issue (.and x) s (fun e => completeLanes e (fun l => Nat.land (e.av l) (e.bv l)))
/-- `or` (R146). -/
def execOr (x : FormVV) (s : State) : Out := issue (.or x) s (fun e => completeLanes e (fun l => Nat.lor (e.av l) (e.bv l)))
/-- `xor` (R146). -/
def execXor (x : FormVV) (s : State) : Out := issue (.xor x) s (fun e => completeLanes e (fun l => Nat.xor (e.av l) (e.bv l)))
/-- `not` (R146). -/
def execNot (x : FormVV) (s : State) : Out := issue (.not x) s (fun e => completeLanes e (fun l => 2 ^ x.ty.width - 1 - e.av l))
/-- `shl` (R146). -/
def execShl (x : FormVV) (s : State) : Out :=
  issue (.shl x) s (fun e => elementwise e x.ty .rne e.bv (fun _ a b _ => shlElem x.ty x.sat a b))
/-- `shr` (R146). -/
def execShr (x : FormVV) (s : State) : Out :=
  issue (.shr x) s (fun e => elementwise e x.ty .rne e.bv (fun _ a b _ => shrElem x.ty a b))
/-- `popc` (R146). -/
def execPopc (x : FormVV) (s : State) : Out := issue (.popc x) s (fun e => completeLanes e (fun l => popcount 32 (e.av l)))
/-- `clz` (R146). -/
def execClz (x : FormVV) (s : State) : Out := issue (.clz x) s (fun e => completeLanes e (fun l => leadingZeros 32 (e.av l)))
/-- `brev` (R146). -/
def execBrev (x : FormVV) (s : State) : Out := issue (.brev x) s (fun e => completeLanes e (fun l => reverseBits 32 (e.av l)))
/-- `bfe` (R146). -/
def execBfe (x : FormVV) (s : State) : Out :=
  issue (.bfe x) s (fun e => elementwise e x.ty .rne e.bv (fun _ a b _ => bfeElem x.ty a b))
/-- `bfi` (R146). -/
def execBfi (x : FormVV) (s : State) : Out :=
  issue (.bfi x) s (fun e => elementwise e x.ty .rne e.bv (fun _ a b c => bfiElem a b c))
/-- `cmp` (R148). -/
def execCmp (x : FormVV) (s : State) : Out := issue (.cmp x) s (fun e => compareLanes e x.ty x.cc.toNat e.bv)
/-- `sel` (R148). -/
def execSel (x : FormVV) (s : State) : Out :=
  issue (.sel x) s (fun e => completeLanes e (fun l => if bitAt (e.pred e.f.sc.toNat) l then e.av l else e.bv l))
/-- `lea` (R148). -/
def execLea (x : FormVV) (s : State) : Out :=
  issue (.lea x) s (fun e => completeLanes e (fun l => (leaElem x.ty x.sub.toNat (e.av l) (e.bv l)).1))
/-- `div` (R147). -/
def execDiv (x : FormVV) (s : State) : Out :=
  issue (.div x) s (fun e => elementwise e x.ty .rne e.bv (fun _ a b _ => divElem x.ty a b))
/-- `rem` (R147). -/
def execRem (x : FormVV) (s : State) : Out :=
  issue (.rem x) s (fun e => elementwise e x.ty .rne e.bv (fun _ a b _ => remElem x.ty a b))
/-- `mov` (R148). -/
def execMov (x : FormVV) (s : State) : Out := issue (.mov x) s (fun e => completeLanes e e.av)
/-- `avg` (R146). -/
def execAvg (x : FormVV) (s : State) : Out :=
  issue (.avg x) s (fun e => elementwise e x.ty .rne e.bv (fun _ a b _ => avgElem x.ty (x.sub == 0) a b))
/-- `dot4` (R146). -/
def execDot4 (x : FormVV) (s : State) : Out :=
  issue (.dot4 x) s (fun e => completeLanes e (fun l => (dot4Elem x.ty (x.sub == 1) x.sat (e.av l) (e.bv l) (e.cv l)).1))

/-- `add` with an immediate (R145). -/
def execAddVi (x : FormVI) (s : State) : Out :=
  issue (.addVi x) s (fun e => elementwise e x.ty .rne (fun _ => immSource x.ty x.imm) (fun u a b _ => addElem x.ty .rne x.sat u a b))
/-- `sub` with an immediate (R145). -/
def execSubVi (x : FormVI) (s : State) : Out :=
  issue (.subVi x) s (fun e => elementwise e x.ty .rne (fun _ => immSource x.ty x.imm) (fun u a b _ => subElem x.ty .rne x.sat u a b))
/-- `mul` with an immediate (R145). -/
def execMulVi (x : FormVI) (s : State) : Out :=
  issue (.mulVi x) s (fun e => elementwise e x.ty .rne (fun _ => immSource x.ty x.imm) (fun u a b _ => mulElem x.ty .rne x.sat u a b))
/-- `min` with an immediate (R145). -/
def execMinVi (x : FormVI) (s : State) : Out :=
  issue (.minVi x) s (fun e => elementwise e x.ty .rne (fun _ => immSource x.ty x.imm) (fun _ a b _ => minMaxElem x.ty false a b))
/-- `max` with an immediate (R145). -/
def execMaxVi (x : FormVI) (s : State) : Out :=
  issue (.maxVi x) s (fun e => elementwise e x.ty .rne (fun _ => immSource x.ty x.imm) (fun _ a b _ => minMaxElem x.ty true a b))
/-- `and` with an immediate (R145). -/
def execAndVi (x : FormVI) (s : State) : Out :=
  issue (.andVi x) s (fun e => completeLanes e (fun l => Nat.land (e.av l) (immSource x.ty x.imm)))
/-- `or` with an immediate (R145). -/
def execOrVi (x : FormVI) (s : State) : Out :=
  issue (.orVi x) s (fun e => completeLanes e (fun l => Nat.lor (e.av l) (immSource x.ty x.imm)))
/-- `xor` with an immediate (R145). -/
def execXorVi (x : FormVI) (s : State) : Out :=
  issue (.xorVi x) s (fun e => completeLanes e (fun l => Nat.xor (e.av l) (immSource x.ty x.imm)))
/-- `shl` with an immediate (R145). -/
def execShlVi (x : FormVI) (s : State) : Out :=
  issue (.shlVi x) s (fun e => elementwise e x.ty .rne (fun _ => immSource x.ty x.imm) (fun _ a b _ => shlElem x.ty x.sat a b))
/-- `shr` with an immediate (R145). -/
def execShrVi (x : FormVI) (s : State) : Out :=
  issue (.shrVi x) s (fun e => elementwise e x.ty .rne (fun _ => immSource x.ty x.imm) (fun _ a b _ => shrElem x.ty a b))
/-- `bfe` with offset and width in the immediate (R146). -/
def execBfeVi (x : FormVI) (s : State) : Out :=
  issue (.bfeVi x) s (fun e => elementwise e x.ty .rne (fun _ => immSource x.ty x.imm) (fun _ a b _ => bfeElem x.ty a b))
/-- `cmp` with an immediate (R148). -/
def execCmpVi (x : FormVI) (s : State) : Out :=
  issue (.cmpVi x) s (fun e => compareLanes e x.ty x.cc.toNat (fun _ => immSource x.ty x.imm))
/-- `lea` with an immediate (R148): the shift is 0. -/
def execLeaVi (x : FormVI) (s : State) : Out :=
  issue (.leaVi x) s (fun e => completeLanes e (fun l => (e.av l + immSource x.ty x.imm) % 2 ^ x.ty.width))
/-- `mov` of an immediate (R148). -/
def execMovVi (x : FormVI) (s : State) : Out := issue (.movVi x) s (fun e => completeLanes e (fun _ => immSource x.ty x.imm))

/-- The operations of `plog` (R158). -/
def plogOp (op : Nat) (a b : LaneMask) : LaneMask :=
  match op with
  | 0 => a &&& b
  | 1 => a ||| b
  | 2 => a ^^^ b
  | 3 => a &&& ~~~b
  | 4 => a ||| ~~~b
  | _ => ~~~(a ^^^ b)

/-- `plog` (R158). -/
def execPlog (x : FormVV) (s : State) : Out :=
  issue (.plog x) s (fun e =>
    let r := plogOp x.cc.toNat (e.pred e.f.sa.toNat) (e.pred e.f.sb.toNat)
    completePred e e.s (fun l => bitAt r l))
/-- `pget` (R158). -/
def execPget (x : FormVV) (s : State) : Out :=
  issue (.pget x) s (fun e => completeLanes e (fun l => if bitAt (e.pred e.f.sa.toNat) l then 0xFFFFFFFF else 0))
/-- `pset` (R158). -/
def execPset (x : FormVV) (s : State) : Out := issue (.pset x) s (fun e => completePred e e.s (fun l => decide (e.av l ≠ 0)))

end Sys2Proof.Machine
end

