-- ==== Sys2Proof/Machine/Crossbar.lean ====
section
/-! DEFINITION. Crossbar: the lane crossbar, format VX (R160 to R165). -/

namespace Sys2Proof.Machine

/-- First lane of a lane's segment. -/
def segBase (seg l : Nat) : Nat := l / 2 ^ seg * 2 ^ seg

/-- The active lanes of a lane's segment, in increasing order. -/
def segActive (e : Env) (seg l : Nat) : List Nat := e.lanes.filter (fun m => m / 2 ^ seg == l / 2 ^ seg)

/-- The segments that hold an active lane, by first lane. -/
def segStarts (e : Env) (seg : Nat) : List Nat := (tabulate (128 / 2 ^ seg) (fun k => k * 2 ^ seg)).filter (fun b => !(segActive e seg b).isEmpty)

/-- The lane `shfl` reads (R162). -/
def shflLane (mode seg l b : Nat) : Nat :=
  let base := segBase seg l
  let z := 2 ^ seg
  let i := l - base
  match mode with
  | 0 => base + b % z
  | 1 => if b ≤ i then l - b else l
  | 2 => if i + b < z then l + b else l
  | _ => base + Nat.xor i (b % z)

/-- `shfl` (R162). -/
def execShfl (x : FormVX) (s : State) : Out :=
  issue (.shfl x) s (fun e => completeLanes e (fun l => e.av (shflLane x.sub.toNat x.seg.toNat l (e.bv l))))

/-- `bclane` (R162). -/
def execBclane (x : FormVX) (s : State) : Out :=
  issue (.bclane x) s (fun e => completeLanes e (fun l =>
    e.av (if x.sub == 0 then segBase x.seg.toNat l + x.sel.toNat else (segActive e x.seg.toNat l).headD l)))

/-- `perm` (R162). -/
def execPerm (x : FormVX) (s : State) : Out :=
  issue (.perm x) s (fun e => completeLanes e (fun l =>
    let z := 2 ^ x.seg.toNat
    let j := e.cv l % (2 * z)
    if j < z then e.av (segBase x.seg.toNat l + j) else e.bv (segBase x.seg.toNat l + j - z)))

/-- `cmpct` (R162): lanes are written whether active or not, those of the crew's last lanes that do not exist excepted (R160). -/
def execCmpct (x : FormVX) (s : State) : Out :=
  issue (.cmpct x) s (fun e =>
    let seg := x.seg.toNat
    let src := fun (l : Nat) => (segActive e seg l)[l - segBase seg l]?
    completeVals e e.s (maskOf (fun l => bitAt (hLaneMask e.g.hdr e.crewNo) l && (src l).isSome))
      (fun l => ((src l).map e.av).getD 0))

/-! ### Prefixes and reductions (R58, R163) -/

/-- One step of a combination. -/
def combine (t : Ty) (op : Nat) (rm : Rm) (sat : Bool) (u acc v : Nat) : Nat × BitVec 5 :=
  match op with
  | 0 => addElem t rm sat u acc v
  | 1 => minMaxElem t false acc v
  | 2 => minMaxElem t true acc v
  | 3 => (Nat.land acc v, fNone)
  | 4 => (Nat.lor acc v, fNone)
  | _ => (Nat.xor acc v, fNone)

/-- The identity of an operation (R163). -/
def identityOf (t : Ty) (op : Nat) : Nat :=
  match op with
  | 1 => if t == .f32 then 0x7F800000 else lowBits t.width t.imax
  | 2 => if t == .f32 then 0xFF800000 else lowBits t.width t.imin
  | 3 => 2 ^ t.width - 1
  | _ => 0

/-- The running values over lanes in order: lane, value before it, value with it. -/
def prefixGo (step : Nat → Nat → Nat → Nat × BitVec 5) (val : Nat → Nat) : List Nat → Nat → List (Nat × Nat × Nat × BitVec 5)
  | [], _ => []
  | l :: ls, acc =>
    let r := step l acc (val l)
    (l, acc, r.1, r.2) :: prefixGo step val ls r.1

/-- The value that starts a combination: not rounded, but a result like every other, so a NaN becomes the canonical one, and a signalling
NaN sets invalid (R39, R42). -/
def firstValue (t : Ty) (v : Nat) : Nat × BitVec 5 :=
  match t.fmt? with
  | none => (v, fNone)
  | some f =>
    match decodeF f v with
    | .nan s => (f.nanOut, sigFlag (.nan s))
    | _ => (v, fNone)

/-- The running values of a segment, from the lowest lane's value on. -/
def prefixes (t : Ty) (step : Nat → Nat → Nat → Nat × BitVec 5) (ident : Nat) (val : Nat → Nat) (ls : List Nat) :
    List (Nat × Nat × Nat × BitVec 5) :=
  match ls with
  | [] => []
  | l :: rest => let r := firstValue t (val l); (l, ident, r.1, r.2) :: prefixGo step val rest r.1

/-- The running values of every segment (R163). -/
def segPrefixes (e : Env) (x : FormVX) : List (Nat × Nat × Nat × BitVec 5) :=
  let op := bits x.sel 2 0
  let step := fun (l acc v : Nat) => combine x.ty op x.rm x.sat (uniformAt e x.rm l 0) acc v
  ((segStarts e x.seg.toNat).map (fun b => prefixes x.ty step (identityOf x.ty op) e.av (segActive e x.seg.toNat b))).flatten

/-- The state after the flags of a combination. -/
def combineState (e : Env) (ps : List (Nat × Nat × Nat × BitVec 5)) : State := fpxOr e.s e.id (ps.foldl (fun a p => a ||| p.2.2.2) 0)

/-- `scan` (R163). -/
def execScan (x : FormVX) (s : State) : Out :=
  issue (.scan x) s (fun e =>
    let ps := segPrefixes e x
    completeVals (e.consuming x.rm e.active) (combineState e ps) e.active (fun l =>
      match ps.find? (fun p => p.1 == l) with
      | some p => if x.sub == 0 then p.2.2.1 else p.2.1
      | none => 0))

/-- `red` (R163). -/
def execRed (x : FormVX) (s : State) : Out :=
  issue (.red x) s (fun e =>
    let ps := segPrefixes e x
    completeVals (e.consuming x.rm e.active) (combineState e ps) e.active (fun l =>
      match ps.reverse.find? (fun p => p.1 / 2 ^ x.seg.toNat == l / 2 ^ x.seg.toNat) with
      | some p => p.2.2.1
      | none => 0))

/-! ### Votes and matches (R164) -/

/-- `vote` (R164). -/
def execVote (x : FormVX) (s : State) : Out :=
  issue (.vote x) s (fun e =>
    let p := e.pred e.f.sa.toNat
    completePred e e.s (fun l =>
      let ls := segActive e x.seg.toNat l
      let all := ls.all (fun m => bitAt p m)
      let any := ls.any (fun m => bitAt p m)
      if x.sub == 0 then all else if x.sub == 1 then any else all || !any))

/-- `ballot` (R164). -/
def execBallot (x : FormVX) (s : State) : Out :=
  issue (.ballot x) s (fun e =>
    let m := (e.active &&& e.pred e.f.sa.toNat).toNat
    let seg := x.seg.toNat
    completeLanes e (fun l =>
      if seg ≤ 5 then m / 2 ^ segBase seg l % 2 ^ (2 ^ seg)
      else if seg = 6 then m / 2 ^ (32 * x.sub.toNat + segBase seg l) % 2 ^ 32
      else m / 2 ^ (32 * x.sub.toNat) % 2 ^ 32))

/-- `match` (R164). -/
def execMatch (x : FormVX) (s : State) : Out :=
  issue (.match x) s (fun e => completeLanes e (fun l =>
    let same := (segActive e x.seg.toNat l).filter (fun m => e.av m == e.av l)
    if x.sub == 0 then same.headD 0 else if x.sub == 1 then same.length else (same.filter (fun m => decide (m < l))).length))

/-! ### `sample` (R165) -/

/-- A lane's weight. -/
def sampleWeight (a : Nat) : Nat × BitVec 5 :=
  match decodeF fmtF32 a with
  | .nan _ => (0, fInvalid)
  | .inf neg => if neg then (0, fInvalid) else (a, fNone)
  | .fin x => if x.num = 0 then (0, fNone) else if x.neg then (0, fInvalid) else (a, fNone)

/-- The uniform of a segment. -/
def sampleUniform (u : Nat) : Nat × BitVec 5 :=
  match decodeF fmtF32 u with
  | .nan _ => (0, fInvalid)
  | .inf neg => if neg then (0, fInvalid) else (0x3F7FFFFF, fInvalid)
  | .fin x => if x.num = 0 then (u, fNone) else if x.neg then (0, fInvalid) else if x.den ≤ x.num then (0x3F7FFFFF, fInvalid) else (u, fNone)

/-- The choice of one segment: index, total and flags. -/
def sampleSeg (e : Env) (ls : List Nat) : Nat × Nat × BitVec 5 :=
  let ws := ls.map (fun l => (l, sampleWeight (e.av l)))
  let w := fun (l : Nat) => ((ws.find? (fun x => x.1 == l)).map (fun x => x.2.1)).getD 0
  let step := fun (_ acc v : Nat) => addElem .f32 .rne false 0 acc v
  let ps := prefixes .f32 step 0 w ls
  let total := (ps.getLast?.map (fun p => p.2.2.1)).getD 0
  let fl := (flagsOf (ws.map (fun x => x.2))) ||| (ps.foldl (fun a p => a ||| p.2.2.2) 0)
  if total = 0x7F800000 then (((ps.find? (fun p => p.2.2.1 == 0x7F800000)).map (fun p => p.1)).getD 0, total, fl)
  else if total = 0 then (0xFFFFFFFF, total, fl)
  else
    let u := sampleUniform (e.cv (ls.headD 0))
    let thr := mulElem .f32 .rne false 0 u.1 total
    let beyond := fun (p : Nat × Nat × Nat × BitVec 5) => (orderElem .f32 p.2.2.1 thr.1).1 == .gt
    let idx := match ps.find? beyond with
      | some p => p.1
      | none => ((ps.reverse.find? (fun p => decide (w p.1 ≠ 0))).map (fun p => p.1)).getD 0
    (idx, total, fl ||| u.2 ||| thr.2)

/-- `sample` (R165): the index in the destination, the total in the register after it. -/
def execSample (x : FormVX) (s : State) : Out :=
  issue (.sample x) s (fun e =>
    let rs := (segStarts e x.seg.toNat).map (fun b => (b, sampleSeg e (segActive e x.seg.toNat b)))
    completeVals e (fpxOr e.s e.id (rs.foldl (fun a r => a ||| r.2.2.2) 0)) e.active (fun l =>
      match rs.find? (fun r => r.1 == segBase x.seg.toNat l) with
      | some r => r.2.1 + 2 ^ 32 * r.2.2.1
      | none => 0))

end Sys2Proof.Machine
end

