-- ==== Sys2Proof/Machine/Control.lean ====
section
/-! DEFINITION. Control: control transfers, retiring lanes, barriers and yielding, format B (R101 to R118). -/

namespace Sys2Proof.Machine

/-! ### Readiness -/

/-- A context can issue, but for its own `yield` (R112, R420). -/
def ctxReady (s : State) (b : Nat) (g : WG) (w : Who) : Bool :=
  mayIssue s { berth := b, who := w } g && !(s.pkg.critical.contains (berthCore b / Config.coresPerDie)) &&
    (match ctxIn g w with
     | none => false
     | some c =>
       !c.ended && c.blocked.isNone && c.taking.isNone &&
         (match w with
          | .pilot => g.pilot.park.isNone
          | .crew n => (headOf s b g n).isSome))

/-- Every context of a core, in round-robin order (R315). -/
def coreCtxs (s : State) (core : Nat) : List CtxId :=
  ((s.wgs.filter (fun x => berthCore x.1 == core)).map (fun x => (whos x.2).map (fun w => { berth := x.1, who := w : CtxId }))).flatten

/-- A context can issue now: it is ready, and every context it yielded to has issued or is no longer ready. -/
def ctxEligible (s : State) (id : CtxId) : Bool :=
  match wgOf s id.berth with
  | none => false
  | some g =>
    ctxReady s id.berth g id.who &&
      (((ctxIn g id.who).map (fun c => c.yields)).getD []).all (fun y =>
        match wgOf s y.berth with
        | some h => !ctxReady s y.berth h y.who
        | none => true)

/-- A workgroup stops issuing and drains, its pair with it (R314, R318); a stopped one only waits for its save. -/
def startDrain (s : State) (b : Nat) : State :=
  modPair s b (fun g => if g.run = .running then { g with run := .draining } else { g with preempt := true })

/-! ### Transfers -/

/-- A trap of an invalid code point that a lane supplied (R101). -/
def targetTrap (detail lane : Nat) (lanes : LaneMask) : PendTrap := { mkTrap 0x03 detail lanes with tlane := BitVec.ofNat 32 lane }

/-- After a completed transfer: the trap that follows completion, if any. -/
def finish (id : CtxId) (s : State) (t : Option PendTrap) : Out := .next (match t with | some p => trapHere s id p | none => s)

/-- Replace the head by entries at valid code points, retire lanes, and note the landings (R101, R104, R108). -/
def crewMove (e : Env) (targets : List (Nat × Word)) (gone : LaneMask) (r : Result) : Out :=
  match targets.find? (fun t => !cixValid t.2.toNat) with
  | some t => .next (trapHere e.s e.id (targetTrap t.2.toNat t.1 e.head.mask))
  | none =>
    let x := retire e e.s r none none
    let rest : FEntry := { cix := BitVec.ofNat 32 (nextCix e.head.cix.toNat), mask := e.head.mask &&& ~~~e.active, park := none }
    let new := rest :: targets.map (fun t => { cix := t.2, mask := (1 : LaneMask) <<< t.1, park := none })
    match frontierEdit x.1 e.id.berth e.crewNo e.head.cix new gone with
    | none => .next (trapHere e.s e.id (openTrap e.s 0x0D e.head.mask))
    | some t =>
      let from_ : DWord := e.head.cix.setWidth 64
      let t := modWg t e.id.berth (fun g => modCrew g e.crewNo (fun c =>
        { c with landings := (targets.map (fun y => y.2)).eraseDups.map (fun y => (y, from_)) ++ c.landings, ctx := { c.ctx with line := none } }))
      finish e.id (if gone = 0 then t else afterRetire t e.id.berth e.crewNo) x.2

/-- A relative crew transfer of the active lanes (R66, R108). A target outside the range of R66 has no code index: the detail word holds the index
untruncated, as a 64-bit two's complement number (log 65). -/
def crewBranch (e : Env) (imm : Word) (r : Result) : Out :=
  let t := relCix e.head.cix.toNat imm
  if t < 8 || (2 ^ 32 : Int) ≤ t then .next (trapHere e.s e.id (targetTrap (lowBits 64 t) e.first e.head.mask))
  else crewMove e (e.lanes.map (fun l => (l, BitVec.ofInt 32 t))) 0 r

/-- A pilot transfer (R101, R113). -/
def pilotMove (e : Env) (t : Nat) (r : Result) : Out :=
  if !pcValid t then .next (trapHere e.s e.id (mkTrap 0x03 t 0))
  else
    let x := retire e e.s r none none
    finish e.id (modWg x.1 e.id.berth (fun g =>
      { g with pilot := { g.pilot with pc := BitVec.ofNat 64 t, landing := some e.g.pilot.pc, ctx := { g.pilot.ctx with line := none } } })) x.2

/-- `bra` (R108). -/
def execBra (x : FormB) (s : State) : Out := issue (.bra x) s (fun e => crewBranch e x.imm Result.none)
/-- `bru` (R111): `bra` with a claim about its cost. -/
def execBru (x : FormB) (s : State) : Out := issue (.bru x) s (fun e => crewBranch e x.imm Result.none)
/-- `brx` (R108). -/
def execBrx (x : FormB) (s : State) : Out :=
  issue (.brx x) s (fun e => crewMove e (e.lanes.map (fun l => (l, BitVec.ofNat 32 (e.av l)))) 0 Result.none)
/-- `call` (R108): the link goes to `v223`. -/
def execCall (x : FormB) (s : State) : Out :=
  issue (.call x) s (fun e =>
    let link := BitVec.ofNat 32 (nextCix e.head.cix.toNat)
    crewBranch e x.imm { Result.none with vec := [{ name := 223, mask := e.active, words := lanes (fun _ => link) }] })
/-- `ret` (R108, R109). -/
def execRet (x : FormB) (s : State) : Out :=
  issue (.ret x) s (fun e =>
    let links := (e.crew?.map (fun c => regWords c 223)).getD []
    let back := e.lanes.filter (fun l => decide (laneWord links l ≠ 0))
    crewMove e (back.map (fun l => (l, laneWord links l))) (e.active &&& maskOf (fun l => laneWord links l == 0)) Result.none)

/-- The pilot ends (R114). -/
def endPilot (s : State) (b : Nat) : State :=
  settleBarriers (modWg s b (fun g =>
    let g := commitAll g .pilot
    { g with pilot := { g.pilot with ctx := { g.pilot.ctx with ended := true, blocked := none } } })) b

/-- `exit` (R110, R114). -/
def execExit (x : FormB) (s : State) : Out :=
  issue (.exit x) s (fun e =>
    match e.k with
    | .crew => crewMove e [] e.active Result.none
    | .pilot =>
      let y := retire e e.s Result.none none none
      .next (endPilot y.1 e.id.berth))

/-- `yield` (R112). -/
def execYield (x : FormB) (s : State) : Out :=
  issue (.yield x) s (fun e =>
    let others := (coreCtxs e.s (berthCore e.id.berth)).filter (fun y =>
      decide (y ≠ e.id) && (match wgOf e.s y.berth with | some h => ctxReady e.s y.berth h y.who | none => false))
    let y := retire e e.s Result.none none none
    let t := modCtx (advance e y.1) e.id (fun c => { c with yields := others })
    finish e.id (if e.g.preempt then startDrain t e.id.berth else t) y.2)

/-- Park the issuer at a barrier or checkpoint (R116, R137). -/
def arrive (e : Env) (at_ : Park) : Out :=
  let y := retire e e.s Result.none none none
  let t := match e.id.who with
    | .pilot => modWg y.1 e.id.berth (fun g => { g with pilot := { g.pilot with park := some at_ } })
    | .crew n => (frontierEdit y.1 e.id.berth n e.head.cix [{ e.head with park := some at_ }] 0).getD y.1
  finish e.id (settleBarriers t e.id.berth) y.2

/-- `bsync` (R115 to R117). -/
def execBsync (x : FormB) (s : State) : Out := issue (.bsync x) s (fun e => arrive e (.barrier (bits x.imm 3 0)))

/-- `sbr` (R113). -/
def execSbr (x : FormB) (s : State) : Out := issue (.sbr x) s (fun e => pilotMove e (relPc e.g.pilot.pc.toNat x.imm) Result.none)
/-- `sbrx` (R113). -/
def execSbrx (x : FormB) (s : State) : Out := issue (.sbrx x) s (fun e => pilotMove e (e.av 0) Result.none)
/-- `scall` (R113). -/
def execScall (x : FormB) (s : State) : Out :=
  issue (.scall x) s (fun e =>
    pilotMove e (relPc e.g.pilot.pc.toNat x.imm)
      { Result.none with scalar := some (x.dst.toNat, BitVec.ofNat 64 (nextPc e.g.pilot.pc.toNat)) })
/-- `sret` (R113). -/
def execSret (x : FormB) (s : State) : Out := issue (.sret x) s (fun e => pilotMove e (e.av 0) Result.none)
/-- `loop` (R113). -/
def execLoop (x : FormB) (s : State) : Out :=
  issue (.loop x) s (fun e =>
    let a := e.av 0
    let r : Result := { Result.none with scalar := some (x.sa.toNat, BitVec.ofNat 64 (a - 1)) }
    if 2 ≤ a then pilotMove e (relPc e.g.pilot.pc.toNat x.imm) r else complete e e.s r none none)

end Sys2Proof.Machine
end

