-- ==== Sys2Proof/Machine/LoadStore.lean ====
section
/-! DEFINITION. LoadStore: loads and stores (R169 to R176), atomics and fences (R177 to R181), waiting on memory (R120 to R123). -/

namespace Sys2Proof.Machine

/-- Bytes of one access. -/
def accWidth (t : Ty) : Nat := t.width / 8

/-- The value a load gives a register (R172). -/
def extendLoad (k : CtxKind) (t : Ty) (bs : List Byte) : Nat :=
  if t.signed && t.isInt then lowBits (if k == .pilot then 64 else max 32 t.width) (signedOf t.width (leNat bs)) else leNat bs

/-- The lanes' addresses: base, offset, and an index scaled by the width (R171). -/
def addresses (e : Env) (off : Int) (index : Option (Nat → Nat)) (w : Nat) : List (Nat × Int) :=
  e.lanes.map (fun l => (l, (e.av l : Int) + off + (match index with | some f => signedOf 32 (f l) * w | none => 0)))

/-- Complete a load of an address in every active lane. -/
def loadLanes (e : Env) (quay : Bool) (as_ : List (Nat × Int)) (t : Ty) : Out :=
  let w := accWidth t
  let c := checkAccess e.s e.id e.g quay as_ w true false
  match accessStop e e.s false c with
  | some s => .next s
  | none =>
    match c with
    | .remote xs => .next (sendReads e.s e.id w xs)
    | .ok xs =>
      let vals := xs.map (fun x => (x.lane, extendLoad e.k t (accRead e.s e.id e.g x w)))
      completeVals e (fillTlb e.s e.id e.g xs) e.active (fun l => ((vals.find? (fun v => v.1 == l)).map (fun v => v.2)).getD 0)
    | _ => .next e.s

/-- The other copy's context waits at this same store for the countersign trap of a full area (R335). -/
def peerFull (e : Env) : Bool :=
  match e.g.peer.bind (fun p => ctxOf e.s { berth := p, who := e.id.who }), ctxIn e.g e.id.who with
  | some y, some c => decide (y.blocked = some .area) && y.slack == c.slack
  | _, _ => false

/-- Stores released themselves, for want of a record, need requests that their core has not free (R176, R278). -/
def requestsShort (e : Env) (xs : List (LaneAcc × List Byte)) : Option State :=
  let r := makeRoom e.s e.id e.g (xs.filter (fun x => !signedStore e.g x.1))
  let away := remoteLines ((xs.map (fun x => x.1)).filter (fun x => x.isRemote && !remoteSent e.s e.id x.lane))
  if r.2 && decide (Config.requestsPerCore < outstanding r.1 (berthCore e.id.berth) + away.length) then some (block r.1 e.id (.remote 1)) else none

/-- What holds a store whose addresses are good (R321, R330, R335). -/
def storeHold (e : Env) (xs : List (LaneAcc × List Byte)) : Option State :=
  let n := (xs.filter (fun x => signedStore e.g x.1)).length
  if stagingFull e.s e.id.berth e.g xs then some (block e.s e.id .staging)
  else if isDup e.g && slackFull e.s e.id e.g then some (block e.s e.id .slack)
  else if 0 < n && (peerFull e || !countersignRoom e.s e.id.berth e.g n) then some (block e.s e.id .area)
  else requestsShort e xs

/-- The accesses of lanes that have a place, in lane order. -/
def foundAccs (e : Env) (quay : Bool) (as_ : List (Nat × Int)) (w : Nat) : List LaneAcc :=
  as_.filterMap (fun x => (found e.s e.id.berth e.g true (placed e.s e.id.berth e.g quay w x)).map (fun y => y.acc))

/-- The head of a DET launch stores line by line, in the order of the lines' first lanes, each performed at system scope before the next (R257): up
to a line of another package, whose answer is waited for. -/
def linesInOrder (id : CtxId) (w : Nat) (ws : List (LaneAcc × List Byte)) : List Nat → State → State
  | [], s => s
  | k :: ks, s =>
    let here := ws.filter (fun x => x.1.ea / 64 == k && !remoteSent s id x.1.lane)
    if here.isEmpty then linesInOrder id w ws ks s
    else if here.any (fun x => x.1.isRemote) then sendWrites s id here
    else linesInOrder id w ws ks (here.foldl (fun s x => noteDone s id x.1.lane []) (storeAll s id w here))

/-- Complete a store of each active lane's data. -/
def storeLanes (e : Env) (quay : Bool) (as_ : List (Nat × Int)) (t : Ty) (data : Nat → Nat) : Out :=
  let w := accWidth t
  let c := checkAccess e.s e.id e.g quay as_ w false true
  match accessStop e e.s true c with
  | some s => .next s
  | none =>
    match c with
    | .remote xs =>
      let bytes := fun (xs : List LaneAcc) => xs.map (fun x => (x, natLe w (data x.lane)))
      if isDet e.g then
        let all := foundAccs e quay as_ w
        .next (linesInOrder e.id w (bytes all) ((all.map (fun x => x.ea / 64)).eraseDups) e.s)
      else .next (sendWrites e.s e.id (bytes xs))
    | .ok xs =>
      let ws := (xs.filter (fun x => x.isRemote || !remoteSent e.s e.id x.lane)).map (fun x => (x, natLe w (data x.lane)))
      match storeHold e ws with
      | some s => .next s
      | none => completeNone e (storeAll (fillTlb e.s e.id e.g xs) e.id w ws)
    | _ => .next e.s

/-- `ld` (R173). -/
def execLd (x : FormM) (s : State) : Out :=
  issue (.ld x) s (fun e => loadLanes e x.quay (addresses e (offsetOf e.i) none (accWidth x.ty)) x.ty)
/-- `st` (R173). -/
def execSt (x : FormM) (s : State) : Out :=
  issue (.st x) s (fun e => storeLanes e x.quay (addresses e (offsetOf e.i) none (accWidth x.ty)) x.ty e.bv)
/-- `ldx` (R173). -/
def execLdx (x : FormM) (s : State) : Out :=
  issue (.ldx x) s (fun e => loadLanes e x.quay (addresses e (offsetOf e.i) (some e.bv) (accWidth x.ty)) x.ty)
/-- `stx` (R173). -/
def execStx (x : FormM) (s : State) : Out :=
  issue (.stx x) s (fun e => storeLanes e x.quay (addresses e (offsetOf e.i) (some e.cv) (accWidth x.ty)) x.ty e.bv)

/-! ### Atomics (R177 to R181) -/

/-- An access of the instruction passes countersign: it leaves the copy's own window (R329). -/
def leavesWindow (xs : List LaneAcc) : Bool := xs.any (fun x => !x.own)

/-- A Quay access outside the issuer's window, which DET holds until the workgroup is the head (R325) with what it released before drained
(R179). -/
def headOnly (b : Nat) (g : WG) (s : State) (xs : List LaneAcc) : Bool :=
  isDet g && xs.any (fun x => x.va.isNone && !x.own) && !headDrained s (leadBerth b g) g

/-- The berth that keeps the staged stores of a workgroup under IDEM alone, whose atomics act at once (R181). -/
def idemBerth (s : State) (id : CtxId) : Option Nat :=
  (wgOf s id.berth).bind (fun g => if isIdem g && !isDet g then some (leadBerth id.berth g) else none)

/-- A staged store touches bytes of an access. -/
def stagedOver (rs : List StageRec) (va w : Nat) : Bool := (List.range w).any (fun k => (stagedByte rs (va + k)).isSome)

/-- One read-modify-write of each lane in lane order: lane, old value. -/
def rmwLanes (t : Ty) (f : Nat → Nat → Nat) : List LaneAcc → State → List (Nat × Nat) × State
  | [], s => ([], s)
  | x :: xs, s =>
    let r := rmwAt s x.loc t (f x.lane)
    let rest := rmwLanes t f xs r.2
    ((x.lane, r.1) :: rest.1, rest.2)

/-- Updates in lane order up to one in another package, each performed before the next is issued (R178, R250): `act` performs one here, `send` sends
one. What has been performed stays noted while the instruction waits for an answer, or for a free request (R176). -/
def lanesInOrder (id : CtxId) (act : LaneAcc → State → Nat × State) (send : LaneAcc → State → State) : List LaneAcc → State → State
  | [], s => s
  | x :: xs, s =>
    if x.isRemote then
      if remoteSent s id x.lane then block s id (.remote 0)
      else if requestRoom s (berthCore id.berth) then block (send x s) id (.remote 0)
      else block s id (.remote 1)
    else
      let r := act x s
      lanesInOrder id act send xs (noteDone r.2 id x.lane (natLe 8 r.1))

/-- Lanes of an instruction whose update has been performed. -/
def lanesDone (s : State) (id : CtxId) (as_ : List (Nat × Int)) : List (Nat × Nat) :=
  as_.filterMap (fun x => (remoteAnswer s id x.1).bind (fun a => a.map (fun bs => (x.1, leNat bs))))

/-- Lanes of an instruction still to be updated. -/
def lanesLeft (s : State) (id : CtxId) (as_ : List (Nat × Int)) : List (Nat × Int) :=
  as_.filter (fun x => !((remoteAnswer s id x.1).any (fun a => a.isSome)))

/-- An atomic follows the stores to its bytes that the workgroup has staged under IDEM alone: the workgroup's stores go out first (R176). Where one
of its own cannot go out yet, for want of a free request, the instruction waits; the second value is false. -/
def flushOver (s : State) (id : CtxId) (xs : List LaneAcc) (w : Nat) : State × Bool :=
  match idemBerth s id with
  | some lb =>
    let meets := fun (s : State) => xs.any (fun x => x.va.any (fun va => stagedOver (((wgOf s lb).map (fun g => g.staging)).getD []) va w))
    if meets s then let t := flushStaging s lb; (t, !meets t) else (s, true)
  | none => (s, true)

/-- An atomic acts once its workgroup's own staged stores to its bytes are out. -/
def afterFlush (e : Env) (xs : List LaneAcc) (w : Nat) (act : State → Out) : Out :=
  let r := flushOver e.s e.id xs w
  if r.2 then act r.1 else .next (block r.1 e.id (.remote 1))

/-- A staging record for each lane, in lane order, in the leading copy's staging (R321): the last record and the state. -/
def stageLanes (e : Env) (s : State) (ops : List (Nat × StageOp)) : Option Nat × State :=
  let lb := leadBerth e.id.berth e.g
  let s := modWg s lb (fun g => ops.foldl (fun g o => stageOp g e.id.who o.1 (pointOf e.s e.id) o.2) g)
  ((wgOf s lb).map (fun g => g.nextRec - 1), s)

/-- The records an instruction needs do not fit the area. -/
def areaFull (e : Env) (n : Nat) : Bool := decide (stagingCap < stagedOn e.s (berthCore (leadBerth e.id.berth e.g)) + n)

/-- The code of a type (R73). -/
def tyCode (t : Ty) : Nat := ((List.range 21).find? (fun k => tyOfCode k == some t)).getD 0

/-- An effect of partition or system scope waits until other packages have acknowledged the workgroup's earlier writes: only then are those
performed at that scope (R249, R250, R258). -/
def awaitAcks (e : Env) (act : Out) : Out := if unacked e.s e.g.lid e.g.wgix then .next (block e.s e.id (.remote 1)) else act

/-- The same of an effect with a scope field, at partition scope or wider. -/
def awaitScope (e : Env) (x : FormM) (act : Out) : Out := if 3 ≤ scopeOf x then awaitAcks e act else act

/-- An effect at whose instant the issuer's earlier stores are performed at system scope (R255, R281): under IDEM alone its staged ones go out first
(log 20), and other packages acknowledge theirs. A store that cannot go out holds the instruction as an access to its page would. -/
def storesOut (e : Env) (act : State → Out) : Out :=
  let lb := leadBerth e.id.berth e.g
  let mine := fun (s : State) => if isDet e.g then none else (((wgOf s lb).map (fun g => g.staging)).getD []).find? (fun r => r.of e.id.who)
  let t := if (mine e.s).isSome then flushStaging e.s lb else e.s
  match mine t with
  | some r =>
    let va := match r.op with | .store l _ => l.toNat | _ => 0
    if pageHeld t e.g.lid (asidOf e.g) va then .next (rebuildHold t e.id (va / pageSize) va e.head.mask)
    else if noRequest t (berthCore lb) (asidOf e.g) va then .next (block t e.id (.remote 1))
    else .next (threadFault t e.id va e.head.mask true false)
  | none => if unacked t e.g.lid e.g.wgix then .next (block t e.id (.remote 1)) else act t

/-- What one lane of `atom` or `cas` makes of the old value (R178); `cas` compares the bytes of its type (R170). -/
def atomFun (e : Env) (t : Ty) (aop : BitVec 4) (cas : Bool) (l old : Nat) : Nat :=
  if cas then casOp (e.cv l % 2 ^ t.width) (e.bv l) old else atomOp aop.toNat t old (e.bv l)

/-- Values of lanes as a load gives them to registers. -/
def laneValue (e : Env) (t : Ty) (vs : List (Nat × Nat)) (l : Nat) : Nat :=
  ((vs.find? (fun v => v.1 == l)).map (fun v => extendLoad e.k t (natLe (accWidth t) v.2))).getD 0

/-- The accesses of lanes in the issuer's own window. -/
def ownAccs (e : Env) (quay : Bool) (as_ : List (Nat × Int)) (w : Nat) : List LaneAcc := (foundAccs e quay as_ w).filter (fun x => x.own)

/-- The frame of one lane's update in another package (log 17). -/
def sendRmw (e : Env) (t : Ty) (aop : BitVec 4) (cas : Bool) (x : LaneAcc) (s : State) : State :=
  let w := accWidth t
  (remoteSend s (some e.id) x.lane 4 x.rpa w (aop.toNat + 2 ^ 8 * tyCode t) (natLe w (e.bv x.lane) ++ (if cas then natLe w (e.cv x.lane) else []))).2

/-- Perform, stage or send an atomic instruction (R178, R181), once the accesses its scope orders before it are performed (R250). A lane in the
issuer's own window is performed at once, by each copy of a pair (R325). -/
def atomLanes (e : Env) (x : FormM) (as_ : List (Nat × Int)) (aop : BitVec 4) (cas : Bool) : Out :=
  let t := x.ty
  let w := accWidth t
  let done := lanesDone e.s e.id as_
  let left := lanesLeft e.s e.id as_
  let c := checkAccess e.s e.id e.g x.quay left w true true
  match accessStop e e.s true c with
  | some s => .next s
  | none =>
    let act := fun (y : LaneAcc) (s : State) => rmwAt s y.loc t (atomFun e t aop cas y.lane)
    let perform := fun (e : Env) =>
      match c with
      | .remote _ =>
        let xs := foundAccs e x.quay left w
        afterFlush e xs w (fun s => .next (lanesInOrder e.id act (sendRmw e t aop cas) xs s))
      | .ok xs =>
        let s := fillTlb e.s e.id e.g xs
        let staged := if done.isEmpty then xs.filter (fun x => stagedRmw e.s e.id.berth e.g x) else []
        if !staged.isEmpty then
          if 240 ≤ e.f.dst.toNat then .next (block e.s e.id .releaseHead)
          else if areaFull e staged.length then .next (block e.s e.id .staging)
          else
            let r := rmwLanes t (atomFun e t aop cas) (xs.filter (fun x => x.va.isNone)) s
            let st := stageLanes e r.2 (staged.map (fun x =>
              (x.lane, .atom (BitVec.ofNat 64 x.ea) aop t (BitVec.ofNat 64 (e.bv x.lane)) (if cas then some (BitVec.ofNat 64 (e.cv x.lane)) else none))))
            complete e st.2 (dstResult e e.active (laneValue e t r.1)) none st.1
        else
          afterFlush { e with s := s } xs w (fun s =>
            let r := rmwLanes t (atomFun e t aop cas) xs s
            completeVals e r.2 e.active (laneValue e t (done ++ r.1)))
      | _ => .next e.s
    let acts := fun (e : Env) => awaitScope e x (perform e)
    let points := fun (_ : Unit) =>
      match (ctxIn e.g e.id.who).bind (fun c => c.copied) with
      | some got => complete e (rmwLanes t (atomFun e t aop cas) (ownAccs e x.quay as_ w) e.s).2 got.res got.push got.waits
      | none => countersigned e acts
    match c with
    | .ok xs =>
      if headOnly e.id.berth e.g e.s xs then .next (block e.s e.id .releaseHead) else if leavesWindow xs then points () else acts e
    | _ => points ()

/-- `atom` (R178). -/
def execAtom (x : FormM) (s : State) : Out :=
  issue (.atom x) s (fun e => atomLanes e x (addresses e (offsetOf e.i) none 0) (BitVec.ofNat 4 (aopOf x)) false)
/-- `cas` (R178). -/
def execCas (x : FormM) (s : State) : Out :=
  issue (.cas x) s (fun e => atomLanes e x (addresses e (offsetOf e.i) none 0) 0 true)

/-- `fence` (R180): the model performs accesses in order, so the instruction only goes on; at partition and system scope it is a
countersign point (R332) and waits for the acknowledgements of other packages (R249, R253, R258). A crew fence with no active lane orders as any
other. -/
def execFence (x : FormM) (s : State) : Out :=
  issue (.fence x) s (fun e =>
    let act := fun (e : Env) => awaitScope e x (completeNone e e.s)
    if scopeOf x = 3 || scopeOf x = 4 then countersigned e act else act e)

/-! ### `await` (R120 to R123) -/

/-- `await`: every active lane's word satisfies its comparison, or the context blocks with no effect. -/
def execAwait (x : FormQ) (s : State) : Out :=
  issue (.await x) s (fun e =>
    let w := accWidth x.ty
    let quay := bitAt x.sub 0
    let c := checkAccess e.s e.id e.g quay (addresses e 0 none w) w true false
    match accessStop e e.s false c with
    | some s => .next s
    | none =>
      match c with
      | .remote xs => .next (sendReads e.s e.id w xs)
      | .ok xs => budgetLate e <|
        let vals := xs.map (fun y => (y.lane, leNat (accRead e.s e.id e.g y w)))
        let cmp := fun (v : Nat × Nat) => condHolds (bits x.imm 3 0) (orderElem x.ty (v.2 % 2 ^ x.ty.width) (e.bv v.1 % 2 ^ x.ty.width)).1
        if vals.all cmp then
          completeVals e (fillTlb e.s e.id e.g xs) e.active (fun l =>
            ((vals.find? (fun v => v.1 == l)).map (fun v => extendLoad e.k x.ty (natLe w v.2))).getD 0)
        else .next (block (dropRemote e.s e.id) e.id .await)
      | _ => .next e.s)

end Sys2Proof.Machine
end

