-- ==== Sys2Proof/Machine/Hash.lean ====
section
/-! DEFINITION. Hash: hash accumulation (R182 to R186). -/

namespace Sys2Proof.Machine

/-- `TOFF` (R183). -/
def tToff (d : BitVec 512) : Int := signedOf 21 (bits d 20 0)
/-- `LCAP`. -/
def tLcap (d : BitVec 512) : Nat := bits d 27 24
/-- Probes of the Quay level. -/
def tProbes (d : BitVec 512) : Nat := bits d 30 28 + 1
/-- `OVM`. -/
def tOvm (d : BitVec 512) : Bool := bitAt d 31
/-- `CHBASE`. -/
def tChbase (d : BitVec 512) : Nat := bits d 127 64
/-- `CLCAP`. -/
def tClcap (d : BitVec 512) : Nat := bits d 136 132
/-- Probes of the chain. -/
def tCprobes (d : BitVec 512) : Nat := bits d 139 137 + 1

/-- The descriptor is invalid (R184). -/
def tableBad (d : BitVec 512) (key : Nat) : Bool :=
  let start : Int := (key % 2 ^ 20 : Nat) + tToff d
  decide (bits d 23 21 ≠ 0) || decide (bits d 131 128 ≠ 0) || decide (bits d 159 140 ≠ 0) || decide (bits d 511 224 ≠ 0)
    || decide (tLcap d < 4) || decide (16 < tLcap d)
    || (tOvm d && (decide (tChbase d = 0) || decide (tChbase d % 64 ≠ 0) || decide (tClcap d < 4) || decide (28 < tClcap d)))
    || (!tOvm d && (decide (tChbase d ≠ 0) || decide (tClcap d ≠ 0) || decide (bits d 139 137 ≠ 0)))
    || decide (tToff d % 64 ≠ 0) || decide (start < 0) || decide ((2 ^ 20 : Int) < start + (8 * 2 ^ tLcap d : Nat))

/-- The home slot of a key (R184). -/
def homeSlot (k cap : Nat) : Nat := k * 0x9E3779B1 % 2 ^ 32 / 2 ^ (32 - cap)

/-- What a probe of one level finds. -/
inductive Probe where
  | hit (slot : Nat)
  | insert (slot : Nat)
  | miss

/-- Probe the slots of the home line in order: `slotKey` reads a slot's key. -/
def probeGo (k home : Nat) (slotKey : Nat → Nat) : Nat → Nat → Probe
  | 0, _ => .miss
  | n + 1, i =>
    let slot := home / 8 * 8 + (home + i) % 8
    if slotKey slot = k then .hit slot
    else if slotKey slot = 0xFFFFFFFF then .insert slot
    else probeGo k home slotKey n (i + 1)

/-- Add to a 32-bit field of the descriptor. -/
def tableCount (s : State) (key off : Nat) (sat : Bool) : State :=
  let v := cellsNat s.quay (key + off) 4
  { s with quay := cellsWriteN s.quay (key + off) (natLe 4 (if sat then min 0xFFFFFFFF (v + 1) else v + 1)) }

/-- Apply a probe's outcome to a slot. -/
def slotApply (s : State) (l : Loc) (isHit : Bool) (aop : Nat) (t : Ty) (k v : Nat) : State :=
  if isHit then locWrite s (locAdd l 4) (natLe 4 (atomOp aop t (leNat (locRead s (locAdd l 4) 4)) v))
  else locWrite s l (natLe 4 k ++ natLe 4 v)

/-- One lane's step: its status and the state after it, or what stops the instruction; `chained`: it reached the chain table. -/
inductive LaneStep where
  | done (status : Nat) (chained : Bool) (s : State)
  | stop (s : State)

/-- How chain steps are made: at once; in staging records (R181); or as the leading copy made them, those of a mask still staged (R332). -/
inductive ChainMode where
  | now
  | stage
  | given (status : Nat → Nat) (staged : LaneMask)

/-- One chain step on the slots of a line, from a descriptor (R184): what its probe finds and the state after it. -/
def chainProbe (s : State) (at_ : Nat → Loc) (d : BitVec 512) (aop : Nat) (t : Ty) (k v : Nat) : Probe × State :=
  let p := probeGo k (homeSlot k (tClcap d)) (fun slot => leNat (locRead s (at_ slot) 4)) (tCprobes d) 0
  (p, match p with
    | .hit slot => slotApply s (at_ slot) true aop t k v
    | .insert slot => slotApply s (at_ slot) false aop t k v
    | .miss => s)

/-- The line of the chain table that a key probes. -/
def chainLine (d : BitVec 512) (k : Nat) : Nat := (tChbase d + 8 * (homeSlot k (tClcap d) / 8 * 8)) % 2 ^ 64

/-- The status word of a chain step (R185), from the home slot of the Quay level. The word is cut to 32 bits where it is written, so that of a slot index
of up to 28 bits the low 24 are kept (DESIGN CHOICE, log 65). -/
def chainStatus (p : Probe) (home : Nat) : Nat :=
  match p with
  | .hit slot => 2 + 2 ^ 8 * slot
  | .insert slot => 3 + 2 ^ 8 * slot
  | .miss => 4 + 2 ^ 8 * home

/-- The count that a chain step with a status adds to in its descriptor (R183): occupied chain slots, or refused lanes. -/
def chainCount (s : State) (key status : Nat) : State :=
  if status % 256 = 3 then tableCount s key 20 false else if status % 256 = 4 then tableCount s key 24 true else s

/-- The chain step of a lane (R184). -/
def chainStep (e : Env) (s : State) (key : Nat) (d : BitVec 512) (aop : Nat) (t : Ty) (l home : Nat) (m : ChainMode) : LaneStep :=
  let k := e.cv l
  match m with
  | .given st staged => if bitAt staged l then .done (4 + 2 ^ 8 * home) true s else .done (st l) true (chainCount s key (st l))
  | _ =>
    let line := chainLine d k
    if !isGlobal line then .stop (trapHere e.s e.id (mkTrap 0x0A line ((1 : LaneMask) <<< l)))
    else
      let c := checkAccess s e.id e.g false [(l, (line : Int))] 64 true true
      match accessStop e e.s true c with
      | some t => .stop t
      | none =>
        match c, m with
        | .ok _, .stage =>
          let win := if ownWindow e.id.berth e.g key then some (key % 2 ^ 20 - e.g.wbase) else none
          .done (4 + 2 ^ 8 * home) true (stageLanes e s
            [(l, .hacc key win d (BitVec.ofNat 4 aop) t (BitVec.ofNat 32 k) (BitVec.ofNat 32 (e.bv l)))]).2
        | .ok (x :: _), _ =>
          let flushed := flushOver s e.id [x] 64
          if !flushed.2 then .stop (block (flushOver e.s e.id [x] 64).1 e.id (.remote 1)) else
          let r := chainProbe flushed.1 (fun slot => locAdd x.loc (8 * (slot % 8))) d aop t k (e.bv l)
          .done (chainStatus r.1 home) true (chainCount r.2 key (chainStatus r.1 home))
        | _, _ => .stop (trapHere e.s e.id (mkTrap 0x0A line ((1 : LaneMask) <<< l)))

/-- One lane of `hacc` (R184, R185). -/
def hashLane (e : Env) (s : State) (key : Nat) (aop : Nat) (t : Ty) (l : Nat) (m : ChainMode) : LaneStep :=
  let d := descAt s key
  let k := e.cv l
  if tableBad d key then .done 6 false s
  else if k = 0xFFFFFFFF then .done 5 false s
  else
    let home := homeSlot k (tLcap d)
    let slotAt := fun (slot : Nat) => offKey key (tToff d) + 8 * slot
    let line := slotAt (home / 8 * 8)
    if engOwned s line then .done (7 + 2 ^ 8 * home) false s
    else if locBad s (.quay line) then .stop (poppedPoison e.s e.id e.g line ((1 : LaneMask) <<< l))
    else
      match probeGo k home (fun slot => cellsNat s.quay (slotAt slot) 4) (tProbes d) 0 with
      | .hit slot => .done (2 ^ 8 * slot) false (slotApply s (.quay (slotAt slot)) true aop t k (e.bv l))
      | .insert slot => .done (1 + 2 ^ 8 * slot) false (tableCount (slotApply s (.quay (slotAt slot)) false aop t k (e.bv l)) key 4 false)
      | .miss =>
        if tOvm d then chainStep e s key d aop t l home m
        else .done (4 + 2 ^ 8 * home) false (tableCount s key 24 true)

/-- What all lanes give: the stopped state, or statuses by lane, the lanes that reached the chain table, the state. -/
inductive HashRun where
  | stop (s : State)
  | ok (status : List (Nat × Nat)) (chained : LaneMask) (s : State)

/-- The lanes in order. -/
def hashRun (e : Env) (aop : Nat) (t : Ty) (m : ChainMode) : List (Nat × Nat) → State → HashRun
  | [], s => .ok [] 0 s
  | (l, key) :: rest, s =>
    match hashLane e s key aop t l m with
    | .stop s => .stop s
    | .done st ch s =>
      match hashRun e aop t m rest s with
      | .stop s => .stop s
      | .ok sts chs s => .ok ((l, st) :: sts) (if ch then chs ||| lanesOf [l] else chs) s

/-- `TDETAIL` of the hash-overflow trap (R185): the lowest overflowing lane, its `OVM`, the number of such lanes, its key. -/
def overflowDetail (lane : Nat) (ovm : Bool) (count key : Nat) : Nat := lane + 2 ^ 7 * ovm.toNat + 2 ^ 8 * count + 2 ^ 32 * key

/-- Complete with the statuses, and the hash-overflow trap of R185. -/
def hashComplete (e : Env) (keys sts : List (Nat × Nat)) (s : State) : Out :=
  let val := fun (l : Nat) => ((sts.find? (fun x => x.1 == l)).map (fun x => x.2)).getD 0
  let overflowed := sts.filter (fun x => x.2 % 256 == 4)
  match overflowed with
  | [] => completeVals e s e.active val
  | x :: _ =>
    let ovm := ((keys.find? (fun y => y.1 == x.1)).map (fun y => tOvm (descAt s y.2))).getD false
    completeTrap e s (dstResult e e.active val) (dstEntry e val)
      (mkTrap 0x0F (overflowDetail x.1 ovm overflowed.length (e.cv x.1)) e.head.mask)

/-- Complete with chain steps in staging records: the status words of those lanes follow at their release, and the trap of R185 with the
last. -/
def hashStaged (e : Env) (sts : List (Nat × Nat)) (staged : LaneMask) (waits : Option Nat) (s : State) : Out :=
  let val := fun (l : Nat) => ((sts.find? (fun x => x.1 == l)).map (fun x => x.2)).getD 0
  complete e s { dstResult e e.active val with chain := some { mask := e.head.mask, staged := staged, keys := e.lanes.map (fun l => (l, e.cv l)) } } none waits

/-- The status a lane received from the leading copy. -/
def givenStatus (r : Result) (push : Option QEntry) (l : Nat) : Nat :=
  match r.vec, push with
  | v :: _, _ => (laneWord v.words l).toNat
  | [], some q => entryWord q.bytes l
  | [], none => 0

/-- A trailing copy's `hacc`: its own Quay-level steps on tables of its own window, and the leading copy's steps otherwise (R181, R332). -/
def hashCopied (e : Env) (aop : Nat) (t : Ty) (keys : List (Nat × Nat)) (got : Shared) : Out :=
  let given := givenStatus got.res got.push
  let staged := (got.res.chain.map (fun c => c.staged)).getD 0
  match hashRun e aop t (.given given staged) (keys.filter (fun k => ownWindow e.id.berth e.g k.2)) e.s with
  | .stop t => .next t
  | .ok own _ t =>
    let sts := keys.map (fun k => (k.1, ((own.find? (fun x => x.1 == k.1)).map (fun x => x.2)).getD (given k.1)))
    if got.waits.isSome then hashStaged e sts staged got.waits t else hashComplete e keys sts t

/-- Perform an `hacc` whose lanes' chain steps are known: at once, or staged until the release head (R181, R321). -/
def hashPerform (e : Env) (aop : Nat) (t : Ty) (keys sts : List (Nat × Nat)) (stage : Bool) (done : State) : Out :=
  if stage then
    match hashRun e aop t .stage keys e.s with
    | .stop t => .next t
    | .ok sts chs t => hashStaged e sts chs ((wgOf t (leadBerth e.id.berth e.g)).map (fun g => g.nextRec - 1)) t
  else hashComplete e keys sts done

/-- `hacc` (R182 to R186): under DET its chain steps are staged, and Quay steps outside the window wait for the release head; under DUP they
are performed once, and each copy makes the Quay-level steps of its own window. -/
def execHacc (x : FormM) (s : State) : Out :=
  issue (.hacc x) s (fun e =>
    let as_ := addresses e (offsetOf e.i) none 0
    let ps := (as_.map (placed e.s e.id.berth e.g x.quay 64)).map (fun p =>
      match p.place with
      | .ok (.global _) => { p with place := .error 0x0A }
      | _ => p)
    match placeTrap ps with
    | some t => .next (trapHere e.s e.id t)
    | none =>
      let keys := ps.filterMap (fun p => match p.place with | .ok (.quay k) => some (p.lane, k) | _ => none)
      let own := keys.all (fun k => ownWindow e.id.berth e.g k.2)
      match keys.find? (fun k => locBad e.s (.quay k.2)) with
      | some k => .next (poppedPoison e.s e.id e.g k.2 ((1 : LaneMask) <<< k.1))
      | none =>
        let drained := headDrained e.s (leadBerth e.id.berth e.g) e.g
        match (ctxIn e.g e.id.who).bind (fun c => c.copied) with
        | some got => hashCopied e (aopOf x) x.ty keys got
        | none =>
          if isDet e.g && !own && !drained then .next (block e.s e.id .releaseHead)
          else
            match hashRun e (aopOf x) x.ty .now keys e.s with
            | .stop t => .next t
            | .ok sts chs t =>
              let stage := isDet e.g && decide (chs ≠ 0) && !drained
              if stage && decide (240 ≤ e.f.dst.toNat) then .next (block e.s e.id .releaseHead)
              else if stage && areaFull e (laneList chs).length then .next (block e.s e.id .staging)
              else
                let act := fun (e : Env) => hashPerform e (aopOf x) x.ty keys sts stage t
                if isDup e.g && (decide (chs ≠ 0) || !own) then countersigned e (fun e => awaitScope e x (act e)) else awaitScope e x (act e))

end Sys2Proof.Machine
end

