-- ==== Sys2Proof/Machine/Pigeonhole.lean ====
section
/-! DEFINITION. Pigeonhole: queue instructions (R187 to R197), tile ownership (R199) and tag waits (R201, R202). -/

namespace Sys2Proof.Machine

/-- The queue a field designates. -/
def queueNo (code : BitVec 8) : Nat := code.toNat - 240

/-- The waits of a shared queue (R249, R325, R332), then the operation; misuse has been checked (R75). -/
def queueGate (e : Env) (n : Nat) (push : Bool) (act : Env → Binding → Out) : Out :=
  match bindOf e.g n with
  | none => .next e.s
  | some q =>
    if sharedQ e.g n then
      if isDet e.g && !headFree e.s e.id.berth e.g push then .next (block e.s e.id .headHold)
      else if push && wideQ e.g n && unacked e.s e.g.lid e.g.wgix then .next (block e.s e.id (.remote 1))
      else countersigned e (fun e => act e q)
    else act e q

/-- Ask the home agent for the oldest entry (R191): poison, an engine-owned tile, none, or the entry. -/
def askHead (e : Env) (n : Nat) (q : Binding) (empty : Out) (got : List Byte → Nat → Out) : Out :=
  match popState e.s e.g [n] [] with
  | .poison key => .next (poppedPoison e.s e.id e.g key e.head.mask)
  | .misowned _ => .next (trapHere e.s e.id (qTrap 0x6 n e.head.mask))
  | .empty _ => empty
  | .ready => got (qOldest e.s q 0) (qSide e.s q 0)

/-- Lane l's value of an entry: its word in a crew, the entry in the pilot. -/
def entryVal (k : CtxKind) (bs : List Byte) (l : Nat) : Nat := if k == .crew then entryWord bs l else leNat bs

/-- The status bit in the predicate or c-bit that `IMM` names. -/
def statusResult (e : Env) (r : Result) (imm : Word) (m : LaneMask) : Result :=
  match e.k with
  | .crew => { r with pred := some (bits imm 2 0, e.active, m) }
  | .pilot => { r with cbit := some (bits imm 2 0, decide (m ≠ 0)) }

/-- Complete a pop: the entry is removed, and an error record traps after completion (R196). -/
def completePop (e : Env) (q : Binding) (r : Result) (push : Option QEntry) (bs : List Byte) (side : Nat) : Out :=
  let s := qWakePushes (qRemove e.s q) q.desc
  if side / 2 ^ 129 % 2 = 1 then completeTrap e s r push (mkTrap 0x16 (leNat (bs.take 8)) e.head.mask)
  else complete e s r push none

/-- `qbind` (R190). -/
def execQbind (x : FormQ) (s : State) : Out :=
  issue (.qbind x) s (fun e =>
    let n := queueNo x.dst
    let a := e.av e.first
    let bindTo := fun (key : Nat) (win : Option Nat) =>
      if locBad e.s (.quay key) then Host.Outcome.next (poppedPoison e.s e.id e.g key e.head.mask)
      else
        match if (bindOf e.g n).isSome then some 0x3 else bindReason e.s e.id.berth e.g key with
        | some r => .next (trapHere e.s e.id (qTrap r n e.head.mask))
        | none => completeNone e (modWg e.s e.id.berth (fun g => { g with binds := g.binds.set n (some (newBinding e.s e.id.berth e.g (descAt e.s key) key win)) }))
    if a % 64 ≠ 0 then .next (trapHere e.s e.id (mkTrap 0x08 a e.head.mask))
    else if x.sub == 1 then
      if hQuayb e.g.hdr < a + 64 then .next (trapHere e.s e.id (mkTrap 0x07 a e.head.mask))
      else bindTo (winKey e.id.berth e.g a) (some a)
    else
      match logicalKey e.s e.g.part a with
      | some key => if quayReach e.s e.id.berth e.g key then bindTo key none else .next (trapHere e.s e.id (mkTrap 0x0A a e.head.mask))
      | none => .next (trapHere e.s e.id (mkTrap 0x0A a e.head.mask)))

/-- `qunbind` (R190): it waits for an entry on its way home, and for the result of a division that is to be pushed there (R100). -/
def execQunbind (x : FormQ) (s : State) : Out :=
  issue (.qunbind x) s (fun e =>
    let n := queueNo x.dst
    match bindOf e.g n with
    | none => .next (trapHere e.s e.id (qTrap 0x3 n e.head.mask))
    | some q =>
      if !q.transit.isEmpty || e.g.pilot.ctx.divided.any (fun d => d.q == n) then .next (block e.s e.id (.unbind n))
      else completeNone e (modWg e.s e.id.berth (fun g =>
        unblockWhere { g with binds := g.binds.set n none } (fun r => decide (r = .pop n) || decide (r = .push n) || decide (r = .unbind n)))))

/-- `qtrypop` (R194). -/
def execQtrypop (x : FormQ) (s : State) : Out :=
  issue (.qtrypop x) s (fun e =>
    let n := queueNo x.sa
    queueGate e n false (fun e q =>
      askHead e n q (complete e e.s (statusResult e Result.none x.imm 0) none none) (fun bs side =>
        completePop e q (statusResult e (dstResult e e.active (entryVal e.k bs)) x.imm e.active) (dstEntry e (entryVal e.k bs)) bs side)))

/-- The binding with its cached counts refreshed when they show no room for n entries (R192, R194). -/
def withRoom (s : State) (q : Binding) (n : Nat) : Binding := if qCachedFree q < n then qRefresh s q else q

/-- The instruction with nothing to pop: its data pigeonhole stays as it is. -/
def withoutPop (e : Env) : Env := { e with u := { e.u with a := if popsQueue e.u.a e.f.sa.toNat then .none else e.u.a } }

/-- A status result says that nothing happened. -/
def Result.refused (r : Result) : Bool := (match r.pred with | .some (_, _, m) => decide (m = 0) | .none => true) && (match r.cbit with | .some (_, v) => !v | .none => true)

/-- `qtrypush` (R194): with status 0 nothing is popped or pushed, in either copy of a pair. A data pigeonhole without an entry blocks it like
any pop (log 39). -/
def execQtrypush (x : FormQ) (s : State) : Out :=
  issue (.qtrypush x) s (fun e =>
    let n := queueNo x.dst
    let failed := ((ctxIn e.g e.id.who).bind (fun c => c.copied)).any (fun got => got.res.refused)
    queueGate (if failed then withoutPop e else e) n true (fun e q =>
      let q' := withRoom e.s q 1
      let s := modWg e.s e.id.berth (fun g => modBind g n (fun _ => q'))
      if q'.transit.isEmpty && decide (0 < qCachedFree q') then
        if pushMisowned s q' 1 then .next (trapHere e.s e.id (qTrap 0x6 n e.head.mask))
        else complete e (pushInto s e.id n [pushEntry e]) (statusResult e Result.none x.imm e.active) none none
      else complete (withoutPop e) s (statusResult e Result.none x.imm 0) none none))

/-- `qcount` (R194). -/
def execQcount (x : FormQ) (s : State) : Out :=
  issue (.qcount x) s (fun e =>
    match bindOf e.g (queueNo x.sa) with
    | none => .next e.s
    | some q => completeVals e e.s e.active (fun _ => if x.sub == 0 then qCount e.s q else q.cap - qCount e.s q))

/-- `qpeek` (R194): it blocks as a pop does, and removes nothing. -/
def execQpeek (x : FormQ) (s : State) : Out :=
  issue (.qpeek x) s (fun e =>
    let n := queueNo x.sa
    match bindOf e.g n with
    | none => .next e.s
    | some q => askHead e n q (.next (block e.s e.id (.pop n))) (fun bs _ => completeVals e e.s e.active (entryVal e.k bs)))

/-- `qmask` (R194). -/
def execQmask (x : FormQ) (s : State) : Out :=
  issue (.qmask x) s (fun e =>
    let n := queueNo x.sa
    queueGate e n false (fun e q =>
      askHead e n q (.next (block e.s e.id (.pop n))) (fun bs side =>
        completePop e q (statusResult e (dstResult e e.active (entryVal e.k bs)) x.imm (BitVec.ofNat 128 side &&& e.active))
          (dstEntry e (entryVal e.k bs)) bs side)))

/-- `bget` (R195). -/
def execBget (x : FormQ) (s : State) : Out :=
  issue (.bget x) s (fun e =>
    let n := queueNo x.sa
    queueGate e n false (fun e q =>
      askHead e n q (.next (block e.s e.id (.pop n))) (fun bs side =>
        let val := fun (_ : Nat) => leNat bs
        completePop e q (dstResult e e.active val) (dstEntry e (fun _ => leNat bs % 2 ^ 32)) bs side)))

/-- `bcast` (R195). -/
def execBcast (x : FormQ) (s : State) : Out :=
  issue (.bcast x) s (fun e =>
    let n := queueNo x.dst
    let count := bits x.imm 6 0
    queueGate e n true (fun e q =>
      if q.cap < count then .next (trapHere e.s e.id (qTrap 0x7 n e.head.mask))
      else if !q.transit.isEmpty || decide (qCachedFree q < count) then .next (block e.s e.id (.push n))
      else if pushMisowned e.s q count then .next (trapHere e.s e.id (qTrap 0x6 n e.head.mask))
      else
        completeNone e (pushInto e.s e.id n (List.replicate count (bcastEntry x e)))))

/-- `own` (R199). -/
def execOwn (x : FormQ) (s : State) : Out :=
  issue (.own x) s (fun e =>
    let a := e.av e.first
    let n := bits x.imm 8 0
    if a % 4096 ≠ 0 then .next (trapHere e.s e.id (mkTrap 0x08 a e.head.mask))
    else if hQuayb e.g.hdr < a + 4096 * n then .next (trapHere e.s e.id (mkTrap 0x07 a e.head.mask))
    else completeNone e (setTiles e.s (x.sub == 0) (tabulate n (fun k => winKey e.id.berth e.g a / 4096 + k))))

/-- Report the tags of a mask (R201, R202). -/
def reportTags (e : Env) (m : Nat) : Out :=
  let hit := Nat.land e.g.tags.toNat m
  let val := fun (_ : Nat) => if hit = 0 then 64 else trailingZeros 64 hit
  match e.g.tagErr.find? (fun t => bitAt (BitVec.ofNat 64 hit) t.1) with
  | none => completeVals e e.s e.active val
  | some t =>
    completeTrap e (modWg e.s e.id.berth (fun g => { g with tagErr := aerase t.1 g.tagErr })) (dstResult e e.active val) (dstEntry e val)
      (mkTrap 0x16 (t.1 + 2 ^ 8 * t.2) e.head.mask)

/-- `twait` (R201). -/
def execTwait (x : FormQ) (s : State) : Out :=
  issue (.twait x) s (fun e =>
    let m := e.av e.first
    let hit := Nat.land e.g.tags.toNat m
    if tagMaskBad e.g m then .next (trapHere e.s e.id (openTrap e.s 0x05 e.head.mask))
    else if m = 0 || (if x.sub == 0 then decide (hit ≠ 0) else decide (hit = m)) then reportTags e m
    else .next (block e.s e.id .twait))

/-- `tfirst` (R201). -/
def execTfirst (x : FormQ) (s : State) : Out :=
  issue (.tfirst x) s (fun e =>
    let m := e.av e.first
    if tagMaskBad e.g m then .next (trapHere e.s e.id (openTrap e.s 0x05 e.head.mask)) else reportTags e m)

end Sys2Proof.Machine
end

