-- ==== Sys2Proof/Machine/System.lean ====
section
/-! DEFINITION. System: the system instructions, format X (R124 to R137), and the sequence status table that `LKSLOT` reads (R365). -/

namespace Sys2Proof.Machine

/-! ### The sequence status table (R365) -/

/-- Physical address of the entry of a slot. -/
def slotEntry (s : State) (asid slot : Nat) : Nat := (spaceOf s asid).sstbase.toNat + 64 * slot
/-- The entry of a slot. -/
def slotBits (s : State) (asid slot : Nat) : BitVec 512 := BitVec.ofNat 512 (paNat s (slotEntry s asid slot) 64)
/-- `STOP`. -/
def slotStop (x : BitVec 512) : Bool := bitAt x 0
/-- `SEN`. -/
def slotSen (x : BitVec 512) (k : Nat) : Bool := bitAt x (8 + k)
/-- `SLK`. -/
def slotSlk (x : BitVec 512) (k : Nat) : Bool := bitAt x (16 + k)
/-- `SUPP`. -/
def slotSupp (x : BitVec 512) : Nat := bits x 47 32
/-- `ALPHAk`. -/
def slotAlpha (x : BitVec 512) (k : Nat) : Nat := bits x (95 + 32 * k) (64 + 32 * k)
/-- `LKSLOT` of an entry (R129). -/
def lkslotOf (x : BitVec 512) : Nat :=
  (slotStop x).toNat + 2 * (decide (bits x 15 8 ≠ 0)).toNat + 2 ^ 16 * slotSupp x

/-- Slot of row i of a row map at a window offset (R224). -/
def rowSlot (s : State) (b : Nat) (g : WG) (map i : Nat) : Nat := cellsNat s.quay (winKey b g (map + 2 * i)) 2
/-- One of the workgroup's row maps names a slot. -/
def slotNamed (s : State) (b : Nat) (g : WG) (slot : Nat) : Bool :=
  decide (slot ≠ 0xFFFF) && g.rowMaps.any (fun m => (List.range 128).any (fun i => rowSlot s b g m i == slot))

/-! ### System registers (R128, R357, R368, R395) -/

/-- The array that a workgroup holds; of a pair, the leading copy's, which performs its commands (R212). -/
def arrayOf (s : State) (b : Nat) (g : WG) : Option Buoy :=
  let y := (coreOf s (berthCore (leadBerth b g))).buoy
  if y.holder = some (leadBerth b g) then some y else none

/-- `BYSTAT` (R357). -/
def bystatOf (y : Buoy) : Nat :=
  y.offline.toNat + 2 * y.replay.toNat + 4 * y.err.toNat + 8 * y.resume.isSome.toNat + 2 ^ 16 * y.id.toNat

/-- The value of a system register; `l` is the lane that reads it. -/
def sysValue (e : Env) (n l : Nat) : Nat :=
  let g := e.g
  let t := (ctxIn g e.id.who).bind (fun c => c.handler.map (fun h => h.trap))
  let trap := fun (f : TrapCtx → Nat) => match t with | some x => f x | none => 0
  match n with
  | 0x001 => g.wgix
  | 0x002 => sgrpOf e.s e.id.berth g
  | 0x003 => (launchIdOf e.s g).toNat
  | 0x004 => hCrews g.hdr
  | 0x005 => hLanes g.hdr
  | 0x006 => mNwg g.man
  | 0x007 => partDies (partOf e.s g.part)
  | 0x008 => g.mode.toNat
  | 0x010 => (e.crew?.map (fun c => c.fpx.toNat)).getD 0
  | 0x011 => g.tags.toNat
  | 0x020 => e.s.cycle % 2 ^ 64
  | 0x030 =>
    let slot := e.av l % 2 ^ 16
    if slotNamed e.s e.id.berth g slot then lkslotOf (slotBits e.s (asidOf g) slot) else 0
  | 0x040 => trap (fun x => x.cause.toNat)
  | 0x041 => trap (fun x => x.detail.toNat)
  | 0x042 => trap (fun x => x.epc.toNat)
  | 0x043 => g.tvec.toNat
  | 0x044 => g.ptvec.toNat
  | 0x045 => g.tdiag.toNat
  | 0x046 => trap (fun x => if x.cause = 0x10 then x.lkval.toNat else 0)
  | 0x047 => trap (fun x => x.tlane.toNat)
  | 0x048 => trap (fun x => bits x.tmask 31 0)
  | 0x049 => trap (fun x => bits x.tmask 63 32)
  | 0x04A => trap (fun x => bits x.tmask 95 64)
  | 0x04B => trap (fun x => bits x.tmask 127 96)
  | 0x060 => g.ckcnt.toNat
  | 0x070 => ((arrayOf e.s e.id.berth g).map (fun y => stallCount e.s.cycle y)).getD 0
  | 0x071 => ((arrayOf e.s e.id.berth g).map bystatOf).getD 0
  | _ => 0

/-- Write a system register. -/
def sysWrite (id : CtxId) (g : WG) (n v : Nat) : WG :=
  match n with
  | 0x010 => match id.who with
    | .crew k => modCrew g k (fun c => { c with fpx := BitVec.ofNat 5 v })
    | .pilot => g
  | 0x042 => modCtxIn g id.who (fun c =>
      { c with handler := c.handler.map (fun h => { h with trap := { h.trap with epc := BitVec.ofNat 64 v } }) })
  | 0x043 => { g with tvec := BitVec.ofNat 32 v }
  | 0x044 => { g with ptvec := BitVec.ofNat 64 v }
  | 0x045 => { g with tdiag := BitVec.ofNat 32 v }
  | _ => g

/-- `nop` (R125). -/
def execNop (x : FormX) (s : State) : Out := issue (.nop x) s (fun e => completeNone e e.s)

/-- The slot after the one a context is at. -/
def nextPoint (e : Env) : DWord :=
  match e.k with
  | .pilot => BitVec.ofNat 64 (nextPc e.g.pilot.pc.toNat)
  | .crew => BitVec.ofNat 64 (nextCix e.head.cix.toNat)

/-- A trap of the context goes to the program's handler. -/
def handled (e : Env) : Bool :=
  ((ctxIn e.g e.id.who).map (fun c => c.handler.isNone)).getD false
    && (match e.k with | .pilot => decide (e.g.ptvec ≠ 0) | .crew => decide (e.g.tvec ≠ 0))

/-- `trap` (R126): the head keeps its code index in the frontier set aside (R393), and `TEPC` is the next slot. -/
def execTrap (x : FormX) (s : State) : Out :=
  issue (.trap x) s (fun e =>
    let t := mkTrap 0x18 (bits x.imm 15 0) e.active
    let y := (retire e e.s Result.none none none).1
    if handled e then .next (takeTrap y e.id t (nextPoint e) e.head.cix e.head.mask)
    else .next (trapHere (advance e y) e.id t))

/-- `sysrd` (R127). -/
def execSysrd (x : FormX) (s : State) : Out :=
  issue (.sysrd x) s (fun e => completeVals e e.s e.active (sysValue e (bits x.imm 11 0)))

/-- `syswr` (R127): the value of the lowest active lane. -/
def execSyswr (x : FormX) (s : State) : Out :=
  issue (.syswr x) s (fun e =>
    completeNone e (modWg e.s e.id.berth (fun g => sysWrite e.id g (bits x.imm 11 0) (e.av e.first))))

/-- `rft` (R130, R396): the code point in `TEPC` is checked by R101. -/
def execRft (x : FormX) (s : State) : Out :=
  issue (.rft x) s (fun e =>
    match (ctxIn e.g e.id.who).bind (fun c => c.handler) with
    | none => .next (trapHere e.s e.id (openTrap e.s 0x05 e.head.mask))
    | some h =>
      let p := h.trap.epc.toNat
      if !(if e.k == .crew then cixValid p else pcValid p) then .next (trapHere e.s e.id (mkTrap 0x03 p e.head.mask))
      else
        let y := (retire e e.s Result.none none none).1
        let t := match e.k with
          | .pilot => modWg y e.id.berth (fun g => { g with pilot := pilotReturn g.pilot })
          | .crew => crewReturn y e.id.berth e.crewNo
        .next (settleBarriers t e.id.berth))

/-- `halt` (R131, R276, R408): every issued result of the workgroup is written, the records go to harbour software, and the
halting context resumes at the next slot. -/
def execHalt (x : FormX) (s : State) : Out :=
  issue (.halt x) s (fun e =>
    let at_ : Nat := match e.k with | .pilot => e.g.pilot.pc.toNat | .crew => e.head.cix.toNat
    let y := advance e (retire e e.s Result.none none none).1
    let y := modWg y e.id.berth (fun g => { (whos g).foldl commitAll g with run := .halted, stopper := some e.id.who })
    let id := (launchIdOf e.s e.g).toNat
    let y := putFault y e.g.part 0x03 (asidOf e.g) id at_ e.g.wgix (whoCode e.id.who)
    .next (putEvent y e.g.part 1 0 (whoCode e.id.who) id e.g.wgix (nextPoint e).toNat 0))

/-- `ckpt` (R137): arrival; the last arrival completes it, or under DUP the countersign of the interval does. -/
def execCkpt (x : FormX) (s : State) : Out := issue (.ckpt x) s (fun e => arrive e .ckpt)

/-! ### Tasks -/

/-- The lines of each lane's manifest, after the checks of R132. -/
def manifestLines (e : Env) : List Placed :=
  ((addresses e 0 none 256).map (placed e.s e.id.berth e.g false 256)).map globalOnly |>.map (blockLines 4) |>.flatten

/-- The manifest a lane names, of the lines read at issue. -/
def manifestRead (e : Env) (xs : List LaneAcc) (l : Nat) : BitVec 2048 :=
  manifestOf (((List.range 4).map (fun k =>
    match xs.find? (fun x => x.lane == l + 128 * k) with
    | some x => accRead e.s e.id e.g x 64
    | none => [])).flatten)

/-- Submit, or stage, one manifest of a program: its status and the state after it. -/
def spawnOne (e : Env) (stage : Bool) (s : State) (l : Nat) (m : BitVec 2048) : Nat × State :=
  let m := demote m (mPrio e.g.man)
  let addr : DWord := BitVec.ofNat 64 (e.av l)
  let st := spawnStatus s e.g.part m
  if st ≠ 0 then (st, s)
  else if stage then (0, modWg s (leadBerth e.id.berth e.g) (fun g => stageOp g e.id.who l (pointOf e.s e.id) (.spawn m addr)))
  else (0, submit s e.g.part m none none addr.toNat)

/-- The lanes in order. -/
def spawnLanes (e : Env) (stage : Bool) (xs : List LaneAcc) : List Nat → State → List (Nat × Nat) × State
  | [], s => ([], s)
  | l :: ls, s =>
    let r := spawnOne e stage s l (manifestRead e xs l)
    let rest := spawnLanes e stage xs ls r.2
    ((l, r.1) :: rest.1, rest.2)

/-- Value of a lane in a list of results. -/
def laneGet (rs : List (Nat × Nat)) (l : Nat) : Nat := ((rs.find? (fun r => r.1 == l)).map (fun r => r.2)).getD 0

/-- Effects of the workgroup go to its staging records (R136, R293, R322). -/
def stages (e : Env) : Bool := isDet e.g && !headDrained e.s (leadBerth e.id.berth e.g) e.g

/-- `spawn` (R132, R133, R136). -/
def execSpawn (x : FormX) (s : State) : Out :=
  issue (.spawn x) s (fun e =>
    let c := checkPlaced e.s e.id e.g (manifestLines e) 64 true false
    match accessStop e e.s false c with
    | some t => .next t
    | none =>
      match c with
      | .remote xs => .next (sendReads e.s e.id 64 xs)
      | .ok xs => budgetLate e <|
        countersigned e (fun e => awaitAcks e <|
          if stages e && areaFull e e.lanes.length then .next (block e.s e.id .staging)
          else
            let r := spawnLanes e (stages e) xs e.lanes (fillTlb e.s e.id e.g xs)
            completeVals e r.2 e.active (laneGet r.1))
      | _ => .next e.s)

/-- Decrement each lane's counter in order (R134). -/
def decrementLanes : List LaneAcc → State → List (Nat × Nat) × State
  | [], s => ([], s)
  | x :: xs, s =>
    let r := decrement s x.loc
    let rest := decrementLanes xs r.2
    ((x.lane, r.1) :: rest.1, rest.2)

/-- The place of each lane's counter, which lies in global memory (R134). -/
def counterPlaces (e : Env) (as_ : List (Nat × Int)) : List Placed := (as_.map (placed e.s e.id.berth e.g false 8)).map globalOnly

/-- Send one lane's decrement to another package (log 17). -/
def sendDecrement (id : CtxId) (x : LaneAcc) (s : State) : State := (remoteSend s (some id) x.lane 4 x.rpa 8 depdecRmw []).2

/-- Decrements that other packages have answered enqueue the waiters of this one (R134). -/
def decrementsOver (e : Env) (s : State) : State :=
  (remoteOf e.s e.id).foldl (fun s r => match r.answer with
    | some (some bs) => if r.op = 4 then decremented s r.pa (leNat bs) else s
    | _ => s) s

/-- `depdec` (R134 to R136): a release at system scope, so the issuer's earlier stores are performed first, the staged ones of IDEM alone too; a counter
in another package's memory is decremented there (R269, R410). -/
def execDepdec (x : FormX) (s : State) : Out :=
  issue (.depdec x) s (fun e =>
    let done := lanesDone e.s e.id (addresses e 0 none 8)
    let left := counterPlaces e (lanesLeft e.s e.id (addresses e 0 none 8))
    let c := checkPlaced e.s e.id e.g left 8 true true
    match accessStop e e.s true c with
    | some t => .next t
    | none =>
      let late := fun (act : Env → Out) => budgetLate e <| countersigned e (fun e => awaitAcks e (act e))
      match c with
      | .remote _ => late (fun e =>
          storesOut e (fun s => .next (lanesInOrder e.id (fun y s => decrement s y.loc) (sendDecrement e.id)
            (left.filterMap (fun p => (found e.s e.id.berth e.g true p).map (fun y => y.acc))) s)))
      | .ok xs => late (fun e =>
          let s := fillTlb e.s e.id e.g xs
          if stages e && done.isEmpty then
            if 240 ≤ e.f.dst.toNat then .next (block e.s e.id .releaseHead)
            else if areaFull e xs.length then .next (block e.s e.id .staging)
            else
              let st := stageLanes e s (xs.map (fun y => (y.lane, .depdec (BitVec.ofNat 64 y.ea))))
              complete e st.2 (dstResult e e.active (fun _ => 0)) none st.1
          else
            storesOut { e with s := s } (fun s =>
              let r := decrementLanes xs s
              completeVals e (decrementsOver e r.2) e.active (laneGet (done ++ r.1))))
      | _ => .next e.s)

end Sys2Proof.Machine
end

