-- ==== Sys2Proof/Machine/Engine.lean ====
section
/-! DEFINITION. Engine: engine commands in common (R204 to R213): issue checks in their order (R244), acceptance, the engines' own accesses
to memory (R217), and completion: owner flips, tag and record (R207, R208). -/

namespace Sys2Proof.Machine

/-! ### The queues -/

/-- The queue of an engine of a core. -/
def engineQ (c : Core) (k : Engine) : List Cmd :=
  match k with
  | .lighter => c.lighter
  | .crane => c.crane
  | .buoy => c.buoyQ
/-- Replace the queue of an engine. -/
def setEngineQ (c : Core) (k : Engine) (q : List Cmd) : Core :=
  match k with
  | .lighter => { c with lighter := q }
  | .crane => { c with crane := q }
  | .buoy => { c with buoyQ := q }
/-- Commands a queue holds at most (R206). -/
def engineCap (k : Engine) : Nat :=
  match k with
  | .lighter => 64
  | .crane => 256
  | .buoy => 16
/-- Place of the engine in a context's counts of commands sent. -/
def engineIx (k : Engine) : Nat :=
  match k with
  | .lighter => 0
  | .crane => 1
  | .buoy => 2
/-- The command an engine is at. -/
def headCmd (s : State) (core : Nat) (k : Engine) : Option Cmd := (engineQ (coreOf s core) k).head?
/-- Change the command an engine is at. -/
def modHead (s : State) (core : Nat) (k : Engine) (f : Cmd → Cmd) : State :=
  modCore s core (fun c => setEngineQ c k (match engineQ c k with | x :: xs => f x :: xs | [] => []))
/-- The command stops: its error code, 0 for none, its `INFO`, the Plimsoll bit. -/
def endHead (s : State) (core : Nat) (k : Engine) (err info : Nat) : State := modHead s core k (fun x => { x with fin := some (err, info, false) })

/-! ### Acceptance -/

/-- Queue misuse on `CQ` (step 6 of R244): unbound, or the issuer outside the producer scope. -/
def cqTrap (e : Env) (x : FormE) : Option PendTrap :=
  if !x.cqv then none
  else
    match bindOf e.g x.cq.toNat with
    | none => some (qTrap 0x1 x.cq.toNat e.head.mask)
    | some q => if inScope e.s e.id.berth e.g q.desc q.psc.toNat then none else some (qTrap 0x5 x.cq.toNat e.head.mask)

/-- An earlier command of the workgroup that names a tag is incomplete (R207). -/
def tagBusy (s : State) (b t : Nat) : Bool :=
  let c := coreOf s (berthCore b)
  (c.lighter ++ c.crane ++ c.buoyQ).any (fun y => y.berth == b && decide (y.tag = some t))

/-- How a command uses global memory, for the waits of R212. -/
inductive GlobalUse where
  | none
  | reads
  | writes
deriving DecidableEq, Repr

/-- DET holds a command (R212, R257): one that writes global memory until its place in release order, one that reads it until the
issuer's staged records are released. -/
def detHolds (e : Env) (use : GlobalUse) : Bool :=
  isDet e.g && (match use with
    | .none => false
    | .reads => (stagingOf e.s e.id.berth e.g).any (fun r => r.of e.id.who)
    | .writes => !headDrained e.s e.id.berth e.g)

/-- Commands of the crane ring whose operands wait in its operand buffer of four (R221). -/
def bufferFull (s : State) (core : Nat) (opnd : List LaneWords) : Bool :=
  !opnd.isEmpty && decide (4 ≤ ((coreOf s core).crane.filter (fun y => !y.opnd.isEmpty)).length)

/-- The engine's queue does not take the command now (R206, R221, R355). -/
def engineFull (s : State) (core : Nat) (k : Engine) (opnd : List LaneWords) : Bool :=
  decide (engineCap k ≤ (engineQ (coreOf s core) k).length) || bufferFull s core opnd || (k == .buoy && (coreOf s core).buoy.calBusy)

/-- The command an instruction hands over. -/
def cmdOf (e : Env) (k : Engine) (x : FormE) (opc : Nat) (a b c : Nat) (opnd : List LaneWords) (use : GlobalUse) : Cmd :=
  { berth := e.id.berth, who := e.id.who, opc := opc, tag := if x.tv then some x.tag.toNat else none,
    cq := if x.cqv then (bindOf e.g x.cq.toNat).map (fun q => (x.cq.toNat, q)) else none,
    cqPeer := if x.cqv then (e.g.peer.bind (wgOf e.s)).bind (fun h => bindOf h x.cq.toNat) else none,
    seq := (((ctxIn e.g e.id.who).map (fun y => y.sent.getD (engineIx k) 0)).getD 0),
    a := BitVec.ofNat 64 a, b := BitVec.ofNat 64 b, c := BitVec.ofNat 64 c, cs := x.cs, ty := x.ty, sub := x.sub, opnd := opnd, bound := [],
    started := false, done := 0, edge := true, buf := [], bufBad := false, chunk := none, row := none, phase := 0, term := 0, ring := false, wait := none, rebuild := none, carry := [], writes := decide (use = .writes), wtiles := [], qtiles := [], flipped := false,
    fin := none }

/-- Clear a tag and its hidden error bit (R27, R207). -/
def clearTag (g : WG) (t : Nat) : WG := { g with tags := g.tags &&& ~~~((1 : DWord) <<< t), tagErr := aerase t g.tagErr }

/-- Change a workgroup and, under DUP, its other copy. -/
def modBoth (s : State) (b : Nat) (f : WG → WG) : State := modPair s b f

/-- Accept a command (R206, R207), or hold the instruction at its slot. One that uses global memory follows its issuer's stores (R255). -/
def acceptCmd (k : Engine) (x : FormE) (opc : Nat) (a b c : Nat) (opnd : List LaneWords) (use : GlobalUse) (after : State → State)
    (e : Env) : Out :=
  let core := berthCore e.id.berth
  let go := fun (s : State) =>
    if (x.tv && tagBusy s e.id.berth x.tag.toNat) || engineFull s core k opnd then Host.Outcome.next (block s e.id (.accept k))
    else
      let s := modCore s core (fun y => setEngineQ y k (engineQ y k ++ [cmdOf e k x opc a b c opnd use]))
      let s := if x.tv then modBoth s e.id.berth (fun g => clearTag g x.tag.toNat) else s
      let s := modBoth s e.id.berth (fun g => modCtxIn g e.id.who (fun y => { y with sent := y.sent.modify (engineIx k) (fun n => n + 1) }))
      completeNone e (after s)
  if detHolds e use then .next (block e.s e.id .headHold) else if use = .none then go e.s else storesOut e go

/-- Check `CQ`, then countersign, then acceptance: steps 6 of R244 and after. -/
def handOver (k : Engine) (x : FormE) (opc : Nat) (a b c : Nat) (opnd : List LaneWords) (use : Env → GlobalUse) (after : State → State)
    (e : Env) : Out :=
  match cqTrap e x with
  | some t => .next (trapHere e.s e.id t)
  | none => countersigned e (fun e => acceptCmd k x opc a b c opnd (use e) after e)

/-- A trap at the slot for an operand's value, whose detail word is left open (log 16). -/
def operandTrap (e : Env) (cause : Nat) : Out := .next (trapHere e.s e.id (openTrap e.s cause e.head.mask))

/-- A trap at the slot for an address or window offset in an operand, which its detail word holds as R175 has it (log 16). -/
def addressTrap (e : Env) (cause a : Nat) : Out := .next (trapHere e.s e.id (mkTrap cause a e.head.mask))

/-! ### Accesses of engines (R217) -/

/-- What an engine's access to bytes of one line gives. -/
inductive EngAcc where
  /-- Its location, with the window offset of an access in the issuer's window. -/
  | ok (l : Loc) (win : Option Nat)
  | err (code : Nat)
  | fault (va : Nat)

/-- A logical Quay address that a command may name (R217): a window of the core, or pinned tiles of resident data. -/
def quayLighter (s : State) (key : Nat) : Bool :=
  s.wgs.any (fun x => ownWindow x.1 x.2 key)
    || (decide (pinnedBase s (key / 2 ^ 20) ≤ key % 2 ^ 20) && decide (key % 2 ^ 20 < 0xFC000))

/-- An engine-owned Quay byte. -/
def engQuay (s : State) (key : Nat) (win : Option Nat) : EngAcc := if engOwned s key then .ok (.quay key) win else .err 0x01

/-- An access at a window offset. -/
def engWindow (s : State) (b : Nat) (g : WG) (o : Int) (n : Nat) : EngAcc :=
  if o < 0 || (hQuayb g.hdr : Int) < o + n then .err 0x06 else engQuay s (winKey b g o.toNat) (some o.toNat)

/-- An access at a logical Quay address. -/
def engLogical (s : State) (b : Nat) (g : WG) (a : Int) : EngAcc :=
  if a < 0 then .err 0x06
  else
    match logicalKey s g.part a.toNat with
    | none => .err 0x06
    | some key =>
      if !quayLighter s key then .err 0x06
      else engQuay s key (if ownWindow b g key then some (key % 2 ^ 20 - g.wbase) else none)

/-- An access at a virtual address of global memory, by way of the walk-ahead TLB. A virtual address in the Quay window, which a shape
record with `SPC` = 0 may give, is none of global memory, and the command ends with 0x05 (DESIGN CHOICE, log 67). -/
def engGlobal (s : State) (b : Nat) (g : WG) (va : Nat) (wrt : Bool) : EngAcc :=
  if !isGlobal va then .err 0x05
  else
    match translateAhead s (berthCore b) (asidOf g) va wrt with
    | none => .fault va
    | some (_, pa) => .ok (viewLoc s (viewOf s g) va pa) none

/-- A workgroup is leaving: its engines go no further than their next boundary (R213). -/
def leavingWg (s : State) (b : Nat) : Bool := (wgOf s b).any (fun g => decide (g.run = .draining) || (g.preempt && decide (g.run ≠ .running)))

/-- The command an engine is at waits for the answer to a translation fault (R275, R277). -/
def engineFault (s : State) (core : Nat) (k : Engine) (g : WG) (va : Nat) (wrt ahead : Bool) : Word × State :=
  let r := faultRecord s g.part core (asidOf g) va wrt false true ahead false (launchIdOf s g).toNat g.wgix
  (r.1, if ahead then r.2 else modHead r.2 core k (fun x => { x with wait := some (g.part, r.1) }))

/-- An engine's access to a rebuildable page is held (R385, R386): the page. -/
def engHeld (s : State) (b : Nat) (g : WG) (carry : List Nat) (va : Nat) (wrt : Bool) : Option Nat :=
  if !isGlobal va then none
  else
    match translateAhead s (berthCore b) (asidOf g) va wrt with
    | none => none
    | some (leaf, pa) =>
      let vpn := va / pageSize
      let mine := (launchOf s g.lid).bind (fun l => l.rebuilds)
      if eRb leaf && decide (mine ≠ some (asidOf g, vpn))
          && (rebuildBusy s (asidOf g) vpn
            || (!wrt && !carry.contains vpn && locBad s (viewLoc s (viewOf s g) va pa) && mine.isNone && (rebuildEntry s (asidOf g) vpn).isSome)) then some vpn
      else none

/-- The command an engine is at waits for a rebuild, which starts unless one runs. -/
def engHold (s : State) (core : Nat) (k : Engine) (g : WG) (vpn : Nat) : State :=
  if rebuildStalls s g.part (asidOf g) vpn then s else
  let s := if rebuildBusy s (asidOf g) vpn then s else startRebuild s g.part (asidOf g) vpn (viewOf s g)
  if rebuildBusy s (asidOf g) vpn then modHead s core k (fun x => { x with rebuild := some vpn })
  else modHead s core k (fun x => { x with carry := vpn :: x.carry })

/-- Before an engine's write to a global address: the page copies it waits for (R282), and the translation kept. -/
def engPrepare (s : State) (b : Nat) (g : WG) (va : Nat) (wrt : Bool) : State :=
  let s := aheadFill s (berthCore b) (asidOf g) va
  match translateAhead s (berthCore b) (asidOf g) va wrt with
  | some (_, pa) => if wrt then copyAll s (asidOf g) (viewOf s g) va pa (s.nextRev + 2) else s
  | none => s

/-- The same place in the other copy's window (R212). -/
def peerWindow (s : State) (g : WG) (o : Nat) : Option Loc :=
  (g.peer.bind (fun p => (wgOf s p).map (fun h => (p, h)))).map (fun x => Loc.quay (winKey x.1 x.2 o))

/-- Write bytes of one line and its mark: a poisoned source marks it, a whole line of sound bytes clears it (R270, R403). -/
def markedWrite (s : State) (l : Loc) (bs : List Byte) (bad : Bool) : State :=
  let s := locWrite s l bs
  if bad then locMark s l true else if bs.length = 64 then locMark s l false else s

/-- An engine writes bytes of one line, in both copies' windows where it lies in the issuer's. -/
def engWrite (s : State) (g : WG) (l : Loc) (win : Option Nat) (bs : List Byte) (bad : Bool) : State :=
  let s := markedWrite s l bs bad
  match win.bind (peerWindow s g) with
  | some m => markedWrite s m bs bad
  | none => s

/-- Note the tile of a write. -/
def noteTile (x : Cmd) (l : Loc) (win : Option Nat) : Cmd :=
  match win, l with
  | some o, _ => { x with wtiles := nsInsert (o / 4096) x.wtiles }
  | none, .quay k => { x with qtiles := nsInsert (k / 4096) x.qtiles }
  | none, _ => x

/-- Every byte of a window range is engine-owned. -/
def rangeOwned (s : State) (b : Nat) (g : WG) (o n : Nat) : Bool :=
  (List.range ((o + n + 4095) / 4096 - o / 4096)).all (fun k => s.engTiles.contains (winKey b g 0 / 4096 + o / 4096 + k))

/-- Bytes at a window offset. -/
def winRead (s : State) (b : Nat) (g : WG) (o n : Nat) : List Byte := cellsReadN s.quay (winKey b g o) n
/-- A number at a window offset. -/
def winNat (s : State) (b : Nat) (g : WG) (o n : Nat) : Nat := cellsNat s.quay (winKey b g o) n
/-- A line of a window range is poisoned. -/
def winBad (s : State) (b : Nat) (g : WG) (o n : Nat) : Bool :=
  (List.range ((o + n + 63) / 64 - o / 64)).any (fun k => s.quayBad.contains (winKey b g 0 / 64 + o / 64 + k))

/-- Write bytes at a window offset, in both copies, with the marks of the lines they touch. -/
def winWrite (s : State) (b : Nat) (g : WG) (o : Nat) (bs : List Byte) (bad : Bool) : State :=
  let at_ := fun (s : State) (base : Nat) =>
    let s := { s with quay := cellsWriteN s.quay (base + o) bs }
    (List.range ((o + bs.length + 63) / 64 - o / 64)).foldl (fun s k =>
      let line := (base + o) / 64 + k
      if bad then locMark s (.quay (64 * line)) true
      else if decide (base + o ≤ 64 * line) && decide (64 * line + 64 ≤ base + o + bs.length) then locMark s (.quay (64 * line)) false else s) s
  let s := at_ s (winKey b g 0)
  match g.peer.bind (fun p => (wgOf s p).map (fun h => winKey p h 0)) with
  | some base => at_ s base
  | none => s

/-- Tiles of a window range. -/
def rangeTiles (o n : Nat) : List Nat := if n = 0 then [] else tabulate ((o + n + 4095) / 4096 - o / 4096) (fun k => o / 4096 + k)

/-- Note the tiles of a window range as written. -/
def noteRange (x : Cmd) (o n : Nat) : Cmd := { x with wtiles := (rangeTiles o n).foldl (fun ts t => nsInsert t ts) x.wtiles }

/-! ### Completion (R207, R208) -/

/-- The completion record (R208). -/
def recordBits (x : Cmd) (err info : Nat) (plim : Bool) : Nat :=
  x.opc + 2 ^ 8 * err + 2 ^ 16 * x.tag.getD 0 + 2 ^ 22 * x.tag.isSome.toNat + 2 ^ 23 * plim.toNat + 2 ^ 24 * (x.seq % 256)
    + 2 ^ 32 * (info % 2 ^ 32)

/-- The entry a record makes in a queue (R196). -/
def recordEntry (wide : Bool) (v : Nat) : QEntry :=
  { bytes := natLe (entryBytes wide) v, mask := BitVec.allOnes 128 }

/-- Flip the written tiles to threads and set the tag, with its hidden error bit, in both copies. A command without a tag flips nothing: its program
takes the tiles by `own.thr` after the record (R199, R207, R356; DEDUCED, log 67). -/
def flipAndTag (s : State) (x : Cmd) (err : Nat) : State :=
  match x.tag, wgOf s x.berth with
  | some t, some g =>
    let s := setTiles s false (x.wtiles.map (fun k => winKey x.berth g 0 / 4096 + k) ++ x.qtiles)
    let s := match g.peer.bind (fun p => (wgOf s p).map (fun h => winKey p h 0 / 4096)) with
      | some base => setTiles s false (x.wtiles.map (fun k => base + k))
      | none => s
    modBoth s x.berth (fun g =>
      { g with tags := g.tags ||| ((1 : DWord) <<< t), tagErr := if err = 0 then g.tagErr else ainsert t err g.tagErr })
  | _, _ => s

/-- The bindings a record is pushed to: the issuer's, and the other copy's where it is another queue (R212). -/
def recordQueues (x : Cmd) : List Binding :=
  match x.cq, x.cqPeer with
  | some (_, q), some p => if p.desc = q.desc then [q] else [q, p]
  | some (_, q), none => [q]
  | none, p => p.toList

/-- Contexts that an engine's completion lets go on: those waiting for a tag, for room or for its accumulator (R201, R206, R226). -/
def wakeEngine (s : State) (core b : Nat) : State :=
  let peer := (wgOf s b).bind (fun g => g.peer)
  unblockAll s (fun y _ r =>
    match r with
    | .accept _ => decide (berthCore y = core) || decide (some y = peer)
    | .twait | .accld | .releaseHead | .headHold => decide (y = b) || decide (some y = peer)
    | _ => false)

/-- The buoy-bias trap of the pilot of a workgroup becomes pending, in both copies; harbour software hears of one whose pilot has
ended (R234, R276, R354). -/
def biasTrap (s : State) (b detail : Nat) : State :=
  match wgOf s b with
  | none => s
  | some g =>
    if g.pilot.ctx.ended then putFault s g.part 0x05 (asidOf g) (launchIdOf s g).toNat 0 g.wgix detail
    else modBoth s b (fun g => modCtxIn g .pilot (fun c => { c with traps := c.traps ++ [mkTrap 0x11 detail 0] }))

/-- Push a command's record to its queues, which have room for it. -/
def postRecord (s : State) (x : Cmd) (f : Nat × Nat × Bool) : State :=
  let eerr := decide (f.1 ≠ 0) && decide (f.1 ≠ 0x0A)
  (recordQueues x).foldl (fun s q => qWakePops (qAppend s q true eerr [recordEntry q.wide (recordBits x f.1 f.2.1 f.2.2)]) q.desc) s

/-- Complete the command an engine has stopped at: flips and tag once, then its record when the home agents have room. -/
def completeHead (s : State) (core : Nat) (k : Engine) : State :=
  match headCmd s core k with
  | none => s
  | some x =>
    match x.fin with
    | none => s
    | some (err, info, plim) =>
      let s := if x.flipped then s else wakeEngine (modHead (flipAndTag s x err) core k (fun x => { x with flipped := true })) core x.berth
      if (recordQueues x).all (fun q => qRoom s q 1) then
        let s := modCore (postRecord s x (err, info, plim)) core (fun c => setEngineQ c k ((engineQ c k).drop 1))
        wakeEngine (if plim then biasTrap s x.berth x.c.toNat else s) core x.berth
      else s

end Sys2Proof.Machine
end

