-- ==== Sys2Proof/Machine/Lighter.lean ====
section
/-! DEFINITION. Lighter: shape records and the copy commands (R214 to R217), their walk-ahead translations (R273). -/

namespace Sys2Proof.Machine

/-! ### Shape records (R214) -/

/-- `BASE`. -/
def rBase (r : BitVec 512) : Nat := bits r 63 0
/-- `ET`. -/
def rEt (r : BitVec 512) : Option Ty := tyOfCode (bits r 68 64)
/-- `SPC`. -/
def rSpc (r : BitVec 512) : Bool := bitAt r 69
/-- `WIN`. -/
def rWin (r : BitVec 512) : Bool := bitAt r 70
/-- `MXS`. -/
def rMxs (r : BitVec 512) : Bool := bitAt r 71
/-- `RANK`. -/
def rRank (r : BitVec 512) : Nat := bits r 73 72
/-- `E0` to `E3`. -/
def rExt (r : BitVec 512) (k : Nat) : Nat := bits r (95 + 16 * k) (80 + 16 * k)
/-- `S1` to `S3`. -/
def rStride (r : BitVec 512) (k : Nat) : Int := signedOf 32 (bits r (143 + 32 * k) (112 + 32 * k))
/-- `SCB`. -/
def rScb (r : BitVec 512) : Nat := bits r 303 240
/-- Bits of an element; 8 for a reserved type code, which no bound record has. -/
def rWidth (r : BitVec 512) : Nat := ((rEt r).map (fun t => t.width)).getD 8
/-- Rows. -/
def rRows (r : BitVec 512) : Nat := rExt r 1 * rExt r 2 * rExt r 3
/-- Bytes of a row. -/
def rRowBytes (r : BitVec 512) : Nat := rExt r 0 * rWidth r / 8
/-- First byte of a row. -/
def rRowStart (r : BitVec 512) (row : Nat) : Int :=
  (rBase r : Int) + (row % rExt r 1 : Nat) * rStride r 1 + (row / rExt r 1 % rExt r 2 : Nat) * rStride r 2
    + (row / (rExt r 1 * rExt r 2) : Nat) * rStride r 3
/-- Bytes of a block of 32 elements. -/
def rBlock (r : BitVec 512) : Nat := 4 * rWidth r

/-- The record breaks the rules of R214. The width in 'aligned to min(width, 8) bytes' is read in bytes (DEDUCED, log 67). -/
def recordBad (r : BitVec 512) : Bool :=
  let al : Int := max 1 (min 8 (rWidth r / 8) : Nat)
  (rEt r).isNone || decide (bits r 79 74 ≠ 0) || decide (bits r 511 304 ≠ 0) || (rWin r && !rSpc r)
    || (rMxs r && (!((rEt r).map (fun t => t.isMx)).getD false || decide (rExt r 0 % 32 ≠ 0))) || (!rMxs r && decide (rScb r ≠ 0))
    || [0, 1, 2, 3].any (fun k => decide (rExt r k = 0))
    || [1, 2, 3].any (fun k => decide (rRank r < k) && (decide (rExt r k ≠ 1) || decide (rStride r k ≠ 0)))
    || decide (rExt r 0 * rWidth r % 8 ≠ 0)
    || decide ((rBase r : Int) % al ≠ 0) || [1, 2, 3].any (fun k => decide (1 < rExt r k) && decide (rStride r k % al ≠ 0))

/-! ### Reading what a command binds -/

/-- Bytes asked of another package by a core's engines: the request still unanswered, a refusal, or the bytes. -/
inductive RemoteGet where
  | wait (s : State)
  | refused
  | got (bs : List Byte)

/-- Ask for bytes of another package once (R410), when the core has a request free (R176). -/
def remoteGet (s : State) (core op pa n : Nat) (payload : List Byte) : RemoteGet :=
  match s.pkg.remote.find? (fun r => decide (r.ctx = none) && r.lane == core + 1 && r.pa == pa && decide (r.op.toNat = op)) with
  | none =>
    if !requestRoom s core then .wait s
    else
      let r := remoteSend s none (core + 1) op pa n 0 payload
      .wait (stampSent r.2 r.1 (fun y => { y with core := some core }))
  | some r =>
    match r.answer with
    | none => .wait s
    | some none => .refused
    | some (some bs) => .got bs

/-- Forget a core's answered requests. -/
def remoteDone (s : State) (core : Nat) : State :=
  modPkg s (fun p => { p with remote := p.remote.filter (fun r => !(decide (r.ctx = none) && r.lane == core + 1)) })

/-- What reading a control block of 64 bytes gives (R211). -/
inductive Bind where
  | ok (d : BitVec 512)
  | err (code : Nat)
  | fault (va : Nat)
  | held (vpn : Nat)
  | wait (s : State)

/-- Read a control block at an address of the address map: global memory by the core TLB, or the Quay window, whatever its owner
(R211, R272). -/
def bindBlock (s : State) (b : Nat) (g : WG) (carry : List Nat) (a : Nat) : Bind :=
  let get := fun (l : Loc) => if locBad s l then Bind.err 0x07 else .ok (BitVec.ofNat 512 (leNat (locRead s l 64)))
  if isGlobal a then
    match translate s (berthCore b) (asidOf g) a false false, engHeld s b g carry a false with
    | none, _ => .fault a
    | some _, some vpn => .held vpn
    | some (_, pa), none =>
      match viewLoc s (viewOf s g) a pa with
      | .remote pa =>
        match remoteGet s (berthCore b) 2 pa 64 (natLe 2 64) with
        | .wait s => .wait s
        | .refused => .err 0x05
        | .got bs => .ok (BitVec.ofNat 512 (leNat bs))
      | l => get l
  else if inQuayWin a then
    match logicalKey s g.part (a - quayWin) with
    | some key => if quayLighter s key then get (.quay key) else .err 0x06
    | none => .err 0x06
  else .err 0x05

/-- How a copy command uses global memory, by the records its operands name now (log 20). -/
def copyUse (e : Env) (a : Nat) (b : Option Nat) : GlobalUse :=
  match bindBlock e.s e.id.berth e.g [] a with
  | .ok d =>
    if !rSpc d then .writes
    else if isGlobal a then .reads
    else
      match b with
      | none => .none
      | some b =>
        if isGlobal b then .reads
        else match bindBlock e.s e.id.berth e.g [] b with
          | .ok r => if rSpc r then .none else .reads
          | _ => .reads
  | _ => .writes

/-! ### Issue (R215) -/

/-- Issue a copy command: address checks in the order of R244. `src`: the second operand is a record; `list`: the third is an index list. -/
def issueCopy (x : FormE) (opc : Nat) (src list : Bool) (e : Env) : Out :=
  let a := e.av e.first
  let b := e.bv e.first
  let c := e.cv e.first
  if a % 64 ≠ 0 then addressTrap e 0x08 a
  else if src && decide (b % 64 ≠ 0) then addressTrap e 0x08 b
  else if list && decide (c % 4 ≠ 0) then addressTrap e 0x08 c
  else if !canonical a then addressTrap e 0x0A a
  else if src && !canonical b then addressTrap e 0x0A b
  else if list && decide (hQuayb e.g.hdr < c + 4) then addressTrap e 0x07 c
  else handOver .lighter x opc a b c [] (fun e => copyUse e a (if src then some b else none)) (fun s => s) e

/-- `lcopy` (R215, R216). -/
def execLcopy (x : FormE) (s : State) : Out := issue (.lcopy x) s (issueCopy x 0x00 true false)
/-- `lgather` (R215, R216). -/
def execLgather (x : FormE) (s : State) : Out := issue (.lgather x) s (issueCopy x 0x01 true true)
/-- `lscatter` (R215, R216). -/
def execLscatter (x : FormE) (s : State) : Out := issue (.lscatter x) s (issueCopy x 0x02 true true)
/-- `lfill` (R215, R216). -/
def execLfill (x : FormE) (s : State) : Out := issue (.lfill x) s (issueCopy x 0x03 false false)

/-! ### Segments -/

/-- An access by a record's space. -/
def engAt (s : State) (b : Nat) (g : WG) (r : BitVec 512) (a : Int) (n : Nat) (wrt : Bool) : EngAcc :=
  if rSpc r then (if rWin r then engWindow s b g a n else engLogical s b g a) else engGlobal s b g (lowBits 64 a) wrt

/-- Cut a run of bytes at 64-byte lines. -/
def lineSegs : Nat → Int → Nat → List (Int × Nat)
  | 0, _, _ => []
  | fuel + 1, a, n =>
    if n = 0 then []
    else
      let m := min n (64 - (a % 64).toNat)
      (a, m) :: lineSegs fuel (a + m) (n - m)

/-- The runs of n bytes of a record's byte stream, row by row in index order (R214). -/
def streamSegs (r : BitVec 512) : Nat → Nat → Nat → List (Int × Nat)
  | 0, _, _ => []
  | fuel + 1, p, n =>
    if n = 0 || rRowBytes r = 0 then []
    else
      let o := p % rRowBytes r
      let m := min n (rRowBytes r - o)
      lineSegs 4 (rRowStart r (p / rRowBytes r) + o) m ++ streamSegs r fuel (p + m) (n - m)

/-- Runs of a block that follow one another in another package go there as one frame (R248, R411). -/
def joinRemote : Nat → State → Nat → WG → BitVec 512 → List (Int × Nat) → List (Int × Nat)
  | fuel + 1, s, b, g, r, (a, n) :: (a', n') :: rest =>
    let here := fun (a : Int) => if rSpc r then none else match engGlobal s b g (lowBits 64 a) false with | .ok (.remote p) _ => some p | _ => none
    if (here a).any (fun p => decide (here a' = some (p + n))) then joinRemote fuel s b g r ((a, n + n') :: rest)
    else (a, n) :: joinRemote fuel s b g r ((a', n') :: rest)
  | _, _, _, _, _, segs => segs

/-- What reading segments gives. -/
inductive SegRead where
  | ok (bs : List Byte) (bad : Bool) (s : State)
  | err (code : Nat)
  | fault (va : Nat)
  | held (vpn : Nat)
  | wait (s : State)

/-- Read segments of a record's space in order. -/
def readSegs (b : Nat) (g : WG) (carry : List Nat) (r : BitVec 512) : List (Int × Nat) → State → SegRead
  | [], s => .ok [] false s
  | (a, n) :: rest, s =>
    let s := if rSpc r then s else engPrepare s b g (lowBits 64 a) false
    match engAt s b g r a n false, if rSpc r then none else engHeld s b g carry (lowBits 64 a) false with
    | .err c, _ => .err c
    | .fault va, _ => .fault va
    | .ok _ _, some vpn => .held vpn
    | .ok l _, none =>
      let got : SegRead := match l with
        | .remote pa =>
          match remoteGet s (berthCore b) 2 pa n (natLe 2 n) with
          | .wait s => .wait s
          | .refused => .err 0x05
          | .got bs => .ok bs false s
        | l => .ok (locRead s l n) (locBad s l) s
      match got with
      | .ok bs bad s =>
        match readSegs b g carry r rest s with
        | .ok bs' bad' s => .ok (bs ++ bs') (bad || bad') s
        | other => other
      | other => other

/-- A write at a place of one line, once every place of the chunk is known to be good. -/
structure PutAt where
  l : Loc
  win : Option Nat
  bs : List Byte

/-- What placing the writes of a chunk gives. -/
inductive SegWrite where
  | ok (puts : List PutAt) (s : State)
  | err (code : Nat)
  | fault (va : Nat)
  | held (vpn : Nat)
  | wait (s : State)

/-- Place the bytes of segments; writes to another package are sent, and acknowledged, before the chunk counts (R410). -/
def placeSegs (b : Nat) (g : WG) (carry : List Nat) (r : BitVec 512) : List (Int × Nat) → List Byte → State → SegWrite
  | [], _, s => .ok [] s
  | (a, n) :: rest, bs, s =>
    let s := if rSpc r then s else engPrepare s b g (lowBits 64 a) true
    match engAt s b g r a n true, if rSpc r then none else engHeld s b g carry (lowBits 64 a) true with
    | .err c, _ => .err c
    | .fault va, _ => .fault va
    | .ok _ _, some vpn => .held vpn
    | .ok l win, none =>
      let sent : SegWrite := match l with
        | .remote pa =>
          match remoteGet s (berthCore b) 1 pa n (bs.take n) with
          | .wait s => .wait s
          | .refused => .err 0x05
          | .got _ => .ok [] s
        | l => .ok [{ l := l, win := win, bs := bs.take n }] s
      match sent with
      | .ok p s =>
        match placeSegs b g carry r rest (bs.drop n) s with
        | .ok ps s => .ok (p ++ ps) s
        | other => other
      | other => other

/-! ### The lighter at work -/

/-- The byte of a fill at a position of a row (R216). -/
def fillByte (w pat pos : Nat) : Byte :=
  BitVec.ofNat 8 ((List.range 8).foldl (fun v k => v + (pat / 2 ^ ((8 * pos + k) % (min w 64)) % 2) * 2 ^ k) 0)

/-- The bytes of `INFO` of a lighter command: elements and scales written. -/
def lighterInfo (x : Cmd) : Nat :=
  match x.bound with
  | d :: _ => x.done + (if rMxs d then x.done / rBlock d else 0)
  | [] => 0

/-- `INFO` of a command that stops where it stands (R208). -/
def infoOf (x : Cmd) : Nat :=
  if x.opc < 4 then lighterInfo x else if x.opc = 0x12 then x.phase else if x.opc = 0x10 || x.opc = 0x24 then x.done else 0

/-- The records of the commands that ended with their workgroup go to the queues that outlive it, as these have room: code 0x09, unless the
command had ended before (R209). -/
def postCancelled (s : State) (core : Nat) : State :=
  let r := (coreOf s core).cancelled.foldl (fun (a : State × List Cmd) x =>
    if (recordQueues x).all (fun q => qRoom a.1 q 1) then (postRecord a.1 x (x.fin.getD (0x09, infoOf x, false)), a.2) else (a.1, a.2 ++ [x])) (s, [])
  modCore r.1 core (fun c => { c with cancelled := r.2 })

/-- Record whose rows a command walks: the source of a scatter, else the destination. -/
def walkRecord (x : Cmd) : Option (BitVec 512) := if x.opc = 0x02 then x.bound[1]? else x.bound[0]?

/-- Pages of a row of a record in global memory, with those of its scales. -/
def rowPages (r : BitVec 512) (wrt : Bool) (row : Nat) : List (Nat × Bool) :=
  let run := fun (a : Int) (n : Nat) =>
    let lo := lowBits 64 a
    if n = 0 then [] else tabulate ((lo % pageSize + n - 1) / pageSize + 1) (fun k => ((lo / pageSize + k) * pageSize, wrt))
  if rSpc r || decide (rRows r ≤ row) then []
  else run (rRowStart r row) (rRowBytes r) ++ (if rMxs r then run ((rScb r : Int) + (row * rExt r 0 / 32 : Nat)) (rExt r 0 / 32) else [])

/-- The pages of a command's next rows in index order (R273): of the record it walks, and of the source of a copy. Rows that an index list
names are not known from the records. -/
def nextPages (x : Cmd) : List (Nat × Bool) :=
  let rows := fun (r : BitVec 512) (wrt : Bool) (k : Nat) => rowPages r wrt (x.done / max 1 (rRowBytes r) + k)
  match walkRecord x with
  | none => []
  | some w =>
    ((List.range 64).map (fun k => rows w (decide (x.opc ≠ 0x02)) k ++ (if x.opc = 0x00 then rows (x.bound.getD 1 w) false k else []))).flatten

/-- Pages found missing ahead of the progress point (R273), up to 32. -/
def walkAhead (s : State) (core : Nat) (g : WG) (x : Cmd) : State :=
  ((nextPages x).eraseDups.take 32).foldl (fun s p =>
    if !isGlobal p.1 then s
    else
      match translateAhead s core (asidOf g) p.1 p.2 with
      | some _ => aheadFill s core (asidOf g) p.1
      | none => (engineFault s core .lighter g p.1 p.2 true).2) s

/-- The lighter takes its next command and binds its shape records (R211, R215). -/
def lighterTake (s : State) (core : Nat) : State :=
  match headCmd s core .lighter with
  | none => s
  | some x =>
    match wgOf s x.berth with
    | none => s
    | some g =>
      if x.started || x.wait.isSome || x.rebuild.isSome || x.fin.isSome || leavingWg s x.berth then s
      else
        let fail := fun (s : State) (c : Nat) => endHead s core .lighter c 0
        let start := fun (s : State) (rs : List (BitVec 512)) =>
          let d := rs.getD 0 0
          let r := rs.getD 1 d
          if rs.any recordBad then fail s 0x02
          else if rEt r ≠ rEt d || rMxs r != rMxs d
              || (if x.opc = 0x00 then decide (rExt r 0 * rRows r ≠ rExt d 0 * rRows d) else decide (rExt r 0 ≠ rExt d 0)) then fail s 0x03
          else if (x.opc = 0x01 || x.opc = 0x02)
              && decide (hQuayb g.hdr < x.c.toNat + 4 * rRows (if x.opc = 0x01 then d else r)) then fail s 0x06
          else
            let s := modHead (remoteDone s core) core .lighter (fun x => { x with started := true, bound := rs })
            match headCmd s core .lighter with
            | some x => walkAhead s core g x
            | none => s
        let fill := if isGlobal x.a.toNat then tlbFill s core (asidOf g) x.a.toNat else s
        match bindBlock fill x.berth g x.carry x.a.toNat with
        | .err c => fail s c
        | .fault va => (engineFault s core .lighter g va false false).2
        | .held v => engHold s core .lighter g v
        | .wait s => s
        | .ok d =>
          if x.opc = 0x03 then start fill [d]
          else
            let fill := if isGlobal x.b.toNat then tlbFill fill core (asidOf g) x.b.toNat else fill
            match bindBlock fill x.berth g x.carry x.b.toNat with
            | .err c => fail s c
            | .fault va => (engineFault fill core .lighter g va false false).2
            | .held v => engHold s core .lighter g v
            | .wait s => s
            | .ok r => start fill [d, r]

/-- The row an index list gives (R216), or how the command stops. -/
inductive RowOf where
  | ok (row : Nat)
  | err (code : Nat)

/-- Entry r of the index list, below a number of rows; read once for the row in progress. -/
def listRow (s : State) (x : Cmd) (g : WG) (r rows : Nat) : RowOf :=
  match x.row with
  | some v => .ok v
  | none =>
  match engWindow s x.berth g (x.c.toNat + 4 * r : Nat) 4 with
  | .ok l _ => let v := leNat (locRead s l 4); if rows ≤ v then .err 0x04 else .ok v
  | .err c => .err c
  | .fault _ => .err 0x05

/-- Stop for what an access gave. -/
def lighterStop (s : State) (core : Nat) (x : Cmd) (c : Nat) : State := endHead (remoteDone s core) core .lighter c (lighterInfo x)

/-- Bytes to read beyond the next n from a position, so that a source line is read whole, as far as it lies in the row (R248): of the record's stream,
or of one row. -/
def lineRest (r : BitVec 512) (row : Option Nat) (p n : Nat) : Nat :=
  let rb := max 1 (rRowBytes r)
  let e := p + n
  let k := row.getD ((e - 1) / rb)
  let o := if row.isSome then e else e - k * rb
  min (rb - o) ((64 - ((rRowStart r k + o) % 64).toNat) % 64)

/-- The chunk that a command has read waits while another package acknowledges its bytes: they are not read again (R248). -/
def keepChunk (s : State) (core : Nat) (bs sb : List Byte) (bad sbad lastBad : Bool) : State :=
  modHead s core .lighter (fun x => { x with chunk := some { bytes := bs, bad := bad, scale := sb, scaleBad := sbad, lastBad := lastBad } })

/-- Move one chunk: source segments, their scale bytes, destination segments (R216, R217). `n`: element bytes of the chunk; `ends`: it
ends its row; `lastBad`: the line that its last byte was read from is poisoned. -/
def moveChunk (s : State) (core : Nat) (g : WG) (x : Cmd) (d : BitVec 512) (src : SegRead) (scale : Option SegRead) (dst : List (Int × Nat))
    (dscale : Option Int) (n total : Nat) (ends lastBad : Bool) : State :=
  let fault := fun (s : State) (va : Nat) (wrt : Bool) => (engineFault s core .lighter g va wrt false).2
  match src with
  | .err c => lighterStop s core x c
  | .held vpn => engHold s core .lighter g vpn
  | .fault va => fault s va false
  | .wait s => s
  | .ok bs bad s =>
    let sc : SegRead := scale.getD (.ok [] false s)
    match sc with
    | .err c => lighterStop s core x c
    | .held vpn => engHold s core .lighter g vpn
    | .fault va => fault s va false
    | .wait t => t
    | .ok sb sbad _ =>
      match placeSegs x.berth g x.carry d dst bs s with
      | .err c => lighterStop s core x c
      | .held vpn => engHold s core .lighter g vpn
      | .fault va => fault s va true
      | .wait s => keepChunk s core bs sb bad sbad lastBad
      | .ok puts s =>
        let sp : SegWrite := match dscale with
          | some a => placeSegs x.berth g x.carry d [(a, 1)] sb s
          | none => .ok [] s
        match sp with
        | .err c => lighterStop s core x c
        | .held vpn => engHold s core .lighter g vpn
        | .fault va => fault s va true
        | .wait s => keepChunk s core bs sb bad sbad lastBad
        | .ok sputs s =>
          let put := fun (bad : Bool) (s : State) (p : PutAt) =>
            modHead (engWrite s g p.l p.win p.bs bad) core .lighter (fun x => noteTile x p.l p.win)
          let s := sputs.foldl (put sbad) (puts.foldl (put bad) s)
          let x' := { x with done := x.done + n }
          let s := modHead (remoteDone s core) core .lighter (fun y =>
            { y with done := x.done + n, edge := decide (x.done / 4096 < (x.done + n) / 4096), buf := bs.drop n, bufBad := lastBad, chunk := none,
                     row := if ends then none else y.row })
          if total ≤ x'.done then endHead s core .lighter 0 (lighterInfo x') else s

/-- The rows of the chunk that a command is at, in the destination and in the source: the next one, or the one its index list names (R216). -/
def chunkRows (s : State) (g : WG) (x : Cmd) (d r w : BitVec 512) : RowOf × RowOf :=
  let row := x.done / rRowBytes w
  (if x.opc = 0x02 then listRow s x g row (rRows d) else .ok row, if x.opc = 0x01 then listRow s x g row (rRows r) else .ok row)

/-- The row of an index list that stays read until its end. -/
def chunkRow (x : Cmd) (rd rs : Nat) : Option Nat := if x.opc = 0x02 then some rd else if x.opc = 0x01 then some rs else none

/-- Where the chunk goes, and its bytes: to the end of a 64-byte line or of the row, or one block of an MX record (R216, R248). -/
def chunkTo (x : Cmd) (d w : BitVec 512) (rd : Nat) : Int × Nat :=
  let o := x.done % rRowBytes w
  let a := rRowStart d rd + o
  (a, if rMxs d then rBlock d else min (rRowBytes w - o) (64 - (a % 64).toNat))

/-- The runs of a chunk in a record's space: those of an MX block in another package are joined. -/
def chunkSegs (s : State) (g : WG) (x : Cmd) (d q : BitVec 512) (segs : List (Int × Nat)) : List (Int × Nat) :=
  if rMxs d then joinRemote 4 s x.berth g q segs else segs

/-- The bytes that a chunk of n bytes needs beyond those the lighter holds: the pattern of a fill, or source lines, each read whole (R216, R248). -/
def chunkRead (s : State) (g : WG) (x : Cmd) (d r w : BitVec 512) (rs n : Nat) : SegRead :=
  let o := x.done % rRowBytes w
  let had := x.buf.length
  let more := fun (row : Option Nat) (p : Nat) => if rMxs d then n else n - had + lineRest r row (p + had) (n - had)
  if x.opc = 0x03 then .ok (tabulate n (fun k => fillByte (rWidth d) x.b.toNat (o + k))) false s
  else if !rMxs d && decide (n ≤ had) then .ok [] x.bufBad s
  else if x.opc = 0x00 then readSegs x.berth g x.carry r (chunkSegs s g x d r (streamSegs r 65 (x.done + had) (more none x.done))) s
  else readSegs x.berth g x.carry r (chunkSegs s g x d r (lineSegs 4 (rRowStart r rs + (o + had : Nat)) (more (some rs) o))) s

/-- The address of the scale byte of the block that a command is at, in a row of a record. -/
def scaleAt (x : Cmd) (q w : BitVec 512) (row : Nat) : Int :=
  (rScb q : Int) + ((row * rExt q 0 / 32 + x.done % rRowBytes w / rBlock q : Nat) : Int)

/-- The scale byte of a chunk of an MX record: of the pattern, or of the source block. -/
def chunkScale (s : State) (g : WG) (x : Cmd) (r w : BitVec 512) (rs : Nat) : SegRead :=
  if x.opc = 0x03 then .ok [BitVec.ofNat 8 (x.b.toNat / 256)] false s
  else if x.opc = 0x00 then readSegs x.berth g x.carry r [((rScb r : Int) + (x.done / rBlock r : Nat), 1)] s
  else readSegs x.berth g x.carry r [(scaleAt x r w rs, 1)] s

/-- The lighter moves the next line of its command, or the next block with its scale (R216, R248): source lines are read whole, and what a line has
beyond the chunk waits in the lighter. -/
def lighterMove (s : State) (core : Nat) : State :=
  match headCmd s core .lighter with
  | none => s
  | some x =>
    match wgOf s x.berth, x.bound[0]?, walkRecord x with
    | some g, some d, some w =>
      if !x.started || x.wait.isSome || x.rebuild.isSome || x.fin.isSome || (leavingWg s x.berth && x.edge) then s
      else
        let r := x.bound.getD 1 d
        let o := x.done % rRowBytes w
        let s := if o = 0 then walkAhead s core g x else s
        match chunkRows s g x d r w with
        | (.err c, _) => lighterStop s core x c
        | (_, .err c) => lighterStop s core x c
        | (.ok rd, .ok rs) =>
          let land := chunkTo x d w rd
          let dst := chunkSegs s g x d d (lineSegs 4 land.1 land.2)
          let s := modHead s core .lighter (fun y => { y with row := chunkRow x rd rs })
          let read := chunkRead s g x d r w rs land.2
          let src : SegRead := match x.chunk, read with
            | some c, _ => .ok c.bytes c.bad s
            | none, .ok bs bad s => .ok (x.buf ++ bs) (bad || (decide (0 < x.buf.length) && x.bufBad)) s
            | none, other => other
          let lastBad := match x.chunk, read with | some c, _ => c.lastBad | none, .ok _ bad _ => bad | none, _ => false
          let scale := match x.chunk with | some c => .ok c.scale c.scaleBad s | none => chunkScale s g x r w rs
          moveChunk s core g x d src (if rMxs d then some scale else none) dst
            (if rMxs d then some (scaleAt x d w rd) else none) land.2 (rRowBytes w * rRows w) (decide (rRowBytes w ≤ o + land.2)) lastBad
    | _, _, _ => s

/-- The lighter dequeues a command (R211). -/
def execLighterDequeue (core : Nat) (s : State) : Out := .next (lighterTake s core)
/-- The lighter moves on (R216). -/
def execLighterProgress (core : Nat) (s : State) : Out := .next (lighterMove s core)

end Sys2Proof.Machine
end

