-- ==== Sys2Proof/Machine/Lookout.lean ====
section
/-! DEFINITION. Lookout: probes and taps, terms and sums, crossings, steering and the `look` instruction (R235 to R238, R359 to R373). -/

namespace Sys2Proof.Machine

/-! ### Probes (R359, R360) -/

/-- `DIR`. -/
def pDir (x : BitVec 512) : Bool := bitAt x 1
/-- `ACT`: stop. -/
def pStop (x : BitVec 512) : Bool := bitAt x 2
/-- `ACT`: steer. -/
def pSteer (x : BitVec 512) : Bool := bitAt x 3
/-- `SV`. -/
def pSv (x : BitVec 512) : Bool := bitAt x 4
/-- `D`. -/
def pD (x : BitVec 512) : Nat := bits x 22 8
/-- `BIAS`. -/
def pBias (x : BitVec 512) : Nat := bits x 63 32
/-- `THR`. -/
def pThr (x : BitVec 512) : Nat := bits x 95 64
/-- `ALPHA`. -/
def pAlpha (x : BitVec 512) : Nat := bits x 127 96
/-- `WADDR`. -/
def pWaddr (x : BitVec 512) : Nat := bits x 191 128
/-- `VADDR`. -/
def pVaddr (x : BitVec 512) : Nat := bits x 255 192
/-- The entry is invalid (R360). -/
def probeBad (x : BitVec 512) : Bool :=
  !bitAt x 0 || (!pStop x && !pSteer x) || decide (pD x = 0) || decide (16384 < pD x) || decide (bits x 7 5 ≠ 0) || decide (bits x 31 23 ≠ 0)
    || decide (bits x 511 256 ≠ 0) || decide (pWaddr x % 256 ≠ 0) || decide (pVaddr x % 256 ≠ 0)

/-- A BF16 element of a vector in harbour memory, as FP32 bits. -/
def bfAt (s : State) (base c : Nat) : Nat := paNat s (base + 2 * c) 2 * 2 ^ 16

/-! ### Terms and sums (R362, R363) -/

/-- How a sum closes: its value, ORD, CAP. -/
structure Closed where
  value : Nat
  ord : Bool
  cap : Bool
deriving DecidableEq, Repr

/-- Address of the block of 128 columns that an element of a vector lies in. -/
def blockOf (base c : Nat) : Nat := base + 256 * (c / 128)

/-- An element of a tap's weights or steering vector: from a block that its unit holds (R361), else as memory has it. -/
def tapElem (s : State) (t : Tap) (base c : Nat) : Nat :=
  match t.cache.find? (fun b => b.1 == blockOf base c) with
  | some b => leNat ((b.2.drop (2 * (c % 128))).take 2) * 2 ^ 16
  | none => bfAt s base c

/-- A unit holds a block: one that it has cached stays as it was read; another is read now, and the last 8 stay (R361; log 60). -/
def tapFetch (s : State) (t : Tap) (a : Nat) : Tap :=
  if t.cache.any (fun b => b.1 == a) then t else { t with cache := ((a, paRead s a 256) :: t.cache).take 8 }

/-- The blocks that a tap at point drain fetches for a drain of a column block (R361). -/
def tapBlocks (t : Tap) (col : Nat) : List Nat :=
  if t.look then [] else blockOf (pWaddr t.entry) (128 * col) :: (if pSv t.entry then [blockOf (pVaddr t.entry) (128 * col)] else [])

/-- A tap receives one term: the tap after it and what closes. -/
def tapTerm (s : State) (t : Tap) (slot : Nat) (row : Option Nat) (c x : Nat) : Tap × Option Closed :=
  let d := pD t.entry
  let mine := fun (o : OpenSum) => o.slot == slot && decide (o.row = row)
  let rest := t.sums.filter (fun o => !mine o)
  if d ≤ c then (t, none)
  else
    let add := fun (o : OpenSum) =>
      if c ≠ o.next then ({ t with sums := rest }, some { value := fmtF32.nanOut, ord := true, cap := false })
      else
        let acc := (roundIeee fmtF32 .rne 0 (fvFma .rne (decodeF fmtF32 (tapElem s t (pWaddr t.entry) c)) (decodeF fmtF32 x) (decodeF fmtF32 o.acc.toNat)).1).1
        if c + 1 = d then
          ({ t with sums := rest },
            some { value := (roundIeee fmtF32 .rne 0 (fvAdd .rne (decodeF fmtF32 acc) (decodeF fmtF32 (pBias t.entry))).1).1, ord := false, cap := false })
        else ({ t with sums := rest ++ [{ o with next := c + 1, acc := BitVec.ofNat 32 acc }] }, none)
    match t.sums.find? mine with
    | some o => add o
    | none =>
      if c ≠ 0 then (t, none)
      else if 256 ≤ t.sums.length then (t, some { value := fmtF32.nanOut, ord := false, cap := true })
      else add { slot := slot, row := row, next := 0, acc := 0 }

/-- A close is a crossing (R364). -/
def crosses (e : BitVec 512) (c : Closed) : Bool :=
  c.ord || c.cap || (match decodeF fmtF32 c.value with
    | .fin v =>
      let o := fvCmp (.fin v) (decodeF fmtF32 (pThr e))
      if pDir e then (match o with | .lt => true | _ => false) else (match o with | .gt => true | _ => false)
    | _ => true)

/-! ### The sequence status table written by the device (R365) -/

/-- Write a byte of a slot's entry. -/
def slotByte (s : State) (asid slot off v : Nat) : State := paWrite s (slotEntry s asid slot + off) [BitVec.ofNat 8 v]

/-- Set or clear a bit of a slot's entry. -/
def slotBit (s : State) (asid slot bit : Nat) (v : Bool) : State :=
  let old := paNat s (slotEntry s asid slot + bit / 8) 1
  let cleared := if old / 2 ^ (bit % 8) % 2 = 1 then old - 2 ^ (bit % 8) else old
  slotByte s asid slot (bit / 8) (if v then cleared + 2 ^ (bit % 8) else cleared)

/-- Write an α of a slot. -/
def slotSetAlpha (s : State) (asid slot k v : Nat) : State := paWrite s (slotEntry s asid slot + 8 + 4 * k) (natLe 4 v)

/-- Count a suppressed write of a slot. -/
def slotSuppress (s : State) (asid slot : Nat) : State :=
  paWrite s (slotEntry s asid slot + 4) (natLe 2 (min 0xFFFF (slotSupp (slotBits s asid slot) + 1)))

/-! ### Crossings (R366 to R369) -/

/-- `TDETAIL` of a crossing (R367), without `LOST`. -/
def crossDetail (slot probe line : Nat) (look : Bool) (dtag tap : Nat) (c : Closed) : Nat :=
  slot + 2 ^ 16 * probe + 2 ^ 24 * line + 2 ^ 31 * look.toNat + 2 ^ 32 * dtag + 2 ^ 40 * tap + 2 ^ 43 * c.ord.toNat + 2 ^ 44 * c.cap.toNat

/-- A record of the Lookout ring (R369). -/
def lookBits (detail value lnch widx : Nat) (seq : Word) : BitVec 256 :=
  BitVec.ofNat 256 (detail + 2 ^ 64 * value + 2 ^ 96 * lnch + 2 ^ 128 * widx + 2 ^ 160 * seq.toNat)

/-- Queue a Lookout trap record for a context (R367); at most 4 wait, and a lost one is noted. -/
def queueLook (c : Ctx) (t : PendTrap) : Ctx :=
  if c.ended then c
  else if 4 ≤ (c.traps.filter (fun x => decide (x.cause = 0x10))).length then { c with lost := true }
  else { c with traps := c.traps ++ [t] }

/-- A crossing acts (R366): STOP, steering, then its record waits for the Lookout ring, with the trap that follows the record. -/
def crossing (s : State) (id : CtxId) (g : WG) (t : Tap) (x : Term) (c : Closed) : State :=
  let asid := asidOf g
  let s := if pStop t.entry then slotBit s asid x.slot 0 true else s
  let s := if pSteer t.entry && pSv t.entry then
      slotSetAlpha (slotBit (slotBit s asid x.slot (8 + x.tap) true) asid x.slot (16 + x.tap) true) asid x.slot x.tap (pAlpha t.entry)
    else s
  let detail := crossDetail x.slot t.probe x.line t.look x.dtag x.tap c
  let lanes : LaneMask := if t.look then (1#128 <<< x.line) else 0
  let trap : PendTrap := { mkTrap 0x10 detail lanes with lkval := BitVec.ofNat 32 c.value }
  let pend : LookPend := { lid := g.lid, wgix := g.wgix, who := id.who, tap := x.tap, trap := if pStop t.entry then some trap else none,
                           drain := if t.look then none else some (berthCore id.berth) }
  modPart s g.part (fun p =>
    { p with lkr := ringPut p.lkr (lookBits detail c.value (launchIdOf s g).toNat g.wgix), looks := p.looks ++ [pend] })

/-- One tap receives one term; whether it crossed. -/
def presentTerm (s : State) (id : CtxId) (look : Bool) (x : Term) : State × Bool :=
  match wgOf s id.berth with
  | none => (s, false)
  | some g =>
    match g.taps.getD x.tap none with
    | none => (s, false)
    | some t =>
      if t.look != look then (s, false)
      else
        let r := tapTerm s t x.slot x.row x.col x.x
        let s := setWg s id.berth { g with taps := g.taps.set x.tap (some r.1) }
        match r.2 with
        | some c => if crosses t.entry c then (crossing s id g t x c, true) else (s, false)
        | none => (s, false)

/-- The tap of a term holds: the record of an earlier crossing of it waits for the ring (R369). -/
def termHeld (s : State) (id : CtxId) (look : Bool) (x : Term) : Bool :=
  (wgOf s id.berth).any (fun g => (g.taps.getD x.tap none).any (fun t => t.look == look)
    && (partOf s g.part).looks.any (fun y => y.lid == g.lid && y.wgix == g.wgix && y.tap == x.tap))

/-- Present terms in order, up to the first crossing, or the first whose tap holds: the terms that are left, and whether one is held (R369). -/
def presentTerms (id : CtxId) (look : Bool) : List Term → State → State × List Term × Bool
  | [], s => (s, [], false)
  | x :: xs, s =>
    if termHeld s id look x then (s, x :: xs, true)
    else
      let r := presentTerm s id look x
      if r.2 then (r.1, xs, true) else presentTerms id look xs r.1

/-- A `look` presents the terms that it has left; it is held at a crossing, and at a term whose tap holds. -/
def lookGo (s : State) (id : CtxId) : State :=
  match ctxOf s id with
  | none => s
  | some c =>
    let r := presentTerms id true c.looking s
    modCtx r.1 id (fun c => { c with looking := r.2.1, blocked := if r.2.2 then some .ring else none })

/-! ### Instructions (R235 to R237) -/

/-- The workgroup whose taps the instruction names: under DUP the leading copy's (R212). -/
def tapHome (e : Env) : WG := (wgOf e.s (leadBerth e.id.berth e.g)).getD e.g

/-- Tap units in use on a core (R361). -/
def unitsUsed (s : State) (core : Nat) : Nat :=
  s.wgs.foldl (fun n x => if berthCore x.1 = core then n + (x.2.taps.filter (fun t => t.isSome)).length else n) 0

/-- A tap unit may have come free: contexts waiting for one ask again. -/
def wakeTaps (s : State) : State := unblockAll s (fun _ _ r => decide (r = .tapUnit))

/-- `tarm` (R235, R361). -/
def execTarm (x : FormE) (s : State) : Out :=
  issue (.tarm x) s (fun e =>
    let k := bits x.cs 2 0
    let set := fun (e : Env) (t : Option Tap) => completeNone e (wakeTaps (modWg e.s e.id.berth (fun g => { g with taps := g.taps.set k t })))
    if x.sub == 1 then countersigned e (fun e => set e none)
    else
      let p : Nat := e.av e.first
      let at_ : Nat := e.s.pkg.prbbase.toNat + 64 * p
      let entry : BitVec 512 := BitVec.ofNat 512 (paNat e.s at_ 64)
      if 255 < p then operandTrap e 0x05
      else if !hPmask e.g.hdr p then operandTrap e 0x0A
      else if locBad e.s (.hbm at_) then .next (trapHere e.s e.id (mkTrap 0x15 at_ e.head.mask))
      else if probeBad entry then operandTrap e 0x0A
      else
        countersigned e (fun e =>
          if ((tapHome e).taps.getD k none).isNone && decide (Config.tapsPerCore ≤ unitsUsed e.s (berthCore e.id.berth)) then
            .next (block e.s e.id .tapUnit)
          else set e (some { look := bitAt x.cs 3, probe := p, entry := entry, sums := [], cache := [] })))

/-- `steer` (R236, R372): a locked pair keeps its setting. -/
def execSteer (x : FormE) (s : State) : Out :=
  issue (.steer x) s (fun e =>
    let a := e.av e.first
    let slot := a % 2 ^ 16
    let k := a / 2 ^ 16 % 8
    let alpha := e.bv e.first % 2 ^ 32
    let bad := x.sub == 0 && (match decodeF fmtF32 alpha with | .fin _ => false | _ => true)
    if slot = 0xFFFF || ((tapHome e).taps.getD k none).isNone || bad then operandTrap e 0x05
    else
      countersigned e (fun e =>
        let asid := asidOf e.g
        if slotSlk (slotBits e.s asid slot) k then completeNone e e.s
        else if x.sub == 1 then completeNone e (slotBit e.s asid slot (8 + k) false)
        else completeNone e (slotSetAlpha (slotBit e.s asid slot (8 + k) true) asid slot k alpha)))

/-- Store the values of the lanes that are not suppressed, in both copies' windows under DUP. -/
def lookStore (e : Env) (s : State) (xs : List LaneAcc) : State :=
  let ws := xs.map (fun x => (x, natLe 4 (e.av x.lane)))
  let s := storeAll s e.id 4 ws
  let twin := fun (x : LaneAcc) => (windowOff e.g x).bind (peerWindow s e.g)
  let s := ws.foldl (fun s w => match twin w.1 with | some l => locWrite s l w.2 | none => s) s
  clearCovered s (ws.filterMap (fun w => (twin w.1).map (fun l => (l, w.2.length))))

/-- A rebuild launch's drains and `look.st` stores are never suppressed (R386). -/
def unsuppressed (s : State) (g : WG) : Bool := ((launchOf s g.lid).bind (fun l => l.rebuilds)).isSome

/-- The terms of a `look`: one of each active lane in order, to each tap (R362). -/
def lookTerms (e : Env) : List Term :=
  ((e.lanes.filter (fun l => decide (e.bv l % 2 ^ 16 ≠ 0xFFFF))).map (fun l => tabulate 8 (fun k =>
    { tap := k, slot := e.bv l % 2 ^ 16, row := none, line := l, col := e.bv l / 2 ^ 16 % 2 ^ 14, x := e.av l, dtag := 0 : Term }))).flatten

/-- Perform a `look`: stores, suppressed counts, then its terms. -/
def lookPerform (e : Env) (xs : List LaneAcc) : Out :=
  let asid := asidOf e.g
  let slot := fun (l : Nat) => e.bv l % 2 ^ 16
  let stopped := fun (l : Nat) => decide (slot l ≠ 0xFFFF) && slotStop (slotBits e.s asid (slot l)) && !unsuppressed e.s e.g
  let s := lookStore e e.s (xs.filter (fun x => !stopped x.lane))
  let s := xs.foldl (fun s x => if stopped x.lane then slotSuppress s asid (slot x.lane) else s) s
  match completeNone e s with
  | .next t => .next (lookGo (modCtx t e.id (fun c => { c with looking := lookTerms e })) e.id)
  | o => o

/-- `look` (R237, R370). -/
def execLook (x : FormE) (s : State) : Out :=
  issue (.look x) s (fun e =>
    if x.sub == 0 then countersigned e (fun e => lookPerform e [])
    else
      let c := checkAccess e.s e.id e.g true (e.lanes.map (fun l => (l, (e.cv l : Int)))) 4 false true
      match accessStop e e.s true c with
      | some t => .next t
      | none =>
        match c with
        | .ok xs => countersigned e (fun e => lookPerform e xs)
        | _ => .next e.s)

/-! ### Events (R367, R369) -/

/-- Write the records a ring has room for (R275, R369, R408). -/
def ringDrain (m : List Host.Cell) (r : Ring) : Nat → List Host.Cell × Ring
  | 0 => (m, r)
  | fuel + 1 =>
    match r.wait with
    | [] => (m, r)
    | x :: rest =>
      if r.cap.toNat ≤ (r.tail - r.head).toNat then (m, r)
      else
        ringDrain (cellsWriteN m (r.base.toNat + 32 * (r.tail.toNat % r.cap.toNat)) (natLe 32 x.toNat)) { r with wait := rest, tail := r.tail + 1 } fuel

/-- The next record of a ring has room but no HBM behind its place. -/
def ringUnbacked (r : Ring) : Bool :=
  !r.wait.isEmpty && decide ((r.tail - r.head).toNat < r.cap.toNat) && !paBacked (r.base.toNat + 32 * (r.tail.toNat % r.cap.toNat))

/-- A context, or the drain of a workgroup, has a crossing of its own that waits for the ring. -/
def ownCrossing (s : State) (g : WG) (w : Who) (drain : Bool) : Bool :=
  (partOf s g.part).looks.any (fun y => y.lid == g.lid && y.wgix == g.wgix && y.drain.isSome == drain && (drain || decide (y.who = w)))

/-- The drains and the `look`s of a workgroup that a tap has held go on, unless their own crossing still waits; the first of the contexts is `w`. -/
def ringWake (s : State) (b : Nat) (w : Who) : State :=
  match wgOf s b with
  | none => s
  | some g =>
    let s := if ownCrossing s g w true then s else modHead s (berthCore b) .crane (fun x => if x.berth == b then { x with ring := false } else x)
    (w :: (whos g).filter (fun v => decide (v ≠ w))).foldl (fun s v =>
      if (ctxOf s { berth := b, who := v }).any (fun c => decide (c.blocked = some .ring)) && !ownCrossing s g v false then lookGo s { berth := b, who := v } else s) s

/-- The record of a crossing is in the ring: its trap becomes pending in both copies, resident or saved (R366, R367), and what its tap held goes on,
the drain or `look` that crossed first. -/
def crossed (s : State) (y : LookPend) : State :=
  let s := match y.trap with
    | some t => modHomes s y.lid y.wgix (fun g => modCtxIn g y.who (fun c => queueLook c t))
    | none => s
  ((s.wgs.filter (fun x => x.2.lid == y.lid && x.2.wgix == y.wgix)).map (fun x => x.1)).foldl (fun s b => ringWake s b y.who) s

/-- Crossing records enter the Lookout ring while it has room (R369). -/
def execLookoutRingRecord (part : Nat) (s : State) : Out :=
  let p := partOf s part
  if ringUnbacked p.lkr then .fault .unbackedPhysical
  else
    let r := ringDrain s.hbm p.lkr p.lkr.wait.length
    let n := p.lkr.wait.length - r.2.wait.length
    .next ((p.looks.take n).foldl crossed (modPart { s with hbm := r.1 } part (fun p => { p with lkr := r.2, looks := p.looks.drop n })))

end Sys2Proof.Machine
end

