-- ==== Sys2Proof/Machine/Crane.lean ====
section
/-! DEFINITION. Crane: accumulators, matrix multiply-accumulate, drains and `accld` (R218 to R226, R57, R403). -/

namespace Sys2Proof.Machine

/-! ### Operand words and accumulators -/

/-- `QB` of a Quay operand word (R220), and the base of a residual word (R223). -/
def oBase (w : Nat) : Nat := w % 2 ^ 20
/-- `RP`. -/
def oRow (w : Nat) : Nat := w / 2 ^ 20 % 2 ^ 16
/-- `TP`, or `DSB` in the destination of an MX drain. -/
def oTile (w : Nat) : Nat := w / 2 ^ 36 % 2 ^ 20
/-- Bytes of 32 packed elements. -/
def packed32 (t : Ty) : Nat := 4 * t.width
/-- A reserved bit, or `QB` or `RP` not a multiple of 16, or `RP` below the row length (R220). `TP` is used as
written: R220 asks a multiple of 16 of it and names no trap (DESIGN CHOICE, log 67). -/
def oBad (w row : Nat) : Bool := decide (w / 2 ^ 59 % 32 ≠ 0) || decide (oBase w % 16 ≠ 0) || decide (oRow w % 16 ≠ 0) || decide (oRow w < row)
/-- First byte beyond an operand of n steps. -/
def oEnd (w n row : Nat) : Nat := oBase w + (n - 1) * oTile w + 127 * oRow w + row

/-- The accumulator that a command names. -/
def craneAcc (x : Cmd) : Nat := bits x.cs 1 0
/-- An accumulator; one that does not exist reads +0. -/
def accOf (g : WG) (n : Nat) : Acc := g.accs.getD n { rows := [], err := false, poison := false }
/-- Element (i, j). -/
def accAt (a : Acc) (i j : Nat) : Nat := ((a.rows.getD i []).getD j 0).toNat
/-- Change an accumulator in both copies (R212). -/
def modAcc (s : State) (b n : Nat) (f : Acc → Acc) : State := modBoth s b (fun g => { g with accs := g.accs.modify n f })

/-! ### Multiply-accumulate (R57, R219 to R222) -/

/-- `STEPS`. -/
def cmmaSteps (x : Cmd) : Nat := bits x.cs 19 9
/-- Types of A and B. -/
def cmmaTypes (x : Cmd) : Ty × Ty := (x.ty, (tyOfCode (bits x.cs 8 4)).getD .f16)

/-- Element k of a row packed in slots of w bits. -/
def slotElem (t : Ty) (w v k : Nat) : FVal := decodeElem t (v / 2 ^ (w * k) % 2 ^ t.width)

/-- The sum of the 32 products of a row and a column, exact, from +0 (R57). -/
def dot32 (a b : Nat → FVal) : FVal :=
  (List.range 32).foldl (fun acc k => (fvAdd .rne acc (fvMul (a k) (b k)).1).1) (.fin (exactZero false))

/-- S of a block under its scales; a scale of 0xFF makes it a NaN. -/
def scaledSum (mx : Bool) (v : FVal) (xa xb : Nat) : FVal :=
  if !mx then v else if xa = 0xFF || xb = 0xFF then .nan false else fvScale v ((xa : Int) + xb - 254)

/-- What one step reads: for each row of A and column of B its packed elements and its scale. -/
structure StepData where
  a : List Nat
  b : List Nat
  xa : List Nat
  xb : List Nat

/-- The step of the register form (R221): from the operand buffer. -/
def stepRegs (x : Cmd) : StepData :=
  let ty := cmmaTypes x
  let nA := craneRegs ty.1
  let nB := craneRegs ty.2
  let span := fun (regs : List LaneWords) => tabulate 128 (fun l => joinWords (regs.map (fun r => (laneWord r l).toNat)))
  let sc := x.opnd.getD (nA + nB) []
  { a := span (x.opnd.take nA), b := span ((x.opnd.drop nA).take nB),
    xa := tabulate 128 (fun l => (laneWord sc l).toNat % 256), xb := tabulate 128 (fun l => (laneWord sc l).toNat / 256 % 256) }

/-- The step kb of the Quay form (R220): from the issuer's window. -/
def stepQuay (s : State) (b : Nat) (g : WG) (x : Cmd) (kb : Nat) : StepData :=
  let ty := cmmaTypes x
  let rows := fun (w : Nat) (t : Ty) => tabulate 128 (fun i => winNat s b g (oBase w + kb * oTile w + i * oRow w) (packed32 t))
  let scales := fun (base : Nat) => tabulate 128 (fun i => winNat s b g (base + 128 * kb + i) 1)
  let c := x.c.toNat
  { a := rows x.a.toNat ty.1, b := rows x.b.toNat ty.2, xa := scales (c % 2 ^ 20), xb := scales (c / 2 ^ 20 % 2 ^ 20) }

/-- The window ranges that step kb reads. -/
def stepRanges (x : Cmd) (kb : Nat) : List (Nat × Nat) :=
  let ty := cmmaTypes x
  let rows := fun (w : Nat) (t : Ty) => tabulate 128 (fun i => (oBase w + kb * oTile w + i * oRow w, packed32 t))
  let c := x.c.toNat
  rows x.a.toNat ty.1 ++ rows x.b.toNat ty.2
    ++ (if ty.1.isMx then [(c % 2 ^ 20 + 128 * kb, 128), (c / 2 ^ 20 % 2 ^ 20 + 128 * kb, 128)] else [])

/-- The accumulator after one step (R57): one rounding per element. -/
def stepAcc (regs : Bool) (x : Cmd) (d : StepData) (acc : Acc) : Acc :=
  let ty := cmmaTypes x
  let wa := if regs then ty.1.slot else ty.1.width
  let wb := if regs then ty.2.slot else ty.2.width
  let as_ := d.a.map (fun v => tabulate 32 (slotElem ty.1 wa v))
  let bs := d.b.map (fun v => tabulate 32 (slotElem ty.2 wb v))
  let cell := fun (i j : Nat) =>
    let s := scaledSum ty.1.isMx (dot32 (fun k => (as_.getD i []).getD k (.nan false)) (fun k => (bs.getD j []).getD k (.nan false)))
      (d.xa.getD i 0) (d.xb.getD j 0)
    BitVec.ofNat 32 (roundIeee fmtF32 .rne 0 (fvAdd .rne (decodeF fmtF32 (accAt acc i j)) s).1).1
  { acc with rows := tabulate 128 (fun i => tabulate 128 (cell i)) }

/-- The issue checks of the Quay form (R220). -/
def cmmaCheck (e : Env) (steps : Nat) (ta tb : Ty) : Option Nat :=
  let a := e.av e.first
  let b := e.bv e.first
  let c := e.cv e.first
  let mx := ta.isMx
  if oBad a (packed32 ta) || oBad b (packed32 tb) || (mx && decide (c / 2 ^ 40 ≠ 0)) then some 0x05
  else if hQuayb e.g.hdr < oEnd a steps (packed32 ta) || hQuayb e.g.hdr < oEnd b steps (packed32 tb)
      || (mx && (decide (hQuayb e.g.hdr < c % 2 ^ 20 + 128 * steps) || decide (hQuayb e.g.hdr < c / 2 ^ 20 % 2 ^ 20 + 128 * steps))) then some 0x07
  else none

/-- Lane words of register j of a source of consecutive registers. -/
def sourceReg (vals : List Nat) (j : Nat) : LaneWords := tabulate 128 (fun l => BitVec.ofNat 32 (vals.getD l 0 / 2 ^ (32 * j)))

/-- `cmma` (R219 to R221). -/
def execCmma (x : FormE) (s : State) : Out :=
  issue (.cmma x) s (fun e =>
    let ta := x.ty
    let tb := (cmmaTb x).getD .f16
    if x.sub == 1 then
      let opnd := tabulate (craneRegs ta) (sourceReg e.a) ++ tabulate (craneRegs tb) (sourceReg e.b) ++ (if ta.isMx then [sourceReg e.c 0] else [])
      handOver .crane x 0x10 0 0 0 opnd (fun _ => .none) (fun s => s) e
    else
      match cmmaCheck e (bits x.cs 19 9) ta tb with
      | some cause => operandTrap e cause
      | none => handOver .crane x 0x10 (e.av e.first) (e.bv e.first) (e.cv e.first) [] (fun _ => .none) (fun s => s) e)

/-- `czero` (R222). -/
def execCzero (x : FormE) (s : State) : Out :=
  issue (.czero x) s (fun e => handOver .crane x 0x11 0 0 0 [] (fun _ => .none) (fun s => s) e)

/-! ### Drains (R223 to R225) -/

/-- Bytes of a destination row of a drain. -/
def drainRowBytes (t : Ty) : Nat := 16 * t.width
/-- Bytes of a residual row. -/
def residRow (w : Nat) : Nat := if w / 2 ^ 36 % 2 = 1 then 256 else 512
/-- `RMAP` as a window offset, where `RMV` is set. -/
def rowMapOf (c : Nat) : Option Nat := if c / 2 ^ 23 % 2 = 1 then some (256 * (c / 2 ^ 24 % 2 ^ 12)) else none
/-- `PKEEP`. -/
def pKeep (c : Nat) : Nat := c % 2 ^ 16
/-- `COL`. -/
def pCol (c : Nat) : Nat := c / 2 ^ 16 % 128
/-- `DTAG`. -/
def pDtag (c : Nat) : Nat := c / 2 ^ 36 % 256

/-- The issue checks of a drain (R220, R223, R224). -/
def cdrainCheck (e : Env) (x : FormE) : Option Nat :=
  let a := e.av e.first
  let b := e.bv e.first
  let c := e.cv e.first
  let res := bitAt x.sub 1
  if oBad a (drainRowBytes x.ty) || (!x.ty.isMx && decide (oTile a ≠ 0)) || (res && decide (b / 2 ^ 37 ≠ 0))
      || decide (c / 2 ^ 44 ≠ 0) || (bitAt x.sub 0 && decide (pKeep c = 0)) then some 0x05
  else if hQuayb e.g.hdr < oBase a + 127 * oRow a + drainRowBytes x.ty || (x.ty.isMx && decide (hQuayb e.g.hdr < oTile a + 512))
      || (res && decide (hQuayb e.g.hdr < oBase b + 127 * oRow b + residRow b)) then some 0x07
  else none

/-- `cdrain` (R223, R224); a row map that it names belongs to the workgroup from then on (log 19). -/
def execCdrain (x : FormE) (s : State) : Out :=
  issue (.cdrain x) s (fun e =>
    match cdrainCheck e x with
    | some cause => operandTrap e cause
    | none =>
      let c := e.cv e.first
      handOver .crane x 0x12 (e.av e.first) (e.bv e.first) c [] (fun _ => .none)
        (fun s => match rowMapOf c with
          | some m => modBoth s e.id.berth (fun g => { g with rowMaps := nsInsert m g.rowMaps })
          | none => s) e)

/-- The window ranges that a drain reads and writes. -/
def drainRanges (x : Cmd) : List (Nat × Nat) :=
  let a := x.a.toNat
  let b := x.b.toNat
  tabulate 128 (fun i => (oBase a + i * oRow a, drainRowBytes x.ty))
    ++ (if x.ty.isMx then [(oTile a, 512)] else [])
    ++ (if bitAt x.sub 1 then tabulate 128 (fun i => (oBase b + i * oRow b, residRow b)) else [])
    ++ (match rowMapOf x.c.toNat with | some m => [(m, 256)] | none => [])

/-- The window ranges that row i of a drain touches: its residual, and its elements and scales where it is not stopped. -/
def rowRanges (x : Cmd) (i : Nat) (stopped : Bool) : List (Nat × Nat) :=
  let a := x.a.toNat
  let b := x.b.toNat
  (if stopped then [] else (oBase a + i * oRow a, drainRowBytes x.ty) :: (if x.ty.isMx then [(oTile a + 4 * i, 4)] else []))
    ++ (if bitAt x.sub 1 then [(oBase b + i * oRow b, residRow b)] else [])

/-- The slot of a sampled row, and its status entry: one word each row, the slot in its reserved bits (R225, R371). -/
def sampleRow (s : State) (b : Nat) (g : WG) (x : Cmd) (i : Nat) : BitVec 512 :=
  match rowMapOf x.c.toNat with
  | none => BitVec.ofNat 512 (0xFFFF * 2 ^ 320)
  | some m =>
    let slot := rowSlot s b g m i
    if slot = 0xFFFF then BitVec.ofNat 512 (0xFFFF * 2 ^ 320)
    else BitVec.ofNat 512 (bits (slotBits s (asidOf g) slot) 319 0 + slot * 2 ^ 320)
/-- Slot of a sampled row. -/
def sampledSlot (r : BitVec 512) : Nat := bits r 335 320

/-- The random words of element (i, j) (R225). -/
def drainDraw (s : State) (g : WG) (x : Cmd) (i j : Nat) : Quad :=
  let key := mLkey g.man
  let key2 := if key / 2 ^ 63 = 1 then key - 2 ^ 63 else key + 2 ^ 63
  philox key2 { w0 := 128 * pCol x.c.toNat + j, w1 := pDtag x.c.toNat * 2 ^ 16 + i, w2 := g.wgix, w3 := (launchIdOf s g).toNat }

/-- FP32 round to nearest even. -/
def toF32 (v : FVal) : Nat := (roundIeee fmtF32 .rne 0 v).1

/-- Stages 1 and 2 (R225). -/
def drainIn (s : State) (g : WG) (x : Cmd) (acc : Acc) (i j : Nat) : Nat :=
  let v := accAt acc i j
  let c := x.c.toNat
  let v :=
    if !bitAt x.sub 0 then v
    else if (drainDraw s g x i j).w0 % 2 ^ 16 < pKeep c then
      toF32 (match (fvMul (decodeF fmtF32 v) (.fin (exactInt 65536))).1 with
        | .fin y => .fin { y with den := y.den * pKeep c }
        | w => w)
    else 0
  if !bitAt x.sub 1 then v
  else
    let w := x.b.toNat
    let o := oBase w + i * oRow w
    let r := if residRow w = 256 then winNat s x.berth g (o + 2 * j) 2 * 2 ^ 16 else winNat s x.berth g (o + 4 * j) 4
    toF32 (fvAdd .rne (decodeF fmtF32 v) (decodeF fmtF32 r)).1

/-- Stage 4: steering of one element by the taps at point drain (R225, R372). -/
def drainSteer (s : State) (g : WG) (sample : BitVec 512) (col v : Nat) : Nat :=
  if sampledSlot sample = 0xFFFF then v
  else
    (List.range 8).foldl (fun v k =>
      match g.taps.getD k none with
      | some t =>
        if pSv t.entry && slotSen sample k && decide (col < pD t.entry) then
          let p := toF32 (fvMul (decodeF fmtF32 (slotAlpha sample k)) (decodeF fmtF32 (tapElem s t (pVaddr t.entry) col))).1
          toF32 (fvAdd .rne (decodeF fmtF32 v) (decodeF fmtF32 p)).1
        else v
      | none => v) v

/-- The rounding mode of a drain. -/
def drainRm (x : Cmd) : Rm := match bits x.cs 6 4 with | 0 => .rne | 1 => .rtz | 2 => .rup | 3 => .rdn | 4 => .rna | _ => .rsr

/-- Pack element codes densely. -/
def packDense (w : Nat) (cs : List Nat) : Nat := cs.foldr (fun c v => c % 2 ^ w + 2 ^ w * v) 0

/-- Stage 5 of one row: its bytes and, for an MX type, its four scales (R54, R46, R47); under DINF an E5M2 element that overflows is an infinity
(R53, R225; log 44). -/
def drainConvert (x : Cmd) (u : Nat → Nat) (vs : List Nat) : List Byte × List Byte :=
  let rm := drainRm x
  let inf := bitAt x.cs 8
  if !x.ty.isMx then
    (natLe (drainRowBytes x.ty) (packDense x.ty.width (tabulate 128 (fun j => (convertElem x.ty .f32 rm false inf (u j) (vs.getD j 0)).1))), [])
  else
    let block := fun (b : Nat) =>
      let fs := tabulate 32 (fun k => decodeF fmtF32 (vs.getD (32 * b + k) 0))
      match mxBase x.ty fs with
      | none => (0xFF, tabulate 32 (fun _ => 0))
      | some x0 =>
        let k := if bitAt x.cs 7 then mxAuto x.ty rm x0 fs else x0
        ((k + 127).toNat, tabulate 32 (fun e => (encodeElem x.ty rm inf (u (32 * b + e)) (fvScale (fs.getD e (.nan false)) (-k))).1))
    let bs := tabulate 4 block
    (natLe (drainRowBytes x.ty) (packDense x.ty.width (bs.map (fun y => y.2)).flatten), bs.map (fun y => BitVec.ofNat 8 y.1))

/-- The terms of one row, in increasing column, to each tap (R362, R403). -/
def drainTerms (x : Cmd) (poison : Bool) (slot i : Nat) (vs : List Nat) : List Term :=
  if slot = 0xFFFF then []
  else
    (tabulate 128 (fun j => tabulate 8 (fun k =>
      { tap := k, slot := slot, row := some i, line := i, col := 128 * pCol x.c.toNat + j, x := if poison then fmtF32.nanOut else vs.getD j 0,
        dtag := pDtag x.c.toNat : Term }))).flatten

/-- The row a drain is at presents the terms it has left (stage 3): the state and whether one crossed. -/
def drainPresent (s : State) (core : Nat) (g : WG) (x : Cmd) : State × Bool :=
  let acc := accOf g (craneAcc x)
  let all := drainTerms x acc.poison (sampledSlot (x.bound.getD x.done 0)) x.done (tabulate 128 (drainIn s g x acc x.done))
  let r := presentTerms { berth := x.berth, who := x.who } false (all.drop x.term) s
  (modHead r.1 core .crane (fun y => { y with term := all.length - r.2.1.length, ring := r.2.2 }), r.2.2)

/-- The row of a sample is stopped (R225). -/
def rowStopped (s : State) (g : WG) (sample : BitVec 512) : Bool := decide (sampledSlot sample ≠ 0xFFFF) && slotStop sample && !unsuppressed s g

/-- One row of a drain after its terms: stages 1, 2 and 4 to 6, and the end of the drain after the last. -/
def drainRow (s : State) (core : Nat) (g : WG) (x : Cmd) : State :=
  let acc := accOf g (craneAcc x)
  let i := x.done
  let sample := x.bound.getD i 0
  let slot := sampledSlot sample
  let vs := tabulate 128 (drainIn s g x acc i)
  let out := drainConvert x (fun j => (drainDraw s g x i j).w0 / 2 ^ 16 % 2 ^ 16)
    (tabulate 128 (fun j => drainSteer s g sample (128 * pCol x.c.toNat + j) (vs.getD j 0)))
  let stopped := rowStopped s g sample
  let a := x.a.toNat
  let o := oBase a + i * oRow a
  let so := oTile a + 4 * i
  let resBad := bitAt x.sub 1 && winBad s x.berth g (oBase x.b.toNat + i * oRow x.b.toNat) (residRow x.b.toNat)
  let bad := acc.poison || resBad
  let s :=
    if stopped then slotSuppress s (asidOf g) slot
    else
      let s := winWrite s x.berth g o out.1 bad
      if out.2.isEmpty then s else winWrite s x.berth g so out.2 bad
  let s := modHead s core .crane (fun y =>
    let y := { y with done := i + 1, term := 0, phase := if stopped then y.phase + 1 else y.phase }
    if stopped then y else noteRange (noteRange y o out.1.length) so out.2.length)
  if i + 1 < 128 then s
  else
    let s := if bitAt x.cs 2 then modAcc s x.berth (craneAcc x) (fun a => { a with rows := [] }) else s
    endHead s core .crane 0 (x.phase + stopped.toNat)

/-- The first act of a drain: its owner checks, then one sample of the status entries of its rows (R225, R371). -/
def drainBegin (s : State) (core : Nat) (g : WG) (x : Cmd) : State :=
  if (match rowMapOf x.c.toNat with | some m => decide (hQuayb g.hdr < m + 256) | none => false) then endHead s core .crane 0x06 0
  else if (drainRanges x).any (fun r => !rangeOwned s x.berth g r.1 r.2) then endHead s core .crane 0x01 0
  else modHead s core .crane (fun y => { y with bound := tabulate 128 (sampleRow s x.berth g x) })

/-- A drain is dequeued: the taps at point drain fetch the blocks of its columns; a block with an uncorrectable error ends it (R361, R402). -/
def drainFetch (s : State) (core : Nat) (g : WG) (x : Cmd) : State :=
  let col := pCol x.c.toNat
  let bad := fun (a : Nat) => (List.range 4).any (fun k => s.hbmBad.contains ((a + 64 * k) / 64))
  let fresh := fun (t : Tap) => (tapBlocks t col).filter (fun a => !t.cache.any (fun b => b.1 == a))
  if (g.taps.filterMap (fun t => t)).any (fun t => (fresh t).any bad) then endHead s core .crane 0x07 0
  else modWg s x.berth (fun g => { g with taps := g.taps.map (fun t => t.map (fun t => (tapBlocks t col).foldl (tapFetch s) t)) })

/-! ### The crane at work -/

/-- The crane takes its next command (R211, R218): `czero` acts, a `cmma` or drain of an accumulator in error does nothing (R210). -/
def craneTake (s : State) (core : Nat) : State :=
  match headCmd s core .crane with
  | none => s
  | some x =>
    match wgOf s x.berth with
    | none => s
    | some g =>
      if x.started || x.fin.isSome || leavingWg s x.berth then s
      else
        let s := modHead s core .crane (fun x => { x with started := true })
        if x.opc = 0x11 then
          endHead (modAcc s x.berth (craneAcc x) (fun _ => { rows := [], err := false, poison := false })) core .crane 0 0
        else if (accOf g (craneAcc x)).err then endHead s core .crane 0x08 0
        else if x.opc = 0x12 then drainFetch s core g x
        else s

/-- One k-block of a `cmma` (R222): read whole, then added. -/
def craneStep (s : State) (core : Nat) : State :=
  match headCmd s core .crane with
  | none => s
  | some x =>
    match wgOf s x.berth with
    | none => s
    | some g =>
      if !x.started || x.fin.isSome || x.opc ≠ 0x10 || leavingWg s x.berth then s
      else
        let regs := x.sub == 1
        let ranges := if regs then [] else stepRanges x x.done
        if ranges.any (fun r => !rangeOwned s x.berth g r.1 r.2) then
          endHead (modAcc s x.berth (craneAcc x) (fun a => { a with err := true })) core .crane 0x01 x.done
        else
          let bad := ranges.any (fun r => winBad s x.berth g r.1 r.2)
          let d := if regs then stepRegs x else stepQuay s x.berth g x x.done
          let s := modAcc s x.berth (craneAcc x) (fun a => { stepAcc regs x d a with poison := a.poison || bad })
          let s := modHead s core .crane (fun x => { x with done := x.done + 1 })
          if cmmaSteps x ≤ x.done + 1 then endHead s core .crane 0 (x.done + 1) else s

/-- A drain goes on: its start, then one row at a time; it holds while a crossing of its own waits for the Lookout ring (R369). A row that meets a
tile which `own.thr` has taken since ends it (R199, R200). -/
def craneDrain (s : State) (core : Nat) : State :=
  match headCmd s core .crane with
  | none => s
  | some x =>
    match wgOf s x.berth with
    | none => s
    | some g =>
      if !x.started || x.fin.isSome || x.opc ≠ 0x12 then s
      else if x.bound.isEmpty then drainBegin s core g x
      else if x.ring then s
      else if (rowRanges x x.done (rowStopped s g (x.bound.getD x.done 0))).any (fun r => !rangeOwned s x.berth g r.1 r.2) then
        endHead s core .crane 0x01 x.phase
      else
        let r := drainPresent s core g x
        if r.2 then r.1 else drainRow r.1 core ((wgOf r.1 x.berth).getD g) x

/-- The crane dequeues a command (R211). -/
def execCraneDequeue (core : Nat) (s : State) : Out := .next (craneTake s core)
/-- A `cmma` completes a step (R222). -/
def execCmmaStep (core : Nat) (s : State) : Out := .next (craneStep s core)
/-- A `cdrain` goes on (R225). -/
def execCdrainExecution (core : Nat) (s : State) : Out := .next (craneDrain s core)

/-! ### `accld` (R226) -/

/-- A crane command of the workgroup that names an accumulator is not complete; a pair's commands are the leading copy's. -/
def accPending (s : State) (b : Nat) (g : WG) (n : Nat) : Bool :=
  (coreOf s (berthCore (leadBerth b g))).crane.any (fun x => x.berth == leadBerth b g && craneAcc x == n)

/-- `accld` (R226, R210, R404). -/
def execAccld (x : FormE) (s : State) : Out :=
  issue (.accld x) s (fun e =>
    let n := bits x.cs 1 0
    let col := bits x.cs 8 2
    countersigned e (fun e =>
      let a := accOf e.g n
      if accPending e.s e.id.berth e.g n then .next (block e.s e.id .accld)
      else if a.poison then
        .next (softTrap e.s e.id (mkTrap 0x15 n e.head.mask) (isDup e.g && !(((e.g.peer.bind (wgOf e.s)).map (fun h => (accOf h n).poison)).getD false)))
      else pushGate e <|
        let r := dstResult e e.active (fun l => accAt a l col)
        let push := dstEntry e (fun l => accAt a l col)
        if a.err then completeTrap e e.s r push (mkTrap 0x16 0x0800 e.head.mask)
        else complete e e.s r push none))

end Sys2Proof.Machine
end

