-- ==== Sys2Proof/Machine/BuoyArray.lean ====
section
/-! DEFINITION. BuoyArray: the buoy array (R228 to R234, R339 to R358): commands, sweeps, boundary exchange, the Plimsoll monitor. -/

namespace Sys2Proof.Machine

/-! ### Operand words (R229) -/

/-- First node of a range word. -/
def rgFirst (w : Nat) : Nat := w % 2 ^ 12
/-- Node count of a range word. -/
def rgCount (w : Nat) : Nat := w / 2 ^ 12 % 2 ^ 13
/-- A range word with count 0, or beyond the array (reason 0x2). -/
def rgBad (w : Nat) : Bool := decide (rgCount w = 0) || decide (4096 < rgFirst w + rgCount w)
/-- The nodes of a range word. -/
def rgNodes (w : Nat) : List Nat := tabulate (rgCount w) (fun k => rgFirst w + k)
/-- Bytes of a bit string of a range. -/
def rgBitBytes (w : Nat) : Nat := 4 * ((rgCount w + 31) / 32)
/-- β of a sweep word. -/
def swBeta (w : Nat) : Nat := w % 2 ^ 16
/-- Colour of phase p. -/
def swColour (w p : Nat) : Nat := w / 2 ^ (16 + 3 * p) % 8
/-- Phases of a sweep. -/
def swPhases (w : Nat) : Nat := w / 2 ^ 40 % 8 + 1
/-- Entries of a link word. -/
def lkEntries (w : Nat) : Nat := w % 2 ^ 12 + 1

/-! ### Issue (R229, R233, R244) -/

/-- The lowest reason of the buoy-configuration trap among those that apply. -/
def buoyReason (e : Env) (range : Option Nat) (sweep : Option (Nat × Nat)) (reserved : Bool) (misaligned : Bool) : Option Nat :=
  if (arrayOf e.s e.id.berth e.g).isNone then some 0x1
  else if (match range with | some w => rgBad w | none => false) then some 0x2
  else if (match sweep with | some (w, _) => decide (w / 2 ^ 10 % 32 = 31) | none => false) then some 0x3
  else if (match sweep with | some (_, n) => decide (n = 0) || decide (2 ^ 20 < n) | none => false) then some 0x4
  else if reserved then some 0x5
  else if misaligned then some 0x6
  else none

/-- Issue a buoy command: bounds of its window operand, configuration, then acceptance. `area`: bytes and alignment at the offset in SA: R229
and R230 ask for one of `byclamp` and of the coupling header alone. -/
def issueBuoy (x : FormE) (opc : Nat) (area : Option (Nat × Nat)) (range : Option Nat) (sweep : Option (Nat × Nat)) (reserved : Bool)
    (use : GlobalUse) (e : Env) : Out :=
  let a := e.av e.first
  let b := e.bv e.first
  if (match area with | some (n, _) => decide (hQuayb e.g.hdr < a + n) | none => false) then addressTrap e 0x07 a
  else
    match buoyReason e range sweep reserved (match area with | some (_, al) => decide (a % al ≠ 0) | none => false) with
    | some r => .next (trapHere e.s e.id (mkTrap 0x12 r e.head.mask))
    | none => handOver .buoy x opc a b 0 [] (fun _ => use) (fun s => s) e

/-- `bycoup` (R229, R230). -/
def execBycoup (x : FormE) (s : State) : Out := issue (.bycoup x) s (issueBuoy x 0x20 (some (64, 64)) none none false .reads)
/-- `bybias` (R229). -/
def execBybias (x : FormE) (s : State) : Out :=
  issue (.bybias x) s (fun e =>
    let w := e.bv e.first
    issueBuoy x 0x21 (some (2 * rgCount w, 1)) (some w) none (decide (w / 2 ^ 25 ≠ 0)) .none e)
/-- `byclamp` (R229, R232). -/
def execByclamp (x : FormE) (s : State) : Out :=
  issue (.byclamp x) s (fun e =>
    let w := e.bv e.first
    issueBuoy x 0x22 (some (rgBitBytes w, 4)) (some w) none (decide (w / 2 ^ 25 ≠ 0)) .none e)
/-- `byfree` (R229, R232). -/
def execByfree (x : FormE) (s : State) : Out :=
  issue (.byfree x) s (fun e =>
    let w := e.bv e.first
    issueBuoy x 0x23 none (some w) none (decide (w / 2 ^ 25 ≠ 0)) .none e)
/-- `bysweep` (R229, R231). -/
def execBysweep (x : FormE) (s : State) : Out :=
  issue (.bysweep x) s (fun e =>
    let w := e.av e.first
    issueBuoy x 0x24 none none (some (w, e.bv e.first)) (decide (w / 2 ^ 43 ≠ 0)) .reads e)
/-- `bycount` (R229, R232, R356). -/
def execBycount (x : FormE) (s : State) : Out :=
  issue (.bycount x) s (fun e =>
    let w := e.bv e.first
    issueBuoy x 0x25 (some (4 * rgCount w, 1)) (some w) none (decide (w / 2 ^ 25 ≠ 0)) .none e)
/-- `bystate` (R229, R232, R356). -/
def execBystate (x : FormE) (s : State) : Out :=
  issue (.bystate x) s (fun e =>
    let w := e.bv e.first
    issueBuoy x 0x26 (some (rgBitBytes w, 1)) (some w) none (decide (w / 2 ^ 25 ≠ 0)) .none e)
/-- `bymode` (R229, R232). -/
def execBymode (x : FormE) (s : State) : Out :=
  issue (.bymode x) s (fun e =>
    let w := e.av e.first
    issueBuoy x 0x27 none none none (decide (w / 2 ^ 32 ≠ 0) || decide (w / 2 ^ 3 % 2 ^ 13 ≠ 0)) .none e)
/-- `bybmap` (R229, R349). -/
def execBybmap (x : FormE) (s : State) : Out :=
  issue (.bybmap x) s (fun e =>
    let w := e.bv e.first
    issueBuoy x 0x28 (some (4 * lkEntries w, 1)) none none (decide (w / 2 ^ 15 ≠ 0)) .none e)

/-! ### Arrays of a launch (R349 to R352) -/

/-- Change a core's array. -/
def modBuoy (s : State) (core : Nat) (f : Buoy → Buoy) : State := modCore s core (fun c => { c with buoy := f c.buoy })

/-- The launch of the workgroup that holds an array. -/
def buoyLid (s : State) (y : Buoy) : Option Nat := (y.holder.bind (wgOf s)).map (fun g => g.lid)

/-- A saved workgroup of the launch holds the array with a logical id. -/
def idSaved (s : State) (lid id : Nat) : Bool :=
  decide (id ≠ 0xFFFF) && s.launches.any (fun l => l.lid == lid && l.saved.any (fun v => v.buoy.any (fun y => y.id.toNat == id)))

/-- Arrays that workgroups of the launch held until they retired, and that no workgroup has been placed on since. -/
def leftArrays (s : State) (lid : Nat) : List Buoy :=
  (s.cores.filter (fun c => c.2.buoy.holder.isNone && decide (c.2.buoy.owner = some lid))).map (fun c => c.2.buoy)

/-- Another array of the launch holds a logical id (R342). -/
def idTaken (s : State) (g : WG) (core id : Nat) : Bool :=
  decide (id ≠ 0xFFFF) && (idSaved s g.lid id || s.cores.any (fun c =>
    decide (c.1 ≠ core) && c.2.buoy.id.toNat == id && decide (buoyLid s c.2.buoy = some g.lid)))

/-- Change every array of a launch, resident or saved, knowing the rollback image of its workgroup. -/
def modArraysIm (s : State) (lid : Nat) (f : Option Image → Buoy → Buoy) : State :=
  let image := fun (y : Buoy) => (y.holder.bind (wgOf s)).bind (fun g => g.image)
  let s := { s with cores := s.cores.map (fun c => if buoyLid s c.2.buoy = some lid then (c.1, { c.2 with buoy := f (image c.2.buoy) c.2.buoy }) else c) }
  modLaunch s lid (fun l => { l with saved := l.saved.map (fun v => { v with buoy := v.buoy.map (f v.wg.image) }) })

/-- Change every array of a launch, resident or saved. -/
def modArrays (s : State) (lid : Nat) (f : Buoy → Buoy) : State := modArraysIm s lid (fun _ => f)

/-- Every array of a launch. -/
def arraysOf (s : State) (lid : Nat) : List Buoy :=
  (s.cores.filter (fun c => decide (buoyLid s c.2.buoy = some lid))).map (fun c => c.2.buoy)
    ++ ((s.launches.filter (fun l => l.lid == lid)).map (fun l => l.saved.filterMap (fun v => v.buoy))).flatten

/-- The lowest label that a link's reader still needs in its sweep t (R350). -/
def labelLow (l : Link) (t : Nat) : Nat := max (t - l.stale) l.base

/-- A label that a reader may still use, whatever arrives: one its present sweep has chosen, or that a REPLAY reader needs (R350, R351); and the same
for the sweep to which a rollback would return (R333). -/
def labelKept (im : Option Image) (y : Buoy) (l : Link) (k : Nat) : Bool :=
  let used := fun (t : Nat) (chosen : List (Nat × Nat)) => (y.replay && decide (labelLow l t ≤ k)) || decide (alookup l.rid chosen = some k)
  used y.sweep.toNat y.chosen || (im.bind (fun im => im.sweep)).any (fun x => used x.1.toNat x.2)

/-- A link after a label arrives: the last 8 stay, and those that the reader may still use (R351). A label sent before the link was mapped does not
replace the one captured then (R350). -/
def linkAdd (kept : Nat → Bool) (l : Link) (k : Nat) (m : BitVec 4096) : Link :=
  if k ≤ l.base then l
  else
    let all := ainsert k m l.labels
    { l with labels := (all.drop (all.length - 8)).foldr (fun x acc => ainsert x.1 x.2 acc) (all.filter (fun x => kept x.1)) }

/-- Map a link to an array: its base and its first label (R350). -/
def linkTo (l : Link) (y : Buoy) : Link := { l with base := y.sweep.toNat, labels := [(y.sweep.toNat, y.m)] }

/-- The array with a logical id among a launch's (R352): resident, saved, or left by a workgroup that has retired (R445, log 45). -/
def arrayWith (s : State) (lid id : Nat) : Option Buoy :=
  if id = 0xFFFF then none else (arraysOf s lid ++ leftArrays s lid).find? (fun y => y.id.toNat == id)

/-- A link, mapped to its array at its first use where no array had the id before (log 45). -/
def linkNow (s : State) (lid : Nat) (l : Link) : Link :=
  if l.labels.isEmpty then (match arrayWith s lid l.rid with | some y => linkTo l y | none => l) else l

/-- Some array of the launch subscribes to an id. -/
def hasReaders (s : State) (lid id : Nat) : Bool := (arraysOf s lid).any (fun y => y.links.any (fun l => l.rid == id))

/-- The counter of an array advances, and the new label goes out to its subscribers (R349, R350). -/
def sweepUp (s : State) (core lid : Nat) : State :=
  modBuoy s core (fun y =>
    let k := y.sweep + 1
    { y with sweep := k, chosen := [],
             outbox := if hasReaders s lid y.id.toNat then y.outbox ++ [(y.id.toNat, k.toNat, y.m)] else y.outbox })

/-! ### Ends of commands -/

/-- A buoy command ends; an error without a record sets the sticky error (R210). -/
def buoyEnd (s : State) (core code info : Nat) : State :=
  match headCmd s core .buoy with
  | none => s
  | some x =>
    let s := endHead (remoteDone s core) core .buoy code info
    if code ≠ 0 && x.cq.isNone && x.cqPeer.isNone then modBuoy s core (fun y => { y with err := true }) else s

/-- A sweep ends at a phase boundary (R348): a part sweep leaves its resume point. -/
def sweepStop (s : State) (core code : Nat) (x : Cmd) : State :=
  buoyEnd (modBuoy s core (sweepLeft s.cycle x)) core code x.done

/-! ### Coupling lists (R230, R344) -/

/-- A record that stands for a list in the window, or in global memory. -/
def listRec (global : Bool) : BitVec 512 := if global then 0 else BitVec.ofNat 512 (2 ^ 69 + 2 ^ 70)

/-- Read bytes of a coupling list. -/
def readList (b : Nat) (g : WG) (carry : List Nat) (global : Bool) (a n : Nat) (s : State) : SegRead :=
  readSegs b g carry (listRec global) (lineSegs (n / 64 + 2) a n) s

/-- A coupling entry. -/
def couplingOf (v : Nat) : Coupling := { nb := v % 2 ^ 12, bnd := v / 2 ^ 12 % 2 = 1, j := BitVec.ofNat 8 (v / 2 ^ 16) }
/-- A coupling entry with a reserved bit set. -/
def couplingBad (v : Nat) : Bool := decide (v / 2 ^ 13 % 8 ≠ 0) || decide (v / 2 ^ 24 ≠ 0)

/-- What reading part of a list gives. -/
inductive ListGet (α : Type) where
  | ok (x : α) (s : State)
  | err (code : Nat)
  | fault (va : Nat)
  | held (vpn : Nat)
  | wait (s : State)

/-- The words of a run of a list. -/
def listWords (b : Nat) (g : WG) (carry : List Nat) (global : Bool) (a n : Nat) (s : State) : ListGet (List Nat) :=
  match readList b g carry global a (4 * n) s with
  | .err c => .err c
  | .fault va => .fault va
  | .held v => .held v
  | .wait s => .wait s
  | .ok bs bad s => if bad then .err 0x07 else .ok (tabulate n (fun k => leNat ((bs.drop (4 * k)).take 4))) s

/-- The entries of a node whose node word lies at an address. -/
def listEntries (b : Nat) (g : WG) (carry : List Nat) (l : NodeList) (s : State) : ListGet (List Coupling) :=
  match listWords b g carry l.global l.addr 1 s with
  | .ok ws s =>
    let w := ws.headD 0
    if 64 < w % 2 ^ 7 || w / 2 ^ 10 ≠ 0 then .err 0x02
    else
      match listWords b g carry l.global (l.addr + 4) (w % 2 ^ 7) s with
      | .ok vs s => if vs.any couplingBad then .err 0x02 else .ok (vs.map couplingOf) s
      | .err c => .err c
      | .fault va => .fault va
      | .held v => .held v
      | .wait s => .wait s
  | .err c => .err c
  | .fault va => .fault va
  | .held v => .held v
  | .wait s => .wait s

/-- The node words of a coupling list: each node's colour, number of couplings and list address. -/
def listNodes (b : Nat) (g : WG) (carry : List Nat) (global : Bool) : Nat → Nat → Nat → State → ListGet (List (Nat × NodeList))
  | 0, _, _, s => .ok [] s
  | n + 1, node, a, s =>
    match listWords b g carry global a 1 s with
    | .ok ws s =>
      let w := ws.headD 0
      let k := w % 2 ^ 7
      if 64 < k || w / 2 ^ 10 ≠ 0 then .err 0x02
      else
        match listNodes b g carry global n (node + 1) (a + 4 + 4 * k) s with
        | .ok rest s =>
          .ok ((node, { colour := w / 2 ^ 7 % 8, entries := tabulate k (fun _ => ⟨0, false, 0⟩), resident := false, global := global, addr := a }) :: rest) s
        | other => other
    | .err c => .err c
    | .fault va => .fault va
    | .held v => .held v
    | .wait s => .wait s

/-- Residency over all nodes in increasing order (R344). -/
def residency : List (Nat × NodeList) → Nat → List (Nat × NodeList)
  | [], _ => []
  | x :: xs, used =>
    let n := used + x.2.entries.length
    if n ≤ 65536 then (x.1, { x.2 with resident := true }) :: residency xs n else (x.1, { x.2 with resident := false }) :: residency xs used

/-- Copy the entries of the nodes that are resident now and were not, or that the command names. -/
def copyResident (b : Nat) (g : WG) (carry : List Nat) (old : List (Nat × NodeList)) (named : Nat → Bool) : List (Nat × NodeList) → State → ListGet (List (Nat × NodeList))
  | [], s => .ok [] s
  | x :: xs, s =>
    let had := match alookup x.1 old with | some o => o.resident | none => false
    let get : ListGet (List Coupling) := if x.2.resident && (named x.1 || !had) then listEntries b g carry x.2 s else .ok x.2.entries s
    match get with
    | .ok es s =>
      match copyResident b g carry old named xs s with
      | .ok rest s => .ok ((x.1, { x.2 with entries := es }) :: rest) s
      | other => other
    | .err c => .err c
    | .fault va => .fault va
    | .held v => .held v
    | .wait s => .wait s

/-- A coupling header that breaks R230. -/
def headerBad (h : BitVec 512) : Bool :=
  decide (bits h 24 12 = 0) || decide (4096 < bits h 11 0 + bits h 24 12) || decide (bits h 31 25 ≠ 0) || decide (bits h 63 53 ≠ 0)
    || decide (bits h 511 128 ≠ 0) || decide ((if bitAt h 52 then bits h 127 64 else bits h 51 32) % 4 ≠ 0)

/-- A command waits for the answer to a fault (R277). -/
def buoyFault (s : State) (core : Nat) (g : WG) (va : Nat) : State := (engineFault s core .buoy g va false false).2

/-- `bycoup` with its header bound (R230, R344): all of it takes effect, or nothing. -/
def coupLists (s : State) (core : Nat) (g : WG) (x : Cmd) (h : BitVec 512) : State :=
    if headerBad h then buoyEnd s core 0x02 0
    else
      let first := bits h 11 0
      let n := bits h 24 12
      let global := bitAt h 52
      let y := (coreOf s core).buoy
      let stop := fun (g : WG) (r : ListGet (List (Nat × NodeList))) => match r with
        | .err c => buoyEnd s core c 0
        | .fault va => buoyFault s core g va
        | .held v => engHold s core .buoy g v
        | .wait s => s
        | .ok _ s => s
      match listNodes x.berth g x.carry global n first (if global then bits h 127 64 else bits h 51 32) s with
      | .ok new s =>
        let all := residency (new.foldl (fun ls z => ainsert z.1 z.2 ls) y.lists) 0
        match copyResident x.berth g x.carry y.lists (fun i => decide (first ≤ i) && decide (i < first + n)) all s with
        | .ok ls s => buoyEnd (modBuoy s core (fun y => { y with lists := ls, coupBad := false })) core 0 0
        | other => stop g other
      | other => stop g other

/-- `bycoup` at its dequeue: the header is bound, whole and once (R211). -/
def takeCoup (s : State) (core : Nat) (g : WG) (x : Cmd) : State :=
  let a := x.a.toNat
  match x.bound.head? with
  | some h => coupLists s core g x h
  | none =>
    if !rangeOwned s x.berth g a 64 then buoyEnd s core 0x01 0
    else if winBad s x.berth g a 64 then buoyEnd s core 0x07 0
    else
      let h : BitVec 512 := BitVec.ofNat 512 (winNat s x.berth g a 64)
      coupLists (modHead s core .buoy (fun x => { x with bound := [h] })) core g x h

/-! ### The other commands (R232, R349, R356) -/

/-- Set or clear one node's bit. -/
def nodeBit (m : BitVec 4096) (i : Nat) (v : Bool) : BitVec 4096 := if v then m ||| (1#4096 <<< i) else m &&& ~~~(1#4096 <<< i)

/-- Read a command's window operand, every byte engine-owned (R217). -/
def buoyRead (s : State) (core : Nat) (g : WG) (x : Cmd) (n : Nat) (act : List Byte → State) : State :=
  if rangeOwned s x.berth g x.a.toNat n then act (winRead s x.berth g x.a.toNat n) else buoyEnd s core 0x01 0

/-- Write a command's window operand. -/
def buoyWrite (s : State) (core : Nat) (g : WG) (x : Cmd) (bs : List Byte) : State :=
  if rangeOwned s x.berth g x.a.toNat bs.length then
    buoyEnd (modHead (winWrite s x.berth g x.a.toNat bs false) core .buoy (fun x => noteRange x x.a.toNat bs.length)) core 0 0
  else buoyEnd s core 0x01 0

/-- `bymode` (R232, R342, R343, R352). -/
def takeMode (s : State) (core : Nat) (g : WG) (x : Cmd) : State :=
  let w := x.a.toNat
  let id := w / 2 ^ 16 % 2 ^ 16
  let y := (coreOf s core).buoy
  if (bitAt g.mode 3 && w % 2 = 0) || idTaken s g core id then buoyEnd s core 0x02 0
  else
    let reset := w / 4 % 2 = 1
    let s := if reset && y.id ≠ 0xFFFF then
        modArrays s g.lid (fun r => { r with links := r.links.map (fun l => if l.rid = y.id.toNat then { l with base := 0, labels := [(0, y.m)] } else l) })
      else s
    let s := modBuoy s core (fun y =>
      let y := if y.replay && w % 2 = 0 then monitorStart y else y
      { y with replay := decide (w % 2 = 1), cnt := if w / 2 % 2 = 1 then [] else y.cnt, sweep := if reset then 0 else y.sweep,
               outbox := if reset then [] else y.outbox, id := BitVec.ofNat 16 id })
    buoyEnd s core 0 0

/-- `bybmap` (R230, R349, R350). -/
def takeMap (s : State) (core : Nat) (g : WG) (x : Cmd) : State :=
  let n := lkEntries x.b.toNat
  buoyRead s core g x (4 * n) (fun bs =>
    let es := tabulate n (fun k => leNat ((bs.drop (4 * k)).take 4))
    if winBad s x.berth g x.a.toNat (4 * n) then buoyEnd s core 0x07 0
    else if es.any (fun v => decide (v / 2 ^ 28 ≠ 0)) then buoyEnd s core 0x02 0
    else
      let map := es.map (fun v => (v % 2 ^ 12, v / 2 ^ 12 % 2 ^ 16))
      let link := fun (id : Nat) => linkNow s g.lid { rid := id, stale := x.b.toNat / 2 ^ 12 % 8, base := 0, labels := [] }
      buoyEnd (modBuoy s core (fun y => { y with bmap := map, links := (map.map (fun p => p.2)).eraseDups.map link })) core 0 0)

/-- `bysweep` at its dequeue (R231, R232, R348). -/
def takeSweep (s : State) (core : Nat) (g : WG) (x : Cmd) : State :=
  let y := (coreOf s core).buoy
  if y.offline && !y.replay then buoyEnd s core 0x0C 0
  else
    let start := fun (s : State) (p : Nat) =>
      modHead (modBuoy s core (fun y => { y with resume := none })) core .buoy (fun x => { x with started := true, phase := p })
    match y.resume with
    | none => start s 0
    | some (w, p) => if w = x.a then start s p else start (sweepUp s core g.lid) 0

/-- The array takes its next command (R210, R211). -/
def buoyTake (s : State) (core : Nat) : State :=
  match headCmd s core .buoy with
  | none => s
  | some x =>
    match wgOf s x.berth with
    | none => s
    | some g =>
      if x.started || x.fin.isSome || x.wait.isSome || x.rebuild.isSome || leavingWg s x.berth then s
      else if (coreOf s core).buoy.err && x.cq.isSome then
        modBuoy (endHead s core .buoy 0x08 0) core (fun y => { y with err := false })
      else
        let w := x.b.toNat
        match x.opc with
        | 0x20 => takeCoup s core g x
        | 0x21 => buoyRead s core g x (2 * rgCount w) (fun bs =>
            buoyEnd (modBuoy s core (fun y =>
              { y with h := (rgNodes w).foldl (fun h i => ainsert i (BitVec.ofNat 16 (leNat ((bs.drop (2 * (i - rgFirst w))).take 2))) h) y.h })) core 0 0)
        | 0x22 => buoyRead s core g x (rgBitBytes w) (fun bs =>
            let v := leNat bs
            buoyEnd (modBuoy s core (fun y =>
              { y with m := (rgNodes w).foldl (fun m i => nodeBit m i (decide (v / 2 ^ (i - rgFirst w) % 2 = 1))) y.m,
                       clamp := (rgNodes w).foldl (fun m i => nodeBit m i true) y.clamp })) core 0 0)
        | 0x23 => buoyEnd (modBuoy s core (fun y => { y with clamp := (rgNodes w).foldl (fun m i => nodeBit m i false) y.clamp })) core 0 0
        | 0x24 => takeSweep s core g x
        | 0x25 =>
          let y := (coreOf s core).buoy
          let s' := buoyWrite s core g x ((rgNodes w).map (fun i => natLe 4 (agetD 0 i y.cnt).toNat)).flatten
          if x.sub = 1 && rangeOwned s x.berth g x.a.toNat (4 * rgCount w) then
            modBuoy s' core (fun y => { y with cnt := y.cnt.filter (fun c => !(decide (rgFirst w ≤ c.1) && decide (c.1 < rgFirst w + rgCount w))) })
          else s'
        | 0x26 => buoyWrite s core g x (natLe (rgBitBytes w) ((coreOf s core).buoy.m.toNat / 2 ^ rgFirst w % 2 ^ rgCount w))
        | 0x27 => takeMode s core g x
        | _ => takeMap s core g x

/-! ### The Plimsoll monitor (R234, R353 to R355) -/

/-- Draws of each source in a window of the monitor. -/
def windowDraws : Nat := 65536

/-- Of a node's draws in a window, those in which the window's bit is 1 (R353). -/
def onesIn (core : Nat) (y : Buoy) (node : Nat) : Nat :=
  ((List.range windowDraws).filter (fun k => (Config.noise core node (y.winStart + k)).getLsbD (y.window % 16))).length

/-- A count of ones outside the limits. -/
def countFails (n : Nat) : Bool := decide (n < 31744) || decide (33792 < n)

/-- The lowest node whose count in the present window lies outside the limits. -/
def failingNode (core : Nat) (y : Buoy) : Option Nat := (List.range 4096).find? (fun n => countFails (onesIn core y n))

/-- A `bymode` with REPLAY = 1 is accepted, and no sweep comes before it (R443). -/
def replayNext (q : List Cmd) : Bool :=
  match q.find? (fun x => x.opc == 0x24 || (x.opc == 0x27 && decide (x.a.toNat % 2 = 1))) with
  | some x => x.opc == 0x27
  | none => false

/-- The monitor of a core's array runs. -/
def monitorRuns (c : Core) : Bool := c.buoy.holder.isSome && !c.buoy.offline && !c.buoy.replay && !c.buoy.calBusy && !replayNext c.buoyQ

/-- A monitor fault: during a physical sweep its command ends and the trap follows its record; otherwise the trap is pending at once. -/
def monitorFault (s : State) (core node : Nat) : State :=
  let y := (coreOf s core).buoy
  let s := modBuoy s core (fun y => monitorStart { y with offline := true })
  let outside := match y.holder with
    | some b => biasTrap s b (2 ^ 35 + node * 2 ^ 36)
    | none => s
  match headCmd s core .buoy with
  | none => outside
  | some x =>
    if x.opc = 0x24 && x.started && x.fin.isNone then
      let s := sweepStop s core 0x0A x
      modHead s core .buoy (fun y =>
        { y with fin := some (0x0A, x.done, true), wait := none, c := BitVec.ofNat 64 (x.done % 2 ^ 32 + x.phase * 2 ^ 32 + node * 2 ^ 36) })
    else outside

/-- A window of the monitor closes: the array is faulted, or the next window starts (R353). -/
def closeWindow (s : State) (core : Nat) : State :=
  match failingNode core (coreOf s core).buoy with
  | some n => monitorFault s core n
  | none => modBuoy s core (fun y =>
      { y with window := y.window + 1, winStart := y.winStart + windowDraws, draws := max y.draws (y.winStart + windowDraws) })

/-! ### Sweeps (R231, R340 to R342, R346, R350) -/

/-- P of a node (R340): the sigmoid is rounded to FP32 (R41), then 65,536 times it to an integer. -/
def nodeP (beta : Nat) (i : Int) : Nat :=
  match decodeF fmtF32 (unFun .sigm fmtF32 .rne 0 (decodeF fmtF32 (toF32 (fvMul (decodeF fmtF16 beta) (.fin (exactInt i))).1))).1 with
  | .fin y => min 65535 ((roundInt .rne 0 { y with num := 65536 * y.num }).1).toNat
  | _ => 32768

/-- How a sweep reads a remote array (R350, R352). -/
inductive LabelOf where
  | use (k : Nat) (m : BitVec 4096)
  | stall
  | none

/-- A label of an id is on its way to the arrays of a launch. -/
def labelComing (s : State) (lid id : Nat) : Bool := s.cores.any (fun c => decide (c.2.buoy.owner = some lid) && c.2.buoy.outbox.any (fun z => z.1 == id))

/-- The label for a remote id in sweep t: the one the sweep has chosen, else by R350. Labels that have arrived stay, whatever becomes of the array that
sent them (R445, log 45); where none of them serves, the reader waits for the next one, or ends where no array holds the id (R352). -/
def labelFor (s : State) (lid : Nat) (y : Buoy) (t id : Nat) : LabelOf :=
  let without : LabelOf := if (arrayWith s lid id).isNone && !labelComing s lid id then .none else .stall
  match y.links.find? (fun l => l.rid == id) with
  | none => without
  | some l =>
    let l := linkNow s lid l
    let lo := labelLow l t
    let pick := match (alookup id y.chosen).bind (fun k => (alookup k l.labels).map (fun m => (k, m))) with
      | some z => some z
      | none =>
        if y.replay then (alookup lo l.labels).map (fun m => (lo, m))
        else (l.labels.filter (fun z => decide (lo ≤ z.1))).getLast?
    match pick with
    | some (k, m) => .use k m
    | none => without

/-- The couplings that a phase uses: streamed nodes read their lists again (R344). -/
def gatherNodes (b : Nat) (g : WG) (carry : List Nat) (y : Buoy) : List Nat → State → ListGet (List (Nat × List Coupling))
  | [], s => .ok [] s
  | i :: is, s =>
    let get : ListGet (List Coupling) := match alookup i y.lists with
      | none => .ok [] s
      | some l => if l.resident then (if y.coupBad && !l.entries.isEmpty then .err 0x07 else .ok l.entries s) else listEntries b g carry l s
    match get with
    | .ok es s =>
      match gatherNodes b g carry y is s with
      | .ok rest s => .ok ((i, es) :: rest) s
      | other => other
    | .err c => .err c
    | .fault va => .fault va
    | .held v => .held v
    | .wait s => .wait s

/-- The array holds back a sweep that a REPLAY reader is too far behind for (R351). -/
def heldBack (s : State) (lid : Nat) (y : Buoy) : Bool :=
  (arraysOf s lid).any (fun r => r.replay && r.links.any (fun l =>
    l.rid == y.id.toNat && decide (y.id ≠ 0xFFFF) && !l.labels.isEmpty && decide (labelLow l r.sweep.toNat + 7 < y.sweep.toNat)))

/-- A phase waits: its cycles are stall from now on (R347). -/
def phaseStall (s : State) (core : Nat) : State := modBuoy s core (fun y => { y with stallFrom := some (y.stallFrom.getD s.cycle) })

/-- A phase waits for its lists: that is no stall (R347). -/
def phaseHeld (s : State) (core : Nat) : State := modBuoy s core (stallEnd s.cycle)

/-- The node state a coupling reads. -/
def neighbour (y : Buoy) (labels : List (Nat × BitVec 4096)) (c : Coupling) : Bool :=
  if c.bnd then
    match y.bmap[c.nb]? with
    | some (n, id) => bitAt (agetD 0 id labels) n
    | none => false
  else bitAt y.m c.nb

/-- The uniform of a node's update (R341, R342). -/
def nodeUniform (core : Nat) (g : WG) (y : Buoy) (p i : Nat) : Nat :=
  if y.replay then
    (philox (Nat.xor (mLkey g.man) (2 ^ 62)) { w0 := i, w1 := (8 * y.sweep.toNat + p) % 2 ^ 32, w2 := y.id.toNat, w3 := 0 }).w0 % 2 ^ 16
  else (Config.noise core i y.draws).toNat

/-- Update the nodes of a phase at once from the states at its start (R340, R346). -/
def updateNodes (core : Nat) (g : WG) (y : Buoy) (labels : List (Nat × BitVec 4096)) (beta p : Nat) (ns : List (Nat × List Coupling)) : Buoy :=
  let one := fun (n : Nat × List Coupling) =>
    let i : Int := signedOf 16 (agetD 0 n.1 y.h).toNat
      + n.2.foldl (fun a c => a + signedOf 8 c.j.toNat * (if neighbour y labels c then 1 else -1)) 0
    (n.1, decide (nodeUniform core g y p n.1 < nodeP beta i))
  let new := ns.map one
  { y with m := new.foldl (fun m n => nodeBit m n.1 n.2) y.m,
           cnt := new.foldl (fun c n => if n.2 then ainsert n.1 (agetD 0 n.1 c + 1) c else c) y.cnt,
           draws := y.draws + 1 }

/-- After a phase (R231): the next one, the next sweep, or the end of the command. -/
def phaseDone (s : State) (core : Nat) (g : WG) (x : Cmd) : State :=
  if x.phase + 1 < swPhases x.a.toNat then modHead s core .buoy (fun x => { x with phase := x.phase + 1 })
  else
    let s := modHead (sweepUp s core g.lid) core .buoy (fun x => { x with phase := 0, done := x.done + 1 })
    if x.b.toNat ≤ x.done + 1 then buoyEnd s core 0 (x.done + 1) else s

/-- One colour phase. -/
def phaseRun (s : State) (core : Nat) (g : WG) (x : Cmd) : State :=
  let y := (coreOf s core).buoy
  let c := swColour x.a.toNat x.phase
  let nodes := (List.range 4096).filter (fun i => !bitAt y.clamp i && (((alookup i y.lists).map (fun l => l.colour)).getD 0) == c)
  match gatherNodes x.berth g x.carry y nodes s with
  | .err c => sweepStop s core c x
  | .fault va => buoyFault (phaseHeld s core) core g va
  | .held v => engHold (phaseHeld s core) core .buoy g v
  | .wait s => phaseHeld s core
  | .ok ns s =>
    let bnd := (ns.map (fun n => (n.2.filter (fun c => c.bnd)).map (fun c => c.nb))).flatten.eraseDups
    if bnd.any (fun k => decide (y.bmap.length ≤ k)) then sweepStop s core 0x04 x
    else
      let ids := (bnd.filterMap (fun k => (y.bmap[k]?).map (fun m => m.2))).eraseDups
      let picks := ids.map (fun id => (id, labelFor s g.lid y y.sweep.toNat id))
      if picks.any (fun p => match p.2 with | .none => true | _ => false) then sweepStop s core 0x0B x
      else if picks.any (fun p => match p.2 with | .stall => true | _ => false) then phaseStall s core
      else
        let labels := picks.filterMap (fun p => match p.2 with | .use _ m => some (p.1, m) | _ => none)
        let chosen := picks.filterMap (fun p => match p.2 with | .use k _ => some (p.1, k) | _ => none)
        let s := remoteDone s core
        phaseDone (modBuoy s core (fun y =>
          { updateNodes core g y (labels.foldl (fun a p => ainsert p.1 p.2 a) []) (swBeta x.a.toNat) x.phase ns with
            links := y.links.map (fun l => if ids.contains l.rid then linkNow s g.lid l else l), chosen := chosen.foldl (fun a p => ainsert p.1 p.2 a) y.chosen,
            stall := (stallEnd s.cycle y).stall, stallFrom := none }))
          core g x

/-- The array updates one colour of its sweep (R231). -/
def buoyPhase (s : State) (core : Nat) : State :=
  match headCmd s core .buoy with
  | none => s
  | some x =>
    match wgOf s x.berth with
    | none => s
    | some g =>
      let y := (coreOf s core).buoy
      if !x.started || x.fin.isSome || x.wait.isSome || x.rebuild.isSome || x.opc ≠ 0x24 || leavingWg s x.berth then s
      else if monitorRuns (coreOf s core) && decide (y.winStart + windowDraws ≤ y.draws) then closeWindow s core
      else if y.offline && !y.replay then sweepStop s core 0x0C x
      else if x.phase = 0 && heldBack s g.lid y then phaseStall s core
      else phaseRun s core g x

/-- The oldest states in flight from an array arrive at its subscribers (R349). -/
def labelArrives (s : State) (core : Nat) : State :=
  let y := (coreOf s core).buoy
  match y.outbox, y.owner with
  | (id, k, m) :: rest, some lid =>
    modArraysIm (modBuoy s core (fun y => { y with outbox := rest })) lid (fun im r =>
      { r with links := r.links.map (fun l => if l.rid = id && !l.labels.isEmpty then linkAdd (labelKept im r l) l k m else l) })
  | _, _ => s

/-- Everything in flight from an array arrives, before a workgroup is placed on it. -/
def labelsArrive (s : State) (core : Nat) : State := (coreOf s core).buoy.outbox.foldl (fun s _ => labelArrives s core) s

/-- The array dequeues a command (R211). -/
def execBuoyDequeue (core : Nat) (s : State) : Out := .next (buoyTake s core)
/-- A colour phase (R231). -/
def execColourPhase (core : Nat) (s : State) : Out := .next (buoyPhase s core)
/-- Boundary states arrive (R349). -/
def execBoundaryUpdate (core : Nat) (s : State) : Out := .next (labelArrives s core)
/-- The monitor's present window, of index w, closes (R353). -/
def execPlimsollWindow (core w : Nat) (s : State) : Out :=
  .next (if monitorRuns (coreOf s core) && decide (w = (coreOf s core).buoy.window) then closeWindow s core else s)

end Sys2Proof.Machine
end

