-- ==== Sys2Proof/Machine/Revision.lean ====
section
/-! DEFINITION. Revision: regions, forks, joins and discards (R239 to R243), page copies (R282), merges (R285 to R295), and the end of a
launch by harbour software (R304), which a discard performs on its child. -/

namespace Sys2Proof.Machine

/-! ### Launches that end early (R304) -/

/-- Berths of a launch's workgroups. -/
def launchBerths (s : State) (lid : Nat) : List Nat := (s.wgs.filter (fun x => x.2.lid == lid)).map (fun x => x.1)

/-- A completion queue of a saved command outlives its workgroup: it does not lie in its window. -/
def outlivesSaved (q : Binding) : Bool := decide (2 ≤ max q.psc.toNat q.csc.toNat) && q.win.isNone

/-- The commands of a saved workgroup that ends are cancelled (R209, R304): their records go to the queues that outlive it, from the queue's core. -/
def cancelSaved (s : State) (v : Saved) : State :=
  v.cmds.foldl (fun s c =>
    let place := fun (q : Binding) => if outlivesSaved q then moveBind s v.wg.part 0 0 q else none
    let x := { c.2 with cq := c.2.cq.bind (fun q => (place q.2).map (fun p => (q.1, p))), cqPeer := c.2.cqPeer.bind place }
    match recordQueues x with
    | q :: _ => modCore s (q.desc / 2 ^ 20) (fun c => { c with cancelled := c.cancelled ++ [x] })
    | [] => s) s

/-- End a launch in any state (R304): its workgroups go without save, with everything they staged, their commands end with 0x09, and it
completes with status 3. -/
def endLaunch (s : State) (lid : Nat) : State :=
  match launchOf s lid with
  | none => s
  | some l =>
    if l.state = .completed || (decide (l.state = .completing) && decide (l.status = 3)) then s
    else
      let s := l.saved.foldl cancelSaved ((launchBerths s lid).foldl endBerth s)
      let s := match gangOf s lid with | some y => dropGang s y.1 | none => s
      modLaunch (disownRemote s lid) lid (fun l =>
        { l with state := .completing, status := 3, done := { l.done with status := false }, undealt := mNwg l.man, chunks := [], saved := [], aborted := [], ended := [], dealDue := false })

/-! ### Handles (R289) -/

/-- A revision is merged or settled. -/
def revOver (r : Rev) : Bool := match r.state with | .merged _ | .settled => true | _ => false

/-- Children of a workgroup that are not settled (R240). -/
def unsettled (s : State) (b : Nat) (g : WG) : Nat :=
  (s.revs.filter (fun x => x.2.lid == g.lid && x.2.wgix == g.wgix && decide (x.2.state ≠ .settled))).length
    + ((stagingOf s b g).filter (fun r => match r.op with | .fork _ _ _ _ => true | _ => false)).length

/-- A workgroup is neither resident, saved, aborted nor still to be placed. -/
def wgGone (s : State) (l : Launch) (wgix : Nat) : Bool :=
  (l.retired.contains wgix || decide (l.state = .completing) || decide (l.state = .completed)) && !(s.wgs.any (fun x => x.2.lid == l.lid && x.2.wgix == wgix))

/-- Change a revision. -/
def modRev (s : State) (rid : Nat) (f : Rev → Rev) : State := { s with revs := s.revs.map (fun x => if x.1 = rid then (x.1, f x.2) else x) }

/-- A revision leaves the sorting office: its pages are freed and its reservation returns to the budget (R283). -/
def closeRev (s : State) (rid : Nat) (st : HandleState) : State :=
  match alookup rid s.revs with
  | none => s
  | some r =>
    modLaunch (modRev s rid (fun r => { r with state := st, childPages := [], ancPages := [], reserved := 0, merging := none })) r.lid
      (fun l => { l with budget := l.budget + r.reserved })

/-! ### Instructions (R239 to R242) -/

/-- `region` (R239). -/
def execRegion (x : FormE) (s : State) : Out :=
  issue (.region x) s (fun e =>
    let base := e.av 0
    let size := e.bv 0
    let n := bits x.cs 3 0
    let ty := bits x.cs 7 4
    let clash := ((tabulate 16 (fun k => k)).zip e.g.pilot.regions).any (fun r => decide (r.1 ≠ n) && (match r.2 with
      | some r => overlaps base size r.base.toNat r.size.toNat
      | none => false))
    if base % pageSize ≠ 0 || size % pageSize ≠ 0 || !isGlobal base || clash || 0xC < ty then operandTrap e 0x05
    else
      countersigned e (fun e =>
        let entry : Option Region := if size = 0 then none else some { base := BitVec.ofNat 64 base, size := BitVec.ofNat 64 size, mtype := BitVec.ofNat 4 ty }
        completeNone e (modBoth e.s e.id.berth (fun g => { g with pilot := { g.pilot with regions := g.pilot.regions.set n entry } }))))

/-- Pages that a fork reserves (R283). -/
def forkPages (rs : List (Option Region)) : Nat := 2 * (rs.foldl (fun n r => match r with | some r => n + r.size.toNat / pageSize | none => n) 0)

/-- Status of a fork (R240); the lowest that applies. -/
def forkStatus (s : State) (b : Nat) (g : WG) (m : BitVec 2048) : Nat :=
  let st := spawnStatus s g.part m
  if (((launchOf s g.lid).map (fun l => l.budget)).getD 0) < forkPages g.pilot.regions then 1
  else if quotaFull s g.part then 2
  else if st = 2 || st = 3 then 3
  else if 255 ≤ unsettled s b g then 4
  else 0

/-- The snapshot instant (R281): the revision starts and the child launch is submitted. -/
def forkNow (s : State) (lid part wgix h : Nat) (man : BitVec 2048) (addr : DWord) (regions : List (Option Region)) : State :=
  match launchOf s lid with
  | none => s
  | some l =>
    let r : Rev := { asid := mAsid l.man, lid := lid, wgix := wgix, handle := h, outer := l.view, child := s.nextLaunch, regions := regions,
                     childPages := [], ancPages := [], state := .running, reserved := forkPages regions, merging := none }
    let rid := s.nextRev
    submit { s with revs := s.revs ++ [(rid, r)], nextRev := rid + 1 } part man (some rid) none addr.toNat

/-- Perform a fork, or stage it until its place in release order (R240, R293). -/
def forkPerform (e : Env) (m : BitVec 2048) : Out :=
  let st := forkStatus e.s e.id.berth e.g m
  let addr : DWord := BitVec.ofNat 64 (e.av 0)
  if st ≠ 0 then completeVals e e.s e.active (fun _ => st * 2 ^ 32)
  else if stages e && areaFull e 1 then .next (block e.s e.id .staging)
  else
    let h := e.g.pilot.lastHandle + 1
    let regions := e.g.pilot.regions
    let given := fun (s : State) =>
      let s := modLaunch s e.g.lid (fun l => { l with budget := l.budget - forkPages regions })
      modBoth s e.id.berth (fun g => { g with pilot := { g.pilot with lastHandle := h } })
    if stages e then completeVals e (modWg (given e.s) (leadBerth e.id.berth e.g) (fun g => stageOp g e.id.who 0 (pointOf e.s e.id) (.fork h m addr regions))) e.active (fun _ => h)
    else storesOut e (fun s => completeVals e (forkNow (given s) e.g.lid e.g.part e.g.wgix h m addr regions) e.active (fun _ => h))

/-- A copy that receives a fork's result has its handle as the last one given (R240, R334). -/
def handleCopied (e : Env) (got : Shared) : State :=
  let v := match got.res.scalar, got.push with
    | some (_, v), _ => v.toNat
    | none, some q => leNat q.bytes
    | none, none => 0
  if v / 2 ^ 32 = 0 then modWg e.s e.id.berth (fun g => { g with pilot := { g.pilot with lastHandle := max g.pilot.lastHandle v } }) else e.s

/-- `fork` (R240). -/
def execFork (x : FormE) (s : State) : Out :=
  issue (.fork x) s (fun e =>
    let c := checkPlaced e.s e.id e.g (manifestLines e) 64 true false
    match accessStop e e.s false c with
    | some t => .next t
    | none =>
      match c with
      | .remote xs => .next (sendReads e.s e.id 64 xs)
      | .ok xs =>
        match (ctxIn e.g e.id.who).bind (fun c => c.copied) with
        | some got => pushGate e (complete e (handleCopied e got) got.res got.push got.waits)
        | none => countersigned e (fun e => pushGate e <| awaitAcks e <| forkPerform { e with s := fillTlb e.s e.id e.g xs } (demote (manifestRead e xs 0) (mPrio e.g.man)))
      | _ => .next e.s)

/-- Under DET a join that waits has a place among the staged records of its workgroup (R293). -/
def joinPlace (e : Env) (h : Nat) : State :=
  let marked := (stagingOf e.s e.id.berth e.g).any (fun r => match r.op with | .join k => k == h | _ => false)
  if isDet e.g && !marked then modWg e.s (leadBerth e.id.berth e.g) (fun g => stageOp g e.id.who 0 (pointOf e.s e.id) (.join h)) else e.s

/-- `join` (R241, R289). -/
def execJoin (x : FormE) (s : State) : Out :=
  issue (.join x) s (fun e =>
    let h := e.av 0
    if handleRefused e h then operandTrap e 0x05
    else
      countersigned e (fun e =>
        match revOfHandle e.s e.g.lid e.g.wgix h with
        | some (rid, r) =>
          match r.state with
          | .merged st => pushGate e <| completeVals e (closeRev e.s rid .settled) e.active (fun _ => st)
          | _ => .next (block (joinPlace e h) e.id (.join h))
        | none => .next (block (joinPlace e h) e.id (.join h))))

/-- A merge of a child or of an unsettled descendant of it is under way. -/
def treeMerging : Nat → State → Nat → Bool
  | 0, _, _ => false
  | fuel + 1, s, rid =>
    (alookup rid s.revs).any (fun r => r.merging.isSome
      || (s.revs.filter (fun x => x.2.lid == r.child && decide (x.2.state ≠ .settled))).any (fun x => treeMerging fuel s x.1))

/-- A revision lies under another, or is it. -/
def liesUnder : Nat → State → Nat → Nat → Bool
  | 0, _, _, _ => false
  | fuel + 1, s, rid, top =>
    rid == top || (alookup rid s.revs).any (fun r => (s.revs.filter (fun x => x.2.child == r.lid)).any (fun x => liesUnder fuel s x.1 top))

/-- Drop a child and its unsettled descendants (R242), innermost first; a merge is never interrupted (R213, R296): what is being merged stays, and
what it belongs to, with its launch ended. -/
def dropRev : Nat → State → Nat → State
  | 0, s, _ => s
  | fuel + 1, s, rid =>
    match alookup rid s.revs with
    | none => s
    | some r =>
      let s := endLaunch (((s.revs.filter (fun x => x.2.lid == r.child && decide (x.2.state ≠ .settled))).map (fun x => x.1)).foldl (dropRev fuel) s) r.child
      if treeMerging (fuel + 1) s rid then s else closeRev s rid .settled

/-- `discard` (R242): of a staged fork it waits for the fork's release, and where the child or a descendant is being merged for the end of the merge
(R296). -/
def execDiscard (x : FormE) (s : State) : Out :=
  issue (.discard x) s (fun e =>
    let h := e.av 0
    if handleRefused e h then operandTrap e 0x05
    else
      countersigned e (fun e =>
        match revOfHandle e.s e.g.lid e.g.wgix h with
        | some (rid, r) =>
          if r.merging.isSome then .next (block e.s e.id (.join h))
          else
            let fuel := e.s.nextRev + 1
            let s := dropRev fuel e.s rid
            if treeMerging fuel s rid then .next (block s e.id (.join h)) else pushGate e <| completeVals e s e.active (fun _ => 0)
        | none => .next (block e.s e.id .releaseHead)))

/-! ### Page copies (R282) -/

/-- The sorting office copies a page that an access waits for, and its waiters go on. -/
def pageCopied (s : State) (rev page : Nat) (child : Bool) : State :=
  let waits := s.wgs.any (fun x => (whos x.2).any (fun w => ((ctxIn x.2 w).bind (fun c => c.blocked)) == some (.copy rev page child)))
  match alookup rev s.revs with
  | none => s
  | some r =>
    if !waits then s
    else
      let s := match walk s r.asid (page * pageSize) with
        | some (e, size) => copyPage s rev page child (ePa e + page * pageSize % size)
        | none => s
      unblockAll s (fun _ _ b => decide (b = .copy rev page child))

/-- A page copy is made (R282). -/
def execPageCopy (rev page : Nat) (childSide : Bool) (s : State) : Out := .next (pageCopied s rev page childSide)

/-! ### Merging (R285 to R288, R295) -/

/-- The bytes and the poison of one version at an offset of a region; `side`: none for P, the revision's own views for C and A. -/
structure Version where
  view : Option Nat
  anc : Bool

/-- Where a version of an address lies. -/
def versionLoc (s : State) (rid : Nat) (v : Version) (va pa : Nat) : Loc :=
  if v.anc then
    if (revPage s rid false (va / pageSize)).isSome then .page rid false (va / pageSize) (pa % pageSize) else viewLoc s v.view va pa
  else viewLoc s v.view va pa

/-- Physical address of an address, whatever its permissions. -/
def rawPa (s : State) (asid va : Nat) : Option Nat := (walk s asid va).map (fun x => ePa x.1 + va % x.2)

/-- n bytes of a version, by one run within a page. -/
def versionRun (s : State) (r : Rev) (rid : Nat) (v : Version) (va n : Nat) : List Byte × Bool :=
  match rawPa s r.asid va with
  | some pa => let l := versionLoc s rid v va pa; (locRead s l n, (List.range ((va % 64 + n + 63) / 64)).any (fun k => locBad s (locAdd l (64 * k))))
  | none => ([], false)

/-- n bytes of a version across pages. -/
def versionRead (s : State) (r : Rev) (rid : Nat) (v : Version) : Nat → Nat → Nat → List Byte × Bool
  | 0, _, _ => ([], false)
  | fuel + 1, va, n =>
    if n = 0 then ([], false)
    else
      let m := min n (pageSize - va % pageSize)
      let a := versionRun s r rid v va m
      let b := versionRead s r rid v fuel (va + m) (n - m)
      (a.1 ++ b.1, a.2 || b.2)

/-- Merge of one element (R286). -/
def mergeElem (ty a p c : Nat) : Nat :=
  let i32 := fun (x : Nat) => signedOf 32 x
  match ty with
  | 0x1 => c
  | 0x2 => (p + c + 2 ^ 32 - a) % 2 ^ 32
  | 0x3 => (p + c + 2 ^ 64 - a) % 2 ^ 64
  | 0x4 => toF32 (fvAdd .rne (decodeF fmtF32 p) (decodeF fmtF32 (toF32 (fvAdd .rne (decodeF fmtF32 c) (fvNeg (decodeF fmtF32 a))).1))).1
  | 0x5 => if i32 p < i32 c then c else p
  | 0x6 => if i32 c < i32 p then c else p
  | 0x7 => (fMinMax fmtF32 true p c).1
  | 0x8 => (fMinMax fmtF32 false p c).1
  | 0x9 => Nat.lor p c
  | 0xA => Nat.land p c
  | 0xC => if p = a then c else p
  | _ => p

/-- Element width of a merge type, in bytes. -/
def mergeWidth (ty : Nat) : Nat :=
  match ty with
  | 0x1 | 0x9 | 0xA => 1
  | 0x3 => 8
  | _ => 4

/-- Merge of a line's bytes. -/
def mergeLine (ty : Nat) (a p c : List Byte) : List Byte :=
  let w := mergeWidth ty
  (tabulate (64 / w) (fun k =>
    let at_ := fun (xs : List Byte) => leNat ((xs.drop (w * k)).take w)
    natLe w (if at_ c = at_ a then at_ p else mergeElem ty (at_ a) (at_ p) (at_ c)))).flatten

/-- Write bytes of P as the parent side does: copies that other revisions need come first (R282). -/
def parentWrite (s : State) (r : Rev) (va : Nat) (bs : List Byte) (bad : Bool) : State :=
  match rawPa s r.asid va with
  | none => s
  | some pa =>
    let s := copyAll s r.asid r.outer va pa (s.nextRev + 2)
    markedWrite s (viewLoc s r.outer va pa) bs bad

/-- Merge one line (R285, R295). -/
def mergeAt (s : State) (r : Rev) (rid ty va : Nat) : State :=
  let a := versionRun s r rid { view := r.outer, anc := true } va 64
  let p := versionRun s r rid { view := r.outer, anc := false } va 64
  let c := versionRun s r rid { view := some rid, anc := false } va 64
  if c.1 = a.1 && !c.2 then s
  else
    let out := mergeLine ty a.1 p.1 c.1
    parentWrite s r va out ((a.2 || p.2 || c.2) && !(decide (out = p.1) && !p.2))

/-- Counts with which the merge of an APPEND region begins (R287): nA, nP, nC, `RSZ` and `LOST`; the records it copies; a poisoned header. -/
structure Append where
  nA : Nat
  nP : Nat
  nC : Nat
  rsz : Nat
  lost : Nat
  bad : Bool

/-- A word of a header line. -/
def lineWord (xs : List Byte) (k : Nat) : Nat := leNat ((xs.drop (4 * k)).take 4)

/-- The three headers of an APPEND region, read together. -/
def appendRead (s : State) (r : Rev) (rid base : Nat) : Append :=
  let a := versionRun s r rid { view := r.outer, anc := true } base 64
  let p := versionRun s r rid { view := r.outer, anc := false } base 64
  let c := versionRun s r rid { view := some rid, anc := false } base 64
  let rsz := lineWord a.1 1
  let keep := rsz % 4 ≠ 0 || rsz < 4 || 65536 < rsz || lineWord p.1 1 ≠ rsz || lineWord c.1 1 ≠ rsz
  { nA := lineWord a.1 0, nP := lineWord p.1 0, nC := lineWord c.1 0, rsz := if keep then 0 else rsz, lost := lineWord p.1 2, bad := a.2 || p.2 || c.2 }

/-- The counts as a merge keeps them, and back. -/
def Append.list (x : Append) : List Nat := [x.nA, x.nP, x.nC, x.rsz, x.lost, x.bad.toNat]
/-- Counts kept by a merge. -/
def appendOf (xs : List Nat) : Append :=
  { nA := xs.getD 0 0, nP := xs.getD 1 0, nC := xs.getD 2 0, rsz := xs.getD 3 0, lost := xs.getD 4 0, bad := xs.getD 5 0 != 0 }

/-- Records that the merge copies (R287). -/
def Append.copies (x : Append) (size : Nat) : Nat :=
  if x.rsz = 0 then 0 else if x.nP < (size - 64) / x.rsz then min (x.nC - x.nA) ((size - 64) / x.rsz - x.nP) else 0

/-- Lines of P that the copied records touch. -/
def Append.lines (x : Append) (size : Nat) : Nat := if x.copies size = 0 then 0 else (x.nP * x.rsz % 64 + x.copies size * x.rsz + 63) / 64

/-- Write one of those lines from C's records, with the poison of the lines it reads (R287, R295). -/
def appendLine (s : State) (r : Rev) (rid base size : Nat) (x : Append) (j : Nat) : State :=
  let first := base + 64 + x.nP * x.rsz
  let last := first + x.copies size * x.rsz
  let va := max first (first / 64 * 64 + 64 * j)
  let n := min last (first / 64 * 64 + 64 * j + 64) - va
  let recs := versionRead s r rid { view := some rid, anc := false } 3 (base + 64 + x.nA * x.rsz + (va - first)) n
  parentWrite s r va recs.1 recs.2

/-- Write the header of an APPEND region, after every record it counts: `CNT` and `LOST` of P (R287). -/
def appendHeader (s : State) (r : Rev) (base size : Nat) (x : Append) : State :=
  let lost := parentWrite s r (base + 8) (natLe 4 (min 0xFFFFFFFF (x.lost + (x.nC - x.nA) - x.copies size))) x.bad
  if x.rsz = 0 then lost else parentWrite lost r base (natLe 4 (x.nP + x.copies size)) x.bad

/-- The next line of a region, from a line number on, that the merge writes: in a page that the child wrote, where C differs from A (R285). -/
def nextLine (s : State) (r : Rev) (rid : Nat) (g : Region) (start : Nat) : Option Nat :=
  if g.mtype = 0 then none
  else
    (List.range (g.size.toNat / 64)).find? (fun k =>
      let va := g.base.toNat + 64 * k
      decide (start ≤ k) && (revPage s rid true (va / pageSize)).isSome
        && (let a := versionRun s r rid { view := r.outer, anc := true } va 64
            let c := versionRun s r rid { view := some rid, anc := false } va 64
            !(decide (c.1 = a.1) && !c.2)))

/-- One step of a merge of a region (R285, R287): the state after it and where the merge stands; `none`: the region is merged. P's header is read
again in every step that writes P; where its counts have changed since, the records are copied anew behind those it counts now (DEDUCED, log 46). -/
def mergeUnit (s : State) (r : Rev) (rid : Nat) (g : Region) (p : MergePos) : Option (State × MergePos) :=
  let base := g.base.toNat
  let size := g.size.toNat
  if g.mtype = 0xB then
    match p.counts with
    | [] => some (s, { p with counts := (appendRead s r rid base).list })
    | xs =>
      let x := appendOf xs
      let now := appendRead s r rid base
      if x.nC ≤ x.nA || x.lines size < p.unit then none
      else if now.nP ≠ x.nP ∨ now.rsz ≠ x.rsz then some (s, { p with unit := 0, counts := now.list })
      else if p.unit < x.lines size then some (appendLine s r rid base size x p.unit, { p with unit := p.unit + 1 })
      else some (appendHeader s r base size { x with lost := now.lost, bad := now.bad }, { p with unit := p.unit + 1 })
  else
    match nextLine s r rid g p.unit with
    | some k => some (mergeAt s r rid g.mtype.toNat (base + 64 * k), { p with unit := k + 1 })
    | none => none

/-- One step of a merge: at most one line, which is read and written at once; region follows region (R285). -/
def mergeStep : Nat → State → Rev → Nat → MergePos → Option (State × MergePos)
  | 0, _, _, _, _ => none
  | fuel + 1, s, r, rid, p =>
    let next : MergePos := { region := p.region + 1, unit := 0, counts := [] }
    if r.regions.length ≤ p.region then none
    else
      match r.regions.getD p.region none with
      | none => mergeStep fuel s r rid next
      | some g =>
        match mergeUnit s r rid g p with
        | some x => some x
        | none => mergeStep fuel s r rid next

/-- The records of a workgroup before the place of a join of this handle or a later one are released (R293). -/
def joinFirst (rs : List StageRec) (h : Nat) : Bool :=
  match rs with
  | [] => true
  | r :: _ => match r.op with | .join k => decide (h ≤ k) | _ => false

/-- The workgroup's staged stores are released, so that its merge may take its place (R292, R293). -/
def mergePlace (s : State) (l : Launch) (r : Rev) : Bool :=
  !launchDet l ||
    (decide (r.wgix ≤ l.relHead)
      && s.revs.all (fun x => x.2.lid != r.lid || revOver x.2 || decide (r.wgix < x.2.wgix) || (x.2.wgix == r.wgix && decide (r.handle ≤ x.2.handle)))
      && s.wgs.all (fun x => x.2.lid != r.lid || x.2.wgix != r.wgix || decide (x.2.copy = .trail) || joinFirst x.2.staging r.handle)
      && !unacked s r.lid r.wgix
      && l.ended.all (fun x => x.1 != r.wgix || joinFirst x.2.2 r.handle))

/-- Some pilot waits to join this handle or a later one of its workgroup, or the workgroup has retired (R290, R291). -/
def mergeWanted (s : State) (l : Launch) (r : Rev) : Bool :=
  wgGone s l r.wgix || s.wgs.any (fun x => x.2.lid == r.lid && x.2.wgix == r.wgix
    && (match x.2.pilot.ctx.blocked with | some (.join h) => decide (r.handle ≤ h) | _ => false))

/-- The child has completed and its own children are merged (R289, R291). -/
def childComplete (s : State) (r : Rev) : Bool :=
  ((launchOf s r.child).map (fun l => decide (l.state = .completed))).getD true && s.revs.all (fun x => x.2.lid != r.child || revOver x.2)

/-- A merge is due: the order of R290, the child complete, the launch's place under DET, no rebuild on its pages (R295). -/
def mergeDue (s : State) (rid : Nat) : Bool :=
  match alookup rid s.revs with
  | none => false
  | some r =>
    match launchOf s r.lid with
    | none => false
    | some l =>
      !revOver r && childComplete s r && mergeWanted s l r && mergePlace s l r
        && s.revs.all (fun x => x.2.lid != r.lid || x.2.wgix != r.wgix || decide (r.handle ≤ x.2.handle) || revOver x.2)
        && r.regions.all (fun g => match g with
          | some g => (List.range (g.size.toNat / pageSize)).all (fun k =>
              let va := g.base.toNat + k * pageSize
              (walk s r.asid va).isSome && !rebuildBusy s r.asid (va / pageSize))
          | none => true)

/-- A child's merge is over: its revision leaves the sorting office, and the pilots that wait for it go on. -/
def mergeOver (s : State) (rid : Nat) (r : Rev) (status : Nat) : State :=
  unblockAll (closeRev s rid (.merged status)) (fun _ g b => match b with
    | .join h => (g.lid == r.lid && g.wgix == r.wgix && decide (r.handle ≤ h))
      || (revOfHandle s g.lid g.wgix h).any (fun x => liesUnder (s.nextRev + 1) s rid x.1)
    | _ => false)

/-- Go on with the merge of a completed child, a line at a time; of a failed one nothing is taken (R285, R288). -/
def mergeRev (s : State) (rid : Nat) : State :=
  match alookup rid s.revs with
  | none => s
  | some r =>
    if r.merging.isNone && !mergeDue s rid then s
    else if ((launchOf s r.child).map (fun l => decide (l.status ≠ 0))).getD false then mergeOver s rid r 1
    else
      match mergeStep (r.regions.length + 1) s r rid (r.merging.getD { region := 0, unit := 0, counts := [] }) with
      | some x => modRev x.1 rid (fun r => { r with merging := some x.2 })
      | none => mergeOver s rid r 0

/-- A merge (R285). -/
def execMerge (rev : Nat) (s : State) : Out := .next (mergeRev s rev)

end Sys2Proof.Machine
end

