-- ==== Sys2Proof/Machine/Place.lean ====
section
/-! DEFINITION. Place: what a workgroup demands of a core and what a core offers (R307), the checks of the kernel header (R32), and the
placement of a workgroup (R308, R31), which dealing, refilling and gangs share. -/

namespace Sys2Proof.Machine

/-! ### Resources (R307) -/

/-- The demand of a workgroup. -/
structure Need where
  crews : Nat
  regs : Nat
  quay : Nat
  tags : Nat
  accs : Nat
  taps : Nat
  buoy : Bool
  staging : Bool
deriving DecidableEq, Repr

/-- The demand that a header, a manifest and a mode make. -/
def needOf (h : BitVec 1024) (m : BitVec 2048) (mode : Nat) : Need :=
  { crews := hCrews h, regs := hRegs h, quay := hQuayb h, tags := hTagn h, accs := hAccn h, taps := 0, buoy := mBuoy m,
    staging := decide (mode % 2 = 1) || decide (mode / 4 % 2 = 1) }

/-- The demand of a resident workgroup. -/
def needHeld (g : WG) : Need :=
  { needOf g.hdr g.man g.mode.toNat with taps := (g.taps.filter (fun t => t.isSome)).length }

/-- The demand of a launch's workgroup that has not run. -/
def needOfLaunch (l : Launch) : Option Need := l.hdr.map (fun h => needOf h l.man (launchMode l))

/-- The demand of a workgroup of a launch: a saved one keeps its armed taps. -/
def memberNeed (l : Launch) (wgix : Nat) : Option Need :=
  match l.saved.find? (fun v => v.wg.wgix == wgix) with
  | some v => some (needHeld v.wg)
  | none => needOfLaunch l

/-- Demands that a partition's gang has reserved on a core (R313); a pair is entered once for each copy. -/
def reservedOn (s : State) (part core : Nat) : List Need :=
  match (partOf s part).gang with
  | none => []
  | some y =>
    match launchOf s y.lid with
    | none => []
    | some l => (y.reserved.filter (fun r => r.2 == core)).filterMap (fun r => memberNeed l r.1)

/-- The lowest free run of n bytes below a top, in granules of 8 KiB (R307). -/
def lowestRun (used : List (Nat × Nat)) (top n : Nat) : Option Nat :=
  ((List.range (top / 8192 + 1)).map (fun k => 8192 * k)).find? (fun o =>
    decide (o + n ≤ top) && used.all (fun u => !overlaps o n u.1 u.2))

/-- Give several demands their windows in turn. -/
def runsFor (top : Nat) : List Nat → List (Nat × Nat) → List (Nat × Nat)
  | [], used => used
  | n :: ns, used =>
    match lowestRun used top n with
    | some o => runsFor top ns (used ++ [(o, n)])
    | none => runsFor top ns used

/-- Windows of a core. -/
def windowsOn (s : State) (core : Nat) : List (Nat × Nat) :=
  (s.wgs.filter (fun x => berthCore x.1 == core)).map (fun x => (x.2.wbase, hQuayb x.2.hdr))

/-- Top of the workgroup region under a staging area or none. -/
def regionTop (s : State) (core : Nat) (staging : Bool) : Nat := pinnedBase s core - (if staging then 65536 else 0)

/-- The window base that a demand gets on a core now, beside its workgroups and other demands; `none`: it does not fit. -/
def fitBase (s : State) (core : Nat) (extra : List Need) (n : Need) : Option Nat :=
  let held := ((s.wgs.filter (fun x => berthCore x.1 == core)).map (fun x => needHeld x.2)) ++ extra
  let sum := fun (f : Need → Nat) => held.foldl (fun a x => a + f x) 0
  let staging := n.staging || held.any (fun x => x.staging)
  let top := regionTop s core staging
  let used := windowsOn s core
  if Config.berthsPerCore < held.length + 1 || Config.crewsPerCore < sum (fun x => x.crews) + n.crews
      || Config.granulesPerCore < sum (fun x => x.regs) + n.regs || Config.tagsPerCore < sum (fun x => x.tags) + n.tags
      || Config.accsPerCore < sum (fun x => x.accs) + n.accs || Config.tapsPerCore < sum (fun x => x.taps) + n.taps
      || (n.buoy && held.any (fun x => x.buoy)) || used.any (fun u => decide (top < u.1 + u.2)) then none
  else lowestRun (runsFor top (extra.map (fun x => x.quay)) used) top n.quay

/-- A demand fits a core beside the reservations of the partition's gang. -/
def fits (s : State) (part core : Nat) (n : Need) : Bool := (fitBase s core (reservedOn s part core) n).isSome

/-- Copies of a demand that a core without workgroups offers. -/
def emptyRoom (s : State) (core : Nat) (n : Need) : Nat :=
  let per := fun (pool need : Nat) => if need = 0 then Config.berthsPerCore else pool / need
  let room := [per Config.crewsPerCore n.crews, per Config.granulesPerCore n.regs, per (regionTop s core n.staging / 8192) (n.quay / 8192),
    per Config.tagsPerCore n.tags, per Config.accsPerCore n.accs, if n.buoy then 1 else Config.berthsPerCore]
  room.foldl min Config.berthsPerCore

/-- The lowest free berth of a core. -/
def freeSlot (s : State) (core : Nat) : Option Nat :=
  ((List.range Config.berthsPerCore).map (fun k => Config.berthsPerCore * core + k)).find? (fun b => (wgOf s b).isNone)

/-! ### The order of cores (R309) -/

/-- Die boundaries between two physical dies (R265). -/
def dieHops (a b : Nat) : Nat := (a % 16 - b % 16) + (b % 16 - a % 16) + (a / 16 - b / 16) + (b / 16 - a / 16)

/-- A partition's cores in the order of R309 for a launch. -/
def coreOrder (s : State) (part : Nat) (l : Launch) : List Nat :=
  let cores := partCores (partOf s part)
  match l.affinity with
  | none => cores
  | some d => ((List.range 32).map (fun h => cores.filter (fun c => dieHops (c / Config.coresPerDie) d == h))).flatten

/-! ### The kernel header (R29, R32) -/

/-- A `QBINDn` word that R31 does not allow. -/
def qbindBad (w : BitVec 32) : Bool := decide (bits w 29 24 ≠ 0) || (!bitAt w 31 && decide (w.toNat ≠ 0))

/-- The check of R32 that a header fails: of several the first in the order of its table, as of the checks 0x12, 0x13 and 0x14, for the manual does not
say which one the record carries (DESIGN CHOICE, log 47). -/
def headerReason (s : State) (l : Launch) (h : BitVec 1024) : Option Nat :=
  let entry := fun (a : Nat) => decide (a % 64 ≠ 0) || !canonical a
  let qs := tabulate 16 (hQbind h)
  if hHver h ≠ 1 || hFlags h / 16 ≠ 0 || qs.any qbindBad then some 0x1
  else if entry (hPentry h) || entry (hCentry h) then some 0x2
  else if hLanes h = 0 || 8192 < hLanes h then some 0x3
  else if 256 < hRegs h then some 0x4
  else if hQuayb h % 8192 ≠ 0 || 2 ^ 20 < hQuayb h || hQuayb h < hSpillBytes h then some 0x5
  else if 16 < hBars h || !(hBto h == 0 || (decide (10 ≤ hBto h) && decide (hBto h ≤ 40))) then some 0x6
  else if 64 < hTagn h || 4 < hAccn h then some 0x7
  else if qs.any (fun w => bitAt w 31 && bitAt w 30 && decide (hQuayb h < 64 * bits w 23 0 + 64)) then some 0x8
  else if (partCores (partOf s l.part)).all (fun c => emptyRoom s c (needOf h l.man (Nat.lor (hFlags h) (mMode l.man))) == 0) then some 0x9
  else none

/-- The checks of R298 that need the header. -/
def headerManifest (s : State) (l : Launch) (h : BitVec 1024) : Option Nat :=
  let mode := Nat.lor (hFlags h) (mMode l.man)
  let dup := mode / 2 % 2 = 1
  let n := needOf h l.man mode
  let g := mGang l.man
  let cores := partCores (partOf s l.part)
  let room := cores.foldl (fun a c => a + min g (emptyRoom s c n)) 0
  if g ≠ 0 && room < (if dup then 2 * g else g) then some 0x12
  else if hQuayb h < mArgsz l.man + hSpillBytes h then some 0x13
  else if dup && (cores.filter (fun c => decide (0 < emptyRoom s c n))).length < 2 then some 0x14
  else none

/-- The harbourmaster's fault records are told apart from the cores'. -/
def masterCore : Nat := 704

/-- An access of the harbourmaster that has no translation: its record (R275); one to a page under rebuild only waits (R385). Its
`WIDX` is 0, also where the access is made for one workgroup (DESIGN CHOICE, log 48). -/
def masterFault (s : State) (l : Launch) (va : Nat) (wrt : Bool) : State :=
  if pageHeld s l.lid (mAsid l.man) va then s else (faultRecord s l.part masterCore (mAsid l.man) va wrt false true false false l.id.toNat 0).2

/-- A launch fails before it runs. -/
def failLaunch (s : State) (l : Launch) (reason status : Nat) : State :=
  modLaunch (putFault s l.part 0x02 (mAsid l.man) l.id.toNat 0 0 reason) l.lid (fun l => { l with state := .completing, status := status })

/-- Read and check a launch's header once, at its first placement. -/
def readHeader (s : State) (l : Launch) : State :=
  if l.hdr.isSome then s
  else
    match (if pageHeld s l.lid (mAsid l.man) (mKhdr l.man) then none else devBlock s (mAsid l.man) l.view (mKhdr l.man) 2) with
    | none => masterFault s l (mKhdr l.man) false
    | some bs =>
      let h : BitVec 1024 := BitVec.ofNat 1024 (leNat bs)
      let l := { l with hdr := some h }
      match headerManifest s l h with
      | some r => failLaunch s l r 2
      | none =>
        match headerReason s l h with
        | some r => failLaunch s l r 1
        | none => modLaunch s l.lid (fun l => { l with hdr := some h })

/-! ### Unplaced workgroups (R309, R310) -/

/-- The dealt workgroups of a launch that wait on a chunk. -/
def chunkWgs (l : Launch) : List Nat := (l.chunks.map (fun c => c.2)).flatten

/-- A swapped-out workgroup waits for the answer to a fault or for a rebuild (R278, R388); one that was merely pre-empted does not (R277). The faults
are those of its contexts: a command's wait, saved with it, keeps no workgroup from re-entering (DESIGN CHOICE, log 47). -/
def savedHeld (v : Saved) : Bool :=
  v.swapped && (whos v.wg).any (fun w => match (ctxIn v.wg w).bind (fun c => c.blocked) with
    | some (.fault _ _ _) | some (.rebuild _ _ _) => true
    | _ => false)

/-- Saved and aborted workgroups that may be placed now; of a pair, once no copy is held. -/
def returning (l : Launch) : List Nat :=
  ((l.saved.filter (fun v => l.saved.all (fun u => u.wg.wgix != v.wg.wgix || !savedHeld u))).map (fun v => v.wg.wgix)) ++ ((l.aborted.filter (fun a => a.2.isNone)).map (fun a => a.1))

/-- Workgroups that may be placed now. -/
def unplaced (l : Launch) : List Nat :=
  (if l.undealt < mNwg l.man then [l.undealt] else []) ++ chunkWgs l ++ returning l

/-- The lowest of them. -/
def lowestUnplaced (l : Launch) : Option Nat :=
  (unplaced l).foldl (fun a n => match a with | some m => some (min m n) | none => some n) none

/-- No workgroup of the launch is unplaced, saved or aborted. -/
def allPlaced (l : Launch) : Bool := decide (mNwg l.man ≤ l.undealt) && (chunkWgs l).isEmpty && l.saved.isEmpty && l.aborted.isEmpty

/-- The state of a launch that has started (R304). -/
def settleLaunch (s : State) (lid : Nat) : State :=
  modLaunch s lid (fun l =>
    match l.state with
    | .placing | .running =>
      if mNwg l.man ≤ l.retired.length then { l with state := .completing }
      else { l with state := if allPlaced l then .running else .placing }
    | _ => l)

/-- Under DET a workgroup is placed once every lower one is resident or retired (R311). -/
def detPlaceable (s : State) (l : Launch) (wgix : Nat) : Bool :=
  !launchDet l || (decide (wgix ≤ l.undealt) && (List.range wgix).all (fun k => l.retired.contains k || s.wgs.any (fun x => x.2.lid == l.lid && x.2.wgix == k)))

/-- A launch is in the roadstead with workgroups to place. -/
def placeable (l : Launch) : Bool := (match l.state with | .ready | .placing | .running => true | _ => false) && !l.handed

/-- Roadstead order (R306). -/
def before (a b : Launch) : Bool :=
  decide (mPrio a.man < mPrio b.man) || (mPrio a.man == mPrio b.man && decide (a.readyAt < b.readyAt))

/-- Insert in roadstead order. -/
def roadInsert (l : Launch) : List Launch → List Launch
  | [] => [l]
  | x :: xs => if before l x then l :: x :: xs else x :: roadInsert l xs

/-- The launches of a partition that can place workgroups, in roadstead order. -/
def roadstead (s : State) (part : Nat) : List Launch :=
  (s.launches.filter (fun l => l.part == part && placeable l)).foldr roadInsert []

/-! ### Placing (R308) -/

/-- A crew at its entry (R10, R30). -/
def startCrew (h : BitVec 1024) (n : Nat) : Crew :=
  { ctx := Ctx.start, regs := [], preds := [0, 0, 0, 0, 0, 0, 0, 0], latches := latchesEmpty,
    frontier := [{ cix := 8, mask := hLaneMask h n, park := none }], spilled := 0, live := hLaneMask h n, landings := [(8, 8)], fpx := 0, draw := [] }

/-- A pilot at its entry. -/
def startPilot (h : BitVec 1024) : Pilot :=
  { ctx := Ctx.start, sregs := tabulate 64 (fun _ => 0), cbits := 0, pc := BitVec.ofNat 64 (hPentry h), landing := some (BitVec.ofNat 64 (hPentry h)),
    park := none, regions := tabulate 16 (fun _ => none), lastHandle := 0 }

/-- A workgroup as placement grants it. -/
def startWg (l : Launch) (h : BitVec 1024) (wgix wbase cycle : Nat) (copy : Copy) (peer : Option Nat) : WG :=
  { lid := l.lid, wgix := wgix, part := l.part, copy := copy, peer := peer, hdr := h, man := l.man,
    mode := BitVec.ofNat 4 (Nat.lor (hFlags h) (mMode l.man)), wbase := wbase, pilot := startPilot h, crews := tabulate (hCrews h) (startCrew h),
    binds := tabulate 16 (fun _ => none), bars := tabulate 16 (fun _ => { gen := 0, start := none }), ckBar := { gen := 0, start := none },
    accs := tabulate (hAccn h) (fun _ => { rows := [], err := false, poison := false }), tags := 0, tagErr := [], tvec := 0, ptvec := 0, tdiag := 0xFFFFFFFF,
    ckcnt := 0, taps := tabulate 8 (fun _ => none), rowMaps := [], staging := [], nextRec := 0, released := false, strays := [], run := .running, stopper := none, stopPt := none,
    preempt := false, quantum := cycle, faultSince := none, mism := 0, softErr := false, image := none, log := [] }

/-- Bytes of the argument record of a workgroup (R308); `none`: no translation. -/
def argBytes (s : State) (l : Launch) (wgix : Nat) : Option (List Byte) :=
  let a := mArgs l.man + wgix * mArgsz l.man
  (lineSegs (mArgsz l.man / 64 + 2) (a : Int) (mArgsz l.man)).foldr (fun seg acc =>
    match acc, masterRead s l seg.1.toNat seg.2 with
    | some bs, some x => some (x ++ bs)
    | _, _ => none) (some [])

/-- Make a binding of the header in a workgroup; the trap detail of one that fails (R31). The reason numbers of its address checks are those
of `qbind`, and 0x5 for an address outside the partition (log 39). -/
def placeBind (s : State) (b n : Nat) : State × Option PendTrap :=
  match wgOf s b with
  | none => (s, none)
  | some g =>
    let w := hQbind g.hdr n
    if !bitAt w 31 then (s, none)
    else
      let a := 64 * bits w 23 0
      let at_ : Option (Nat × Option Nat) := if bitAt w 30 then some (winKey b g a, some a) else (logicalKey s g.part a).map (fun k => (k, none))
      match at_ with
      | none => (s, some (qTrap 0x5 n 0))
      | some (key, win) =>
        if locBad s (.quay key) then (s, some (mkTrap 0x15 a 0))
        else
          match bindReason s b g key with
          | some r => (s, some (qTrap r n 0))
          | none => (setWg s b { g with binds := g.binds.set n (some (newBinding s b g (descAt s key) key win)) }, none)

/-- Make the bindings of a workgroup in increasing name; the lowest failure stops it for harbour software (R31, R398). -/
def placeBinds (s : State) (b : Nat) : State :=
  let r := (List.range 16).foldl (fun (acc : State × Option PendTrap) n => let x := placeBind acc.1 b n; (x.1, acc.2.orElse (fun _ => x.2))) (s, none)
  match r.2, wgOf r.1 b with
  | some t, some g => harbourStop r.1 { berth := b, who := .pilot } t g.pilot.pc 0
  | _, _ => r.1

/-- The window of a placed workgroup: zero, thread-owned, then its arguments. -/
def placeArgs (s : State) (b : Nat) (g : WG) (args : List Byte) : State :=
  let s := placeWindow s b g [] [] []
  { s with quay := cellsWriteN s.quay (winKey b g 0) args }

/-- The buoy array of a placed workgroup (R339, R343). -/
def placeBuoy (s : State) (b : Nat) (g : WG) : State :=
  if !mBuoy g.man then s
  else
    modCore (labelsArrive s (berthCore b)) (berthCore b) (fun c =>
      { c with buoy := { freeArray c.buoy with holder := some b, owner := some g.lid, replay := bitAt g.mode 3 } })

/-- Put one started copy in its berth. -/
def placeCopy (s : State) (b : Nat) (g : WG) (args : List Byte) : State :=
  let s := setWg s b g
  placeBuoy (placeArgs (modCore s (berthCore b) (fun c => { c with icache := [] })) b g args) b g

/-- The first image of a DUP copy (R331). -/
def firstImage (s : State) (b : Nat) : State := if (wgOf s b).any isDup then keepImage s b else s

/-- A workgroup is no longer unplaced. -/
def takePlace (s : State) (lid wgix : Nat) : State :=
  modLaunch s lid (fun l =>
    { l with state := (match l.state with | .ready => .placing | x => x), undealt := if wgix = l.undealt then wgix + 1 else l.undealt,
             chunks := (l.chunks.map (fun c => (c.1, c.2.filter (fun n => n != wgix)))).filter (fun c => !c.2.isEmpty),
             aborted := l.aborted.filter (fun a => a.1 != wgix), back := l.back.filter (fun n => n != wgix) })

/-- PLACE a workgroup on a core, or a pair on two (R308, R311, R328); `none`: it does not fit, or its arguments have no translation. -/
def placeOn (s : State) (lid wgix core : Nat) (other : Option Nat) : Option State :=
  match launchOf s lid with
  | none => none
  | some l =>
    match l.hdr, argBytes s l wgix with
    | some h, some args =>
      let n := needOf h l.man (launchMode l)
      match other with
      | none =>
        match freeSlot s core, fitBase s core (reservedOn s l.part core) n with
        | some b, some w =>
          let s := placeCopy (takePlace s lid wgix) b (startWg l h wgix w s.cycle .single none) args
          some (settleLaunch (placeBinds s b) lid)
        | _, _ => none
      | some o =>
        let lead := if (coreSlice (partOf s l.part) core).getD 0 < (coreSlice (partOf s l.part) o).getD 0 then core else o
        let trail := if lead = core then o else core
        match freeSlot s lead, fitBase s lead (reservedOn s l.part lead) n, freeSlot s trail, fitBase s trail (reservedOn s l.part trail) n with
        | some b, some w, some b', some w' =>
          let s := placeCopy (takePlace s lid wgix) b (startWg l h wgix w s.cycle .lead (some b')) args
          let s := placeCopy s b' (startWg l h wgix w' s.cycle .trail (some b)) args
          some (settleLaunch (firstImage (firstImage (placeBinds (placeBinds s b) b') b) b') lid)
        | _, _, _, _ => none
    | _, _ => none

/-- The argument record of a workgroup has no translation: its record goes out (R275). -/
def argFault (s : State) (l : Launch) (wgix : Nat) : State :=
  let a := mArgs l.man + wgix * mArgsz l.man
  match (lineSegs (mArgsz l.man / 64 + 2) (a : Int) (mArgsz l.man)).find? (fun seg => (masterRead s l seg.1.toNat seg.2).isNone) with
  | some seg => masterFault s l seg.1.toNat false
  | none => s

end Sys2Proof.Machine
end

