-- ==== Sys2Proof/Machine/Release.lean ====
section
/-! DEFINITION. Release: Postmark order (R257, R321 to R326), the stores that countersign holds back, countersign points, the comparison at a
checkpoint and at a pair's end (R329 to R335), and withdrawing an arrival (R118, R137). -/

namespace Sys2Proof.Machine

/-! ### The release head (R322, R323) -/

/-- Every child of a workgroup is merged or settled (R292). -/
def mergesOver (s : State) (lid wgix : Nat) : Bool := s.revs.all (fun x => x.2.lid != lid || x.2.wgix != wgix || revOver x.2)

/-- The release head has ended, with every record released, performed at system scope, and every merge applied. -/
def headGone (s : State) (l : Launch) : Bool :=
  l.retired.contains l.relHead && l.ended.all (fun e => e.1 != l.relHead) && mergesOver s l.lid l.relHead && !unacked s l.lid l.relHead

/-- The next workgroups become the head. -/
def headSteps : Nat → State → Nat → State
  | 0, s, _ => s
  | fuel + 1, s, lid =>
    match launchOf s lid with
    | some l => if l.relHead < mNwg l.man && headGone s l then headSteps fuel (modLaunch s lid (fun l => { l with relHead := l.relHead + 1 })) lid else s
    | none => s

/-- Pass the release head on, and let contexts that wait for it ask again. -/
def advanceHead (s : State) (lid : Nat) : State :=
  match launchOf s lid with
  | none => s
  | some l => unblockAll (headSteps (l.retired.length + 1) s lid) (fun _ g r => g.lid == lid && (decide (r = .releaseHead) || decide (r = .headHold) || decide (r = .staging)))

/-- Where the records of a release head are kept. -/
inductive RecHome where
  | berth (b : Nat)
  | saved
  | ended
deriving DecidableEq, Repr

/-- The release head's records, wherever they lie (R322). -/
def headRecords (s : State) (l : Launch) : Option (RecHome × List StageRec) :=
  match s.wgs.find? (fun x => x.2.lid == l.lid && x.2.wgix == l.relHead && decide (x.2.copy ≠ .trail)) with
  | some x => some (.berth x.1, x.2.staging)
  | none =>
    match l.saved.find? (fun v => v.wg.wgix == l.relHead && decide (v.wg.copy ≠ .trail)) with
    | some v => some (.saved, v.wg.staging)
    | none => (l.ended.find? (fun e => e.1 == l.relHead)).map (fun e => (.ended, e.2.2))

/-- Change the records of a release head. -/
def modRecords (s : State) (lid wgix : Nat) (f : List StageRec → List StageRec) : State :=
  let s := modHomes s lid wgix (fun g => { g with staging := f g.staging })
  modLaunch s lid (fun l =>
    { l with ended := (l.ended.map (fun e => if e.1 = wgix then (e.1, e.2.1, f e.2.2) else e)).filter (fun e => !(e.1 == wgix && e.2.2.isEmpty)) })

/-! ### Results of released records (R326) -/

/-- The value of one lane of a result. -/
def fillResult (r : Result) (lane v : Nat) : Result :=
  { r with
    vec := (tabulate r.vec.length (fun k => k)).zip r.vec |>.map (fun x =>
      { x.2 with words := lanes (fun l => if l = lane then BitVec.ofNat 32 (v / 2 ^ (32 * x.1)) else laneWord x.2.words l) }),
    scalar := r.scalar.map (fun y => (y.1, BitVec.ofNat 64 v)) }

/-- A lane of a result that is not written: its access was refused at the release. -/
def dropLane (r : Result) (lane : Nat) : Result :=
  { r with vec := r.vec.map (fun w => { w with mask := w.mask &&& ~~~((1 : LaneMask) <<< lane) }), scalar := .none }

/-- Results of a context that wait for records, by the number of their last record: outstanding, shared by its pair, in the log, in the rollback
image (R326, R334). -/
def waitsOf (g : WG) (w : Who) : List Nat :=
  let inCtx := fun (c : Ctx) => c.pend.filterMap (fun p => p.waits) ++ (c.copied.bind (fun x => x.waits)).toList
  ((ctxIn g w).map inCtx).getD [] ++ (g.log.filter (fun y => decide (y.who = w))).filterMap (fun y => y.got.waits)
    ++ (match g.image, w with
      | some im, .pilot => inCtx im.pilot.ctx
      | some im, .crew n => ((im.crews[n]?).map (fun c => inCtx c.ctx)).getD []
      | none, _ => [])

/-- The instruction that a record belongs to, by the number of its last record: the first that is not below the record's. -/
def recordOwner (g : WG) (w : Who) (id : Nat) : Option Nat :=
  (waitsOf g w).foldl (fun a n => if n < id then a else match a with | some m => some (min m n) | none => some n) none

/-- What a released record gives the lane of its instruction: its value, or nothing where the access was refused. -/
def giveLane (r : Result) (lane : Nat) (v : Option Nat) : Result := match v with | some v => fillResult r lane v | none => dropLane r lane

/-- Fill a lane in the result of the instruction whose last record is n. -/
def fillPend (n id lane : Nat) (v : Option Nat) (p : PendWrite) : PendWrite :=
  if p.waits = some n then { p with res := giveLane p.res lane v, waits := if id = n then none else some n } else p

/-- Fill a lane in what a pair's contexts or its log hold of the instruction. -/
def fillShared (n id lane : Nat) (v : Option Nat) (x : Shared) : Shared :=
  if x.waits = some n then { x with res := giveLane x.res lane v, waits := if id = n then none else some n } else x

/-- Fill a lane wherever a context holds the result. -/
def fillCtx (n id lane : Nat) (v : Option Nat) (c : Ctx) : Ctx :=
  { c with pend := c.pend.map (fillPend n id lane v), copied := c.copied.map (fillShared n id lane v) }

/-- Fill a lane of a released record in one copy: its contexts, its log, its rollback image. -/
def fillWg (w : Who) (n id lane : Nat) (v : Option Nat) (g : WG) : WG :=
  let g := modCtxIn g w (fillCtx n id lane v)
  { g with
    log := g.log.map (fun y => if y.who = w then { y with got := fillShared n id lane v y.got } else y),
    image := g.image.map (fun im =>
      match w with
      | .pilot => { im with pilot := { im.pilot with ctx := fillCtx n id lane v im.pilot.ctx } }
      | .crew k => { im with crews := im.crews.modify k (fun c => { c with ctx := fillCtx n id lane v c.ctx }) }) }

/-- Give the issuer of a released record its value. -/
def fillRecord (s : State) (lid wgix : Nat) (r : StageRec) (v : Option Nat) : State :=
  let homes := (s.wgs.filter (fun x => x.2.lid == lid && x.2.wgix == wgix)).map (fun x => x.2)
    ++ ((launchOf s lid).map (fun l => (l.saved.filter (fun y => y.wg.wgix == wgix)).map (fun y => y.wg))).getD []
  match homes.findSome? (fun g => recordOwner g r.who r.id) with
  | some n => modHomes s lid wgix (fillWg r.who n r.id r.lane v)
  | none => s

/-! ### Releasing a record (R257, R321) -/

/-- What trying to release a record gives: not yet, released with the value its issuer receives, or an access without effect whose trap becomes
pending for its issuer (log 57). -/
inductive Released where
  | later
  | done (v : Nat)
  | refused (t : PendTrap)

/-- The record's page is under rebuild (R385), and the record waits; or it has no translation: a fault record goes out (R275), with
`ENG` clear, for a thread stored it (DEDUCED, log 50). -/
def releaseFault (s : State) (l : Launch) (core va : Nat) : State :=
  if pageHeld s l.lid (mAsid l.man) va then s else (faultRecord s l.part core (mAsid l.man) va true false false false false l.id.toNat l.relHead).2

/-- Number under which a released atomic of another package's memory is asked for. -/
def releaseLane : Nat := 2 ^ 20

/-- Lane numbers of held stores, which no access of their context's present instruction has, from a multiple of 128 on. -/
def heldLane : Nat := 2 ^ 23

/-- The trap of a record's access, at the slot of its instruction (R389). -/
def recordTrap (cause : Nat) (r : StageRec) (va : Nat) : PendTrap := { mkTrap cause va r.lanes with slot := some r.slot }

/-- A record has waited for a rebuild of its page. -/
def waitRec (s : State) (l : Launch) (r : StageRec) : State :=
  modRecords s l.lid l.relHead (fun rs => rs.map (fun y => if y.id = r.id then { y with waited := true } else y))

/-- A read-modify-write of a record meets a poisoned line: the page's rebuild starts and the record waits, or, where there is none to start, the
poison is consumed (R385, R404). -/
def releaseBad (s : State) (l : Launch) (r : StageRec) (va : Nat) : State × Released :=
  let asid := mAsid l.man
  let rb := match walk s asid va with | some (e, _) => eRb e | none => false
  if rb && l.rebuilds.isNone && rebuildStalls s l.part asid (va / pageSize) then (s, .later)
  else if rb && l.rebuilds.isNone && (rebuildEntry s asid (va / pageSize)).isSome then (waitRec (startRebuild s l.part asid (va / pageSize) l.view) l r, .later)
  else (s, .refused (recordTrap 0x15 r va))

/-- A record's update in another package's memory: it is sent, and waits for its answer (R410). -/
def releaseAway (s : State) (l : Launch) (core : Nat) (r : StageRec) (va pa w rmw : Nat) (payload : List Byte) (finish : State → Nat → State × Nat) : State × Released :=
  match r.req with
  | none =>
    let q := remoteSend s none releaseLane 4 pa w rmw payload
    (modRecords (stampSent q.2 q.1 (fun y => { y with core := some core })) l.lid l.relHead (fun rs => rs.map (fun y => if y.id = r.id then { y with req := some q.1 } else y)), .later)
  | some id =>
    match (s.pkg.remote.find? (fun y => y.id == id)).map (fun y => y.answer) with
    | some (some bs) =>
      let s := modPkg s (fun p => { p with remote := p.remote.filter (fun y => y.id != id) })
      match bs with
      | some bs => let x := finish s (leNat bs); (x.1, .done x.2)
      | none => (s, .refused (recordTrap 0x0A r va))
    | some none | none => (s, .later)

/-- Release a staged atomic (R181, R326); one of another package is sent, and waits for its answer. -/
def releaseAtom (s : State) (l : Launch) (core : Nat) (r : StageRec) (va : Nat) (aop : BitVec 4) (ty : Ty) (b : Nat) (cmp : Option Nat) :
    State × Released :=
  let w := ty.width / 8
  let k := whoKind r.who
  let value := fun (old : Nat) => extendLoad k ty (natLe w old)
  match devLoc s (mAsid l.man) l.view va true, rawPa s (mAsid l.man) va with
  | some (.remote pa), _ =>
    releaseAway s l core r va pa w (aop.toNat + 2 ^ 8 * tyCode ty) (natLe w b ++ ((cmp.map (natLe w)).getD [])) (fun s old => (s, value old))
  | some _, some pa =>
    let s := copyAll s (mAsid l.man) l.view va pa (s.nextRev + 2)
    if locBad s (viewLoc s l.view va pa) then releaseBad s l r va
    else
    let x := rmwAt s (viewLoc s l.view va pa) ty (fun old => match cmp with | some c => casOp (c % 2 ^ ty.width) b old | none => atomOp aop.toNat ty old b)
    (x.2, .done (value x.1))
  | _, _ => (releaseFault s l core va, .later)

/-- Release a staged chain step (R184, R326): its status word, and its count in the descriptor, which both copies of a pair have when it lies
in their windows. -/
def releaseChain (s : State) (l : Launch) (core : Nat) (rec : StageRec) (key : Nat) (win : Option Nat) (d : BitVec 512) (aop : BitVec 4) (ty : Ty) (k v : Nat) : State × Released :=
  let line := chainLine d k
  match devLoc s (mAsid l.man) l.view line true, rawPa s (mAsid l.man) line with
  | some (.remote _), _ | none, _ | _, none => (releaseFault s l core line, .later)
  | some _, some pa =>
    let s := copyAll s (mAsid l.man) l.view line pa (s.nextRev + 2)
    if locBad s (viewLoc s l.view line pa) then releaseBad s l rec line else
    let r := chainProbe s (fun slot => locAdd (viewLoc s l.view line pa) (8 * (slot % 8))) d aop.toNat ty k v
    let st := chainStatus r.1 (homeSlot k (tLcap d))
    let keys := match win with
      | some o => (s.wgs.filter (fun (x : Nat × WG) => x.2.lid == l.lid && x.2.wgix == l.relHead)).map (fun (x : Nat × WG) => winKey x.1 x.2 o)
      | none => [key]
    (keys.foldl (fun s key => chainCount s key st) r.2, .done st)

/-- The address a record works on. -/
def recordVa (r : StageRec) : Option Nat :=
  match r.op with
  | .store va _ | .atom va _ _ _ _ | .depdec va => some va.toNat
  | .hacc _ _ d _ _ k _ => some (chainLine d k.toNat)
  | .spawn _ _ | .fork _ _ _ _ | .join _ => none

/-- The record works on memory of a page under rebuild (R385). -/
def recordBusy (s : State) (l : Launch) (r : StageRec) : Bool := (recordVa r).any (fun va => pageHeld s l.lid (mAsid l.man) va)

/-- The record needs a request that its core has not free (R176). -/
def recordShort (s : State) (l : Launch) (core : Nat) (r : StageRec) : Bool := (recordVa r).any (fun va => r.req.isNone && noRequest s core (mAsid l.man) va)

/-- The rebuild that an update has waited for has failed: the update consumes the poison (R387). -/
def recordFailed (s : State) (l : Launch) (r : StageRec) : Bool :=
  r.waited && !r.isStore && (recordVa r).any (fun va => rebuildFailed s (mAsid l.man) (va / pageSize))

/-- Release one record of the head, or let it wait. -/
def releaseRec (s : State) (l : Launch) (core : Nat) (r : StageRec) : State × Released :=
  if recordBusy s l r then (waitRec s l r, .later)
  else if recordShort s l core r then (s, .later)
  else if recordFailed s l r then (s, .refused (recordTrap 0x15 r ((recordVa r).getD 0)))
  else
  match r.op with
  | .store line bytes =>
    match releaseStore s l.lid l.relHead core (mAsid l.man) l.view r line.toNat bytes with
    | some t => (modHomes t l.lid l.relHead (fun g => { g with released := true }), .done 0)
    | none => (releaseFault s l core line.toNat, .later)
  | .atom addr aop ty b cmp => releaseAtom s l core r addr.toNat aop ty b.toNat (cmp.map (fun c => c.toNat))
  | .spawn man addr => (submit s l.part man none none addr.toNat, .done 0)
  | .depdec addr =>
    match devLoc s (mAsid l.man) l.view addr.toNat true, rawPa s (mAsid l.man) addr.toNat with
    | some (.remote pa), _ => releaseAway s l core r addr.toNat pa 8 depdecRmw [] (fun s old => (decremented s pa old, old))
    | some _, some pa =>
      let s := copyAll s (mAsid l.man) l.view addr.toNat pa (s.nextRev + 2)
      if locBad s (viewLoc s l.view addr.toNat pa) then releaseBad s l r addr.toNat else
      let d := decrement s (viewLoc s l.view addr.toNat pa)
      (d.2, .done d.1)
    | _, _ => (releaseFault s l core addr.toNat, .later)
  | .fork h man addr regions => (forkNow s l.lid l.part l.relHead h man addr regions, .done 0)
  | .join h => (s, if (revOfHandle s l.lid l.relHead h).all (fun x => revOver x.2) then .done 0 else .later)
  | .hacc key win d aop ty k v => releaseChain s l core r key win d aop ty k.toNat v.toNat

/-- Core whose area holds records. -/
def homeCore (l : Launch) : RecHome → Nat
  | .berth b => berthCore b
  | .saved => masterCore
  | .ended => ((l.ended.find? (fun e => e.1 == l.relHead)).map (fun e => e.2.1)).getD masterCore

/-- An engine command of the head that writes global memory is in flight, in its core's queue or saved with it (R212, R257). -/
def headWriting (s : State) (l : Launch) : RecHome → Bool
  | .berth b => (wgOf s b).any (fun g => engineWriting s b g)
  | .saved => l.saved.any (fun v => v.wg.wgix == l.relHead && v.cmds.any (fun x => x.2.writes))
  | .ended => false

/-- The trap that follows an `hacc` once its last chain step is released (R185), from its filled result. -/
def chainTrap (r : Result) : Option PendTrap :=
  match r.chain, r.vec with
  | some c, v :: _ =>
    let overflowed := c.keys.filter (fun x => (laneWord v.words x.1).toNat % 256 == 4)
    match overflowed with
    | x :: _ => some (mkTrap 0x0F (overflowDetail x.1 (bitAt c.staged x.1) overflowed.length x.2) c.mask)
    | [] => none
  | _, _ => none

/-- The trap that the release of a record gives its context: the record is the last of an `hacc`, whose result is filled. -/
def trapOfRecord (s : State) (lid wgix : Nat) (r : StageRec) (v : Option Nat) : Option PendTrap :=
  ((s.wgs.filter (fun x => x.2.lid == lid && x.2.wgix == wgix)).findSome? (fun x =>
    (ctxIn x.2 r.who).bind (fun c => (c.pend.find? (fun p => decide (p.waits = some r.id))).bind (fun p => chainTrap (giveLane p.res r.lane v)))))

/-- A released record's value reaches its context, in both copies, and with it the trap that follows the instruction. -/
def deliverRecord (s : State) (lid wgix : Nat) (r : StageRec) (v : Option Nat) : State :=
  match r.op with
  | .atom _ _ _ _ _ | .depdec _ => fillRecord s lid wgix r v
  | .hacc _ _ _ _ _ _ _ =>
    let t := trapOfRecord s lid wgix r v
    let s := fillRecord s lid wgix r v
    match t with
    | some t => ((s.wgs.filter (fun x => x.2.lid == lid && x.2.wgix == wgix)).map (fun x => x.1)).foldl (fun s b => trapHere s { berth := b, who := r.who } t) s
    | none => s
  | _ => s

/-- A trap of an access that a context made at an earlier slot becomes pending for it, in every copy; one of a context that has ended goes to harbour
software, which stops the workgroup while it is resident (R398; DEDUCED, log 50). -/
def queueTrap (s : State) (lid wgix : Nat) (w : Who) (t : PendTrap) : State :=
  let ended := fun (g : WG) => (ctxIn g w).any (fun c => c.ended)
  let epc := t.slot.getD 0
  let mine := s.wgs.filter (fun x => x.2.lid == lid && x.2.wgix == wgix && decide (x.2.copy ≠ .trail))
  let saved := ((launchOf s lid).map (fun l => l.saved.filter (fun v => v.wg.wgix == wgix))).getD []
  match mine.find? (fun x => ended x.2), launchOf s lid with
  | some x, _ => pairStop s { berth := x.1, who := w } t epc (headPoint s { berth := x.1, who := w }).1
  | none, some l =>
    if mine.isEmpty && (saved.isEmpty || saved.any (fun v => ended v.wg)) then
      putEvent s l.part 1 t.cause.toNat (whoCode w) l.id.toNat wgix epc.toNat t.detail.toNat
    else modHomes s lid wgix (fun g => modCtxIn g w (fun c => { c with traps := c.traps ++ [t] }))
  | none, none => s

/-- Release the head's records in order, each performed at system scope before the next (R257), and pass the head on. -/
def releaseLoop : Nat → State → Nat → State
  | 0, s, _ => s
  | fuel + 1, s, lid =>
    match launchOf s lid with
    | none => s
    | some l =>
      if unperformed s lid l.relHead then s
      else
        match headRecords s l with
        | some (home, r :: _) =>
          if headWriting s l home then s
          else
            let x := releaseRec s l (homeCore l home) r
            match x.2 with
            | .later => x.1
            | .done v => releaseLoop fuel (modRecords (deliverRecord x.1 lid l.relHead r (some v)) lid l.relHead (fun rs => rs.filter (fun y => y.id != r.id))) lid
            | .refused t =>
              let s := queueTrap (deliverRecord x.1 lid l.relHead r none) lid l.relHead r.who t
              releaseLoop fuel (modRecords s lid l.relHead (fun rs => rs.filter (fun y => y.id != r.id))) lid
        | _ => advanceHead s lid

/-- The release head of a DET launch releases what it can (R322). -/
def releaseHead (s : State) (lid : Nat) : State :=
  match launchOf s lid with
  | some l => if launchDet l then advanceHead (releaseLoop 513 s lid) lid else s
  | none => s

/-- Staged records are released in Postmark order (R322). -/
def execPostmarkRelease (lid : Nat) (s : State) : Out := .next (releaseHead s lid)

/-! ### Stores held back by countersign (R330 to R332) -/

/-- One held store goes out from the leading copy; `none`: it cannot go out now, for want of a translation, of room, or of a request, or because its
page is under rebuild (R385). -/
def heldOut (s : State) (id : CtxId) (now : Bool) (h : HeldStore) : Option State :=
  match wgOf s id.berth with
  | none => some s
  | some g =>
    let p := placed s id.berth g false h.bytes.length (heldLane + h.lane, (h.addr.toNat : Int))
    match found s id.berth g true p with
    | none => none
    | some f =>
      let x := f.acc
      let s := match x.va, rawPa s (asidOf g) (x.va.getD 0) with
        | some va, some pa => copyAll s (asidOf g) (viewOf s g) va pa (s.nextRev + 2)
        | _, _ => s
      match (wgOf s id.berth).bind (fun g => found s id.berth g true p) with
      | none => none
      | some f =>
        let va := f.acc.va.getD 0
        if stagingFull s id.berth g [(f.acc, h.bytes)] || (f.acc.va.isSome && pageHeld s g.lid (asidOf g) va)
            || (f.acc.isRemote && !requestRoom s (berthCore id.berth)) then none
        else
          let t := storeOut s id now f.acc h.slot h.bytes
          some (if h.poison then
              if !now && stagedMode s id.berth g f.acc then
                modWg t id.berth (fun g => { g with staging := g.staging.map (fun r => match r.op with
                  | .store l _ => if l.toNat = f.acc.ea / 64 * 64 then { r with poison := true } else r
                  | _ => r) })
              else locMark t f.acc.loc true
            else t)

/-- The accesses that held stores make now. -/
def heldAccs (s : State) (id : CtxId) (g : WG) (hs : List HeldStore) : List (LaneAcc × List Byte) :=
  hs.filterMap (fun h => (found s id.berth g true (placed s id.berth g false h.bytes.length (heldLane + h.lane, (h.addr.toNat : Int)))).map (fun f => (f.acc, h.bytes)))

/-- Bytes of one store instruction that went out: a line they cover whole loses its mark (R270), a staged one at its release (R403). -/
def heldClear (s : State) (id : CtxId) (now : Bool) (hs : List HeldStore) : State :=
  match wgOf s id.berth with
  | none => s
  | some g =>
    let clean := hs.filter (fun h => !h.poison)
    let direct := (heldAccs s id g clean).filter (fun x => now || !stagedMode s id.berth g x.1)
    let t := clearCovered s (direct.map (fun x => (x.1.loc, x.2.length)))
    if now then t else coverStaged t (leadBerth id.berth g) (clean.map (fun h => (h.addr.toNat, h.bytes.length)))

/-- The held stores of one instruction go out, under IDEM alone with room made for them. -/
def releaseInstr (s : State) (id : CtxId) (hs : List HeldStore) : Option State :=
  match wgOf s id.berth with
  | none => some s
  | some g =>
    let r := makeRoom s id g (heldAccs s id g hs)
    (hs.foldl (fun (a : Option State) h => a.bind (fun s => heldOut s id r.2 h)) (some r.1)).map (fun t => heldClear t id r.2 hs)

/-- Held stores of a context go out in program order; `none`: one cannot go out now, and none does. -/
def releaseHeld (s : State) (id : CtxId) : Option State :=
  match ctxOf s id with
  | none => some s
  | some c =>
    ((c.held.map (fun h => h.instr)).eraseDups).foldl (fun (a : Option State) n =>
      a.bind (fun s => releaseInstr s id (c.held.filter (fun h => h.instr == n)))) (some s)

/-- A held store that cannot go out because its page has no translation: its fault record (R275), with `ENG` clear (DEDUCED, log 50). -/
def heldFault (s : State) (b : Nat) : State :=
  match wgOf s b with
  | none => s
  | some g =>
    match ((whos g).map (fun w => ((ctxIn g w).map (fun c => c.held)).getD [])).flatten.find? (fun h =>
        (found s b g true (placed s b g false h.bytes.length (0, (h.addr.toNat : Int)))).isNone) with
    | some h => (faultRecord s g.part (berthCore b) (asidOf g) h.addr.toNat true false false false false (launchIdOf s g).toNat g.wgix).2
    | none => s

/-- Contexts of a pair drop their held stores, and their slack starts anew; the room is there for other stores (R330). -/
def dropHeld (s : State) (b : Nat) (w : Who) : State :=
  unblockAll (modPair s b (fun g => modCtxIn g w (fun c => { c with held := [], slack := 0 }))) (fun _ _ r => decide (r = .area))

/-! ### Withdrawing an arrival (R118, R137) -/

/-- Unpark every entry of a list at a park. -/
def unparkList (at_ : Park) (es : List FEntry) : List FEntry := es.map (fun e => if e.park = some at_ then { e with park := none } else e)

/-- The lowest entry at a park. -/
def lowestParked (at_ : Park) (es : List FEntry) : Option FEntry :=
  (es.filter (fun e => e.park = some at_)).foldl (fun a e => match a with
    | some x => if e.cix.toNat < x.cix.toNat then some e else some x
    | none => some e) none

/-- Withdraw the arrival of a crew: its entries parked there are parked no more. -/
def withdrawCrew (s : State) (b n : Nat) (at_ : Park) : State :=
  match (wgOf s b).bind (fun g => (crewOf g n).map (fun c => (g, c))) with
  | none => s
  | some (g, c) =>
    match c.ctx.handler with
    | none =>
      setFrontier s b n (fSettle c.live 1000
        { hw := fInsertAll (unparkList at_ c.frontier) [], sp := fInsertAll (unparkList at_ (spilledOf s b g n c)) [], retired := 0, bad := [] })
    | some h =>
      let sp := tabulate h.spilled (fun k => spillEntry (cellsNat s.quay (spillBase b g n + 32 * k) 32))
      let s := { s with quay := spillStore s.quay (spillBase b g n) (unparkList at_ sp) }
      setWg s b (modCrew g n (fun c => { c with ctx := { c.ctx with handler := some { h with frontier := unparkList at_ h.frontier } } }))

/-- Traps that name the lanes of the arrival they take away: a time-out and a countersign trap. -/
def ofArrival (cause : BitVec 6) : Bool := cause == 0x0C || cause == 0x13

/-- The trap of a withdrawn arrival waits: in a handler, until it returns; at a slot whose instruction is half done, until it is over. -/
def withdrawHeld (c : Ctx) : Bool :=
  c.handler.isSome || c.taking.isSome || midway c || (match c.blocked with | some (.remote _) | some .ring => true | _ => false)

/-- A trap takes the arrival of one participant away and stops it at the slot where it had arrived, at once or as soon as it can. -/
def withdrawArrival (s : State) (b : Nat) (w : Who) (at_ : Park) (t : PendTrap) : State :=
  match wgOf s b with
  | none => s
  | some g =>
    match w with
    | .pilot =>
      let s := setWg s b { g with pilot := { g.pilot with park := none } }
      if withdrawHeld g.pilot.ctx then modCtx s { berth := b, who := w } (fun c => { c with traps := c.traps ++ [t] })
      else takeTrap s { berth := b, who := w } t (t.slot.getD g.pilot.pc) 0 0
    | .crew n =>
      match crewOf g n with
      | none => s
      | some c =>
        let low := lowestParked at_ (allEntries s b g n c)
        let s := withdrawCrew s b n at_
        match low with
        | none => s
        | some e =>
          let t := if !ofArrival t.cause then t else { t with tlane := BitVec.ofNat 32 (lowestLane e.mask), tmask := e.mask }
          if withdrawHeld c.ctx then modCtx s { berth := b, who := w } (fun c => { c with traps := c.traps ++ [{ t with entry := some e.cix }] })
          else takeTrap s { berth := b, who := w } t (t.slot.getD (e.cix.setWidth 64)) e.cix e.mask

/-- Withdraw an arrival with a trap; a timer whose last live arrival this was is cleared (R118). -/
def withdrawTrap (s : State) (b : Nat) (w : Who) (at_ : Park) (t : PendTrap) : State := refreshTimers (withdrawArrival s b w at_ t) b

/-! ### Comparisons (R331, R332, R335) -/

/-- `TDETAIL` of a countersign trap (R335). -/
def csDetail (reason : Nat) (w : Who) (sig : BitVec 64) : Nat := reason + 16 * whoCode w + 2 ^ 16 * (sig.toNat % 2 ^ 48)

/-- A countersign trap in both copies of a context pair, at its slot; the mismatch count starts anew. -/
def csTrap (s : State) (lead trail : Nat) (w : Who) (reason : Nat) (sig : BitVec 64) : State :=
  let s := modPair s lead (fun g => { g with mism := 0 })
  let one := fun (s : State) (b : Nat) =>
    let m := match wgOf s b, w with
      | some g, .crew n => ((headOf s b g n).map (fun h => h.mask)).getD 0
      | _, _ => 0
    trapHere s { berth := b, who := w } (mkTrap 0x13 (csDetail reason w sig) m)
  one (one s lead) trail

/-- The instruction at the slot a context is at, with its operands read. -/
def peekEnv (s : State) (id : CtxId) : Option Env :=
  match wgOf s id.berth with
  | none => none
  | some g =>
    match (ctxIn g id.who).bind (fun c => c.line), headFor s id g with
    | some line, some h =>
      match decodeSlot (whoKind id.who) (lineSlot line.bits (slotOf g h id.who)) with
      | .ok i => (fieldsOf i).map (fun f => mkEnv s id g i (useOf (whoKind id.who) i) f h)
      | .error _ => none
    | _, _ => none

/-- An engine command, a `look` or its tap, or a region declaration: performed again on a rerun, for it acts on what the rollback restored (R334). -/
def againOnRerun (i : Instr) : Bool :=
  match i with
  | .lcopy _ | .lgather _ | .lscatter _ | .lfill _ | .cmma _ | .czero _ | .cdrain _ | .accld _ | .bycoup _ | .bybias _ | .byclamp _ | .byfree _
  | .bysweep _ | .bycount _ | .bystate _ | .bymode _ | .bybmap _ | .look _ | .tarm _ | .region _ => true
  | _ => false

/-- The pair has compared equal: the leading copy performs the instruction for both. -/
def grant (s : State) (lead : Nat) (w : Who) : State :=
  modCtx s { berth := lead, who := w } (fun c => { closeSig c with granted := true, blocked := none })

/-- Both copies receive a logged result. -/
def giveBoth (s : State) (lead : Nat) (w : Who) (got : Shared) : State :=
  modPair s lead (fun g => modCtxIn g w (fun c => { closeSig c with copied := some got, blocked := none }))

/-- Entries of the performed-once log (R334). -/
def logCap : Nat := 1024

/-- Compare a context pair that waits at a countersign point (R332, R334). -/
def comparePoint (s : State) (lead trail : Nat) (w : Who) (x y : Ctx) : State :=
  match peekEnv s { berth := lead, who := w }, peekEnv s { berth := trail, who := w } with
  | some e, some f =>
    let same := decide (x.sig = y.sig) && decide (e.i = f.i) && decide (signedOperands e = signedOperands f)
    let log := ((wgOf s lead).map (fun g => g.log)).getD []
    let again := ((wgOf s lead).map (fun g => decide (0 < g.mism))).getD false
    match log.find? (fun k => decide (k.who = w) && k.ordinal == x.ordinal) with
    | some k =>
      if same && decide (k.instr = e.i) && decide (k.operands = signedOperands e) && decide (k.sig = x.sig) then
        let s := dropHeld s lead w
        if againOnRerun e.i then grant s lead w else giveBoth s lead w k.got
      else csTrap s lead trail w 0x2 x.sig
    | none =>
      if same then
        if logCap ≤ log.length then csTrap s lead trail w 0x3 x.sig
        else
          match releaseHeld s { berth := lead, who := w } with
          | some t =>
            let t := dropHeld t lead w
            if ((wgOf t lead).map (fun g => unacked t g.lid g.wgix)).getD false then t else grant t lead w
          | none => heldFault s lead
      else if again then csTrap s lead trail w 0x2 x.sig
      else if rollbackWaits s lead then s
      else rollback (modPair s lead (fun g => { g with mism := g.mism + 1 })) lead
  | _, _ => s

/-- The interval signature (R331). -/
def intervalSig (g : WG) : BitVec 64 :=
  crcBytes 0 ((whos g).map (fun w => natLe 8 (((ctxIn g w).map (fun c => c.sig.toNat)).getD 0))).flatten

/-- Every held store of a pair's interval goes out, in context order. -/
def releaseAllHeld (s : State) (lead : Nat) : Option State :=
  match wgOf s lead with
  | none => some s
  | some g => (whos g).foldl (fun (a : Option State) w => a.bind (fun s => releaseHeld s { berth := lead, who := w })) (some s)

/-- One copy passes a checkpoint: a new interval starts, with this point as its rollback image. -/
def passCkpt (s : State) (b : Nat) : State :=
  let s := releasePark .ckpt s b
  let s := modWg s b (fun g => { modAllCtx g (fun c => { c with sig := 0, held := [], slack := 0, ordinal := 0 }) with
    ckcnt := g.ckcnt + 1, mism := 0, softErr := false, log := [] })
  refreshTimers (keepImage s b) b

/-- The participant that a second mismatch at a checkpoint traps: the pilot, or the lowest crew, that has not ended (R137). -/
def ckptReceiver (g : WG) : Option Who := (whos g).find? (fun w => ((ctxIn g w).map (fun c => !c.ended)).getD false)

/-- Compare a pair whose participants have all arrived at the checkpoint (R137, R331). -/
def compareCkpt (s : State) (lead trail : Nat) : State :=
  match wgOf s lead, wgOf s trail with
  | some g, some h =>
    if intervalSig g = intervalSig h then
      match releaseAllHeld s lead with
      | some t => passCkpt (passCkpt t lead) trail
      | none => heldFault s lead
    else if g.mism = 0 then (if rollbackWaits s lead then s else rollback (modPair s lead (fun g => { g with mism := g.mism + 1 })) lead)
    else
      let s := modPair s lead (fun g => { g with mism := 0 })
      match ckptReceiver g, ckptReceiver h with
      | some w, some w' =>
        let t := fun (w : Who) => mkTrap 0x13 (csDetail 0x1 w (intervalSig g)) 0
        withdrawTrap (withdrawTrap s lead w .ckpt (t w)) trail w' .ckpt (t w')
      | _, _ => s
  | _, _ => s

/-- The leading and the trailing berth of a pair. -/
def pairOf (s : State) (b : Nat) : Option (Nat × Nat) :=
  match wgOf s b with
  | none => none
  | some g => g.peer.map (fun p => if g.copy = .trail then (p, b) else (b, p))

/-- A pair's trap for a full countersign area is due (R335): both copies are at the store that needs the space, or one waits there and the
other has gone past it (log 51). -/
def areaMeets (x y : Ctx) : Bool :=
  (decide (x.blocked = some .area) && (decide (y.blocked = some .area) || decide (x.slack < y.slack)))
    || (decide (y.blocked = some .area) && decide (y.slack < x.slack))

/-- A context pair meets at a countersign point, at a store without room, or at the checkpoint. -/
def countersignAt (s : State) (id : CtxId) : State :=
  match pairOf s id.berth with
  | none => s
  | some (lead, trail) =>
    match wgOf s lead, wgOf s trail with
    | some g, some h =>
      match ctxIn g id.who, ctxIn h id.who with
      | some x, some y =>
        if x.blocked = some .countersign && y.blocked = some .countersign then comparePoint s lead trail id.who x y
        else if areaMeets x y then csTrap s lead trail id.who 0x4 x.sig
        else if barrierDone s lead g .ckpt && barrierDone s trail h .ckpt then compareCkpt s lead trail
        else s
      | _, _ => s
    | _, _ => s

/-- Paired contexts compare (R332, R331). -/
def execCountersignPoint (c : CtxId) (s : State) : Out := .next (countersignAt s c)

end Sys2Proof.Machine
end

