-- ==== Sys2Proof/Machine/Image.lean ====
section
/-! DEFINITION. Image: what the save image of a workgroup records (R399, R400), and whether its save area can be supplied (R422). -/

namespace Sys2Proof.Machine

/-! ### What an image records (R399) -/

/-- What a context keeps in an image: at its slot, a fault or a rebuild still to be answered; its slot's target bit is not checked again. -/
def savedCtx (c : Ctx) : Ctx :=
  { c with line := none, yields := [],
           blocked := match c.blocked with | some (.fault a b m) => some (.fault a b m) | some (.rebuild a b m) => some (.rebuild a b m) | _ => none }

/-- A command as an image records it, with its completion pigeonhole in both copies' windows. -/
def savedCmd (s : State) (b : Nat) (g : WG) (x : Cmd) : Cmd :=
  { x with cq := x.cq.map (fun q => (q.1, savedBind s b g q.2)),
           cqPeer := x.cqPeer.map (fun q => match g.peer.bind (fun p => (wgOf s p).map (fun h => (p, h))) with
             | some (p, h) => savedBind s p h q
             | none => q) }

/-- The unsettled handles of a workgroup, with their states (R289, R296). -/
def handlesOf (s : State) (g : WG) : List (Nat × HandleState) :=
  (s.revs.filter (fun x => x.2.lid == g.lid && x.2.wgix == g.wgix && decide (x.2.state ≠ .settled))).map (fun x => (x.2.handle, x.2.state))

/-- What the save image of one copy records (R399, R400). -/
def imageData (s : State) (b : Nat) (g : WG) : Saved :=
  let g0 := g
  let swapped := !g.preempt && g.faultSince.isSome
  let cmds := (flightOf s b).map (fun x => (x.1, savedCmd s b g0 x.2))
  let g := modAllCtx g savedCtx
  let binds := fun (qs : List (Option Binding)) => qs.map (fun q => q.map (savedBind s b g0))
  let g : WG := { g with binds := binds g.binds,
                         image := g.image.map (fun im => { im with binds := binds im.binds, cmds := im.cmds.map (fun x => (x.1, savedCmd s b g0 x.2)) }),
                         pilot := { g.pilot with landing := none }, crews := g.crews.map (fun c => { c with landings := [] }), peer := none,
                         preempt := false, run := if g.run = .draining then .running else g.run,
                         taps := g.taps.map (fun t => t.map (fun t => { t with cache := [] })) }
  let c := coreOf s (berthCore b)
  { wg := g, base := 0, len := 0, lens := [], window := cellsSlice s.quay (winKey b g 0) (hQuayb g.hdr),
    engTiles := nsSlice s.engTiles (winKey b g 0 / 4096) (hQuayb g.hdr / 4096),
    badLines := nsSlice s.quayBad (winKey b g 0 / 64) (hQuayb g.hdr / 64),
    cmds := cmds,
    buoy := if c.buoy.holder = some b then some (stallEnd s.cycle c.buoy) else none,
    timers := (g.bars ++ [g.ckBar]).map (fun x => x.start.map (fun t => s.cycle - t)),
    link := 0, handles := handlesOf s g0, swapped := swapped }

/-- The save image of one copy, not yet in an area. -/
def imageSave (s : State) (b : Nat) (g : WG) : Saved :=
  let v := imageData s b g
  { v with lens := sections v }

/-! ### Room for save areas (R314, R422) -/

/-- Berths that are pre-empted with a workgroup: its pair, and its gang (R314). -/
def withGang (s : State) (g : WG) : List Nat :=
  (s.wgs.filter (fun x => x.2.lid == g.lid && (x.2.wgix == g.wgix || (decide (mGang g.man ≠ 0) && x.2.wgix / mGang g.man == g.wgix / mGang g.man)))).map (fun x => x.1)

/-- A workgroup and its pair. -/
def withPair (s : State) (g : WG) : List Nat := (s.wgs.filter (fun x => x.2.lid == g.lid && x.2.wgix == g.wgix)).map (fun x => x.1)

/-- The range of an address space supplies the save areas of some berths, one place each, beside the areas in use and those of workgroups that are
leaving (R422). -/
def saveRoom (s : State) (asid : Nat) (bs : List Nat) : Bool :=
  areasFit s asid ((s.wgs.filter (fun x => asidOf x.2 == asid && (bs.contains x.1 || x.2.preempt || decide (x.2.run = .draining)))).map (fun x =>
    imageLen (imageSave s x.1 x.2))) []

end Sys2Proof.Machine
end

