-- ==== Sys2Proof/Machine/Sched.lean ====
section
/-! DEFINITION. Sched: dealing, placement and refilling (R309, R310), gangs (R313, R314), retirement (R114, R323), completion of launches
(R305, R387). -/

namespace Sys2Proof.Machine

/-! ### Bringing a workgroup to a core (R308, R310, R401) -/

/-- The partition's launches that place workgroups now: none is dealt newly while a checkpoint waits (R336). -/
def dealable (s : State) (l : Launch) : Bool := placeable l && !((partOf s l.part).ckBusy && decide (l.state = .ready))

/-- A binding made afresh (R198, R256, R401): the descriptor is read whole, its cached counts from home, and its transit entries are sent again.
A descriptor that breaks R188 by then leaves the fields read before (log 55); one that an edited image names for the first time binds nothing. -/
def freshBind (s : State) (q : Binding) : Option Binding :=
  let d := descAt s q.desc
  if descBad d q.desc then (if q.cap = 0 then none else some (qRefresh s q))
  else some (qRefresh s { bindingOf d q.desc q.win with transit := q.transit, group := q.group })

/-- A command in its issuer's new place. -/
def moveCmd (s : State) (part b wbase : Nat) (peer : Option (Nat × Nat)) (x : Cmd) : Cmd :=
  { x with berth := b, cq := x.cq.bind (fun q => (moveBind s part b wbase q.2).map (fun p => (q.1, p))),
           cqPeer := x.cqPeer.bind (fun q => let p := peer.getD (b, wbase); moveBind s part p.1 p.2 q) }

/-- A staged chain step in its issuer's new partition: its descriptor keeps its logical address. -/
def moveRec (s : State) (old part : Nat) (r : StageRec) : StageRec :=
  match r.op with
  | .hacc key none d aop ty k v => { r with op := .hacc ((logicalKey s part (keyLogical s old key)).getD key) none d aop ty k v }
  | _ => r

/-- A barrier whose timer goes on from an elapsed time (R118). -/
def resumeTimer (cycle : Nat) (t : Option Nat) (x : Barrier) : Barrier := { x with start := t.map (fun n => cycle - n) }

/-- What a saved context's hold becomes on restore: a refused access traps at once, any other is issued again (R277, R388). -/
def wakeSaved (s : State) (b : Nat) (w : Who) : State :=
  let id : CtxId := { berth := b, who := w }
  match ((wgOf s b).bind (fun g => ctxIn g w)).bind (fun c => c.blocked) with
  | some (.refused c a m) => trapHere (modCtx s id (fun x => { x with blocked := none })) id (mkTrap c a.toNat m)
  | some _ => modCtx s id (fun x => { x with blocked := none })
  | none => s

/-- Reinstate one saved copy in a berth of a partition (R401). Its commands join the queues of the core whatever room they have, for R401 names no wait
there (DESIGN CHOICE, log 55). -/
def reinstate (s : State) (v : Saved) (part b wbase : Nat) (copy : Copy) (peer : Option (Nat × Nat)) : State :=
  let g : WG := { v.wg with
    part := part, wbase := wbase, copy := copy, peer := peer.map (fun p => p.1), preempt := false, quantum := s.cycle, faultSince := none,
    binds := v.wg.binds.map (fun q => q.bind (moveBind s part b wbase)), staging := v.wg.staging.map (moveRec s v.wg.part part),
    bars := (v.timers.zip v.wg.bars).map (fun x => resumeTimer s.cycle x.1 x.2),
    ckBar := resumeTimer s.cycle (v.timers.getD 16 none) v.wg.ckBar,
    image := v.wg.image.map (fun im => { im with binds := im.binds.map (fun q => q.bind (moveBind s part b wbase)),
                                                 cmds := im.cmds.map (fun x => (x.1, moveCmd s part b wbase peer x.2)) }) }
  let s := unparkRemote (placeWindow (setWg s b g) b g v.window v.engTiles v.badLines) b g.lid g.wgix v.wg.copy
  let s := modWg s b (fun g => { g with binds := g.binds.map (fun q => q.bind (freshBind s)) })
  let cmds := fun (k : Engine) => (v.cmds.filter (fun x => decide (x.1 = k))).map (fun x => moveCmd s part b wbase peer x.2)
  (whos v.wg).foldl (fun s w => wakeSaved s b w) (modCore (if v.buoy.isSome then labelsArrive s (berthCore b) else s) (berthCore b) (fun c =>
    { c with
      icache := [], lighter := c.lighter ++ cmds .lighter, crane := c.crane ++ cmds .crane, buoyQ := c.buoyQ ++ cmds .buoy,
      buoy := match v.buoy with
        | some y => monitorStart { y with holder := some b, offline := c.buoy.offline, draws := c.buoy.draws, calBusy := c.buoy.calBusy, calPass := c.buoy.calPass }
        | none => c.buoy }))

/-- The saved copies of a workgroup, the leading one first. -/
def savedOf (l : Launch) (wgix : Nat) : List Saved :=
  (l.saved.filter (fun v => v.wg.wgix == wgix && decide (v.wg.copy ≠ .trail))) ++ l.saved.filter (fun v => v.wg.wgix == wgix && decide (v.wg.copy = .trail))

/-- RESTORE a saved workgroup on a core of a partition, or a pair on two, as its image in the save area has it (R401); one whose image is not good
ends its launch. `none`: it does not fit. -/
def restoreOn (s : State) (part lid wgix core : Nat) (other : Option Nat) : Option State :=
  match launchOf s lid with
  | none => none
  | some l =>
    let take := fun (s : State) => modLaunch s lid (fun l =>
      { l with saved := l.saved.filter (fun v => v.wg.wgix != wgix), back := l.back.filter (fun n => n != wgix) })
    let fit := fun (v : Saved) (c : Nat) => (freeSlot s c).bind (fun b => (fitBase s c (reservedOn s part c) (needHeld v.wg)).map (fun w => (b, w)))
    if !(savedOf l wgix).all (fun v => imageGoodAt s v l.id) then some (endLaunch s lid)
    else
    match (savedOf l wgix).map (fun v => imageRead s v l.id), other with
    | [v], none => (fit v core).map (fun p => settleLaunch (reinstate (take s) v part p.1 p.2 .single none) lid)
    | [v, u], some o =>
      let lower := decide ((coreSlice (partOf s part) core).getD 0 < (coreSlice (partOf s part) o).getD 0)
      match fit v (if lower then core else o), fit u (if lower then o else core) with
      | some p, some q => some (settleLaunch (reinstate (reinstate (take s) v part p.1 p.2 .lead (some q)) u part q.1 q.2 .trail (some p)) lid)
      | _, _ => none
    | _, _ => none

/-- A workgroup of a launch comes to a core of a partition: restored, or started in the launch's own. -/
def bringIn (s : State) (part : Nat) (l : Launch) (wgix core : Nat) (other : Option Nat) : Option State :=
  if (savedOf l wgix).isEmpty then (if part = l.part then placeOn s l.lid wgix core other else none) else restoreOn s part l.lid wgix core other

/-- DUP is in force for a launch. -/
def launchDup (l : Launch) : Bool := decide (launchMode l / 2 % 2 = 1)

/-- A launch of higher priority has an unplaced workgroup that fits the partition, or that nothing is known of yet: gangs below it do not
reserve there (R314). -/
def outranked (s : State) (part : Nat) (l : Launch) : Bool :=
  (roadstead s part).any (fun o => decide (mPrio o.man < mPrio l.man) && (match lowestUnplaced o with
    | some w => match memberNeed o w with
      | some n => (partCores (partOf s part)).any (fun c => fits s part c n)
      | none => true
    | none => false))

/-- Bring a pair in with a given core as one of its places, new or saved, as a gang of two (R311): the other copy takes the first other core in
order; while none fits it, the first one keeps its reservation. One gang of a partition reserves at a time (R313), and none below a
launch of higher priority that could place (R314). -/
def bringPair (s : State) (part : Nat) (l : Launch) (wgix core : Nat) (n : Need) : Option State :=
  if (partOf s part).gang.isSome || outranked s part l then none
  else
    match (coreOrder s part l).find? (fun c => c != core && fits s part c n) with
    | some o => bringIn s part l wgix core (some o)
    | none => some (modPart s part (fun p => { p with gang := some { lid := l.lid, gang := wgix, reserved := [(wgix, core)] } }))

/-- Bring a workgroup in with a given core of a partition as its place, or as one of a pair's. -/
def bringOn (s : State) (part : Nat) (l : Launch) (wgix core : Nat) : Option State :=
  match memberNeed l wgix with
  | none => none
  | some n =>
    if !(fits s part core n && detPlaceable s l wgix) then none
    else if launchDup l then bringPair s part l wgix core n else bringIn s part l wgix core none

/-! ### Dealing (R309) -/

/-- The dealt workgroups of a core's chunk. -/
def chunkOf (l : Launch) (core : Nat) : List Nat := ((l.chunks.find? (fun c => c.1 == core)).map (fun c => c.2)).getD []

/-- Place from a chunk, lowest first, while the next one fits. -/
def placeChunk : Nat → State → Nat → Nat → State
  | 0, s, _, _ => s
  | fuel + 1, s, lid, core =>
    match launchOf s lid with
    | none => s
    | some l =>
      match chunkOf l core with
      | [] => s
      | w :: ws =>
        let n := ws.foldl min w
        match bringOn s l.part l n core with
        | some t => placeChunk fuel t lid core
        | none => argFault s l n

/-- Deal the next n workgroups to a chunk. -/
def dealTo (s : State) (lid core n : Nat) : State :=
  modLaunch s lid (fun l =>
    let ws := (List.range n).map (fun k => l.undealt + k)
    { l with undealt := l.undealt + n,
             chunks := if l.chunks.any (fun c => c.1 == core) then l.chunks.map (fun c => if c.1 = core then (c.1, c.2 ++ ws) else c)
               else l.chunks ++ [(core, ws)] })

/-- A saved or aborted workgroup waits for a core ahead of those with a higher index (R279, R310). -/
def waitsBehind (l : Launch) (wgix : Nat) : Bool := (returning l).any (fun n => decide (n < wgix))

/-- The first core of the order that the lowest undealt workgroup fits; a pair starts with one of its cores. -/
def dealCore (s : State) (l : Launch) : Option Nat :=
  match needOfLaunch l with
  | none => none
  | some n =>
    if mNwg l.man ≤ l.undealt || !detPlaceable s l l.undealt || waitsBehind l l.undealt || (launchDup l && ((partOf s l.part).gang.isSome || outranked s l.part l)) then none
    else (coreOrder s l.part l).find? (fun c => fits s l.part c n)

/-- Deal a launch while its lowest undealt workgroup fits a core and what is dealt is placed. -/
def dealLoop : Nat → State → Nat → State
  | 0, s, _ => s
  | fuel + 1, s, lid =>
    match launchOf s lid with
    | none => s
    | some l =>
      match dealCore s l with
      | none => s
      | some c =>
        let left := mNwg l.man - l.undealt
        let cores := (partCores (partOf s l.part)).length
        let k := if launchDet l then 1 else max 1 ((left + 2 * cores - 1) / (2 * cores))
        let t := placeChunk (k + (chunkOf l c).length) (dealTo s lid c (min k left)) lid c
        if t.wgs.length = s.wgs.length then t else dealLoop fuel t lid

/-- A core of the partition stands idle. -/
def idleCore (s : State) (part : Nat) : Bool := (partCores (partOf s part)).any (fun c => s.wgs.all (fun x => berthCore x.1 != c))

/-- Dealing is due (R309): the launch has become Ready, or a core stands idle while workgroups are undealt. -/
def dealNow (s : State) (l : Launch) : Bool := l.dealDue || (decide (l.undealt < mNwg l.man) && idleCore s l.part)

/-- A launch whose counter could not be read registers on it now; a page of the counter without translation is reported (R135; log 52). -/
def registerAgain (s : State) (l : Launch) : State :=
  let t := register s l.lid
  if (launchOf t l.lid).any (fun l => decide (l.state = .submitted)) && (counterAway t l).isNone then masterFault t l (mDepc l.man) false else t

/-- A launch has still to register on its counter, or reads it again in another package's memory (log 52). -/
def registers (s : State) (l : Launch) : Bool := decide (l.state = .submitted) || (decide (l.state = .waiting) && (counterAway s l).isSome)

/-- Deal a launch (R309): its header is read and checked first. Dealing stays due while something but a lack of room holds it: a page without
translation, or the gang phase of a pair. -/
def dealLaunch (s : State) (lid : Nat) : State :=
  match launchOf s lid with
  | none => s
  | some l =>
    if registers s l then registerAgain s l
    else if !dealable s l || mGang l.man ≠ 0 || !dealNow s l then s
    else
      let s := readHeader s l
      match launchOf s lid with
      | some l =>
        if l.hdr.isSome && dealable s l then
          let s := dealLoop (Config.berthsPerCore * 640) s lid
          modLaunch s lid (fun l => { l with dealDue := (dealCore s l).isSome || (gangOf s lid).isSome || (launchDup l && outranked s l.part l) })
        else s
      | none => s

/-- A launch is dealt (R309). -/
def execLaunchDeal (lid : Nat) (s : State) : Out := .next (dealLaunch s lid)

/-- One dealt workgroup is placed on its chunk's core (R308, R309), the lowest of the chunk. -/
def placeDealt (s : State) (lid wgix : Nat) : State :=
  match launchOf s lid with
  | none => s
  | some l =>
    match l.chunks.find? (fun c => c.2.contains wgix) with
    | none => s
    | some c =>
      if c.2.all (fun n => decide (wgix ≤ n)) && placeable l && !waitsBehind l wgix then
        match bringOn s l.part l wgix c.1 with
        | some t => t
        | none => if ((memberNeed l wgix).map (fits s l.part c.1)).getD false then argFault s l wgix else s
      else s

/-- A workgroup is placed (R308). -/
def execPlacement (lid wgix : Nat) (s : State) : Out := .next (placeDealt s lid wgix)

/-! ### The refill rule (R310) -/

/-- The partition a core belongs to. -/
def partOfCore (s : State) (core : Nat) : Option Nat := (s.parts.find? (fun p => p.2.en && (coreSlice p.2 core).isSome)).map (fun p => p.1)

/-- What looking for a workgroup to place on a core gives: one placed; a page without translation to wait for; nothing that fits. -/
inductive Refill where
  | placed (s : State)
  | held (s : State)
  | over (s : State)

/-- The first launch in roadstead order whose lowest unplaced workgroup fits the core places it (R310); a header not yet read is read when its
launch comes up. With `all` false only workgroups that have re-entered are placed (log 47). -/
def refillOnce (core : Nat) (all : Bool) : List Nat → State → Refill
  | [], s => .over s
  | lid :: ls, s =>
    match launchOf s lid with
    | none => refillOnce core all ls s
    | some l =>
      if !dealable s l || mGang l.man ≠ 0 || (launchDup l && ((partOf s l.part).gang.isSome || outranked s l.part l)) then refillOnce core all ls s
      else
        let s := readHeader s l
        match (launchOf s lid).bind (fun l => (lowestUnplaced l).map (fun w => (l, w))) with
        | none => refillOnce core all ls s
        | some (l, w) =>
          if !dealable s l || !((memberNeed l w).any (fits s l.part core)) || !detPlaceable s l w || !(all || l.back.contains w) then refillOnce core all ls s
          else
            match bringOn s l.part l w core with
            | some t => .placed t
            | none => .held (argFault s l w)

/-- Repeat the refill rule until nothing more fits. -/
def refillLoop (core part : Nat) (all : Bool) : Nat → State → State
  | 0, s => s
  | fuel + 1, s =>
    match refillOnce core all ((roadstead s part).map (fun l => l.lid)) s with
    | .placed t => refillLoop core part all fuel t
    | .held t => t
    | .over t => if all then modCore t core (fun c => { c with freed := false }) else t

/-! ### Gangs (R313, R314) -/

/-- Members of a gang; a pair without `GANG` is a gang of its own (R311). -/
def gangMembers (l : Launch) (m : Nat) : List Nat :=
  if mGang l.man = 0 then [m] else (List.range (mGang l.man)).map (fun k => m * mGang l.man + k)

/-- Members of a gang that are neither resident nor retired. -/
def gangMissing (s : State) (l : Launch) (m : Nat) : List Nat :=
  (gangMembers l m).filter (fun w =>
    !(l.retired.contains w) && !(s.wgs.any (fun x => x.2.lid == l.lid && x.2.wgix == w)))

/-- Workgroups of a gang launch that may be placed now: all that are not held. -/
def gangFree (l : Launch) (w : Nat) : Bool :=
  l.saved.all (fun v => v.wg.wgix != w || !savedHeld v) && l.aborted.all (fun a => a.1 != w || a.2.isNone)

/-- A member of a gang is still leaving: a pre-empted gang returns as one unit (R314). -/
def gangLeaving (s : State) (l : Launch) (m : Nat) : Bool :=
  s.wgs.any (fun x => x.2.lid == l.lid && (gangMembers l m).contains x.2.wgix && (x.2.preempt || decide (x.2.run = .draining)))

/-- The lowest gang with a member to place. -/
def nextGang (s : State) (l : Launch) : Option Nat :=
  (List.range (mNwg l.man / mGang l.man)).find? (fun m => !(gangMissing s l m).isEmpty)

/-- Copies of a member that a gang has reserved. -/
def reservedOf (y : GangPhase) (w : Nat) : List Nat := (y.reserved.filter (fun r => r.1 == w)).map (fun r => r.2)

/-- Copies that each member needs. -/
def copiesOf (l : Launch) : Nat := if launchDup l then 2 else 1

/-- Reserve one copy of a gang's next member on the first core it fits. -/
def reserveNext (s : State) (part : Nat) (l : Launch) (y : GangPhase) : State :=
  let put := fun (y : GangPhase) => modPart s part (fun p => { p with gang := some y })
  match (gangMissing s l y.gang).find? (fun w => decide ((reservedOf y w).length < copiesOf l)) with
  | none => put y
  | some w =>
    match memberNeed l w with
    | none => put y
    | some n =>
      match (coreOrder s part l).find? (fun c => !(reservedOf y w).contains c && fits (put y) part c n) with
      | some c => put { y with reserved := y.reserved ++ [(w, c)] }
      | none => put y

/-- Something of the launch goes before a gang in its reserve phase: a pair gives way to a lower workgroup that has returned, and under DET to one
that is to be placed first (R279, R311), a gang to a lower gang with a member to place (R313). -/
def gangBehind (s : State) (l : Launch) (m : Nat) : Bool :=
  if mGang l.man = 0 then waitsBehind l m || !detPlaceable s l m else decide (nextGang s l ≠ some m)

/-- A launch's gang may start reserving. -/
def gangMayStart (s : State) (l : Launch) (m : Nat) : Bool :=
  (gangMissing s l m).all (gangFree l) && !gangLeaving s l m && ((gangMissing s l m).head?.map (fun w => !launchDet l || (List.range w).all (fun k =>
    l.retired.contains k || s.wgs.any (fun x => x.2.lid == l.lid && x.2.wgix == k)))).getD false

/-- The reserve phase goes one member on; a gang that something of its launch goes before gives its reservations up. -/
def gangStep (s : State) (lid : Nat) : State :=
  match launchOf s lid with
  | none => s
  | some l =>
    if !dealable s l || (mGang l.man = 0 && (gangOf s lid).isNone) then s
    else
      let s := readHeader s l
      match launchOf s lid with
      | none => s
      | some l =>
        if l.hdr.isNone || !dealable s l then s
        else
          match gangOf s lid with
          | some (part, y) => if outranked s part l then s else if gangBehind s l y.gang then dropGang s part else reserveNext s part l y
          | none =>
            if outranked s l.part l || (partOf s l.part).gang.isSome then s
            else
              match nextGang s l with
              | none => s
              | some m => if gangMayStart s l m then reserveNext s l.part l { lid := lid, gang := m, reserved := [] } else s

/-- A gang member is reserved (R313). -/
def execGangReserve (lid : Nat) (s : State) : Out := .next (gangStep s lid)

/-- Place the reserved members in order. -/
def commitMembers (part : Nat) (y : GangPhase) (lid : Nat) : List Nat → State → State
  | [], s => s
  | w :: ws, s =>
    match launchOf s lid with
    | none => s
    | some l =>
      let s := modLaunch s lid (fun l => { l with undealt := max l.undealt (w + 1) })
      let cs := reservedOf y w
      match cs.head? with
      | some c => commitMembers part y lid ws ((bringIn s part l w c cs.tail.head?).getD s)
      | none => commitMembers part y lid ws s

/-- Commit a gang once every member is reserved and every argument record can be read (R313), unless something of its launch goes before it. -/
def gangDone (s : State) (lid : Nat) : State :=
  match launchOf s lid, gangOf s lid with
  | some l, some (part, y) =>
    let ms := gangMissing s l y.gang
    if ms.isEmpty || !ms.all (fun w => decide ((reservedOf y w).length = copiesOf l)) || gangBehind s l y.gang then s
    else
      match ms.find? (fun w => (savedOf l w).isEmpty && (argBytes s l w).isNone) with
      | some w => argFault s l w
      | none => settleLaunch (commitMembers part y lid ms (modPart s part (fun p => { p with gang := none }))) lid
  | _, _ => s

/-- A gang is committed (R313). -/
def execGangCommit (lid : Nat) (s : State) : Out := .next (gangDone s lid)

/-! ### Retirement (R114, R323) -/

/-- A copy has ended with nothing outstanding. -/
def copyDone (s : State) (b : Nat) (g : WG) : Bool :=
  let c := coreOf s (berthCore b)
  decide (g.run = .running) && (whos g).all (fun w => ((ctxIn g w).map (fun c => c.ended)).getD true)
    && (c.lighter ++ c.crane ++ c.buoyQ).all (fun x => x.berth != b)
    && s.pkg.remote.all (fun r => !(r.ctx.any (fun i => i.berth == b)))
    && g.binds.all (fun q => match q with | some q => q.transit.isEmpty | none => true) && g.strays.isEmpty

/-- A copy leaves; under DET its records stay in the core's area until they are released (R323). -/
def retireCopy (s : State) (b : Nat) : State :=
  match wgOf s b with
  | none => s
  | some g =>
    let s := if isDet g && !g.staging.isEmpty then modLaunch s g.lid (fun l => { l with ended := l.ended ++ [(g.wgix, berthCore b, g.staging)] }) else s
    freeBerth (keepArray s b) b

/-- A workgroup has retired. -/
def retireNote (s : State) (g : WG) : State :=
  wakeTaps (advanceHead (settleLaunch (modLaunch s g.lid (fun l => { l with retired := nsInsert g.wgix l.retired })) g.lid) g.lid)

/-- Under IDEM alone the staged stores go out at retirement (R278); a page without translation holds it, and its
record has `ENG` clear (DEDUCED, log 50). -/
def idemFlush (s : State) (b : Nat) : Except State State :=
  match wgOf s b with
  | none => .ok s
  | some g =>
    if isDet g || g.staging.isEmpty then .ok s
    else
      let t := flushStaging s b
      match (wgOf t b).bind (fun g => g.staging.head?) with
      | some r => match r.op with
        | .store line _ =>
          .error (if pageHeld t g.lid (asidOf g) line.toNat then t else (faultRecord t g.part (berthCore b) (asidOf g) line.toNat true false false false false (launchIdOf s g).toNat g.wgix).2)
        | _ => .ok t
      | none => .ok t

/-- A pair retires: its last interval is compared as a checkpoint's is (R331; log 21). -/
def retirePair (s : State) (lead trail : Nat) (g h : WG) : State :=
  if intervalSig g = intervalSig h then
    match releaseAllHeld s lead with
    | none => heldFault s lead
    | some t =>
      match idemFlush (modPair t lead (fun g => modAllCtx g (fun c => { c with held := [] }))) lead with
      | .error e => e
      | .ok t => if unacked t g.lid g.wgix then t else retireNote (retireCopy (retireCopy t lead) trail) g
  else if g.mism = 0 then rollback (modPair s lead (fun g => { g with mism := 1 })) lead
  else
    pairStop (modPair s lead (fun g => { g with mism := 0 })) { berth := lead, who := .pilot } (mkTrap 0x13 (csDetail 0x1 .pilot (intervalSig g)) 0) g.pilot.pc 0

/-- Retire a workgroup, once what it released is performed at system scope (R251, R258). -/
def retireWg (s : State) (b : Nat) : State :=
  match wgOf s b with
  | none => s
  | some g =>
    if !copyDone s b g then s
    else
      match pairOf s b with
      | none =>
        match idemFlush s b with
        | .error e => e
        | .ok t => if unacked t g.lid g.wgix then t else retireNote (retireCopy t b) g
      | some (lead, trail) =>
        match wgOf s lead, wgOf s trail with
        | some x, some y => if copyDone s lead x && copyDone s trail y then retirePair s lead trail x y else s
        | _, _ => s

/-- A workgroup retires (R114). -/
def execWorkgroupRetirement (berth : Nat) (s : State) : Out := .next (retireWg s berth)

/-! ### Resources that come free (R310, R319) -/

/-- The commands of a workgroup on its core, each at a boundary (R213): the lighter at a multiple of 4 KiB, or with its command at its end, the crane not inside a drain, no request to another package under way. -/
def enginesStopped (s : State) (b : Nat) : Bool :=
  let core := berthCore b
  let c := coreOf s core
  let lighter := match c.lighter.head? with
    | some x => x.berth != b || !x.started || x.fin.isSome || x.wait.isSome || x.rebuild.isSome
        || (x.edge && s.pkg.remote.all (fun r => !(r.ctx.isNone && r.lane == core + 1 && r.answer.isNone)))
    | none => true
  let crane := match c.crane.head? with
    | some x => x.berth != b || !x.started || x.fin.isSome || x.opc != 0x12
    | none => true
  lighter && crane

/-- A workgroup to save has drained (R318): every result it has issued is written and its flags are clear (R23), no division waits to push (R139),
its pushes are at home (R191), its accesses but those held at their slots (R410) are performed at system scope (R258), and no merge of its revisions is under way (R213). -/
def copyDrained (s : State) (b : Nat) (g : WG) : Bool :=
  (decide (g.run = .draining) || (g.preempt && decide (g.run ≠ .running))) && enginesStopped s b
    && (whos g).all (fun w => ((ctxIn g w).map (fun c => c.pend.isEmpty && c.divided.isNone && decide (c.blocked ≠ some .ring))).getD true) && g.strays.isEmpty
    && !unacked s g.lid g.wgix
    && s.revs.all (fun x => !(x.2.lid == g.lid && x.2.wgix == g.wgix && x.2.merging.isSome))

/-- Both copies of a workgroup satisfy a test. -/
def bothCopies (s : State) (b : Nat) (test : Nat → WG → Bool) : Bool :=
  match pairOf s b with
  | none => (wgOf s b).any (test b)
  | some (lead, trail) => (wgOf s lead).any (test lead) && (wgOf s trail).any (test trail)

/-- A retirement is due on a core that nothing holds: the workgroup would retire now. -/
def retirementDue (s : State) (core : Nat) : Bool :=
  s.wgs.any (fun x => berthCore x.1 == core && (wgOf (retireWg s x.1) x.1).isNone)

/-- A save is due on a core. -/
def saveDue (s : State) (core : Nat) : Bool := s.wgs.any (fun x => berthCore x.1 == core && bothCopies s x.1 (copyDrained s))

/-- A core has something to refill: resources have come free, or a workgroup of its partition has re-entered. -/
def refillNow (s : State) (core : Nat) : Bool :=
  (coreOf s core).freed || (partOfCore s core).any (fun p => (roadstead s p).any (fun l => !l.back.isEmpty))

/-- The refill rule on a core, after the retirements and saves that are due there with it (R310, R319). -/
def refill (s : State) (core : Nat) : State :=
  match partOfCore s core with
  | none => s
  | some part =>
    if refillNow s core && !retirementDue s core && !saveDue s core then refillLoop core part (coreOf s core).freed (2 * Config.berthsPerCore + 2) s else s

/-- Resources have come free on a core (R310). -/
def execRefillRule (core : Nat) (s : State) : Out := .next (refill s core)

/-! ### Completion of a launch (R305, R387) -/

/-- A place of the completion's reads and writes: its location, an address of another package, a skip, or a translation fault that holds it. -/
inductive DonePlace where
  | ok (l : Loc)
  | away (pa : Nat)
  | skip
  | hold (va : Nat)

/-- Where a completion access goes. -/
def donePlace (s : State) (l : Launch) (va : Nat) (wrt : Bool) : DonePlace :=
  if pageHeld s l.lid (mAsid l.man) va then .hold va else
  match devLoc s (mAsid l.man) l.view va wrt with
  | some (.remote pa) => .away pa
  | some x => .ok x
  | none => if l.skips.contains (va / pageSize) then .skip else .hold va

/-- The status word is written where its address passes (step 1). -/
def doneStatus (l : Launch) : Option Nat :=
  if mCstat l.man = 0 || fieldAddrBad (mCstat l.man) 8 then none else some (mCstat l.man)

/-- The successor list is read where its address passes (step 2). `SUCC` = 0 is no list, whatever `NSUCC` says (DESIGN CHOICE, log 52). -/
def doneList (l : Launch) : List Nat :=
  if mSucc l.man = 0 || fieldAddrBad (mSucc l.man) 8 then [] else (List.range (mNsucc l.man)).map (fun k => mSucc l.man + 8 * k)

/-- A skipped entry's record. -/
def skipRecord (s : State) (l : Launch) (counter : Nat) : State := putFault s l.part 0x06 (mAsid l.man) l.id.toNat 0 0 counter

/-- Change how far a launch's completion has come. -/
def modDone (s : State) (lid : Nat) (f : DonePos → DonePos) : State := modLaunch s lid (fun l => { l with done := f l.done })

/-- A refused fault has skipped its entry; a later fault on the page is reported anew (R305). -/
def doneSkipped (s : State) (lid : Nat) : State := modLaunch s lid (fun l => { l with skips := [] })

/-- What one step of a completion gives. -/
inductive DoneStep where
  | went (s : State)
  | held (s : State)

/-- Step 1 of R305: the status word; and the record of a `SUCC` that is not read. A status word whose page has no translation holds the completion, and
a refused one is skipped: R305 says so of the list and the counters alone (DESIGN CHOICE, log 52). -/
def doneFirst (s : State) (l : Launch) : DoneStep :=
  let on := fun (s : State) =>
    let bad := decide (mSucc l.man ≠ 0) && fieldAddrBad (mSucc l.man) 8 && !l.done.noted
    let s := modDone (doneSkipped s l.lid) l.lid (fun d => { d with status := true, noted := d.noted || bad })
    DoneStep.went (if bad then skipRecord s l 0 else s)
  let word := natLe 8 (l.status + 2 ^ 32 * l.id.toNat)
  match doneStatus l with
  | none => on s
  | some a =>
    match donePlace s l a true with
    | .hold va => .held (masterFault s l va true)
    | .skip => on s
    | .away pa => match masterGet s l.lid (mNwg l.man) 1 pa 8 0 word with
      | .held t => .held t
      | .bytes _ t | .refused t => on t
    | .ok _ => on ((devWrite s (mAsid l.man) l.view a word).getD s)

/-- Read the next entry of the successor list. -/
def doneNext (s : State) (l : Launch) (a : Nat) : DoneStep :=
  let on := fun (s : State) (c : Option Nat) => DoneStep.went (modDone (doneSkipped s l.lid) l.lid (fun d => { d with read := d.read ++ [c] }))
  match donePlace s l a false with
  | .hold va => .held (masterFault s l va false)
  | .skip => on s none
  | .away pa => match masterGet s l.lid (mNwg l.man) 2 pa 8 0 (natLe 2 8) with
    | .held t => .held t
    | .bytes bs t => on t (some (leNat bs))
    | .refused t => on t none
  | .ok x => on s (some (leNat (locRead s x 8)))

/-- Decrement one successor's counter; one in another package's memory is decremented there (R269, R410). -/
def doneDecrement (s : State) (l : Launch) (c : Option Nat) : DoneStep :=
  let on := fun (s : State) => DoneStep.went (modDone (doneSkipped s l.lid) l.lid (fun d => { d with decs := d.decs + 1 }))
  match c with
  | none => on (skipRecord s l 0)
  | some a =>
    if fieldAddrBad a 8 then on (skipRecord s l a)
    else
      match donePlace s l a true, rawPa s (mAsid l.man) a with
      | .hold va, _ => .held (masterFault s l va true)
      | .ok _, some pa =>
        let s := copyAll s (mAsid l.man) l.view a pa (s.nextRev + 2)
        on (decrement s (viewLoc s l.view a pa)).2
      | .away pa, _ => match masterGet s l.lid (mNwg l.man) 4 pa 8 depdecRmw [] with
        | .held t => .held t
        | .bytes bs t => on (decremented t pa (leNat bs))
        | .refused t => on (skipRecord t l a)
      | _, _ => on (skipRecord s l a)

/-- A line of the page is still poisoned, as the launch sees it. -/
def pagePoisoned (s : State) (l : Launch) (asid page : Nat) : Bool :=
  match rawPa s asid (page * pageSize) with
  | some pa => (List.range 1024).any (fun k => locBad s (locAdd (viewLoc s l.view (page * pageSize) pa) (64 * k)))
  | none => true

/-- Whether a hold of a context is on a page. -/
def onRebuild (page : Nat) (c : Ctx) : Option (DWord × LaneMask) :=
  match c.blocked with
  | some (.rebuild p a m) => if p = page then some (a, m) else none
  | _ => none

/-- A saved context whose rebuild has ended: its image carries the outcome (R388). -/
def rebuildSaved (ok : Bool) (page : Nat) (c : Ctx) : Ctx :=
  match onRebuild page c with
  | some (a, m) => { c with blocked := if ok then none else some (.refused 0x15 a m) }
  | none => c

/-- Change the saved workgroups of a launch; a swapped-out one that nothing holds any more, in either copy, re-enters and waits for a core (R278). -/
def answerImages (l : Launch) (f : Saved → Saved) : Launch :=
  let t : Launch := { l with saved := l.saved.map f }
  let back := ((l.saved.filter savedHeld).map (fun v => v.wg.wgix)).filter (returning t).contains
  { t with back := back.foldl (fun b n => nsInsert n b) l.back }

/-- A command whose rebuild has ended. -/
def rebuildCmd (ok : Bool) (page : Nat) (x : Cmd) : Cmd :=
  if x.rebuild = some page then { x with rebuild := none, carry := if ok then x.carry else page :: x.carry } else x

/-- A workgroup that no fault or rebuild holds any more is held no longer. While one of several holds remains, `FHOLD` counts from the first of them
(DESIGN CHOICE, log 47). -/
def refreshHold (g : WG) : WG :=
  { g with faultSince := if (whos g).any (fun w => match (ctxIn g w).bind (fun c => c.blocked) with
      | some (.fault _ _ _) | some (.rebuild _ _ _) => true
      | _ => false) then g.faultSince else none }

/-- The workgroup of a command is in an address space. -/
def cmdIn (s : State) (asid : Nat) (x : Cmd) : Bool := ((wgOf s x.berth).map (fun g => asidOf g == asid)).getD false

/-- The rebuild of a page has ended (R387): a held thread reissues or traps at its slot, a held command goes on. -/
def rebuildOver (s0 : State) (asid page : Nat) (ok : Bool) : State :=
  let s : State := match rebuildEntry s0 asid page with
    | some a => paWrite s0 (a + 16) (natLe 4 (if ok then 0 else 2))
    | none => s0
  let fix := fun (q : List Cmd) => q.map (fun x => if cmdIn s0 asid x then rebuildCmd ok page x else x)
  let s : State := { s with cores := s.cores.map (fun c => (c.1, { c.2 with lighter := fix c.2.lighter, crane := fix c.2.crane, buoyQ := fix c.2.buoyQ })) }
  let s : State := { s with launches := s.launches.map (fun l =>
      if mAsid l.man = asid then
        answerImages l (fun v => { v with wg := modAllCtx v.wg (rebuildSaved ok page), cmds := v.cmds.map (fun x => (x.1, rebuildCmd ok page x.2)) })
      else l) }
  s.wgs.foldl (fun s x =>
    if asidOf x.2 != asid then s
    else
      let s := if ok then s else (whos x.2).foldl (fun s w =>
        match (ctxIn x.2 w).bind (onRebuild page) with
        | some (a, m) => trapHere s { berth := x.1, who := w } (mkTrap 0x15 a.toNat m)
        | none => s) s
      modWg s x.1 (fun g => refreshHold (if ok then modAllCtx g (rebuildSaved true page) else g))) s

/-- The launch is over: its entry is freed, its revision complete, its rebuild ended. -/
def launchOver (s : State) (l : Launch) : State :=
  let s := modLaunch s l.lid (fun l => { l with state := .completed })
  let s := { s with revs := s.revs.map (fun x => if x.2.child = l.lid && decide (x.2.state = .running) then (x.1, { x.2 with state := .complete }) else x) }
  match l.rebuilds with
  | some (asid, page) => rebuildOver s asid page (decide (l.status = 0) && !pagePoisoned s l asid page)
  | none => s

/-- The steps of R305 in order, as far as they go: a fault holds the completion where it stands, with what came before it done. -/
def doneSteps : Nat → State → Nat → State
  | 0, s, _ => s
  | fuel + 1, s, lid =>
    match launchOf s lid with
    | none => s
    | some l =>
      let go := fun (x : DoneStep) => match x with | .went t => doneSteps fuel t lid | .held t => t
      if !l.done.status then go (doneFirst s l)
      else
        match (doneList l)[l.done.read.length]?, l.done.read[l.done.decs]? with
        | some a, _ => go (doneNext s l a)
        | none, some c => go (doneDecrement s l c)
        | none, none => launchOver s l

/-- A launch completes whose workgroups are over, records released and performed, and children merged (R291, R323). -/
def finishLaunch (s : State) (lid : Nat) : State :=
  match launchOf s lid with
  | none => s
  | some l =>
    if l.state ≠ .completing || !l.ended.isEmpty || s.revs.any (fun x => x.2.lid == lid && !revOver x.2) || s.wgs.any (fun x => x.2.lid == lid)
        || s.pkg.remote.any (fun r => r.home.any (fun h => h.1 == lid) && r.answer.isNone) then s
    else doneSteps (2 * mNsucc l.man + 3) s lid

/-- A launch completes (R305). -/
def execLaunchCompletion (lid : Nat) (s : State) : Out := .next (finishLaunch s lid)

/-- Harbour software ends a launch (R304). -/
def execLaunchEnd (lid : Nat) (s : State) : Out := .next (bySoftware s (fun s => advanceHead (endLaunch s lid) lid))

end Sys2Proof.Machine
end

