-- ==== Sys2Proof/Machine/Preempt.lean ====
section
/-! DEFINITION. Preempt: quanta and victims (R317), pre-emption, saving and restoring (R318, R399 to R401), swap-out after a fault (R278),
resumption by harbour software (R398). -/

namespace Sys2Proof.Machine

/-! ### Victims (R317) -/

/-- Cycles of a bound in microseconds, which assumes 1.4 GHz and stretches with the clock (R420). -/
def usCycles (us : Nat) : Nat := us * 1400

/-- A workgroup's die is at its critical temperature: it waits unsaved (R420). -/
def onHotDie (s : State) (b : Nat) : Bool := s.pkg.critical.contains (berthCore b / Config.coresPerDie)

/-- The machine without the workgroups of some berths. -/
def without (s : State) (bs : List Nat) : State := { s with wgs := s.wgs.filter (fun x => !bs.contains x.1) }

/-- Workgroups that are to leave: pre-emption pending, or draining. -/
def leaving (s : State) : List Nat := (s.wgs.filter (fun x => x.2.preempt || decide (x.2.run = .draining))).map (fun x => x.1)

/-- The demand of the lowest unplaced workgroup of a launch. -/
def waitingNeed (l : Launch) : Option Need := (lowestUnplaced l).bind (memberNeed l)

/-- The launch's lowest unplaced workgroup fits no core, even once the workgroups that are leaving have left. -/
def fitsNowhere (s : State) (l : Launch) : Bool :=
  match waitingNeed l with
  | none => false
  | some n => !(partCores (partOf s l.part)).any (fun c => fits (without s (leaving s)) l.part c n)

/-- The first Ready launch of the roadstead (R304, R306): one that has started placing is Ready no longer. -/
def firstReady (s : State) (part : Nat) : Option Launch := (roadstead s part).find? (fun l => decide (l.state = .ready))

/-- Victim order (R317): lowest priority first, then highest `WGIX`. -/
def sooner (a b : WG) : Bool := decide (mPrio b.man < mPrio a.man) || (mPrio a.man == mPrio b.man && decide (b.wgix < a.wgix))

/-- Insert in victim order. -/
def victimInsert (x : Nat × WG) : List (Nat × WG) → List (Nat × WG)
  | [] => [x]
  | y :: ys => if sooner x.2 y.2 then x :: y :: ys else y :: victimInsert x ys

/-- Take victims of a core in order until the demand fits. -/
def takeVictims (s : State) (part core : Nat) (n : Need) : List (Nat × WG) → List Nat → List Nat
  | [], out => out
  | x :: xs, out => if fits (without s (leaving s ++ out)) part core n then out else takeVictims s part core n xs (out ++ [x.1])

/-- The victims among candidates of a core. -/
def victimsOf (s : State) (part core : Nat) (n : Need) (cands : List (Nat × WG)) : List Nat :=
  takeVictims s part core n (cands.foldr victimInsert []) []

/-- Resident workgroups of a core that a launch may displace: of another launch, of its priority or a lower one. -/
def displaced (s : State) (l : Launch) (core : Nat) (strict : Bool) : List (Nat × WG) :=
  s.wgs.filter (fun x => berthCore x.1 == core && x.2.lid != l.lid && !x.2.preempt && !onHotDie s x.1 && decide (x.2.run ≠ .draining) && saveRoom s (asidOf x.2) (withGang s x.2)
    && (if strict then decide (mPrio l.man < mPrio x.2.man) else decide (mPrio l.man ≤ mPrio x.2.man)))

/-- A workgroup's quantum has ended. -/
def quantumOver (s : State) (g : WG) : Bool := decide (g.quantum + usCycles (partOf s g.part).quantum ≤ s.cycle)

/-- A quantum's end makes a workgroup a victim of the first Ready launch. -/
def quantumVictim (s : State) (b : Nat) (g : WG) : Bool :=
  match firstReady s g.part with
  | none => false
  | some l =>
    match waitingNeed l with
    | some n =>
      decide (mPrio l.man ≤ mPrio g.man) && l.lid != g.lid && fitsNowhere s l
        && (victimsOf s g.part (berthCore b) n ((displaced s l (berthCore b) false).filter (fun x => quantumOver s x.2))).contains b
    | none => false

/-- A launch of higher priority ends a quantum early (R317): on the first core where removing lower workgroups makes room. -/
def urgentVictim (s : State) (b : Nat) (g : WG) : Bool :=
  (roadstead s g.part).any (fun l =>
    decide (mPrio l.man < mPrio g.man) && fitsNowhere s l && (match waitingNeed l with
      | none => false
      | some n =>
        match (coreOrder s l.part l).find? (fun c => fits (without s (leaving s ++ (displaced s l c true).map (fun x => x.1))) g.part c n) with
        | some c => c == berthCore b && (victimsOf s g.part c n (displaced s l c true)).contains b
        | none => false))

/-- A quantum ends, in its time or early: the workgroup becomes a victim, or starts a new quantum (R317). -/
def quantumEnd (s : State) (b : Nat) : State :=
  match wgOf s b with
  | none => s
  | some g =>
    let choose := fun (s : State) => (withGang s g).foldl (fun s k => modWg s k (fun g => { g with preempt := true })) s
    if g.preempt || g.run = .draining then s
    else if urgentVictim s b g then choose s
    else if quantumOver s g then
      if quantumVictim s b g then choose s else modWg s b (fun g => { g with quantum := s.cycle })
    else s

/-- A quantum ends (R317). -/
def execQuantumExpiry (berth : Nat) (s : State) : Out := .next (quantumEnd s berth)

/-! ### Stopping and saving (R318, R399, R400) -/

/-- A victim stops issuing, and its issued results are written. -/
def stopVictim (s : State) (b : Nat) : State :=
  match wgOf s b with
  | none => s
  | some g => if g.preempt && decide (g.run = .running) && !onHotDie s b then modPair (startDrain s b) b (fun g => (whos g).foldl commitAll g) else s

/-- A victim is pre-empted (R318): steps Stop and Drain. -/
def execPreemption (berth : Nat) (s : State) : Out := .next (stopVictim s berth)

/-- Save one copy in its area, and free what it held. -/
def saveCopy (s : State) (b : Nat) (v : Saved) : State :=
  let g := v.wg
  let s := if ((coreOf s (berthCore b)).lighter.head?).any (fun x => x.berth == b) then remoteDone s (berthCore b) else s
  freeBerth (parkRemote (imageWrite (modLaunch s g.lid (fun l => { l with saved := l.saved ++ [v] })) v (launchIdOf s g)) b g.lid g.wgix g.copy) b

/-- An image in the lowest place of its range; `none`: the range has no room for it. -/
def imagePlaced (s : State) (more : List (Nat × Nat)) (v : Saved) : Option Saved :=
  (areaAt s (asidOf v.wg) more (imageLen v)).map (fun a => { v with base := a, len := imageLen v })

/-- The areas and images of a workgroup that is saved: of a pair two images, each with the address of the other (R400). -/
def imagesOf (s : State) (b : Nat) : Option (List (Nat × Saved)) :=
  match wgOf s b, pairOf s b with
  | some g, none => (imagePlaced s [] (imageSave s b g)).map (fun v => [(b, v)])
  | _, some (lead, trail) =>
    match wgOf s lead, wgOf s trail with
    | some g, some h =>
      (imagePlaced s [] (imageSave s lead g)).bind (fun v => (imagePlaced s [(v.base, v.len)] (imageSave s trail h)).map (fun u =>
        [(lead, { v with link := u.base }), (trail, { u with link := v.base })]))
    | _, _ => none
  | none, none => none

/-- Save a drained workgroup, both copies of a pair together, after the retirements due on its core (R319). -/
def saveWg (s : State) (b : Nat) : State :=
  match wgOf s b with
  | none => s
  | some g =>
    if !bothCopies s b (copyDrained s) || !bothCopies s b (fun b _ => !onHotDie s b) || retirementDue s (berthCore b) then s
    else
      match imagesOf s b with
      | some xs => wakeTaps (settleLaunch (xs.foldl (fun s x => saveCopy s x.1 x.2) s) g.lid)
      | none => s

/-- A drained workgroup is saved (R318). -/
def execContextSave (berth : Nat) (s : State) : Out := .next (saveWg s berth)

/-- A saved workgroup returns to a core of any partition that offers its demand (R318, R401), a pair through the reserve phase as a gang of two
(R311, R314); of a gang it returns with the gang (R314), under DET after every lower one (R311). -/
def restoreWg (s : State) (lid wgix core : Nat) : State :=
  match launchOf s lid, partOfCore s core with
  | some l, some part =>
    if placeable l && !(savedOf l wgix).isEmpty && (savedOf l wgix).all (fun v => !savedHeld v) && !waitsBehind l wgix && mGang l.man = 0
    then (bringOn s part l wgix core).getD s
    else s
  | _, _ => s

/-- A saved workgroup is restored (R401). -/
def execRestore (lid wgix core : Nat) (s : State) : Out := .next (restoreWg s lid wgix core)

/-- A workgroup that a fault or a rebuild has held for `FHOLD` cycles is swapped out (R278, R388). -/
def swapOut (s : State) (b : Nat) : State :=
  match wgOf s b with
  | none => s
  | some g =>
    match g.faultSince with
    | none => s
    | some t =>
      if decide (t + (partOf s g.part).fhold ≤ s.cycle) && saveRoom s (asidOf g) (withPair s g) && !onHotDie s b then
        modPair (startDrain s b) b (fun g => (whos g).foldl commitAll g)
      else s

/-- `FHOLD` has passed (R278). -/
def execFholdExpiry (berth : Nat) (s : State) : Out := .next (swapOut s berth)

/-! ### Resumption by harbour software (R398) -/

/-- The code point a stopped workgroup goes on at: the one harbour software chose, or `TEPC` (R398); none after a `halt`, which is past its slot. -/
def resumePoint (g : WG) (point : Option DWord) : Option DWord := point.orElse (fun _ => g.stopPt.map (fun x => x.1))

/-- The entry of a crew that goes on there: the one that trapped, or the head. -/
def resumeEntry (s : State) (b : Nat) (g : WG) (n : Nat) : Option FEntry :=
  let es := ((crewOf g n).map (fun c => frontierOf s b g n c)).getD []
  (g.stopPt.bind (fun x => es.find? (fun e => e.cix == x.2))).orElse (fun _ => headOf s b g n)

/-- Where a stopped context goes on; the target bit is not checked, for this is no control transfer (R65). A breakpoint at its slot lets the one
issue pass (R390). -/
def resumeAt (s : State) (b : Nat) (w : Who) (point : Option DWord) : State :=
  match wgOf s b with
  | none => s
  | some g =>
    match w with
    | .pilot =>
      let pc := (resumePoint g point).getD g.pilot.pc
      setWg s b { g with pilot := { g.pilot with pc := pc, landing := none, ctx := { g.pilot.ctx with line := none, bpPass := g.pilot.ctx.bpPass && pc == g.pilot.pc } } }
    | .crew n =>
      match resumeEntry s b g n with
      | none => s
      | some h =>
        let cix := ((resumePoint g point).map (fun p => BitVec.ofNat 32 p.toNat)).getD h.cix
        let s := (frontierEdit s b n h.cix [{ h with cix := cix, park := none }] 0).getD s
        modWg s b (fun g => modCrew g n (fun c =>
          { c with landings := c.landings.filter (fun x => x.1 != cix), ctx := { c.ctx with line := none, bpPass := c.ctx.bpPass && cix == h.cix } }))

/-- The code point that resumption gives passes R101; a crew with no entry left has none to go on at. -/
def resumeValid (s : State) (b : Nat) (g : WG) (point : Option DWord) : Bool :=
  match resumePoint g point, g.stopper with
  | some p, some (.crew n) => (resumeEntry s b g n).isNone || cixValid p.toNat
  | some p, _ => pcValid p.toNat
  | none, _ => true

/-- Resume a stopped or halted workgroup, or end its launch where the code point is invalid (R398, R401); a workgroup whose event waits for
room stays as it is (R408). -/
def resumeWg (s : State) (b : Nat) (point : Option DWord) : State :=
  match wgOf s b with
  | none => s
  | some g =>
    if (g.run ≠ .halted && g.run ≠ .stopped) || eventHeld s g.part 1 (launchIdOf s g) g.wgix then s
    else
      if !resumeValid s b g point then endLaunch s g.lid
      else
        let s := match g.stopper with | some w => resumeAt s b w point | none => s
        let go := fun (g : WG) => { g with run := .running, stopper := none, stopPt := none }
        let s := modWg s b go
        match g.peer.bind (fun p => (wgOf s p).map (fun h => (p, h))) with
        | some (p, h) => if h.stopper.isNone && decide (h.run = .stopped) then modWg s p go else s
        | none => s

/-- Harbour software resumes a workgroup (R398). -/
def execWorkgroupResume (berth : Nat) (point : Option DWord) (s : State) : Out := .next (bySoftware s (fun s => resumeWg s berth point))

end Sys2Proof.Machine
end

