-- ==== Sys2Proof/Machine/Harbour.lean ====
section
/-! DEFINITION. Harbour: record rings (R275, R408), the harbour registers (R422), submission queues (R301 to R303), fault service (R277), TLB
invalidation (R274), partitions (R300), logical checkpoints (R336, R337), calibration of a buoy array (R355). -/

namespace Sys2Proof.Machine

/-! ### Rings -/

/-- Records enter the fault ring while it has room (R275). -/
def execFaultRecord (part : Nat) (s : State) : Out :=
  let p := partOf s part
  if ringUnbacked p.fr then .fault .unbackedPhysical
  else
    let r := ringDrain s.hbm p.fr p.fr.wait.length
    .next (modPart { s with hbm := r.1 } part (fun p => { p with fr := r.2 }))

/-- Records enter the harbour event ring while it has room (R408). -/
def execHarbourEvent (part : Nat) (s : State) : Out :=
  let p := partOf s part
  if ringUnbacked p.hev then .fault .unbackedPhysical
  else
    let r := ringDrain s.hbm p.hev p.hev.wait.length
    .next (modPart { s with hbm := r.1 } part (fun p => { p with hev := r.2 }))

/-- A write of a ring's base: head and tail return to 0. -/
def ringBase (r : Ring) (v : Nat) : Ring := { r with base := BitVec.ofNat 64 (v / 64 * 64 % 2 ^ 52), head := 0, tail := 0 }

/-- A write of a ring's capacity: the next lower power of two from 64 to 2^24, 0 below. -/
def ringCap (r : Ring) (v : Nat) : Ring :=
  let n := v % 2 ^ 32
  { r with cap := if n < 64 then 0 else BitVec.ofNat 32 (2 ^ min 24 (Nat.log2 n)), head := 0, tail := 0 }

/-- The four registers of a ring, by place. -/
def ringWrite (r : Ring) (k v : Nat) : Ring :=
  match k with
  | 0 => ringBase r v
  | 1 => ringCap r v
  | 2 => { r with head := BitVec.ofNat 32 v }
  | _ => r

/-- A read of a ring's register. -/
def ringReg (r : Ring) (k : Nat) : Nat :=
  match k with
  | 0 => r.base.toNat
  | 1 => r.cap.toNat
  | 2 => r.head.toNat
  | _ => r.tail.toNat

/-! ### Partitions (R300) -/

/-- The partition a `PDEF` value would define is legal and shares no die with another. -/
def pdefLegal (s : State) (part : Nat) (q : Part) : Bool :=
  decide (q.lgp ≤ 5)
    && (if q.lgp = 0 then decide (q.cols < 16) else q.cols % 2 ^ (q.lgp - 1) == 0 && decide (q.cols + 2 ^ (q.lgp - 1) ≤ 16))
    && s.parts.all (fun p => p.1 == part || !p.2.en
      || (List.range (partDies q)).all (fun d => (logicalDie p.2 (physDie q d)).isNone))

/-- A write of `PDEF`. -/
def pdefWrite (s : State) (part : Nat) (v : DWord) : State :=
  let p := partOf s part
  let q : Part := { p with lgp := bits v 3 1, cols := bits v 8 4, row := bitAt v 9 }
  if p.en then
    if q.lgp = p.lgp && q.cols = p.cols && q.row = p.row then modPart s part (fun p => { p with en := bitAt v 0 }) else s
  else if bitAt v 0 && pdefLegal s part q then modPart s part (fun _ => { q with en := true, lidCtr := 0 })
  else modPart s part (fun _ => { q with en := false })

/-- `PDEF` is written. -/
def execPdef (part : Nat) (v : DWord) (s : State) : Out := .next (bySoftware s (fun s => pdefWrite s part v))

/-- `RSQUOTA` is written: at most what the other partitions leave of 4,096. -/
def quotaWrite (s : State) (part v : Nat) : State :=
  let others := s.parts.foldl (fun n p => if p.1 = part then n else n + p.2.rsquota) 0
  modPart s part (fun p => { p with rsquota := min (v % 2 ^ 13) (Config.roadsteadEntries - others) })

/-! ### Submission queues (R301 to R303) -/

/-- A submission queue of a partition. -/
def sqOf (s : State) (part n : Nat) : SubQ := agetD SubQ.off n (partOf s part).sq
/-- Change a submission queue. -/
def modSq (s : State) (part n : Nat) (f : SubQ → SubQ) : State := modPart s part (fun p => { p with sq := ainsert n (f (sqOf s part n)) p.sq })

/-- n bytes of the ring from a byte count, which wraps at its end. -/
def sqBytes (s : State) (q : SubQ) (at_ n : Nat) : List Byte :=
  (tabulate n (fun k => paRead s (q.base.toNat + (at_ + k) % q.cap.toNat) 1)).flatten

/-- `FMASK` of the entry at the head. -/
def sqMask (s : State) (q : SubQ) : Nat := leNat (sqBytes s q q.head.toNat 4)
/-- `SEQ` of the entry at the head. -/
def sqSeq (s : State) (q : SubQ) : Nat := leNat (sqBytes s q (q.head.toNat + 4) 4)
/-- Length of the entry at the head. -/
def sqLen (s : State) (q : SubQ) : Nat := 8 + 8 * popcount 32 (sqMask s q)

/-- Replace the words that the mask lists, in increasing word. -/
def sqWords (mask : Nat) : List Nat → List Byte → BitVec 2048 → BitVec 2048
  | [], _, m => m
  | i :: is, bs, m =>
    if mask / 2 ^ i % 2 = 1 then
      let w : BitVec 2048 := BitVec.ofNat 2048 (leNat (bs.take 8))
      sqWords mask is (bs.drop 8) ((m &&& ~~~(BitVec.ofNat 2048 (2 ^ 64 - 1) <<< (64 * i))) ||| (w <<< (64 * i)))
    else sqWords mask is bs m

/-- The manifest the entry at the head submits. -/
def sqManifest (s : State) (q : SubQ) : BitVec 2048 :=
  sqWords (sqMask s q) (List.range 32) (sqBytes s q (q.head.toNat + 8) (sqLen s q - 8)) q.prev

/-- The queue has an announced entry to read. -/
def sqActive (q : SubQ) : Bool := q.en && !q.torn && decide (0 < q.cap.toNat) && decide (q.head ≠ q.tail)

/-- The entry at the head matches (R302): its `SEQ`, its length within what is announced, and for the last one the kick's `SEQ`. -/
def sqMatch (s : State) (q : SubQ) : Bool :=
  let left := (q.tail - q.head).toNat
  decide (sqSeq s q = q.xseq.toNat) && decide (sqLen s q ≤ left) && (decide (sqLen s q < left) || decide (sqSeq s q = q.kseq.toNat))

/-- A kick (R302). -/
def kickWrite (s : State) (part n : Nat) (v : DWord) : State :=
  modSq s part n (fun q => { q with tail := BitVec.ofNat 32 (bits v 31 0), kseq := BitVec.ofNat 32 (bits v 63 32), tries := 0 })

/-- `KICKn` is written. -/
def execKick (part n : Nat) (v : DWord) (s : State) : Out := .next (bySoftware s (fun s => kickWrite s part n v))

/-- Accept the entry at the head (R301): it waits while the quota is full (R306). -/
def sqAccept (s : State) (part n : Nat) : State :=
  let q := sqOf s part n
  if !sqActive q || !sqMatch s q || quotaFull s part then s
  else
    let m := sqManifest s q
    let len := sqLen s q
    let at_ := q.base.toNat + q.head.toNat % q.cap.toNat
    submit (modSq s part n (fun q => { q with head := q.head + BitVec.ofNat 32 len, xseq := q.xseq + 1, prev := m, tries := 0 })) part m none none at_

/-- An entry is read and accepted (R301). -/
def execSubmissionEntry (part n : Nat) (s : State) : Out := .next (sqAccept s part n)

/-- Re-reads of a mismatched entry (R302). -/
def rereadCap : Nat := 16

/-- A mismatched entry is read again; after the last re-read the queue stops. -/
def sqReread (s : State) (part n : Nat) : State :=
  let q := sqOf s part n
  if !sqActive q || sqMatch s q then s
  else if q.tries + 1 < rereadCap then modSq s part n (fun q => { q with tries := q.tries + 1 })
  else modSq (putFault s part 0x04 0 0 0 0 (n + 2 ^ 32 * sqSeq s q)) part n (fun q => { q with torn := true, tries := 0 })

/-- A mismatched entry is re-read (R302). -/
def execEntryReread (part n : Nat) (s : State) : Out := .next (sqReread s part n)

/-- A write of `EN`: 0 disables the queue; 1 after 0 resets it (R301, R303). -/
def sqEnable (s : State) (part n : Nat) (on : Bool) : State :=
  modSq s part n (fun q =>
    if !on then { q with en := false, wasOff := true }
    else if q.wasOff then { q with en := true, wasOff := false, xseq := 1, prev := 0, tries := 0 }
    else { q with en := true })

/-- `EN` is written 0 and then 1 (R303). -/
def execQueueReset (part n : Nat) (s : State) : Out := .next (bySoftware s (fun s => sqEnable (sqEnable s part n false) part n true))

/-- `TORN` is cleared: reading goes on at the head (R303). -/
def sqUntear (s : State) (part n : Nat) : State := modSq s part n (fun q => { q with torn := false, tries := 0 })

/-- `TORN` is cleared (R303). -/
def execTornClear (part n : Nat) (s : State) : Out := .next (bySoftware s (fun s => sqUntear s part n))

/-- The five registers of a queue, by place. -/
def sqWrite (s : State) (part n k : Nat) (v : DWord) : State :=
  match k with
  | 0 => modSq s part n (fun q => { q with base := v &&& ~~~63 })
  | 1 => modSq s part n (fun q => { q with cap := BitVec.ofNat 32 (bits v 31 0) })
  | 3 => kickWrite s part n v
  | 4 => sqEnable (if bitAt v 1 then sqUntear s part n else s) part n (bitAt v 0)
  | _ => s

/-- A read of a queue's register. -/
def sqReg (q : SubQ) (k : Nat) : Nat :=
  match k with
  | 0 => q.base.toNat
  | 1 => q.cap.toNat
  | 2 => q.head.toNat
  | 4 => q.en.toNat + 2 * q.torn.toNat + 2 ^ 32 * q.xseq.toNat
  | _ => 0

/-! ### Fault service (R277) -/

/-- The fault a record reports, if it is not answered. -/
def openFault (s : State) (part : Nat) (seqn : Word) : Option OpenFault := (partOf s part).openFaults.find? (fun f => f.seqn == seqn)

/-- A context waits for an access of a page. -/
def waitsOn (page : Nat) (c : Ctx) : Option (DWord × LaneMask) :=
  match c.blocked with
  | some (.fault _ a m) => if a.toNat / pageSize = page then some (a, m) else none
  | _ => none

/-- A command waits for a record of a page: the record of that number in the partition the fault was recorded in. -/
def cmdWaitsOn (s : State) (asid page : Nat) (x : Cmd) : Bool :=
  match x.wait with
  | some (part, n) => (openFault s part n).any (fun f => f.asid == asid && f.page == page && decide (f.core ≠ masterCore))
  | none => false

/-- A command's wait is answered. -/
def answerCmd (ok : Bool) (x : Cmd) : Cmd := if ok then { x with wait := none } else { x with wait := none, fin := some (0x05, infoOf x, false) }

/-- A saved context's wait is answered: the image carries the verdict. -/
def answerSaved (ok : Bool) (page : Nat) (c : Ctx) : Ctx :=
  match waitsOn page c with
  | some (a, m) => { c with blocked := if ok then none else some (.refused 0x09 a m) }
  | none => c

/-- A buoy command that is refused its list ends: a sweep at its phase boundary, with a resume point (R348), and one that has no record to say so
sets the array's sticky error (R210). -/
def refusedBuoy (ok : Bool) (cycle : Nat) (waits : Cmd → Bool) (q : List Cmd) (y : Buoy) : Buoy :=
  match q.find? waits with
  | none => y
  | some x =>
    if ok then y
    else
      let y := if x.opc = 0x24 then sweepLeft cycle x y else y
      if x.cq.isNone && x.cqPeer.isNone then { y with err := true } else y

/-- Commands that wait on the page go on, or end. -/
def answerQueues (s : State) (asid page : Nat) (ok : Bool) : State :=
  let mine := fun (x : Cmd) => cmdIn s asid x && cmdWaitsOn s asid page x
  let fix := fun (q : List Cmd) => q.map (fun x => if mine x then answerCmd ok x else x)
  { s with cores := s.cores.map (fun c =>
      (c.1, { c.2 with lighter := fix c.2.lighter, crane := fix c.2.crane, buoyQ := fix c.2.buoyQ, buoy := refusedBuoy ok s.cycle mine c.2.buoyQ c.2.buoy })) }

/-- Saved workgroups, aborted ones, and completions of launches receive the verdict. -/
def answerLaunches (s : State) (f : OpenFault) (ok : Bool) : State :=
  { s with launches := s.launches.map (fun l =>
      let mine := fun (a : Nat × Option (Nat × Word)) => decide (a.2 = some (f.part, f.seqn))
      let l := { l with aborted := l.aborted.map (fun a => if mine a then (a.1, none) else a),
                        back := (l.aborted.filter mine).foldl (fun b a => nsInsert a.1 b) l.back }
      if mAsid l.man ≠ f.asid then l
      else
        { answerImages l (fun v =>
            { v with wg := modAllCtx v.wg (answerSaved ok f.page),
                     buoy := v.buoy.map (refusedBuoy ok s.cycle (cmdWaitsOn s f.asid f.page) ((v.cmds.filter (fun x => decide (x.1 = .buoy))).map (fun x => x.2))),
                     cmds := v.cmds.map (fun x => (x.1, if cmdWaitsOn s f.asid f.page x.2 then answerCmd ok x.2 else x.2)) }) with
          skips := if !ok && decide (f.core = masterCore) && decide (l.state = .completing) then [f.page] else l.skips }) }

/-- Resident contexts that wait on the page reissue, or trap at their slots. -/
def answerThreads (s : State) (asid page : Nat) (ok : Bool) : State :=
  s.wgs.foldl (fun s x =>
    if asidOf x.2 != asid then s
    else
      let s := (whos x.2).foldl (fun s w =>
        match (ctxIn x.2 w).bind (waitsOn page) with
        | some (a, m) =>
          if ok then modCtx s { berth := x.1, who := w } (fun c => { c with blocked := none })
          else trapHere s { berth := x.1, who := w } (mkTrap 0x09 a.toNat m)
        | none => s) s
      modWg s x.1 refreshHold) s

/-- A verdict on a fault record (R277). It answers what waits on the page, and of records only this one: another core's record of the same page
stays open until its own verdict (DESIGN CHOICE, log 67). -/
def answerFault (s : State) (part : Nat) (seqn : Word) (ok : Bool) : State :=
  match openFault s part seqn with
  | none => s
  | some f =>
    let s := answerThreads (answerLaunches (answerQueues s f.asid f.page ok) f ok) f.asid f.page ok
    modPart s part (fun p => { p with openFaults := p.openFaults.filter (fun g => g.seqn != seqn) })

/-- `REPLAY` with the verdict serviced (R277). -/
def execReplayServiced (part : Nat) (seqn : Word) (s : State) : Out := .next (bySoftware s (fun s => answerFault s part seqn true))
/-- `REPLAY` with the verdict refused (R277). -/
def execReplayRefused (part : Nat) (seqn : Word) (s : State) : Out := .next (bySoftware s (fun s => answerFault s part seqn false))

/-- A write of `REPLAY`. -/
def replayWrite (s : State) (part : Nat) (v : DWord) : State :=
  match bits v 33 32 with
  | 1 => answerFault s part (BitVec.ofNat 32 (bits v 31 0)) true
  | 2 => answerFault s part (BitVec.ofNat 32 (bits v 31 0)) false
  | _ => s

/-! ### `HDONE` (R312) -/

/-- Harbour software reports the completion of a launch handed to it. -/
def hdoneWrite (s : State) (part : Nat) (v : DWord) : State :=
  match s.launches.find? (fun l => l.part == part && l.handed && decide (l.id = BitVec.ofNat 32 (bits v 31 0)) && decide (l.state = .ready)) with
  | some l => if eventHeld s part 2 l.id 0 then s else finishLaunch (modLaunch s l.lid (fun l => { l with handed := false, state := .completing, status := bits v 39 32 })) l.lid
  | none => s

/-- `HDONE` is written (R312). -/
def execHdone (part : Nat) (v : DWord) (s : State) : Out := .next (bySoftware s (fun s => hdoneWrite s part v))

/-! ### TLB invalidation (R274) -/

/-- A cached translation overlaps a range of bytes. -/
def tlbHit (asid lo n : Nat) (t : TlbEntry) : Bool :=
  t.asid == asid && decide (t.page * pageSize < lo + n) && decide (lo < t.page * pageSize + t.size)

/-- Drop translations from every TLB and walker of the partition. -/
def tlbDrop (s : State) (part : Nat) (test : TlbEntry → Bool) : State :=
  let p := partOf s part
  let s : State := {
    s with cores := s.cores.map (fun c => if (coreSlice p c.1).isSome then (c.1, { c.2 with tlb := c.2.tlb.filter (fun t => !test t), ahead := c.2.ahead.filter (fun t => !test t) }) else c),
           walkers := s.walkers.map (fun w => if (logicalDie p w.1).isSome then (w.1, w.2.filter (fun t => !test t)) else w) }
  modPart s part (fun p => { p with tlbBusy := true })

/-- Invalidate an address space, or the pages from `TLBINVR` on. -/
def tlbStart (s : State) (part : Nat) (all : Bool) (v : DWord) : State :=
  tlbDrop s part
    (if all then fun t => t.asid == bits v 47 32
     else tlbHit (bits v 47 32) (bits (partOf s part).tlbR 63 16 * pageSize) (bits v 31 0 * pageSize))

/-- A write of `TLBINVN`: it waits while an invalidation is in progress (R422). -/
def tlbWrite (s : State) (part : Nat) (all : Bool) (v : DWord) : State :=
  if (partOf s part).tlbBusy then modPart s part (fun p => { p with tlbNext := p.tlbNext ++ [(all, v)] }) else tlbStart s part all v

/-- An invalidation is complete; the oldest write that waits starts the next. -/
def tlbOver (s : State) (part : Nat) : State :=
  match (partOf s part).tlbNext with
  | [] => modPart s part (fun p => { p with tlbBusy := false })
  | x :: xs => tlbStart (modPart s part (fun p => { p with tlbNext := xs })) part x.1 x.2

/-- `TLBINVN` is written (R274). -/
def execTlbinvRange (part : Nat) (v : DWord) (s : State) : Out := .next (bySoftware s (fun s => tlbWrite s part false v))
/-- `TLBINVN` is written with `ALL` (R274). -/
def execTlbinvAll (part : Nat) (v : DWord) (s : State) : Out := .next (bySoftware s (fun s => tlbWrite s part true v))
/-- The partition whose access a request to another package is. -/
def remotePart (s : State) (r : RemoteReq) : Option Nat :=
  match r.home with
  | some h => (launchOf s h.1).map (fun l => l.part)
  | none => r.core.bind (partOfCore s)

/-- The invalidation is complete once no access made with an old translation is under way (R274): those to other packages are; all others are
performed at once here. -/
def execTlbinvCompletion (part : Nat) (s : State) : Out :=
  .next (if s.pkg.remote.any (fun r => r.answer.isNone && decide (remotePart s r = some part)) then s
    else tlbOver s part)

/-! ### Logical checkpoints (R336, R337) -/

/-- The leaves of an address space from a table on: virtual address, physical address, bytes. -/
def leavesFrom (s : State) : List Level → Nat → Nat → List (Nat × Nat × Nat)
  | [], _, _ => []
  | v :: vs, table, va =>
    ((List.range (2 ^ v.bits)).map (fun k =>
      let a := table + 8 * k
      let e : DWord := BitVec.ofNat 64 (cellsNat s.hbm a 8)
      let at_ := va + k * 2 ^ v.shift
      if !paBacked a || !eValid e || !eClean e then []
      else if eLeaf e then
        if v.leaf = 0 || ePa e % v.leaf ≠ 0 || !paBacked (ePa e) then [] else [(at_, ePa e, v.leaf)]
      else if v.align = 0 || ePa e % v.align ≠ 0 then []
      else leavesFrom s vs (ePa e) at_)).flatten

/-- The partition's global pages of an address space (R336). -/
def spacePages (s : State) (p : Part) (asid : Nat) : List (Nat × Nat × List Host.Cell × List Nat) :=
  let root := (spaceOf s asid).ptroot
  if !bitAt root 0 then []
  else
    ((leavesFrom s levels (4096 * bits root 51 12) 0).filter (fun x => (logicalDie p (x.2.1 / 2 ^ 36)).isSome)).map (fun x =>
      let va := if x.1 < 2 ^ 56 then x.1 else x.1 + (2 ^ 64 - 2 ^ 57)
      (List.range (x.2.2 / pageSize)).map (fun k =>
        let c := pageAt s (.hbm (x.2.1 + k * pageSize))
        (asid, va / pageSize + k, c.1, c.2))) |>.flatten

/-- A child is not merged, and either its own launch is not complete or it waits for the merge of such a child before it (R290, R292). -/
def waitsToMerge (s : State) (l : Launch) (r : Rev) : Bool :=
  let first := fun (y : Rev) => (y.wgix == r.wgix && decide (y.handle ≤ r.handle)) || (launchDet l && decide (y.wgix < r.wgix))
  r.merging.isNone && s.revs.any (fun y => y.2.lid == l.lid && !revOver y.2 && first y.2 && !childComplete s y.2)

/-- A completing launch only waits for a child that is not dealt while the take waits (R291, R296): every child that is not merged yet waits, and so
do the staged records that are left, behind a join. -/
def waitsForChild (s : State) (l : Launch) : Bool :=
  let left := (s.revs.filter (fun x => x.2.lid == l.lid && !revOver x.2)).map (fun x => x.2)
  !left.isEmpty && left.all (waitsToMerge s l)
    && l.ended.all (fun x => match x.2.2 with | r :: _ => (match r.op with | .join _ => true | _ => decide (x.1 ≠ l.relHead)) | [] => true)

/-- A take waits until no workgroup of the partition is resident or saved and none of its launches runs. -/
def quiet (s : State) (part : Nat) : Bool :=
  s.wgs.all (fun x => x.2.part != part)
    && s.launches.all (fun l => l.part != part || (l.saved.isEmpty && l.aborted.isEmpty && (match l.state with
      | .placing | .running => false
      | .completing => waitsForChild s l
      | _ => true)))

/-- A launch as an image records it: it names no core, so its chunks are not in it (R336); one that waits for a child of a retained revision is
kept with it (R296). -/
def imageLaunch (l : Launch) : Option Launch :=
  match l.state with
  | .submitted | .waiting | .ready => some { l with chunks := [], undealt := 0, affinity := none, back := [] }
  | .completing => some { l with chunks := [], affinity := none, back := [], ended := l.ended.map (fun x => (x.1, 0, x.2.2)) }
  | _ => none

/-- Where the image lies. -/
def imageAddr (p : Part) : Nat := p.lckpta.toNat / 64 * 64 % 2 ^ 52

/-- The image of a partition; its length and its bytes are not given by the manual (log 23). -/
def takeImage (s : State) (part : Nat) : CkptImage :=
  let p := partOf s part
  let mine := (s.launches.filter (fun l => l.part == part)).filterMap imageLaunch
  { tag := s.steps, len := (Config.openDetail s.steps).toNat % 2 ^ 48, pages := (s.spaces.map (fun a => spacePages s p a.1)).flatten,
    launches := mine, lidCtr := p.lidCtr, sq := p.sq,
    revs := s.revs.filter (fun x => x.2.state ≠ .settled && s.launches.any (fun l => l.lid == x.2.lid && l.part == part)) }

/-- `LCKPT` starts a take. -/
def ckptStart (s : State) (part : Nat) : State :=
  modPart s part (fun p => if p.ckBusy then p else { p with ckBusy := true, ckFail := false })

/-- `LCKPT` with `OP` 1 (R336). -/
def execLckptTake (part : Nat) (s : State) : Out := .next (bySoftware s (fun s => ckptStart s part))

/-- The bytes of an image. -/
def ckptBytes (im : CkptImage) : List Byte := tabulate im.len (Config.imageByte im.tag)

/-- The image is written once the partition is quiet, if it fits. -/
def ckptWrite (s : State) (part : Nat) : State :=
  let p := partOf s part
  if !p.ckBusy || !quiet s part then s
  else
    let im := takeImage s part
    if bits p.lckptl 47 0 < im.len || !(paBacked (imageAddr p) && paBacked (imageAddr p + im.len - 1)) then modPart s part (fun p => { p with ckBusy := false, ckDone := true, ckFail := true })
    else
      modPart { s with hbm := cellsWriteN s.hbm (imageAddr p) (ckptBytes im), images := im :: s.images } part
        (fun p => { p with ckBusy := false, ckDone := true, ckFail := false, lckptl := BitVec.ofNat 64 im.len })

/-- The image is written (R336). -/
def execLckptImageWrite (part : Nat) (s : State) : Out := .next (ckptWrite s part)

/-- The number a restored launch or revision takes: its place in the image beyond the numbers in use. -/
def renumber (old : List Nat) (base n : Nat) : Nat :=
  match (List.range old.length).find? (fun k => old.getD k 0 == n) with
  | some k => base + k
  | none => n

/-- Write the pages of an image where the address spaces map them now; `none`: a page has no translation. -/
def imagePages : List (Nat × Nat × List Host.Cell × List Nat) → State → Option State
  | [], s => some s
  | (asid, vpn, cells, bad) :: ps, s =>
    match walk s asid (vpn * pageSize) with
    | none => none
    | some (e, size) =>
      let pa := (ePa e + vpn * pageSize % size) / pageSize * pageSize
      imagePages ps { s with hbm := cellsPlace s.hbm pa pageSize cells, hbmBad := nsPlace s.hbmBad (pa / 64) 1024 bad }

/-- Restore the image whose bytes stand at the address onto a partition (R337): pages, launches in the roadstead under new numbers, to be dealt afresh, counter, queues, revisions. -/
def ckptLoad (s : State) (part : Nat) : State :=
  let p := partOf s part
  let fail := modPart s part (fun p => { p with ckDone := true, ckFail := true })
  if p.ckBusy then s
  else
    match s.images.find? (fun x => x.len == bits p.lckptl 47 0 && decide (cellsReadN s.hbm (imageAddr p) x.len = ckptBytes x)) with
    | none => fail
    | some im =>
      match imagePages im.pages s with
      | none => fail
      | some t =>
        let ls := im.launches.map (fun l => l.lid)
        let rs := im.revs.map (fun r => r.1)
        let newL := renumber ls t.nextLaunch
        let newR := renumber rs t.nextRev
        let fresh := fun (l : Launch) =>
          let l : Launch := {
            l with lid := newL l.lid, part := part, view := l.view.map newR, readyAt := t.readyCtr + l.readyAt, dealDue := true,
                   ended := l.ended.map (fun x => (x.1, (partCores p).headD 0, x.2.2)) }
          { l with affinity := affinityDie t l }
        let t : State := { t with
          launches := t.launches ++ im.launches.map fresh,
          readyCtr := t.readyCtr + im.launches.foldl (fun m l => max m (l.readyAt + 1)) 0,
          nextLaunch := t.nextLaunch + ls.length,
          revs := t.revs ++ im.revs.map (fun r => (newR r.1, { r.2 with lid := newL r.2.lid, child := newL r.2.child, outer := r.2.outer.map newR })),
          nextRev := t.nextRev + rs.length }
        modPart t part (fun p => { p with lidCtr := im.lidCtr, sq := im.sq, ckDone := true, ckFail := false })

/-- `LCKPT` with `OP` 2 (R337). -/
def execLckptRestore (part : Nat) (s : State) : Out := .next (bySoftware s (fun s => ckptLoad s part))

/-- A write of `LCKPT`: an operation, and `DONE` cleared by a 1. -/
def lckptWrite (s : State) (part : Nat) (v : DWord) : State :=
  let s := if bitAt v 3 then modPart s part (fun p => { p with ckDone := false }) else s
  match bits v 1 0 with
  | 1 => ckptStart s part
  | 2 => ckptLoad s part
  | _ => s

/-! ### Calibration (R355) -/

/-- The core of a physical core number of `BYCALc`. -/
def calCore (c : Nat) : Option Nat :=
  (Config.coreRank (c / Config.physCoresPerDie) (c % Config.physCoresPerDie)).map (fun r => c / Config.physCoresPerDie * Config.coresPerDie + r)

/-- Start a calibration; buoy commands wait at acceptance meanwhile. -/
def calGo (s : State) (c : Nat) : State :=
  match calCore c with
  | some k => modCore s k (fun x => { x with buoy := { x.buoy with calBusy := true } })
  | none => s

/-- `BYCALc` `GO` (R355). -/
def execBycalGo (physCore : Nat) (s : State) : Out := .next (bySoftware s (fun s => calGo s physCore))

/-- Windows of a calibration. -/
def calWindows : Nat := 4

/-- The windows of a calibration pass: every node's count lies within the limits of the monitor in each. -/
def calPasses (core : Nat) (y : Buoy) : Bool :=
  (List.range calWindows).all (fun w => (failingNode core { y with window := w, winStart := y.draws + windowDraws * w }).isNone)

/-- A calibration ends after the draws of four windows: the array is online again if every window passed, and its monitor starts fresh windows. -/
def calDone (s : State) (c : Nat) : State :=
  match calCore c with
  | none => s
  | some k =>
    let y := (coreOf s k).buoy
    if !y.calBusy then s
    else
      let pass := calPasses k y
      let s := modCore s k (fun x =>
        { x with buoy := monitorStart { x.buoy with calBusy := false, calPass := pass, offline := x.buoy.offline && !pass, draws := y.draws + calWindows * windowDraws } })
      unblockAll s (fun b _ r => decide (r = .accept .buoy) && berthCore b == k)

/-- A window of a calibration closes: the fourth ends it (R355). -/
def execCalibrationComplete (physCore windows : Nat) (s : State) : Out := .next (if windows = calWindows then calDone s physCore else s)

/-! ### The registers (R422) -/

/-- The hull survey of a die. -/
def hullOf (s : State) (d : Nat) : Hull := agetD Hull.off d s.pkg.hull
/-- Change it. -/
def modHull (s : State) (d : Nat) (f : Hull → Hull) : State := modPkg s (fun p => { p with hull := ainsert d (f (hullOf s d)) p.hull })
/-- A remote export window. -/
def rxmapOf (s : State) (k : Nat) : RxMap := agetD RxMap.off k s.pkg.rxmap
/-- Change it. -/
def modRxmap (s : State) (k : Nat) (f : RxMap → RxMap) : State := modPkg s (fun p => { p with rxmap := ainsert k (f (rxmapOf s k)) p.rxmap })

/-- A write of a register of a partition block. -/
def partWrite (s : State) (p o : Nat) (v : DWord) : State :=
  if 0x1800 ≤ o then s
  else if 0x1000 ≤ o then sqWrite s p ((o - 0x1000) / 0x40) (o % 0x40 / 8) v
  else if 0x200 ≤ o && o < 0x240 then
    modPart s p (fun q => { q with dbg := q.dbg.modify ((o - 0x200) / 16) (fun d =>
      if o % 16 = 0 then { d with en := bitAt v 0, pil := bitAt v 1, lid := BitVec.ofNat 32 (bits v 63 32) } else { d with cp := v }) })
  else
    match o with
    | 0x000 => pdefWrite s p v
    | 0x008 => modPart s p (fun q => { q with quantum := max 10 (min 1000000 (bits v 19 0)) })
    | 0x010 => modPart s p (fun q => { q with fhold := bits v 31 0 })
    | 0x018 => quotaWrite s p (bits v 12 0)
    | 0x020 => replayWrite s p v
    | 0x028 => hdoneWrite s p v
    | 0x030 => lckptWrite s p v
    | 0x038 => modPart s p (fun q => { q with lckpta := BitVec.ofNat 64 (64 * bits v 51 6) })
    | 0x040 => modPart s p (fun q => { q with lckptl := BitVec.ofNat 64 (bits v 47 0) })
    | 0x080 => modPart s p (fun q => { q with tlbR := BitVec.ofNat 64 (65536 * bits v 63 16) })
    | 0x088 => tlbWrite s p (bitAt v 48) v
    | 0x100 | 0x108 | 0x110 => modPart s p (fun q => { q with fr := ringWrite q.fr ((o - 0x100) / 8) v.toNat })
    | 0x120 | 0x128 | 0x130 => modPart s p (fun q => { q with hev := ringWrite q.hev ((o - 0x120) / 8) v.toNat })
    | 0x140 | 0x148 | 0x150 => modPart s p (fun q => { q with lkr := ringWrite q.lkr ((o - 0x140) / 8) v.toNat })
    | _ => s

/-- A read of a register of a partition block; write-only fields read 0. -/
def partRead (s : State) (p o : Nat) : Nat :=
  let q := partOf s p
  if 0x1000 ≤ o then (if (o - 0x1000) / 0x40 < 32 then sqReg (sqOf s p ((o - 0x1000) / 0x40)) (o % 0x40 / 8) else 0)
  else if 0x200 ≤ o && o < 0x240 then
    let d := q.dbg.getD ((o - 0x200) / 16) Breakpoint.off
    if o % 16 = 0 then d.en.toNat + 2 * d.pil.toNat + 2 ^ 32 * d.lid.toNat else d.cp.toNat
  else
    match o with
    | 0x000 => q.en.toNat + 2 * q.lgp + 16 * q.cols + 512 * q.row.toNat
    | 0x008 => q.quantum
    | 0x010 => q.fhold
    | 0x018 => q.rsquota
    | 0x030 => 4 * q.ckBusy.toNat + 8 * q.ckDone.toNat + 16 * q.ckFail.toNat
    | 0x038 => q.lckpta.toNat
    | 0x040 => q.lckptl.toNat
    | 0x080 => q.tlbR.toNat
    | 0x090 => q.tlbBusy.toNat
    | 0x100 | 0x108 | 0x110 | 0x118 => ringReg q.fr ((o - 0x100) / 8)
    | 0x120 | 0x128 | 0x130 | 0x138 => ringReg q.hev ((o - 0x120) / 8)
    | 0x140 | 0x148 | 0x150 | 0x158 => ringReg q.lkr ((o - 0x140) / 8)
    | _ => 0

/-- A write of a register of an address-space block. -/
def spaceWrite (s : State) (a o : Nat) (v : DWord) : State :=
  let put := fun (f : ASpace → ASpace) => { s with spaces := ainsert a (f (spaceOf s a)) s.spaces }
  match o with
  | 0x00 => put (fun x => { x with ptroot := BitVec.ofNat 64 (bits v 0 0 + 4096 * bits v 51 12) })
  | 0x08 => put (fun x => { x with sstbase := BitVec.ofNat 64 (2 ^ 22 * bits v 51 22) })
  | 0x10 => put (fun x => { x with rbtcfg := BitVec.ofNat 64 (bits v 4 0 + 64 * bits v 51 6) })
  | 0x18 => put (fun x => { x with svbase := BitVec.ofNat 64 (65536 * bits v 51 16) })
  | 0x20 => put (fun x => { x with svsize := BitVec.ofNat 64 (65536 * bits v 47 16) })
  | _ => s

/-- A read of a register of an address-space block. -/
def spaceRead (s : State) (a o : Nat) : Nat :=
  let x := spaceOf s a
  match o with
  | 0x00 => x.ptroot.toNat
  | 0x08 => x.sstbase.toNat
  | 0x10 => x.rbtcfg.toNat
  | 0x18 => x.svbase.toNat
  | 0x20 => x.svsize.toNat
  | _ => 0

/-- Array of a physical core, as `BYCALc` shows it. -/
def calRead (s : State) (c : Nat) : Nat :=
  match calCore c with
  | some k => let y := (coreOf s k).buoy; 2 * y.calBusy.toNat + 4 * y.calPass.toNat + 8 * y.offline.toNat
  | none => 0

/-- A read of a harbour register: 0 at an offset that names none. -/
def regRead (s : State) (off : Nat) : Nat :=
  let o := off / 8 * 8
  if 0x1000000 ≤ o then (if o < 0x1400000 then spaceRead s ((o - 0x1000000) / 0x40) (o % 0x40) else 0)
  else if 0x100000 ≤ o then (if o < 0x300000 then partRead s ((o - 0x100000) / 0x10000) (o % 0x10000) else 0)
  else if 0x2200 ≤ o then (if o < 0x2240 then (portOf s ((o - 0x2200) / 8)).bad.toNat else 0)
  else if 0x2000 ≤ o then
    (if o < 0x2100 then
      let m := rxmapOf s ((o - 0x2000) / 16)
      if o % 16 = 0 then m.en.toNat + 2 * m.wr.toNat + 65536 * m.lo else 65536 * m.hi
    else 0)
  else if 0x400 ≤ o then (if o < 0x400 + 8 * 704 then calRead s ((o - 0x400) / 8) else 0)
  else if 0x100 ≤ o then
    (if o < 0x300 then
      let h := hullOf s ((o - 0x100) / 16)
      if o % 16 = 0 then h.stress.toNat + 2 ^ 24 * h.drift.toNat + 2 ^ 40 * h.cecc.toNat else h.eol.toNat
    else 0)
  else
    match o with
    | 0x00 => s.pkg.capw + 2 ^ 16 * s.pkg.watts.toNat + 2 ^ 32 * s.pkg.fclk + 2 ^ 44 * s.pkg.thermal.toNat
    | 0x08 => s.pkg.rank
    | 0x10 => s.pkg.linkto
    | 0x18 => s.pkg.scrubiv
    | 0x20 => s.pkg.prbbase.toNat
    | _ => 0

end Sys2Proof.Machine
end

