-- ==== Sys2Proof/Machine/Fabric.lean ====
section
/-! DEFINITION. Fabric: the agents that reach memory by physical address (R407), the transport between packages (R409 to R412), collectives
(R413, R414), the management port and storage (R415, R416), customs (R417, R418), reset, power and the hull survey (R402, R419 to R421). -/

namespace Sys2Proof.Machine

/-! ### Collectives (R413, R414) -/

/-- `CID`. -/
def dCid (d : BitVec 512) : Nat := bits d 63 0
/-- `COP`. -/
def dCop (d : BitVec 512) : Nat := bits d 65 64
/-- `CT`. -/
def dCt (d : BitVec 512) : Nat := bits d 76 72
/-- `FRANK`. -/
def dFrank (d : BitVec 512) : Nat := bits d 88 80
/-- `NMEM`. -/
def dNmem (d : BitVec 512) : Nat := bits d 105 96
/-- `NELEM`. -/
def dNelem (d : BitVec 512) : Nat := bits d 159 128
/-- `SRC`. -/
def dSrc (d : BitVec 512) : Nat := bits d 255 192
/-- `DST`. -/
def dDst (d : BitVec 512) : Nat := bits d 319 256
/-- Bytes of an element. -/
def dWidth (d : BitVec 512) : Nat := if dCt d = 0x0C then 2 else 4

/-- The descriptor has a reserved value, or ranks that do not suit this package (R414). -/
def descRefused (s : State) (d : BitVec 512) : Bool :=
  decide (dCop d = 3) || !([0x00, 0x0A, 0x0C].contains (dCt d)) || decide (bits d 71 66 ≠ 0) || decide (bits d 79 77 ≠ 0) || decide (bits d 95 89 ≠ 0)
    || decide (bits d 127 106 ≠ 0) || decide (bits d 191 160 ≠ 0) || decide (bits d 511 320 ≠ 0) || decide (dNmem d < 2) || decide (512 < dNmem d)
    || decide (dNelem d = 0) || decide (dSrc d % dWidth d ≠ 0) || decide (dDst d % dWidth d ≠ 0)
    || decide (s.pkg.rank < dFrank d) || decide (dFrank d + dNmem d ≤ s.pkg.rank) || decide (511 < dFrank d + dNmem d - 1)

/-- Number under which contributions wait for their acknowledgement. -/
def collLane : Nat := 2 ^ 22

/-- Send one contribution frame to a member. -/
def sendPart (s : State) (rank cid : Nat) (bs : List Byte) : State :=
  let r := portSend s rank 0x07 cid 0 bs
  modPkg r.2 (fun p =>
    { p with nextRemote := p.nextRemote + 1,
             remote := p.remote ++ [{ id := p.nextRemote, sent := s.steps, ctx := none, lane := collLane, parts := [], core := none, issuer := none, rank := rank, port := rank % 8, seq := r.1, op := 7, pa := cid, width := 0, home := none, kept := none,
                                      answer := none }] })

/-- Cut a buffer into payloads of at most 4,096 bytes. -/
def payloads : Nat → List Byte → List (List Byte)
  | 0, _ => []
  | fuel + 1, bs => if bs.isEmpty then [] else bs.take 4096 :: payloads fuel (bs.drop 4096)

/-- Post a descriptor, or refuse it with an event, for whose room the post waits (R408): bind it, and send this member's buffer to every other (R414). -/
def collPost (s : State) (v : DWord) : State :=
  let d : BitVec 512 := BitVec.ofNat 512 (paNat s (64 * bits v 51 6) 64)
  if descRefused s d then (if eventsWait s then s else putEventAll s 7 1 (dCid d))
  else
    let own := paRead s (dSrc d) (dNelem d * dWidth d)
    let s := modPkg s (fun p =>
      { p with colls := p.colls ++ [{ desc := d, contrib := [(p.rank, (tabulate own.length (fun k => k)).zip own)] }] })
    (List.range (dNmem d)).foldl (fun s k =>
      if dFrank d + k = s.pkg.rank then s
      else (payloads (own.length / 4096 + 1) own).foldl (fun s bs => sendPart s (dFrank d + k) (dCid d) bs) s) s

/-- `COLLPOST` is written (R414). -/
def execCollpost (v : DWord) (s : State) : Out := .next (bySoftware s (fun s => collPost s v))

/-- A contribution's bytes of one member, in the order received. -/
def partBytes (c : Coll) (rank : Nat) : List Byte :=
  ((c.contrib.filter (fun x => x.1 == rank)).map (fun x => x.2.map (fun y => y.2))).flatten

/-- Combine one element into an accumulator (R413). -/
def collElem (cop ct acc x : Nat) : Nat :=
  let f := if ct = 0x0A then fmtF32 else fmtBf16
  if ct = 0 then
    match cop with
    | 0 => (acc + x) % 2 ^ 32
    | 1 => if signedOf 32 x < signedOf 32 acc then x else acc
    | _ => if signedOf 32 acc < signedOf 32 x then x else acc
  else
    match cop with
    | 0 => (roundIeee f .rne 0 (fvAdd .rne (decodeF f acc) (decodeF f x)).1).1
    | 1 => (fMinMax f false acc x).1
    | _ => (fMinMax f true acc x).1

/-- Elements of a buffer. -/
def elems (w : Nat) (bs : List Byte) (n : Nat) : List Nat := tabulate n (fun k => leNat ((bs.drop (w * k)).take w))

/-- Every member's buffer is here. -/
def collReady (c : Coll) : Bool :=
  (List.range (dNmem c.desc)).all (fun k => (partBytes c (dFrank c.desc + k)).length == dNelem c.desc * dWidth c.desc)

/-- The combined buffer, in increasing rank from the lowest (R413). -/
def collResult (c : Coll) : List Byte :=
  let d := c.desc
  let buf := fun (k : Nat) => elems (dWidth d) (partBytes c (dFrank d + k)) (dNelem d)
  let out := (List.range (dNmem d - 1)).foldl (fun acc k => (acc.zip (buf (k + 1))).map (fun x => collElem (dCop d) (dCt d) x.1 x.2)) (buf 0)
  (out.map (natLe (dWidth d))).flatten

/-- A write by physical address, after the page copies it needs; a whole line of bytes clears its mark (R258, R270, R280). -/
def paStore (s : State) (pa : Nat) (bs : List Byte) : State :=
  let pages := (List.range ((pa + bs.length + pageSize - 1) / pageSize - pa / pageSize)).map (fun k => (pa / pageSize + k) * pageSize)
  let s := pages.foldl copyForPa s
  let s := paWrite s pa bs
  { s with hbmBad := s.hbmBad.filter (fun l => !(decide (pa ≤ 64 * l) && decide (64 * l + 64 ≤ pa + bs.length))) }

/-- A collective completes (R413, R414); it waits while an event of the package waits for room. -/
def collDone (s : State) (cid : Nat) : State :=
  if eventsWait s then s else
  match s.pkg.colls.find? (fun c => dCid c.desc == cid && collReady c) with
  | none => s
  | some c =>
    let s := paStore s (dDst c.desc) (collResult c)
    putEventAll (modPkg s (fun p => { p with colls := p.colls.filter (fun x => dCid x.desc != cid) })) 7 0 cid

/-- A collective completes (R413). -/
def execCollectiveCompletion (cid : DWord) (s : State) : Out := .next (collDone s cid.toNat)

/-! ### Harbour registers (R422) -/

/-- A write of a harbour register; an offset that names none, or a read-only one, is not written. -/
def regWrite (s : State) (o : Nat) (v : DWord) : State :=
  if o % 8 ≠ 0 then s
  else if 0x1000000 ≤ o then (if o < 0x1400000 then spaceWrite s ((o - 0x1000000) / 0x40) (o % 0x40) v else s)
  else if 0x100000 ≤ o then (if o < 0x300000 then partWrite s ((o - 0x100000) / 0x10000) (o % 0x10000) v else s)
  else if 0x2000 ≤ o then
    (if o < 0x2100 then
      modRxmap s ((o - 0x2000) / 16) (fun m =>
        if o % 16 = 0 then { m with en := bitAt v 0, wr := bitAt v 1, lo := bits v 51 16 } else { m with hi := bits v 51 16 })
    else s)
  else if 0x400 ≤ o then (if o < 0x400 + 8 * 704 && bitAt v 0 then calGo s ((o - 0x400) / 8) else s)
  else
    match o with
    | 0x00 => modPkg s (fun p => { p with capw := max 1000 (min 16000 (bits v 15 0)) })
    | 0x08 => modPkg s (fun p => { p with rank := bits v 8 0 })
    | 0x10 => modPkg s (fun p => { p with linkto := bits v 31 0 })
    | 0x18 => modPkg s (fun p => { p with scrubiv := bits v 31 0 })
    | 0x20 => modPkg s (fun p => { p with prbbase := BitVec.ofNat 64 (2 ^ 14 * bits v 51 14) })
    | 0x28 => collPost s v
    | _ => s

/-- What the half of a register that a 32-bit write leaves alone keeps: the register's value, without the bits that a 1 clears and the fields that
start something. -/
def regKept (s : State) (o : Nat) : Nat :=
  let p := (o - 0x100000) % 0x10000
  if 0x100000 ≤ o && o < 0x300000 && (p = 0x030 || p = 0x080 + 8) then 0
  else if 0x100000 ≤ o && o < 0x300000 && 0x1000 ≤ p && p % 0x40 = 0x20 then regRead s o % 2
  else regRead s o

/-- A write of bytes in the register space: a whole register, or one 32-bit half of it. Any other width, or one not aligned to it, is of no register
(DESIGN CHOICE, log 56). -/
def regStore (s : State) (off : Nat) (bs : List Byte) : State :=
  let v := leNat bs
  if bs.length = 8 && off % 8 = 0 then regWrite s off (BitVec.ofNat 64 v)
  else if bs.length = 4 && off % 4 = 0 then
    let o := off / 8 * 8
    let old := regKept s o
    regWrite s o (BitVec.ofNat 64 (if off % 8 = 0 then old / 2 ^ 32 * 2 ^ 32 + v else old % 2 ^ 32 + 2 ^ 32 * v))
  else s

/-- A harbour register is written (R422). -/
def execHarbourRegisterWrite (off : Nat) (v : DWord) (s : State) : Out := .next (bySoftware s (fun s => regWrite s off v))

/-! ### Agents by physical address (R258, R407) -/

/-- Number under which the first harbour core's access to another package waits. -/
def agentLane : Nat := 2 ^ 21

/-- What a harbour core's access gives it. -/
def agentGets (s : State) (core : Nat) (r : AgentResult) : State := { s with agents := ainsert core r s.agents }

/-- A harbour core is released from reset (R417, R419). -/
def coreUp (s : State) (core : Nat) : Bool := if core < 32 then s.pkg.westUp else s.pkg.eastUp && decide (core < 64)

/-- An uncorrectable error the access finds poisons the line (R402). -/
def foundError (s : State) (pa : Nat) (bad : Bool) : State := if bad then { s with hbmBad := nsInsert (pa / 64) s.hbmBad } else s

/-- A harbour core's write to memory: it ends the reservations of the bytes it writes. -/
def agentStore (s : State) (pa : Nat) (bs : List Byte) : State :=
  let t := paStore s pa bs
  { t with reserved := t.reserved.filter (fun r => !overlaps pa bs.length r.2.1 r.2.2.length) }

/-- The store-conditional of a core succeeds: its reservation is of these bytes, and they are as it read them (log 63). -/
def reservedNow (s : State) (a : AgentAccess) : Bool :=
  s.reserved.any (fun r => r.1 == a.core && r.2.1 == a.pa && r.2.2.length == a.width && decide (paRead s a.pa a.width = r.2.2))

/-- An access to HBM. -/
def agentHbm (s : State) (a : AgentAccess) : State :=
  let s := foundError s a.pa a.uncorrectable
  let bad := s.hbmBad.contains (a.pa / 64)
  match a.kind with
  | .read => agentGets s a.core (.bytes (paRead s a.pa a.width) bad)
  | .write bs => agentGets (agentStore s a.pa (bs.take a.width)) a.core (.bytes [] false)
  | .rmw aop ty b =>
    let w := ty.width / 8
    let old := paNat s a.pa w
    agentGets (agentStore s a.pa (natLe w (atomOp aop.toNat ty old b.toNat))) a.core (.bytes (natLe w old) bad)
  | .reserve =>
    let bs := paRead s a.pa a.width
    agentGets { s with reserved := ainsert a.core (a.pa, bs) s.reserved } a.core (.bytes bs bad)
  | .conditional bs =>
    let ok := reservedNow s a
    let s : State := { s with reserved := aerase a.core s.reserved }
    agentGets (if ok then agentStore s a.pa (bs.take a.width) else s) a.core (.bytes [if ok then 0 else 1] false)

/-- An access to the register space; it takes no reservation. -/
def agentReg (s : State) (a : AgentAccess) : State :=
  let off := a.pa - 2 ^ 41
  match a.kind with
  | .read => agentGets s a.core (.bytes (natLe a.width (regRead s off / 2 ^ (8 * (off % 8)))) false)
  | .write bs => agentGets (regStore s off (bs.take a.width)) a.core (.bytes [] false)
  | .rmw aop ty b =>
    let w := ty.width / 8
    let old := regRead s off / 2 ^ (8 * (off % 8)) % 2 ^ ty.width
    agentGets (regStore s off (natLe w (atomOp aop.toNat ty old b.toNat))) a.core (.bytes (natLe w old) false)
  | .reserve | .conditional _ => agentGets s a.core .accessFault

/-- An access to the PCIe window: what the device behind it answers is left open (log 24). -/
def agentPcie (s : State) (a : AgentAccess) : State := agentGets s a.core (.bytes (natLe a.width (Config.openDetail s.steps).toNat) false)

/-- An access to another package: it is sent, and its answer arrives later. No transport operation carries a reservation. -/
def agentRemote (s : State) (a : AgentAccess) : State :=
  let lane := agentLane + a.core
  let waits := agentGets s a.core .none
  match a.kind with
  | .read => (remoteSend waits none lane 2 a.pa a.width 0 (natLe 2 a.width)).2
  | .write bs => (remoteSend waits none lane 1 a.pa a.width 0 (bs.take a.width)).2
  | .rmw aop ty b => (remoteSend waits none lane 4 a.pa (ty.width / 8) (aop.toNat + 2 ^ 8 * tyCode ty) (natLe (ty.width / 8) b.toNat)).2
  | .reserve | .conditional _ => agentGets s a.core .accessFault

/-- An access by a harbour core is performed (R407); one to a reserved address takes an access fault. A core in reset makes none. -/
def agentAccess (s : State) (a : AgentAccess) : State :=
  if !coreUp s a.core then s
  else if paBacked a.pa then agentHbm s a
  else if 2 ^ 41 ≤ a.pa && a.pa < 2 ^ 41 + 2 ^ 36 then agentReg s a
  else if 2 ^ 42 ≤ a.pa && a.pa < 2 ^ 43 then agentPcie s a
  else if paRemote a.pa then agentRemote s a
  else agentGets s a.core .accessFault

/-- An access is performed at its memory point (R247, R407). -/
def execAccessPerformed (a : AgentAccess) (s : State) : Out := .next (agentAccess s a)

/-! ### Transport (R409 to R412) -/

/-- n bytes of a frame from an offset, as a number. -/
def fNat (bs : List Byte) (o n : Nat) : Nat := leNat ((bs.drop o).take n)

/-- Operation. -/
def fOp (bs : List Byte) : Nat := fNat bs 1 1
/-- Source rank. -/
def fSrc (bs : List Byte) : Nat := fNat bs 2 2
/-- Sequence number. -/
def fSeq (bs : List Byte) : Word := BitVec.ofNat 32 (fNat bs 8 4)
/-- Local PA, or collective id. -/
def fPa (bs : List Byte) : Nat := fNat bs 12 8
/-- `AOP` and type. -/
def fRmw (bs : List Byte) : Nat := fNat bs 20 4
/-- Payload. -/
def fPayload (bs : List Byte) : List Byte := bs.drop 24

/-- Count a frame that R412 discards or refuses. -/
def badFrame (s : State) (j : Nat) : State := modPort s j (fun p => { p with bad := if p.bad = 0xFFFFFFFF then p.bad else p.bad + 1 })

/-- The frame is discarded without reply: version, lengths, destination (R412). -/
def malformed (s : State) (bs : List Byte) : Bool :=
  decide (fNat bs 0 1 ≠ 1) || decide (bs.length < 24) || decide (4096 < fNat bs 6 2) || decide (fNat bs 6 2 ≠ bs.length - 24) || decide (fNat bs 4 2 ≠ s.pkg.rank)

/-- Send an answer, which carries its request's sequence number, and keep it for duplicates (R411; log 17). -/
def answer (s : State) (f : RxFrame) (op : Nat) (payload : List Byte) : State :=
  let a := frameBytes op s.pkg.rank (fSrc f.bytes) (fSeq f.bytes) (fPa f.bytes) 0 payload
  modPort s f.port (fun p => { p with tx := p.tx ++ [a], answered := p.answered ++ [(fSrc f.bytes, fSeq f.bytes, a)] })

/-- The receive sequence goes on. -/
def seqDone (s : State) (f : RxFrame) : State :=
  modPort s f.port (fun p => { p with rxSeq := ainsert (fSrc f.bytes) (fSeq f.bytes + 1) p.rxSeq, gaps := aerase (fSrc f.bytes) p.gaps })

/-- Refuse a request (R412): the counter, the negative acknowledge, the sequence. -/
def refuse (s : State) (f : RxFrame) : State := seqDone (answer (badFrame s f.port) f 8 []) f

/-- The original answer of a duplicate goes out again. -/
def repeatAnswer (s : State) (f : RxFrame) : State :=
  match (portOf s f.port).answered.find? (fun a => a.1 == fSrc f.bytes && a.2.1 == fSeq f.bytes) with
  | some a => modPort s f.port (fun p => { p with tx := p.tx ++ [a.2.2] })
  | none => s

/-- A frame can arrive at its port: one of the eight, with its link up (R409). -/
def portReady (s : State) (f : RxFrame) : Bool := decide (f.port < 8) && (portOf s f.port).up

/-- `EtherType` of the transport (R409). -/
def transportType : BitVec 16 := 0x88B5

/-- A frame that is not the transport's goes to harbour software (R409). -/
def toSoftware (s : State) (f : RxFrame) : State := modPort s f.port (fun p => { p with rx := p.rx ++ [f] })

/-- The receiver asks for retransmission from the first gap (R411); what carries the request is not stated (log 17). -/
def askAgain (s : State) (f : RxFrame) (want : Word) : State := modPort s f.port (fun p => { p with gaps := ainsert (fSrc f.bytes) want p.gaps })

/-- A frame arrives: it is sorted by its `EtherType` (R409); the checks of R412, and for a request its place in the sequence (R411): a frame beyond
the expected number is not performed. `act`: what the operation does. -/
def receive (s : State) (f : RxFrame) (op : Nat) (request : Bool) (act : State → State) : State :=
  if !portReady s f then s
  else if f.etype ≠ transportType then toSoftware s f
  else if malformed s f.bytes then badFrame s f.port
  else if request then
    let want := agetD 0 (fSrc f.bytes) (portOf s f.port).rxSeq
    if fSeq f.bytes = want then
      if fOp f.bytes = 0 || 9 ≤ fOp f.bytes then refuse s f else if fOp f.bytes = op then act s else s
    else if (want - fSeq f.bytes).toNat < 2 ^ 31 then repeatAnswer s f
    else askAgain s f want
  else if fOp f.bytes = op then act s
  else s

/-- A rank asks a port for the frames from a sequence number on: those of its requests that have no answer yet go out again, in order (R411). -/
def resend (s : State) (j rank : Nat) (seq : Word) : State :=
  let mine := fun (b : List Byte) => fNat b 4 2 == rank && [1, 2, 4, 7].contains (fOp b) && decide ((fSeq b - seq).toNat < 2 ^ 31)
    && s.pkg.remote.any (fun r => r.rank == rank && r.port == j && r.seq == fSeq b && r.answer.isNone)
  if decide (j < 8) && (portOf s j).up then modPort s j (fun p => { p with tx := p.tx ++ (p.tx.filter mine).eraseDups }) else s

/-- Local bytes are exported, each 64 KiB of them by some window (R410). -/
def exported (s : State) (pa n : Nat) (wrt : Bool) : Bool :=
  paBacked pa && paBacked (pa + n - 1) && (List.range ((pa + n - 1) / 65536 - pa / 65536 + 1)).all (fun u => (List.range 16).any (fun k =>
    let m := rxmapOf s k
    m.en && (!wrt || m.wr) && decide (m.lo ≤ pa / 65536 + u) && decide (pa / 65536 + u ≤ m.hi)))

/-- A write frame (R411). -/
def onWrite (f : RxFrame) (s : State) : State :=
  let bs := fPayload f.bytes
  if !exported s (fPa f.bytes) (max 1 bs.length) true then refuse s f
  else seqDone (answer (paStore s (fPa f.bytes) bs) f 6 []) f

/-- A read frame (R411); one of more bytes than a payload holds is refused (log 17). -/
def onRead (f : RxFrame) (s : State) : State :=
  let n := fNat (fPayload f.bytes) 0 2
  if 4096 < n || !exported s (fPa f.bytes) (max 1 n) false then refuse s f
  else seqDone (answer s f 3 (paRead s (fPa f.bytes) n)) f

/-- Operation and type of an RMW frame; `none`: reserved. -/
def rmwOf (bs : List Byte) : Option (Nat × Ty) :=
  match tyOfCode (fRmw bs / 2 ^ 8 % 2 ^ 5) with
  | some t =>
    let aop := fRmw bs % 2 ^ 8
    if clsAtom t && decide (aop < 7) && (t != .f32 || aop == 6 || decide (aop < 3)) && decide (fRmw bs / 2 ^ 13 = 0) then some (aop, t) else none
  | none => none

/-- A decrement that another package asks for (R134, R269): its waiters here are enqueued. -/
def onDecrement (f : RxFrame) (s : State) : State :=
  let old := paNat s (fPa f.bytes) 8
  let t := if old = 0 then s else paStore s (fPa f.bytes) (natLe 8 (old - 1))
  let t := if old = 1 then (waitersOn t (.hbm (fPa f.bytes))).foldl makeReady t else t
  seqDone (answer t f 5 (natLe 8 old)) f

/-- An RMW frame (R411, R269): one operand, an operand and a compare value, or a decrement with none (log 17). -/
def onRmw (f : RxFrame) (s : State) : State :=
  match rmwOf f.bytes with
  | none => refuse s f
  | some (aop, t) =>
    let w := t.width / 8
    let bs := fPayload f.bytes
    if !exported s (fPa f.bytes) w true then refuse s f
    else if bs.isEmpty && fRmw f.bytes = depdecRmw then onDecrement f s
    else
      let old := paNat s (fPa f.bytes) w
      let b := fNat bs 0 w
      let new := if w < bs.length then casOp (fNat bs w w) b old else atomOp aop t old b
      seqDone (answer (paStore s (fPa f.bytes) (natLe w new)) f 5 (natLe w old)) f

/-- The request that an answer frame belongs to. -/
def requestOf (s : State) (f : RxFrame) (ops : List Nat) : Option RemoteReq :=
  s.pkg.remote.find? (fun r => r.rank == fSrc f.bytes && r.port == f.port && r.seq == fSeq f.bytes && r.answer.isNone && ops.contains r.op.toNat)

/-- A request receives its answer; `none`: refused. The context that waits for it asks again, and so do those that wait for room or for
acknowledgements. A refused released store becomes an access violation of its context (R410; log 57). -/
def settle (s : State) (r : RemoteReq) (a : Option (List Byte)) : State :=
  let s := unblockAll s (fun _ _ b => decide (b = .remote 1))
  let forget := modPkg s (fun p => { p with remote := p.remote.filter (fun x => x.id != r.id) })
  match r.ctx with
  | none =>
    if r.lane = 0 || r.lane = collLane then
      match a, r.home, r.issuer with
      | none, some h, some i => queueTrap forget h.1 h.2 i.who { mkTrap 0x0A i.va i.lanes with slot := some i.slot }
      | _, _, _ => forget
    else if agentLane ≤ r.lane && r.lane < agentLane + 64 then agentGets forget (r.lane - agentLane) (match a with | some bs => .bytes bs false | none => .accessFault)
    else modPkg s (fun p => { p with remote := p.remote.map (fun x => if x.id = r.id then { x with answer := some a } else x) })
  | some c =>
    modCtx (modPkg s (fun p => { p with remote := p.remote.map (fun x => if x.id = r.id then { x with answer := some a } else x) })) c
      (fun x => match x.blocked with | some (.remote _) => { x with blocked := none } | _ => x)

/-- An answer frame: it settles its request, or is counted and discarded. -/
def onAnswer (ops : List Nat) (ok : Bool) (f : RxFrame) (s : State) : State :=
  match requestOf s f ops with
  | some r => settle s r (if ok then some (fPayload f.bytes) else none)
  | none => badFrame s f.port

/-- A contribution frame (R413): kept while its collective is posted and its sender a member. -/
def onContribution (f : RxFrame) (s : State) : State :=
  let mine := fun (c : Coll) => dCid c.desc == fPa f.bytes && decide (dFrank c.desc ≤ fSrc f.bytes) && decide (fSrc f.bytes < dFrank c.desc + dNmem c.desc)
  if !s.pkg.colls.any mine then s
  else
    let bs := fPayload f.bytes
    let s := modPkg s (fun p =>
      { p with colls := p.colls.map (fun c =>
          if mine c then
            let at_ := (partBytes c (fSrc f.bytes)).length
            { c with contrib := c.contrib ++ [(fSrc f.bytes, (tabulate bs.length (fun k => at_ + k)).zip bs)] }
          else c) })
    seqDone (answer s f 6 []) f

/-- A write frame arrives (R411). -/
def execTransportWrite (f : RxFrame) (s : State) : Out := .next (receive s f 1 true (onWrite f))
/-- A read frame arrives (R411). -/
def execTransportRead (f : RxFrame) (s : State) : Out := .next (receive s f 2 true (onRead f))
/-- A read response arrives (R411). -/
def execReadResponse (f : RxFrame) (s : State) : Out := .next (receive s f 3 false (onAnswer [2] true f))
/-- An RMW frame arrives (R411). -/
def execTransportRmw (f : RxFrame) (s : State) : Out := .next (receive s f 4 true (onRmw f))
/-- An RMW response arrives (R411). -/
def execRmwResponse (f : RxFrame) (s : State) : Out := .next (receive s f 5 false (onAnswer [4] true f))
/-- An acknowledgement arrives (R411). -/
def execAcknowledge (f : RxFrame) (s : State) : Out := .next (receive s f 6 false (onAnswer [1, 7] true f))
/-- A contribution arrives (R413). -/
def execCollectiveContribution (f : RxFrame) (s : State) : Out := .next (receive s f 7 true (onContribution f))
/-- A negative acknowledge arrives (R412). -/
def execNegativeAcknowledge (f : RxFrame) (s : State) : Out := .next (receive s f 8 false (onAnswer [1, 2, 4, 7] false f))

/-- A link has stayed down for `LINKTO` microseconds (R411): one event. -/
def linkOver (s : State) (j : Nat) : State :=
  match (portOf s j).downSince with
  | some t =>
    if decide (j < 8) && !(portOf s j).up && !eventsWait s && decide (t + s.pkg.linkto * s.pkg.fclk ≤ s.cycle) then
      putEventAll (modPort s j (fun p => { p with downSince := none })) 5 j 0
    else s
  | none => s

/-- A link times out (R411). -/
def execLinkTimeout (port : Nat) (s : State) : Out := .next (linkOver s port)

/-- A link goes down or comes up (R411). -/
def execLinkStateChange (port : Nat) (up : Bool) (s : State) : Out :=
  .next (if 8 ≤ port then s else modPort s port (fun p =>
    { p with up := up, downSince := if up then none else if p.up then some s.cycle else p.downSince }))

/-- A frame arrives that is not the transport's (R409). -/
def execEthernetFrame (f : RxFrame) (s : State) : Out :=
  .next (if portReady s f && decide (f.etype ≠ transportType) then toSoftware s f else s)

/-- A frame on the management port (R415); in recovery the port accepts only a recovery image (R417). -/
def execManagementFrame (bytes : List Byte) (s : State) : Out :=
  .next (if s.pkg.recovery then s else modPkg s (fun p => { p with mgmt := p.mgmt ++ [bytes] }))

/-! ### Storage (R416) -/

/-- Bytes that harbour software maps into no program address space (R407). -/
def harbourMemory (s : State) (pa n : Nat) : Bool :=
  paBacked pa && paBacked (pa + n - 1) && s.spaces.all (fun a =>
    let root := a.2.ptroot
    !bitAt root 0 || (leavesFrom s levels (4096 * bits root 51 12) 0).all (fun x => !overlaps pa n x.2.1 x.2.2))

/-- Harbour software opens ranges, of first and last byte, of harbour memory. -/
def iommuOpen (s : State) (rs : List (Nat × Nat)) : State :=
  modPkg s (fun p => { p with iommu := rs.filter (fun r => decide (r.1 ≤ r.2) && harbourMemory s r.1 (r.2 + 1 - r.1)) })

/-- DMA within an open range reaches memory; any other is refused. -/
def dmaServe (s : State) (d : DmaAccess) : State :=
  let n := match d.data with | some bs => bs.length | none => d.width
  if s.pkg.iommu.any (fun r => decide (r.1 ≤ d.pa) && decide (d.pa + n ≤ r.2 + 1)) && paBacked d.pa && paBacked (d.pa + n - 1) then
    match d.data with
    | some bs => paStore s d.pa bs
    | none => modPkg s (fun p => { p with dmaRead := paRead s d.pa d.width })
  else modPkg s (fun p => { p with dmaRefused := p.dmaRefused + 1 })

/-- A DMA request (R416). -/
def execDmaRequest (d : DmaAccess) (s : State) : Out := .next (dmaServe s d)

/-! ### Customs (R417, R418) -/

/-- Power-good: customs runs (R419). -/
def execPowerGood (s : State) : Out := .next (modPkg s (fun p => { p with powered := true }))

/-- The checks of an image (R417). -/
def imageGood (s : State) (img : ImageFile) : Bool :=
  let h := img.header
  let len := fNat h 16 8
  decide (h.length = 184) && decide (fNat h 0 4 = 0x58424458) && decide (s.pkg.rollback.toNat ≤ fNat h 4 4)
    && harbourMemory s (fNat h 8 8) len
    && decide (2 ^ 20 ≤ len) && decide (len ≤ 2 ^ 28) && decide (img.body.length = len)
    && decide (fNat h 24 32 = (Config.sm3 img.body).toNat) && decide ((Config.sm3 ((h.drop 56).take 64)) = Config.rootKeyHash)
    && Config.sm2Verify (BitVec.ofNat 512 (fNat h 56 64)) (h.take 120) (BitVec.ofNat 512 (fNat h 120 64))

/-- Customs verifies an image: a good one is placed at its load address, released and measured; the first that fails leaves the harbour cores in
reset. -/
def imageCheck (s : State) (img : ImageFile) : State :=
  if !s.pkg.powered then s
  else if imageGood s img then
    modPkg (paStore s (fNat img.header 8 8) img.body) (fun p =>
      { p with westUp := true, recovery := false, version := BitVec.ofNat 32 (fNat img.header 4 4), images := p.images ++ [Config.sm3 img.body] })
  else if s.pkg.westUp then s
  else modPkg s (fun p => { p with recovery := true })

/-- Customs verifies an image (R417). -/
def execImageVerification (img : ImageFile) (s : State) : Out := .next (imageCheck s img)

/-- The body of a report (R418): nonce, hash of the identity key, security version, measurements, counter. -/
def reportBody (s : State) (nonce : BitVec 256) : List Byte :=
  natLe 32 nonce.toNat ++ natLe 32 (Config.sm3 (natLe 64 Config.identityKey.toNat)).toNat ++ natLe 4 s.pkg.version.toNat
    ++ ((s.pkg.images.take 16).map (fun m => natLe 32 m.toNat)).flatten ++ natLe 8 s.pkg.reports

/-- Customs answers a nonce with a signed report, with the vendor certificate unsigned beside it; in recovery the management port that brings the nonce
takes a recovery image alone (R417). -/
def execAttestationReport (nonce : BitVec 256) (s : State) : Out :=
  .next (if s.pkg.powered && !s.pkg.recovery then
      modPkg s (fun p =>
        { p with report := reportBody s nonce ++ natLe 64 (Config.sm2Sign p.reports (reportBody s nonce)).toNat, reports := p.reports + 1,
                 certificate := Config.vendorCertificate })
    else s)

/-- Customs raises the anti-rollback counter at the request of a verified image (R417). -/
def execAntiRollbackRaise (version : Word) (s : State) : Out :=
  .next (if s.pkg.westUp && decide (s.pkg.rollback.toNat < version.toNat) then modPkg s (fun p => { p with rollback := version }) else s)

/-! ### Power and the hull (R402, R420, R421) -/

/-- The device moves the arithmetic clock by 50 MHz to hold the cap and the thermal limits; a change waits while an event waits for room (R408). -/
def powerStep (s : State) (r : PowerReading) : State :=
  let s := modPkg s (fun p => { p with watts := r.watts, thermal := r.thermal })
  let f := s.pkg.fclk
  let f' := if eventsWait s then f else if s.pkg.capw < r.watts.toNat || r.thermal then (if 450 ≤ f then f - 50 else f) else if f < 1400 then f + 50 else f
  if f' = f then s else putEventAll (modPkg s (fun p => { p with fclk := f' })) 6 0 0

/-- A clock step (R420). -/
def execPowerCapStep (r : PowerReading) (s : State) : Out := .next (powerStep s r)

/-- A die at its critical temperature issues nothing (R420). -/
def execCriticalTemperature (die : Nat) (s : State) : Out := .next (modPkg s (fun p => { p with critical := nsInsert die p.critical }))

/-- A die has cooled (R420). -/
def execDieCools (die : Nat) (s : State) : Out := .next (modPkg s (fun p => { p with critical := nsErase die p.critical }))

/-- The hourly survey of a die (R421): the corrected errors of the hour, an early end of life. It waits while an event waits for room (R408). -/
def hullRefresh (s : State) (h : HullReading) : State :=
  if eventsWait s then s else
  let s := modHull s h.die (fun x =>
    { x with stress := h.stress, drift := h.drift, cecc := BitVec.ofNat 16 (min 0xFFFF x.hour), eol := h.eol, hour := 0 })
  if h.eol.toNat < h.today + 365 then putEventAll s 4 0 0 else s

/-- The hull survey is refreshed (R421). -/
def execHullSurveyRefresh (h : HullReading) (s : State) : Out := .next (hullRefresh s h)

/-- Harbour software pins tiles of a core for resident data, below its crane ring, where no window is in the way, and sets their owners
(R261). -/
def pinTiles (s : State) (core tiles : Nat) (owned : List Nat) : State :=
  let t := modCore s core (fun c => { c with pinned := tiles })
  let staging := (s.wgs.filter (fun x => berthCore x.1 == core)).any (fun x => (needHeld x.2).staging)
  let first := (0xFC000 - 4096 * tiles) / 4096
  if 252 < tiles || (windowsOn s core).any (fun u => decide (regionTop t core staging < u.1 + u.2)) then s
  else { t with engTiles := nsPlace s.engTiles (256 * core + first) tiles (owned.filter (fun k => decide (k < tiles))) }

/-- A read corrects an error, and counts it for the hull survey (R270, R402). -/
def countCorrected (s : State) (die : Nat) : State := modHull s die (fun x => { x with hour := x.hour + 1 })

/-- An uncorrectable error marks its line (R270, R402). -/
def markLine (s : State) (quay : Bool) (line : Nat) : State :=
  if quay then { s with quayBad := nsInsert line s.quayBad } else { s with hbmBad := nsInsert line s.hbmBad }

/-- A background scrub (R402): corrected errors are counted, uncorrectable ones poison their lines. -/
def scrubDone (s : State) (r : ScrubReport) : State :=
  if s.pkg.scrubiv = 0 then s
  else
    let s := modHull s r.die (fun x => { x with hour := x.hour + r.corrected })
    { s with hbmBad := r.hbmLines.foldl (fun ls l => nsInsert l ls) s.hbmBad, quayBad := r.quayLines.foldl (fun ls l => nsInsert l ls) s.quayBad }

/-- A scrub pass (R402). -/
def execScrubPass (r : ScrubReport) (s : State) : Out := .next (scrubDone s r)

end Sys2Proof.Machine
end

