-- ==== Sys2Proof/Machine/Fetch.lean ====
section
/-! DEFINITION. Fetch: entering a fetch line (R59 to R66, R404), pending traps (R392, R367), breakpoints (R390), and a context's turn up to
the decoded instruction; the steps of queues, waits and barriers that go on beside the contexts (R23, R118, R122, R191, R192, R206). -/

namespace Sys2Proof.Machine

/-! ### Pending traps (R392, R397) -/

/-- The slot number a context is at. -/
def slotAt (s : State) (id : CtxId) (g : WG) : Nat :=
  match headFor s id g with
  | some h => slotOf g h id.who
  | none => 0

/-- A context is held at a slot: blocked, or parked. -/
def parkedAt (s : State) (id : CtxId) (g : WG) : Option Park :=
  match id.who with
  | .pilot => g.pilot.park
  | .crew n =>
    match headOf s id.berth g n, crewOf g n with
    | none, some c => (frontierOf s id.berth g n c).head?.bind (fun e => e.park)
    | _, _ => none

/-- A context waits where a Lookout record is taken at once: in a pop, a push, an `await`, a `twait`, at a barrier, a checkpoint, or for acceptance
(R367). -/
def lookStops (s : State) (id : CtxId) (g : WG) (c : Ctx) : Bool :=
  (parkedAt s id g).isSome || (match c.blocked with
    | some (.pop _) | some (.push _) | some .await | some .twait | some (.accept _) | some .headHold => true
    | _ => false)

/-- A pending trap can be taken where its context is: a Lookout record at a line boundary or a slot of `lookStops`, another at any slot. -/
def takeable (s : State) (id : CtxId) (g : WG) (c : Ctx) (t : PendTrap) : Bool :=
  if t.cause = 0x10 then lookStops s id g c || (c.blocked.isNone && slotAt s id g == 0) else true

/-- The pending trap that a context takes now (R392): the oldest that can be taken where it is, between instructions (a division that has popped and
not pushed is not over, R100). -/
def dueTrap (s : State) (id : CtxId) : Option PendTrap :=
  match wgOf s id.berth with
  | none => none
  | some g =>
    match ctxIn g id.who with
    | none => none
    | some c =>
      let stuck := c.ended || c.handler.isSome || c.taking.isSome || midway c || decide (g.run ≠ .running)
        || (match c.blocked with | some (.remote _) | some .ring => true | _ => false)
      if stuck || ((headFor s id g).isNone && (parkedAt s id g).isNone) then none else c.traps.find? (takeable s id g c)

/-- A context has a trap to deliver: a pending one, or one whose delivery waited for results that are now written (R391). -/
def trapReady (s : State) (id : CtxId) : Bool :=
  (dueTrap s id).isSome || (ctxOf s id).any (fun c => c.taking.isSome && !unwritten c)

/-- Take a list's first element of a value out. -/
def dropFirst (t : PendTrap) : List PendTrap → List PendTrap
  | [] => []
  | x :: xs => if x = t then xs else x :: dropFirst t xs

/-- Take a pending trap off its context; a delivered Lookout record carries `LOST` (R367). -/
def popTrap (s : State) (id : CtxId) (t : PendTrap) : State × PendTrap :=
  let lost := ((ctxOf s id).map (fun c => c.lost)).getD false
  let look := decide (t.cause = 0x10)
  (modCtx s id (fun c => { c with traps := dropFirst t c.traps, lost := if look then false else c.lost }),
    if look && lost then { t with detail := t.detail ||| 0x200000000000#64 } else t)

/-- Deliver a pending trap: at the slot it names (R389), or at the entry it names, while lanes wait there (R118, R397). -/
def trapAt (s : State) (id : CtxId) (t : PendTrap) : State :=
  match t.slot with
  | some p => takeTrap s id t p (headPoint s id).1 (headPoint s id).2
  | none =>
  match t.entry, id.who, wgOf s id.berth with
  | some cix, .crew n, some g =>
    match ((crewOf g n).map (fun c => frontierOf s id.berth g n c)).bind (fun es => es.find? (fun e => e.cix == cix)) with
    | some e => takeTrap s id t (e.cix.setWidth 64) e.cix e.mask
    | none => trapHere s id t
  | _, _, _ => trapHere s id t

/-- Deliver the trap that is due; one that meets an arrival takes it away. -/
def deliverDue (s : State) (id : CtxId) : State :=
  match dueTrap s id, wgOf s id.berth with
  | some t, some g =>
    let x := popTrap s id t
    match (if t.entry.isSome then none else parkedAt s id g) with
    | some p => withdrawTrap x.1 id.berth id.who p x.2
    | none => trapAt x.1 id x.2
  | _, _ => finishTrap s id

/-- A Lookout trap is taken (R367). -/
def execLookoutTrap (c : CtxId) (s : State) : Out :=
  .next (if (dueTrap s c).any (fun t => decide (t.cause = 0x10)) then deliverDue s c else s)

/-- The pilot takes the buoy-bias trap (R234). -/
def execBuoyBiasTrap (berth : Nat) (s : State) : Out :=
  .next (if (dueTrap s { berth := berth, who := .pilot }).any (fun t => decide (t.cause = 0x11)) then deliverDue s { berth := berth, who := .pilot } else s)

/-! ### Fetch lines (R59 to R66) -/

/-- Address of the line a context is at. -/
def lineOf (g : WG) (h : FEntry) (w : Who) : Nat :=
  match w with
  | .pilot => pcLine g.pilot.pc.toNat
  | .crew _ => cixLine (hCentry g.hdr) h.cix.toNat

/-- The code point that transferred control to the slot, if the landing is still to be checked (R65); of several transfers to one code index the
latest (log 65). -/
def landingOf (g : WG) (h : FEntry) (w : Who) : Option DWord :=
  match w with
  | .pilot => g.pilot.landing
  | .crew n => (crewOf g n).bind (fun c => (c.landings.find? (fun l => l.1 == h.cix)).map (fun l => l.2))

/-- The landing has been checked. -/
def landed (g : WG) (h : FEntry) (w : Who) : WG :=
  match w with
  | .pilot => { g with pilot := { g.pilot with landing := none } }
  | .crew n => modCrew g n (fun c => { c with landings := c.landings.filter (fun l => l.1 != h.cix) })

/-- The context has entered the line it is at, and no landing is to be checked. -/
def inLine (g : WG) (h : FEntry) (w : Who) : Bool :=
  ((ctxIn g w).bind (fun c => c.line)).any (fun l => l.addr.toNat == lineOf g h w) && (landingOf g h w).isNone

/-- What fetching a line gives. -/
inductive LineGet where
  | bits (b : BitVec 512) (s : State)
  | stop (s : State)

/-- A line from memory (R59): its bits, or what stops the fetch. `k`: 0, or 1 for the second fetch after a parity error. -/
def lineMemory (s : State) (id : CtxId) (g : WG) (h : FEntry) (va k : Nat) : LineGet :=
  let core := berthCore id.berth
  if !isGlobal va then .stop (trapHere s id (mkTrap 0x0A va h.mask))
  else
    match translate s core (asidOf g) va false true with
    | none => .stop (threadFault s id va h.mask false true)
    | some (leaf, pa) =>
      match viewLoc s (viewOf s g) va pa with
      | .remote rpa =>
        match remoteAnswer s id k with
        | some (some bs) => .bits (BitVec.ofNat 512 (leNat bs)) (dropRemote s id)
        | some none => .stop (trapHere (dropRemote s id) id (mkTrap 0x0A va h.mask))
        | none =>
          if (remoteOf s id).isEmpty then
            .stop (sendReads s id 64 [{ lane := k, ea := va, loc := .remote rpa, va := some va, own := false }])
          else .stop (block s id (.remote 0))
      | l =>
        let vpn := va / pageSize
        let mine := (launchOf s g.lid).bind (fun l => l.rebuilds)
        if eRb leaf && decide (mine ≠ some (asidOf g, vpn)) && (rebuildEntry s (asidOf g) vpn).isSome
            && (rebuildBusy s (asidOf g) vpn || (locBad s l && mine.isNone)) then
          .stop (rebuildHold s id vpn va h.mask)
        else if locBad s l then .stop (trapHere s id (mkTrap 0x15 va h.mask))
        else .bits (BitVec.ofNat 512 (leNat (locRead s l 64))) (tlbFill s core (asidOf g) va)

/-- Keep a line in the core's instruction cache of 128 KiB (R3), the latest first; where it is full the oldest fill makes room, which is the model's
choice (log 53). -/
def cacheLine (asid va : Nat) (b : BitVec 512) (c : Core) : Core :=
  { c with icache := ({ asid := asid, addr := BitVec.ofNat 64 va, bits := b } :: c.icache.filter (fun x => !(x.asid == asid && x.addr.toNat == va))).take Config.icacheLines }

/-- The die's fetch agent gives a fill to every core of the die that runs the same kernel (R62); each checks its own copy. -/
def multicastLine (s : State) (core : Nat) (g : WG) (va : Nat) (b : BitVec 512) : State :=
  let same := fun (x : Nat × WG) => asidOf x.2 == asidOf g && mKhdr x.2.man == mKhdr g.man
      && decide (berthCore x.1 / Config.coresPerDie = core / Config.coresPerDie) && berthCore x.1 != core
  (((s.wgs.filter same).map (fun x => berthCore x.1)).eraseDups).foldl (fun s c => modCore s c (cacheLine (asidOf g) va b)) s

/-- A line arrives from the instruction cache, or from memory into it, with the bits that an error flips; a line whose parity fails is
fetched once more from memory, for this core alone, and traps if it fails again (R62). -/
def arriveLine (s : State) (id : CtxId) (g : WG) (h : FEntry) (va : Nat) (flip : BitVec 512) : LineGet :=
  let core := berthCore id.berth
  let keep := fun (s : State) (b : BitVec 512) => modCore s core (cacheLine (asidOf g) va b)
  let again := fun (s : State) =>
    match lineMemory s id g h va 1 with
    | .stop t => LineGet.stop t
    | .bits b t => if lineParity b then .bits b (keep t b) else .stop (trapHere t id (mkTrap 0x04 va h.mask))
  if remoteSent s id 1 then again s
  else
    match (coreOf s core).icache.find? (fun x => x.asid == asidOf g && x.addr.toNat == va) with
    | some x => if lineParity (x.bits ^^^ flip) then .bits (x.bits ^^^ flip) s else again s
    | none =>
      match lineMemory s id g h va 0 with
      | .stop t => .stop t
      | .bits b t =>
        let t := multicastLine t core g va b
        if lineParity (b ^^^ flip) then .bits (b ^^^ flip) (keep t (b ^^^ flip)) else again t

/-- ENTER A LINE (R64): fetch and parity, the line word, the target bit of a landing; the state in which the context has entered it, or
the one that stops it. -/
def enterLine (s : State) (id : CtxId) (g : WG) (h : FEntry) (flip : BitVec 512) : Except State State :=
  let va := lineOf g h id.who
  match arriveLine s id g h va flip with
  | .stop t => .error t
  | .bits b t =>
    match lineReason b with
    | some r => .error (trapHere t id (mkTrap 0x02 r h.mask))
    | none =>
      match landingOf g h id.who with
      | some d =>
        if lineTgt b (slotOf g h id.who) then
          .ok (modWg t id.berth (fun g => modCtxIn (landed g h id.who) id.who (fun c => { c with line := some { addr := BitVec.ofNat 64 va, bits := b } })))
        else .error (trapHere (modWg t id.berth (fun g => landed g h id.who)) id (mkTrap 0x03 d.toNat h.mask))
      | none => .ok (modCtx t id (fun c => { c with line := some { addr := BitVec.ofNat 64 va, bits := b } }))

/-- A fetch line arrives for a context that is to enter it (R62). -/
def execLineFetch (c : CtxId) (flip : BitVec 512) (s : State) : Out :=
  match wgOf s c.berth with
  | none => .next s
  | some g =>
    match headFor s c g with
    | none => .next s
    | some h =>
      if ctxEligible s c && (dueTrap s c).isNone && !inLine g h c.who then
        .next (match enterLine s c g h flip with | .ok t => t | .error t => t)
      else .next s

/-! ### A turn (R315, R316) -/

/-- What a context's turn comes to: a state in which no instruction acts, or the instruction its slot decodes to. -/
inductive Turn where
  | done (t : State)
  | run (s : State) (i : Instr)

/-- An enabled breakpoint matches the slot a context is at (R390). -/
def breakHit (s : State) (id : CtxId) (g : WG) (h : FEntry) : Bool :=
  let cp : DWord := match id.who with | .pilot => g.pilot.pc | .crew _ => h.cix.setWidth 64
  (partOf s g.part).dbg.any (fun d => d.en && d.pil == (whoKind id.who == .pilot) && d.lid == launchIdOf s g && d.cp == cp)

/-- A result that the line's wait mask names is not written (R23). -/
def waitsFor (c : Ctx) (line : BitVec 512) : Bool := (List.range 12).any (fun k => lineWait line / 2 ^ k % 2 == 1 && decide (c.flags.getD k 0 ≠ 0))

/-- Write the results that the line's wait mask names. -/
def settleWait (g : WG) (w : Who) (line : BitVec 512) : WG :=
  commitWhere w (fun p => match p.flag with | some k => lineWait line / 2 ^ k % 2 == 1 | none => false) 4096 0 g

/-- The turn of a context in its line: the wait mask, the breakpoint, decoding. -/
def turnSlot (s : State) (id : CtxId) (g : WG) (h : FEntry) (line : BitVec 512) : Turn :=
  let g := settleWait g id.who line
  let s := setWg s id.berth g
  match ctxIn g id.who with
  | none => .done s
  | some c =>
    if waitsFor c line then .done (block s id .staging)
    else if breakHit s id g h && !c.bpPass && !midway c then
      .done (trapHere s id (openTrap s 0x19 h.mask))
    else
      match decodeSlot (whoKind id.who) (lineSlot line (slotOf g h id.who)) with
      | .ok i => .run s i
      | .error r => .done (trapHere s id (mkTrap 0x01 (r + 16 * slotOf g h id.who) h.mask))

/-- A CONTEXT'S TURN: pending traps first, then the line's checks, then the slot (R392). -/
def turn (s0 : State) (id : CtxId) : Turn :=
  let s : State := { s0 with cur := id }
  match wgOf s id.berth with
  | none => .done s
  | some g =>
    if trapReady s id then .done (deliverDue s id)
    else if !ctxEligible s id then .done s
    else
      match headFor s id g with
      | none => .done s
      | some h =>
        if inLine g h id.who then
          match (ctxIn g id.who).bind (fun c => c.line) with
          | some l => turnSlot s id g h l.bits
          | none => .done s
        else
          match enterLine s id g h 0 with
          | .error t => .done t
          | .ok t =>
            match wgOf t id.berth with
            | none => .done t
            | some g =>
              match (ctxIn g id.who).bind (fun c => c.line) with
              | some l => turnSlot t id g h l.bits
              | none => .done t

/-! ### Steps beside the contexts -/

/-- A long-latency result is written (R23): the k-th outstanding one, unless it waits for its release. -/
def execResultWrite (c : CtxId) (k : Nat) (s : State) : Out := .next (modWg s c.berth (fun g => commitAt g c.who k))

/-- Change a context that a reason holds. -/
def unblockIf (s : State) (c : CtxId) (test : Block → Bool) : State :=
  modCtx s c (fun x => match x.blocked with | some r => if test r then { x with blocked := none } else x | none => x)

/-- A blocked `await` reads its words again (R122). -/
def execAwaitReevaluation (c : CtxId) (s : State) : Out := .next (unblockIf s c (fun r => decide (r = .await)))

/-- The home agent serves a waiting pop (R191): the instruction asks again once an entry, or an error, is there. -/
def popServed (s : State) (c : CtxId) : State :=
  match wgOf s c.berth with
  | none => s
  | some g =>
    match (ctxIn g c.who).bind (fun x => x.blocked) with
    | some (.pop n) =>
      match popState s g [n] [] with
      | .empty _ => s
      | _ => unblockIf s c (fun r => decide (r = .pop n))
    | _ => s

/-- A pop request at its home agent (R191). -/
def execPopRequest (c : CtxId) (s : State) : Out := .next (popServed s c)

/-- Entries of bindings that a rollback has taken away reach their home, as far as there is room (R192, R334). -/
def acceptStrays (s : State) (b : Nat) : State :=
  match wgOf s b with
  | none => s
  | some g =>
    let r := g.strays.foldl (fun (a : State × List Binding) q =>
      if qRoom a.1 q q.transit.length then (qWakePops (qAppend a.1 q false false q.transit) q.desc, a.2) else (a.1, a.2 ++ [q])) (s, [])
    modWg r.1 b (fun g => { g with strays := r.2 })

/-- The home agent accepts the entries of a transit buffer, a `bcast` group as one (R192, R195). -/
def acceptPush (s0 : State) (b n : Nat) : State :=
  let s := acceptStrays s0 b
  match (wgOf s b).bind (fun g => bindOf g n) with
  | none => s
  | some q =>
    if q.transit.isEmpty || !qRoom s q q.transit.length then s
    else
      let s := qAppend s q false false q.transit
      let s := modWg s b (fun g => unblockWhere (modBind g n (fun q => { q with transit := [] })) (fun r => decide (r = .push n) || decide (r = .unbind n)))
      qWakePops s q.desc

/-- A push is accepted (R192). -/
def execPushAccept (berth q : Nat) (s : State) : Out := .next (acceptPush s berth q)

/-- A binding refreshes its cached count, and its waiting push asks again (R192). -/
def refreshCount (s : State) (b n : Nat) : State :=
  modWg s b (fun g => unblockWhere (modBind g n (qRefresh s)) (fun r => decide (r = .push n)))

/-- A cached count is refreshed (R192). -/
def execQueueCountRefresh (berth q : Nat) (s : State) : Out := .next (refreshCount s berth q)

/-- A held engine instruction asks again, once its queue has room (R206, R235). -/
def acceptAgain (s : State) (c : CtxId) : State :=
  match (ctxOf s c).bind (fun x => x.blocked) with
  | some (.accept k) => if engineFull s (berthCore c.berth) k [] then s else unblockIf s c (fun r => decide (r = .accept k))
  | some .tapUnit => unblockIf s c (fun r => decide (r = .tapUnit))
  | _ => s

/-- A held engine instruction is accepted (R206). -/
def execCommandAcceptance (c : CtxId) (s : State) : Out := .next (acceptAgain s c)

/-- An engine's command completes (R207); with it go the records of the core's cancelled commands (R209). -/
def execEngineCommandCompletion (core : Nat) (e : Engine) (s : State) : Out := .next (postCancelled (completeHead s core e) core)

/-! ### Barrier time-outs (R118, R119, R138) -/

/-- Crews that have neither ended nor arrived. -/
def crewsOut (s : State) (b : Nat) (g : WG) (at_ : Park) : List (Nat × Crew) := (numbered g).filter (fun x => !crewArrived s b g at_ x.1 x.2)

/-- The words of the diagnostic record's entries (R119): of a crew in its handler the entries set aside, then those of the handler (log 31). -/
def diagEntries (s : State) (b : Nat) (g : WG) (at_ : Park) : List Nat :=
  ((crewsOut s b g at_).map (fun x =>
    let list := fun (hw : Nat) (es : List FEntry) => (tabulate es.length (fun k => k)).zip es |>.map (fun y =>
      y.2.cix.toNat + 2 ^ 32 * (x.1 % 64) + 2 ^ 38 * y.2.park.isSome.toNat + 2 ^ 39 * (decide (hw ≤ y.1)).toNat)
    match x.2.ctx.handler with
    | none => list x.2.frontier.length (allEntries s b g x.1 x.2)
    | some h => list h.frontier.length (allEntries s b g x.1 x.2) ++ list x.2.frontier.length (frontierOf s b g x.1 x.2))).flatten

/-- The detail word of the time-out (R118). -/
def timeoutDetail (s : State) (b : Nat) (g : WG) (at_ : Park) (written : Bool) : Nat :=
  let n := (diagEntries s b g at_).length
  (match at_ with | .barrier k => k | .ckpt => 16) + 32 * (!pilotArrived g at_).toNat + 64 * ((crewsOut s b g at_).length % 128)
    + (if written then 2 ^ 13 * min 64 n + 2 ^ 20 * (decide (64 < n)).toNat + 2 ^ 21 else 0)

/-- Write the diagnostic record, if it fits the window (R119). -/
def diagWrite (s : State) (b : Nat) (g : WG) (at_ : Park) : Nat × State :=
  if hQuayb g.hdr < g.tdiag.toNat + 528 then (timeoutDetail s b g at_ false, s)
  else
    let d := timeoutDetail s b g at_ true
    let bytes := natLe 8 d ++ natLe 8 (if pilotArrived g at_ then 0 else g.pilot.pc.toNat) ++ (((diagEntries s b g at_).take 64).map (natLe 8)).flatten
    (d, { s with quay := cellsWriteN s.quay (winKey b g g.tdiag.toNat) bytes })

/-- The participant that a time-out traps: the pilot, else the lowest crew, with a live arrival. -/
def timeoutReceiver (s : State) (b : Nat) (g : WG) (at_ : Park) : Option Who :=
  if pilotLive g at_ then some .pilot else ((numbered g).find? (fun x => crewLive s b g at_ x.1 x.2)).map (fun x => .crew x.1)

/-- A barrier's or the checkpoint's timer. -/
def timerOf (g : WG) : Park → Option Nat
  | .barrier k => (g.bars[k]?).bind (fun x => x.start)
  | .ckpt => g.ckBar.start

/-- A timer is cleared, to start again with a live arrival that remains. -/
def clearTimer (g : WG) : Park → WG
  | .barrier k => { g with bars := g.bars.modify k (fun x => { x with start := none }) }
  | .ckpt => { g with ckBar := { g.ckBar with start := none } }

/-- A timer expires: one participant's arrival is withdrawn, with the trap (R118). -/
def timeoutAt (s : State) (b : Nat) (at_ : Park) : State :=
  match wgOf s b with
  | none => s
  | some g =>
    match timerOf g at_, timeoutReceiver s b g at_ with
    | some t, some w =>
      if t + hTimeout g.hdr ≤ s.cycle && decide (g.run = .running) then
        let d := diagWrite s b g at_
        withdrawTrap (modWg d.2 b (fun g => clearTimer g at_)) b w at_ (mkTrap 0x0C d.1 0)
      else s
    | _, _ => s

/-- A barrier times out (R118). -/
def execBarrierTimeout (berth n : Nat) (s : State) : Out := .next (timeoutAt s berth (.barrier n))
/-- The checkpoint times out (R138). -/
def execCheckpointTimeout (berth : Nat) (s : State) : Out := .next (timeoutAt s berth .ckpt)

/-! ### Uncorrectable errors (R402) -/

/-- An uncorrectable error in a core's SRAM: the mark that its place in the table of R402 calls for. -/
def strike (s : State) (c : CtxId) (u : Upset) : State :=
  match u with
  | .acc n => modWg s c.berth (fun g => { g with accs := g.accs.modify n (fun a => { a with poison := true }) })
  | .coupling => modCore s (berthCore c.berth) (fun k => { k with buoy := { k.buoy with coupBad := true } })
  | .staging n => modWg s c.berth (fun g => { g with staging := g.staging.modify n (fun r => { r with poison := true }) })
  | .held n => modCtx s c (fun x => { x with held := x.held.modify n (fun h => { h with poison := true }) })
  | _ => modCtx s c (fun x => { x with upsets := x.upsets ++ [u] })

end Sys2Proof.Machine
end

