-- ==== Sys2Proof/Machine/Scalar.lean ====
section
/-! DEFINITION. Scalar: the pilot's instructions, format P (R96 to R100). -/

namespace Sys2Proof.Machine

/-- Operand b: the sign-extended immediate, or a source (R96). -/
def pilotB (e : Env) (x : FormP) : Nat := if x.useImm then lowBits 64 (signedOf 32 x.imm.toNat) else e.bv 0

/-- Complete with a 64-bit result. -/
def completeScalar (e : Env) (v : Nat) : Out := completeVals e e.s e.active (fun _ => v % 2 ^ 64)

/-- Complete with a c-bit. -/
def completeCbit (e : Env) (v : Bool) : Out := complete e e.s { Result.none with cbit := some (e.f.dst.toNat, v) } none none

/-- The type that `U` stands for. -/
def pilotTy (u : Bool) : Ty := if u then .n64 else .i64

/-- `sadd` (R97). -/
def execSadd (x : FormP) (s : State) : Out := issue (.sadd x) s (fun e => completeScalar e (e.av 0 + pilotB e x))
/-- `ssub` (R97). -/
def execSsub (x : FormP) (s : State) : Out := issue (.ssub x) s (fun e => completeScalar e (e.av 0 + (2 ^ 64 - pilotB e x)))
/-- `smul` (R97). -/
def execSmul (x : FormP) (s : State) : Out := issue (.smul x) s (fun e => completeScalar e (e.av 0 * pilotB e x))
/-- `smulh` (R97). -/
def execSmulh (x : FormP) (s : State) : Out :=
  issue (.smulh x) s (fun e => completeScalar e (mulhiElem (pilotTy x.u) (e.av 0) (pilotB e x)).1)

/-- Division (R98, R100): a result for a pigeonhole is formed when the sources are popped, and pushed at a later turn; the copy of a pair that
takes what the other has performed pushes that entry. -/
def divideTo (e : Env) (v : Nat) : Out :=
  match ctxIn e.g e.id.who, pushName e.u e.f with
  | some c, some n =>
    match c.divided, c.copied with
    | some d, _ => completeScalar e d.val.toNat
    | none, some got => completeScalar e (leNat ((got.push.map (fun q => q.bytes)).getD []))
    | none, none =>
      let p := popAll e.s e.id (popList e.u e.f)
      .next (modCtx p.1 e.id (fun c => { c with divided := some { val := BitVec.ofNat 64 v, trap := p.2, q := n } }))
  | _, _ => completeScalar e v

/-- `sdiv` (R98). -/
def execSdiv (x : FormP) (s : State) : Out :=
  issue (.sdiv x) s (fun e => divideTo e (divElem (pilotTy x.u) (e.av 0) (pilotB e x)).1)
/-- `srem` (R98). -/
def execSrem (x : FormP) (s : State) : Out :=
  issue (.srem x) s (fun e => divideTo e (remElem (pilotTy x.u) (e.av 0) (pilotB e x)).1)
/-- `smin` (R97). -/
def execSmin (x : FormP) (s : State) : Out :=
  issue (.smin x) s (fun e => completeScalar e (minMaxElem (pilotTy x.u) false (e.av 0) (pilotB e x)).1)
/-- `smax` (R97). -/
def execSmax (x : FormP) (s : State) : Out :=
  issue (.smax x) s (fun e => completeScalar e (minMaxElem (pilotTy x.u) true (e.av 0) (pilotB e x)).1)
/-- `sand` (R97). -/
def execSand (x : FormP) (s : State) : Out := issue (.sand x) s (fun e => completeScalar e (Nat.land (e.av 0) (pilotB e x)))
/-- `sor` (R97). -/
def execSor (x : FormP) (s : State) : Out := issue (.sor x) s (fun e => completeScalar e (Nat.lor (e.av 0) (pilotB e x)))
/-- `sxor` (R97). -/
def execSxor (x : FormP) (s : State) : Out := issue (.sxor x) s (fun e => completeScalar e (Nat.xor (e.av 0) (pilotB e x)))
/-- `sshl` (R97). -/
def execSshl (x : FormP) (s : State) : Out :=
  issue (.sshl x) s (fun e => completeScalar e (shlElem .n64 false (e.av 0) (pilotB e x)).1)
/-- `sshr` (R97). -/
def execSshr (x : FormP) (s : State) : Out :=
  issue (.sshr x) s (fun e => completeScalar e (shrElem (pilotTy x.u) (e.av 0) (pilotB e x)).1)
/-- `scmp` (R97). -/
def execScmp (x : FormP) (s : State) : Out :=
  issue (.scmp x) s (fun e => completeCbit e (condHolds x.cc.toNat (orderElem (pilotTy x.u) (e.av 0) (pilotB e x)).1))
/-- `ssel` (R97). -/
def execSsel (x : FormP) (s : State) : Out :=
  issue (.ssel x) s (fun e => completeScalar e (if cbitOf e.g.pilot e.f.sc.toNat then e.av 0 else pilotB e x))
/-- `smov` (R97). -/
def execSmov (x : FormP) (s : State) : Out := issue (.smov x) s (fun e => completeScalar e (e.av 0))
/-- `sli` (R97). -/
def execSli (x : FormP) (s : State) : Out :=
  issue (.sli x) s (fun e => completeScalar e
    (if x.u then (e.g.pilot.sregs.getD e.f.dst.toNat 0).toNat % 2 ^ 32 + 2 ^ 32 * x.imm.toNat else lowBits 64 (signedOf 32 x.imm.toNat)))
/-- `spopc` (R97). -/
def execSpopc (x : FormP) (s : State) : Out := issue (.spopc x) s (fun e => completeScalar e (popcount 64 (e.av 0)))
/-- `sclz` (R97). -/
def execSclz (x : FormP) (s : State) : Out := issue (.sclz x) s (fun e => completeScalar e (leadingZeros 64 (e.av 0)))
/-- `sctz` (R97). -/
def execSctz (x : FormP) (s : State) : Out := issue (.sctz x) s (fun e => completeScalar e (trailingZeros 64 (e.av 0)))

/-- Offset of a 64-bit bit field (R97). -/
def wideOff (b : Nat) : Nat := b % 64
/-- Its width. -/
def wideLen (b : Nat) : Nat := min (b / 256 % 128) (64 - wideOff b)

/-- `sbfe` (R97). -/
def execSbfe (x : FormP) (s : State) : Out :=
  issue (.sbfe x) s (fun e =>
    let b := pilotB e x
    let v := e.av 0 / 2 ^ wideOff b % 2 ^ wideLen b
    completeScalar e (if x.u then v else lowBits 64 (signedOf (wideLen b) v)))
/-- `sbfi` (R97). -/
def execSbfi (x : FormP) (s : State) : Out :=
  issue (.sbfi x) s (fun e =>
    let b := pilotB e x
    let o := wideOff b
    let w := wideLen b
    completeScalar e (e.cv 0 - e.cv 0 / 2 ^ o % 2 ^ w * 2 ^ o + e.av 0 % 2 ^ w * 2 ^ o))
/-- `cop` (R97). -/
def execCop (x : FormP) (s : State) : Out :=
  issue (.cop x) s (fun e =>
    let bit := fun (k : Nat) => if cbitOf e.g.pilot k then (1 : LaneMask) else 0
    completeCbit e (bitAt (plogOp x.cc.toNat (bit e.f.sa.toNat) (bit e.f.sb.toNat)) 0))
/-- `sext` (R97). -/
def execSext (x : FormP) (s : State) : Out :=
  issue (.sext x) s (fun e =>
    let n := pilotB e x % 128
    completeScalar e
      (if 1 ≤ n ∧ n ≤ 63 then (if x.u then e.av 0 % 2 ^ n else lowBits 64 (signedOf n (e.av 0 % 2 ^ n))) else e.av 0))

end Sys2Proof.Machine
end

