-- ==== Sys2Proof/Machine/VectorFp.lean ====
section
/-! DEFINITION. VectorFp: the floating-point instructions of format VV (R149 to R151), conversion (R152), MX blocks in registers
(R153 to R157) and random draws (R159). -/

namespace Sys2Proof.Machine

/-- a × b + c, rounded once (R149). -/
def fmaElem (t : Ty) (rm : Rm) (u a b c : Nat) : Nat × BitVec 5 :=
  match t.fmt? with
  | some f => roundWith f rm u (fvFma rm (decodeF f a) (decodeF f b) (decodeF f c))
  | none => (0, fNone)

/-- A unary function of R149. -/
def unaryElem (fn : UnFun) (t : Ty) (rm : Rm) (u a : Nat) : Nat × BitVec 5 :=
  match t.fmt? with
  | some f => unFun fn f rm u (decodeF f a)
  | none => (0, fNone)

/-- Class bits (R151). -/
def fclassElem (t : Ty) (a : Nat) : Nat × BitVec 5 :=
  match t.fmt? with
  | none => (0, fNone)
  | some f =>
    let neg := a / 2 ^ f.sbit % 2 = 1
    (match decodeF f a with
     | .nan true => 2 ^ 8
     | .nan false => 2 ^ 9
     | .inf _ => if neg then 2 ^ 0 else 2 ^ 7
     | .fin x =>
       if x.num = 0 then (if neg then 2 ^ 3 else 2 ^ 4)
       else if a % 2 ^ f.sbit < 2 ^ (f.prec - 1) then (if neg then 2 ^ 2 else 2 ^ 5)
       else (if neg then 2 ^ 1 else 2 ^ 6), fNone)

/-- Sign copy, inverse and exclusive or (R149). -/
def csgnElem (t : Ty) (sub a b : Nat) : Nat × BitVec 5 :=
  match t.fmt? with
  | none => (a, fNone)
  | some f =>
    let sa := a / 2 ^ f.sbit % 2
    let sb := b / 2 ^ f.sbit % 2
    let sign := if sub = 0 then sb else if sub = 1 then 1 - sb else (sa + sb) % 2
    (a % 2 ^ f.sbit + sign * 2 ^ f.sbit, fNone)

/-- Round to an integral value (R149), which sets inexact and, for a subnormal that becomes 0, no underflow (log 28). -/
def rintElem (t : Ty) (rm : Rm) (u a : Nat) : Nat × BitVec 5 :=
  match t.fmt? with
  | none => (a, fNone)
  | some f =>
    match decodeF f a with
    | .nan s => (f.nanOut, sigFlag (.nan s))
    | .inf _ => (a, fNone)
    | .fin x =>
      let r := roundInt rm u x
      ((roundFin f true .rne 0 ⟨x.neg, r.1.natAbs, 1⟩).1, if r.2 then fInexact else fNone)

/-- a × 2^k, rounded once (R149); beyond ±1000 every k rounds alike. -/
def fsclElem (t : Ty) (rm : Rm) (u a b : Nat) : Nat × BitVec 5 :=
  match t.fmt? with
  | none => (a, fNone)
  | some f =>
    let v := decodeF f a
    roundWith f rm u (fvScale v (satInt (signedOf t.width b) (-1000) 1000), sigFlag v)

/-- `fma` (R149). -/
def execFma (x : FormVV) (s : State) : Out :=
  issue (.fma x) s (fun e => elementwise e x.ty x.rm e.bv (fun u a b c => fmaElem x.ty x.rm u a b c))
/-- `rcp` (R149). -/
def execRcp (x : FormVV) (s : State) : Out :=
  issue (.rcp x) s (fun e => elementwise e x.ty x.rm e.bv (fun u a _ _ => unaryElem .rcp x.ty x.rm u a))
/-- `rsq` (R149). -/
def execRsq (x : FormVV) (s : State) : Out :=
  issue (.rsq x) s (fun e => elementwise e x.ty x.rm e.bv (fun u a _ _ => unaryElem .rsq x.ty x.rm u a))
/-- `sqrt` (R149). -/
def execSqrt (x : FormVV) (s : State) : Out :=
  issue (.sqrt x) s (fun e => elementwise e x.ty x.rm e.bv (fun u a _ _ => unaryElem .sqrt x.ty x.rm u a))
/-- `exp2` (R149). -/
def execExp2 (x : FormVV) (s : State) : Out :=
  issue (.exp2 x) s (fun e => elementwise e x.ty x.rm e.bv (fun u a _ _ => unaryElem .exp2 x.ty x.rm u a))
/-- `log2` (R149). -/
def execLog2 (x : FormVV) (s : State) : Out :=
  issue (.log2 x) s (fun e => elementwise e x.ty x.rm e.bv (fun u a _ _ => unaryElem .log2 x.ty x.rm u a))
/-- `tanh` (R149). -/
def execTanh (x : FormVV) (s : State) : Out :=
  issue (.tanh x) s (fun e => elementwise e x.ty x.rm e.bv (fun u a _ _ => unaryElem .tanh x.ty x.rm u a))
/-- `sigm` (R149). -/
def execSigm (x : FormVV) (s : State) : Out :=
  issue (.sigm x) s (fun e => elementwise e x.ty x.rm e.bv (fun u a _ _ => unaryElem .sigm x.ty x.rm u a))
/-- `fclass` (R151). -/
def execFclass (x : FormVV) (s : State) : Out :=
  issue (.fclass x) s (fun e => elementwise e x.ty .rne e.bv (fun _ a _ _ => fclassElem x.ty a))
/-- `csgn` (R149). -/
def execCsgn (x : FormVV) (s : State) : Out :=
  issue (.csgn x) s (fun e => elementwise e x.ty .rne e.bv (fun _ a b _ => csgnElem x.ty x.sub.toNat a b))
/-- `rint` (R149). -/
def execRint (x : FormVV) (s : State) : Out :=
  issue (.rint x) s (fun e => elementwise e x.ty x.rm e.bv (fun u a _ _ => rintElem x.ty x.rm u a))
/-- `fscl` (R149). -/
def execFscl (x : FormVV) (s : State) : Out :=
  issue (.fscl x) s (fun e => elementwise e x.ty x.rm e.bv (fun u a b _ => fsclElem x.ty x.rm u a b))

/-! ### Conversion (R152) -/

/-- Replace element j of a value. -/
def setElem (t : Ty) (w j v : Nat) : Nat := w - w / 2 ^ (t.slot * j) % 2 ^ t.slot * 2 ^ (t.slot * j) + v * 2 ^ (t.slot * j)

/-- One lane of a conversion: the destination's old value, the source's value. -/
def cvtLane (td ts : Ty) (rm : Rm) (sat inf : Bool) (g : Nat) (u : Nat → Nat) (old a : Nat) : Nat × BitVec 5 :=
  let ed := td.perUnit
  let es := ts.perUnit
  let n := if ed ≤ es then ed else es
  let src := fun (j : Nat) => if ed ≤ es then g * ed + j else j
  let dst := fun (j : Nat) => if ed ≤ es then j else g * es + j
  (List.range n).foldl (fun (acc : Nat × BitVec 5) j =>
    let r := convertElem td ts rm sat inf (u (dst j)) (elemAt ts a (src j))
    (setElem td acc.1 (dst j) r.1, acc.2 ||| r.2)) (old, fNone)

/-- `cvt` (R152). -/
def execCvt (x : FormVV) (s : State) : Out :=
  issue (.cvt x) s (fun e =>
    completeFlagged (e.consuming x.rm e.active) e.s (fun l =>
      cvtLane x.ty x.t2 x.rm x.sat x.inf (bits x.sel 2 0) (uniformAt e x.rm l) (oldDst e l) (e.av l)))

/-! ### MX blocks in registers (R153 to R157) -/

/-- Element i of block k in a register of a slot width. -/
def blockElem (t : Ty) (val : Nat → Nat) (k i : Nat) : Nat := elemAt t (val (t.slot * k + i * t.slot / 32)) (i % (32 / t.slot))

/-- The lane that holds element i of block k. -/
def blockLane (t : Ty) (k i : Nat) : Nat := t.slot * k + i * t.slot / 32

/-- The 32 values of a value block. -/
def blockVals (v : Ty) (val : Nat → Nat) (k : Nat) : List FVal := tabulate 32 (fun i => decodeElem v (blockElem v val k i))

/-- Byte k of a word. -/
def byteOf (w k : Nat) : Nat := w / 2 ^ (8 * k) % 256

/-- Replace byte k of a word. -/
def setByte (w k v : Nat) : Nat := w - byteOf w k * 2 ^ (8 * k) + v % 256 * 2 ^ (8 * k)

/-- The 32 elements of a packed block with their flags (R155). -/
def packBlock (e : Env) (el v : Ty) (rm : Rm) (c k : Nat) : List (Nat × BitVec 5) :=
  if c = 0xFF then tabulate 32 (fun _ => (0, fNone))
  else
    let vs := blockVals v e.av k
    (tabulate 32 (fun i => i)).zip vs |>.map (fun x =>
      mxElem el rm (uniformAt e rm (blockLane v k x.1) (x.1 % (32 / v.slot))) ((c : Int) - 127) x.2)

/-- `mxpack.elem` (R155): values by lane, the lanes written, the flags. Under `.rsr` the lanes of the processed value blocks alone consume a draw, where
R56 says each active lane and R155 names those of processed blocks (DEDUCED, log 58). -/
def mxpackElems (e : Env) (el v : Ty) (rm : Rm) (g kb : Nat) : Out :=
  let nv := 128 / v.slot
  let blocks := (fullBlocks e v).map (fun k => (g * nv + k, packBlock e el v rm (byteOf (e.bv (g * nv + k)) kb) k))
  let vals : List Nat := tabulate 128 (fun l =>
    match blocks.find? (fun b => b.1 == l / el.slot) with
    | some b => packElems el (fun j => ((b.2.drop (l % el.slot * (32 / el.slot) + j)).headD (0, fNone)).1) (32 / el.slot)
    | none => 0)
  let mask := maskOf (fun l => bitAt (crewMask e) l && blocks.any (fun b => b.1 == l / el.slot))
  let drawn := maskOf (fun l => (fullBlocks e v).contains (l / v.slot))
  let s := fpxOr e.s e.id (blocks.foldl (fun a b => a ||| flagsOf b.2) 0)
  completeVals (e.consuming rm drawn) s mask (fun l => vals.getD l 0)

/-- `mxpack.scale` and `.auto` (R155). -/
def mxpackScales (e : Env) (el v : Ty) (rm : Rm) (auto : Bool) (g kb : Nat) : Out :=
  let nv := 128 / v.slot
  let codes := (fullBlocks e v).map (fun k =>
    let vs := blockVals v e.av k
    (g * nv + k, match mxBase el vs with
      | none => (0xFF, fInvalid)
      | some x0 => (((if auto then mxAuto el rm x0 vs else x0) + 127).toNat, fNone)))
  let mask := maskOf (fun l => bitAt (crewMask e) l && codes.any (fun c => c.1 == l))
  let s := fpxOr e.s e.id (flagsOf (codes.map (fun c => c.2)))
  completeVals e s mask (fun l =>
    match codes.find? (fun c => c.1 == l) with
    | some c => setByte (oldDst e l) kb c.2.1
    | none => 0)

/-- `mxpack` (R155). -/
def execMxpack (x : FormVV) (s : State) : Out :=
  issue (.mxpack x) s (fun e =>
    let g := bits x.sel 4 2
    let kb := bits x.sel 1 0
    if x.sub == 0 then mxpackElems e x.ty x.t2 x.rm g kb else mxpackScales e x.ty x.t2 x.rm (x.sub == 2) g kb)

/-- One lane of `mxunpack` (R156). -/
def unpackLane (e : Env) (v el : Ty) (rm : Rm) (g kb l : Nat) : Nat × BitVec 5 :=
  let nv := 128 / v.slot
  let k := l / v.slot
  let c := byteOf (e.bv (g * nv + k)) kb
  let per := 32 / v.slot
  let rs := tabulate per (fun j =>
    match v.fmt? with
    | some f => roundWith f rm (uniformAt e rm l j) (mxDecode el c (blockElem el e.av (g * nv + k) (l % v.slot * per + j)), fNone)
    | none => (0, fNone))
  (packElems v (fun j => (rs.getD j (0, fNone)).1) per, flagsOf rs)

/-- `mxunpack` (R156). -/
def execMxunpack (x : FormVV) (s : State) : Out :=
  issue (.mxunpack x) s (fun e =>
    let full := maskOf (fun l => (fullBlocks e x.ty).contains (l / x.ty.slot))
    let rs := overLanes full (unpackLane e x.ty x.t2 x.rm (bits x.sel 4 2) (bits x.sel 1 0))
    completeVals (e.consuming x.rm full) (fpxOr e.s e.id (flagsOf rs)) full (fun l => (rs.getD l (0, fNone)).1))

/-- `mxscale.dec` (R157). -/
def scaleDecode (c : Nat) : Nat :=
  if c = 0xFF then fmtF32.nanOut else (roundFin fmtF32 true .rne 0 (scaled false 1 ((c : Int) - 127))).1

/-- `mxscale.enc` (R157). -/
def scaleEncode (a : Nat) : Nat × BitVec 5 :=
  match decodeF fmtF32 a with
  | .fin x => if x.num = 0 then (0, fNone) else ((satInt (floorLog2 x.num x.den) (-127) 127 + 127).toNat, fNone)
  | _ => (0xFF, fInvalid)

/-- `mxscale.mul` (R157). -/
def scaleMul (a b : Nat) : Nat := if a = 0xFF || b = 0xFF then 0xFF else (satInt ((a : Int) + b - 127) 0 254).toNat

/-- `mxscale` (R157). -/
def execMxscale (x : FormVV) (s : State) : Out :=
  issue (.mxscale x) s (fun e =>
    let kb := bits x.sel 1 0
    completeFlagged e e.s (fun l =>
      if x.sub == 0 then (scaleDecode (byteOf (e.av l) kb), fNone)
      else if x.sub == 1 then let r := scaleEncode (e.av l); (setByte (oldDst e l) kb r.1, r.2)
      else (setByte (oldDst e l) kb (scaleMul (byteOf (e.av l) kb) (byteOf (e.bv l) kb)), fNone)))

/-! ### Draws (R159) -/

/-- `rand` (R159). -/
def execRand (x : FormVV) (s : State) : Out :=
  issue (.rand x) s (fun e =>
    completeFlagged (e.drawing e.active) e.s (fun l =>
      let q := drawBlock e l
      (if x.sub == 1 then (roundFin fmtF32 true .rne 0 ⟨false, q.w0 / 256, 2 ^ 24⟩).1
       else if x.ty == .n64 then q.w0 + 2 ^ 32 * q.w1 else q.w0, fNone)))

end Sys2Proof.Machine
end

