-- ==== Sys2Proof/Machine/Dispatch.lean ====
section
/-! DEFINITION. Dispatch: the meaning of every instruction and event, one arm for each. -/

namespace Sys2Proof.Machine

/-- What an instruction or an event does. -/
def exec (i : Instr) (s : State) : Host.Outcome State Fault Refusal :=
  match i with
  | .add x => Sys2Proof.Machine.execAdd x s
  | .sub x => Sys2Proof.Machine.execSub x s
  | .mul x => Sys2Proof.Machine.execMul x s
  | .mulhi x => Sys2Proof.Machine.execMulhi x s
  | .mad x => Sys2Proof.Machine.execMad x s
  | .fma x => Sys2Proof.Machine.execFma x s
  | .min x => Sys2Proof.Machine.execMin x s
  | .max x => Sys2Proof.Machine.execMax x s
  | .abs x => Sys2Proof.Machine.execAbs x s
  | .neg x => Sys2Proof.Machine.execNeg x s
  | .and x => Sys2Proof.Machine.execAnd x s
  | .or x => Sys2Proof.Machine.execOr x s
  | .xor x => Sys2Proof.Machine.execXor x s
  | .not x => Sys2Proof.Machine.execNot x s
  | .shl x => Sys2Proof.Machine.execShl x s
  | .shr x => Sys2Proof.Machine.execShr x s
  | .popc x => Sys2Proof.Machine.execPopc x s
  | .clz x => Sys2Proof.Machine.execClz x s
  | .brev x => Sys2Proof.Machine.execBrev x s
  | .bfe x => Sys2Proof.Machine.execBfe x s
  | .bfi x => Sys2Proof.Machine.execBfi x s
  | .cmp x => Sys2Proof.Machine.execCmp x s
  | .sel x => Sys2Proof.Machine.execSel x s
  | .lea x => Sys2Proof.Machine.execLea x s
  | .div x => Sys2Proof.Machine.execDiv x s
  | .rem x => Sys2Proof.Machine.execRem x s
  | .rcp x => Sys2Proof.Machine.execRcp x s
  | .rsq x => Sys2Proof.Machine.execRsq x s
  | .sqrt x => Sys2Proof.Machine.execSqrt x s
  | .exp2 x => Sys2Proof.Machine.execExp2 x s
  | .log2 x => Sys2Proof.Machine.execLog2 x s
  | .tanh x => Sys2Proof.Machine.execTanh x s
  | .sigm x => Sys2Proof.Machine.execSigm x s
  | .cvt x => Sys2Proof.Machine.execCvt x s
  | .mxscale x => Sys2Proof.Machine.execMxscale x s
  | .mxpack x => Sys2Proof.Machine.execMxpack x s
  | .mxunpack x => Sys2Proof.Machine.execMxunpack x s
  | .mov x => Sys2Proof.Machine.execMov x s
  | .rand x => Sys2Proof.Machine.execRand x s
  | .plog x => Sys2Proof.Machine.execPlog x s
  | .pget x => Sys2Proof.Machine.execPget x s
  | .pset x => Sys2Proof.Machine.execPset x s
  | .avg x => Sys2Proof.Machine.execAvg x s
  | .dot4 x => Sys2Proof.Machine.execDot4 x s
  | .fclass x => Sys2Proof.Machine.execFclass x s
  | .csgn x => Sys2Proof.Machine.execCsgn x s
  | .rint x => Sys2Proof.Machine.execRint x s
  | .fscl x => Sys2Proof.Machine.execFscl x s
  | .addVi x => Sys2Proof.Machine.execAddVi x s
  | .subVi x => Sys2Proof.Machine.execSubVi x s
  | .mulVi x => Sys2Proof.Machine.execMulVi x s
  | .minVi x => Sys2Proof.Machine.execMinVi x s
  | .maxVi x => Sys2Proof.Machine.execMaxVi x s
  | .andVi x => Sys2Proof.Machine.execAndVi x s
  | .orVi x => Sys2Proof.Machine.execOrVi x s
  | .xorVi x => Sys2Proof.Machine.execXorVi x s
  | .shlVi x => Sys2Proof.Machine.execShlVi x s
  | .shrVi x => Sys2Proof.Machine.execShrVi x s
  | .bfeVi x => Sys2Proof.Machine.execBfeVi x s
  | .cmpVi x => Sys2Proof.Machine.execCmpVi x s
  | .leaVi x => Sys2Proof.Machine.execLeaVi x s
  | .movVi x => Sys2Proof.Machine.execMovVi x s
  | .shfl x => Sys2Proof.Machine.execShfl x s
  | .bclane x => Sys2Proof.Machine.execBclane x s
  | .scan x => Sys2Proof.Machine.execScan x s
  | .red x => Sys2Proof.Machine.execRed x s
  | .vote x => Sys2Proof.Machine.execVote x s
  | .ballot x => Sys2Proof.Machine.execBallot x s
  | .match x => Sys2Proof.Machine.execMatch x s
  | .sample x => Sys2Proof.Machine.execSample x s
  | .perm x => Sys2Proof.Machine.execPerm x s
  | .cmpct x => Sys2Proof.Machine.execCmpct x s
  | .ld x => Sys2Proof.Machine.execLd x s
  | .st x => Sys2Proof.Machine.execSt x s
  | .ldx x => Sys2Proof.Machine.execLdx x s
  | .stx x => Sys2Proof.Machine.execStx x s
  | .atom x => Sys2Proof.Machine.execAtom x s
  | .cas x => Sys2Proof.Machine.execCas x s
  | .fence x => Sys2Proof.Machine.execFence x s
  | .hacc x => Sys2Proof.Machine.execHacc x s
  | .lcopy x => Sys2Proof.Machine.execLcopy x s
  | .lgather x => Sys2Proof.Machine.execLgather x s
  | .lscatter x => Sys2Proof.Machine.execLscatter x s
  | .lfill x => Sys2Proof.Machine.execLfill x s
  | .cmma x => Sys2Proof.Machine.execCmma x s
  | .czero x => Sys2Proof.Machine.execCzero x s
  | .cdrain x => Sys2Proof.Machine.execCdrain x s
  | .accld x => Sys2Proof.Machine.execAccld x s
  | .bycoup x => Sys2Proof.Machine.execBycoup x s
  | .bybias x => Sys2Proof.Machine.execBybias x s
  | .byclamp x => Sys2Proof.Machine.execByclamp x s
  | .byfree x => Sys2Proof.Machine.execByfree x s
  | .bysweep x => Sys2Proof.Machine.execBysweep x s
  | .bycount x => Sys2Proof.Machine.execBycount x s
  | .bystate x => Sys2Proof.Machine.execBystate x s
  | .bymode x => Sys2Proof.Machine.execBymode x s
  | .bybmap x => Sys2Proof.Machine.execBybmap x s
  | .look x => Sys2Proof.Machine.execLook x s
  | .tarm x => Sys2Proof.Machine.execTarm x s
  | .steer x => Sys2Proof.Machine.execSteer x s
  | .region x => Sys2Proof.Machine.execRegion x s
  | .fork x => Sys2Proof.Machine.execFork x s
  | .join x => Sys2Proof.Machine.execJoin x s
  | .discard x => Sys2Proof.Machine.execDiscard x s
  | .sadd x => Sys2Proof.Machine.execSadd x s
  | .ssub x => Sys2Proof.Machine.execSsub x s
  | .smul x => Sys2Proof.Machine.execSmul x s
  | .smulh x => Sys2Proof.Machine.execSmulh x s
  | .sdiv x => Sys2Proof.Machine.execSdiv x s
  | .srem x => Sys2Proof.Machine.execSrem x s
  | .smin x => Sys2Proof.Machine.execSmin x s
  | .smax x => Sys2Proof.Machine.execSmax x s
  | .sand x => Sys2Proof.Machine.execSand x s
  | .sor x => Sys2Proof.Machine.execSor x s
  | .sxor x => Sys2Proof.Machine.execSxor x s
  | .sshl x => Sys2Proof.Machine.execSshl x s
  | .sshr x => Sys2Proof.Machine.execSshr x s
  | .scmp x => Sys2Proof.Machine.execScmp x s
  | .ssel x => Sys2Proof.Machine.execSsel x s
  | .smov x => Sys2Proof.Machine.execSmov x s
  | .sli x => Sys2Proof.Machine.execSli x s
  | .spopc x => Sys2Proof.Machine.execSpopc x s
  | .sclz x => Sys2Proof.Machine.execSclz x s
  | .sbfe x => Sys2Proof.Machine.execSbfe x s
  | .sbfi x => Sys2Proof.Machine.execSbfi x s
  | .cop x => Sys2Proof.Machine.execCop x s
  | .sctz x => Sys2Proof.Machine.execSctz x s
  | .sext x => Sys2Proof.Machine.execSext x s
  | .bra x => Sys2Proof.Machine.execBra x s
  | .bru x => Sys2Proof.Machine.execBru x s
  | .brx x => Sys2Proof.Machine.execBrx x s
  | .call x => Sys2Proof.Machine.execCall x s
  | .ret x => Sys2Proof.Machine.execRet x s
  | .exit x => Sys2Proof.Machine.execExit x s
  | .yield x => Sys2Proof.Machine.execYield x s
  | .bsync x => Sys2Proof.Machine.execBsync x s
  | .sbr x => Sys2Proof.Machine.execSbr x s
  | .sbrx x => Sys2Proof.Machine.execSbrx x s
  | .scall x => Sys2Proof.Machine.execScall x s
  | .sret x => Sys2Proof.Machine.execSret x s
  | .loop x => Sys2Proof.Machine.execLoop x s
  | .qbind x => Sys2Proof.Machine.execQbind x s
  | .qunbind x => Sys2Proof.Machine.execQunbind x s
  | .qtrypop x => Sys2Proof.Machine.execQtrypop x s
  | .qtrypush x => Sys2Proof.Machine.execQtrypush x s
  | .qcount x => Sys2Proof.Machine.execQcount x s
  | .qmask x => Sys2Proof.Machine.execQmask x s
  | .qpeek x => Sys2Proof.Machine.execQpeek x s
  | .await x => Sys2Proof.Machine.execAwait x s
  | .own x => Sys2Proof.Machine.execOwn x s
  | .twait x => Sys2Proof.Machine.execTwait x s
  | .tfirst x => Sys2Proof.Machine.execTfirst x s
  | .bcast x => Sys2Proof.Machine.execBcast x s
  | .bget x => Sys2Proof.Machine.execBget x s
  | .nop x => Sys2Proof.Machine.execNop x s
  | .trap x => Sys2Proof.Machine.execTrap x s
  | .sysrd x => Sys2Proof.Machine.execSysrd x s
  | .syswr x => Sys2Proof.Machine.execSyswr x s
  | .rft x => Sys2Proof.Machine.execRft x s
  | .halt x => Sys2Proof.Machine.execHalt x s
  | .ckpt x => Sys2Proof.Machine.execCkpt x s
  | .spawn x => Sys2Proof.Machine.execSpawn x s
  | .depdec x => Sys2Proof.Machine.execDepdec x s
  | .lineFetch c flip => Sys2Proof.Machine.execLineFetch c flip s
  | .resultWrite c k => Sys2Proof.Machine.execResultWrite c k s
  | .accessPerformed a => Sys2Proof.Machine.execAccessPerformed a s
  | .pageCopy rev page childSide => Sys2Proof.Machine.execPageCopy rev page childSide s
  | .scrubPass r => Sys2Proof.Machine.execScrubPass r s
  | .awaitReevaluation c => Sys2Proof.Machine.execAwaitReevaluation c s
  | .popRequest c => Sys2Proof.Machine.execPopRequest c s
  | .pushAccept berth q => Sys2Proof.Machine.execPushAccept berth q s
  | .queueCountRefresh berth q => Sys2Proof.Machine.execQueueCountRefresh berth q s
  | .barrierTimeout berth n => Sys2Proof.Machine.execBarrierTimeout berth n s
  | .checkpointTimeout berth => Sys2Proof.Machine.execCheckpointTimeout berth s
  | .commandAcceptance c => Sys2Proof.Machine.execCommandAcceptance c s
  | .lighterDequeue core => Sys2Proof.Machine.execLighterDequeue core s
  | .lighterProgress core => Sys2Proof.Machine.execLighterProgress core s
  | .craneDequeue core => Sys2Proof.Machine.execCraneDequeue core s
  | .cmmaStep core => Sys2Proof.Machine.execCmmaStep core s
  | .cdrainExecution core => Sys2Proof.Machine.execCdrainExecution core s
  | .lookoutRingRecord part => Sys2Proof.Machine.execLookoutRingRecord part s
  | .lookoutTrap c => Sys2Proof.Machine.execLookoutTrap c s
  | .engineCommandCompletion core e => Sys2Proof.Machine.execEngineCommandCompletion core e s
  | .buoyDequeue core => Sys2Proof.Machine.execBuoyDequeue core s
  | .colourPhase core => Sys2Proof.Machine.execColourPhase core s
  | .boundaryUpdate core => Sys2Proof.Machine.execBoundaryUpdate core s
  | .plimsollWindow core w => Sys2Proof.Machine.execPlimsollWindow core w s
  | .buoyBiasTrap berth => Sys2Proof.Machine.execBuoyBiasTrap berth s
  | .merge rev => Sys2Proof.Machine.execMerge rev s
  | .postmarkRelease lid => Sys2Proof.Machine.execPostmarkRelease lid s
  | .countersignPoint c => Sys2Proof.Machine.execCountersignPoint c s
  | .launchDeal lid => Sys2Proof.Machine.execLaunchDeal lid s
  | .placement lid wgix => Sys2Proof.Machine.execPlacement lid wgix s
  | .refillRule core => Sys2Proof.Machine.execRefillRule core s
  | .gangReserve lid => Sys2Proof.Machine.execGangReserve lid s
  | .gangCommit lid => Sys2Proof.Machine.execGangCommit lid s
  | .workgroupRetirement berth => Sys2Proof.Machine.execWorkgroupRetirement berth s
  | .launchCompletion lid => Sys2Proof.Machine.execLaunchCompletion lid s
  | .quantumExpiry berth => Sys2Proof.Machine.execQuantumExpiry berth s
  | .preemption berth => Sys2Proof.Machine.execPreemption berth s
  | .contextSave berth => Sys2Proof.Machine.execContextSave berth s
  | .restore lid wgix core => Sys2Proof.Machine.execRestore lid wgix core s
  | .fholdExpiry berth => Sys2Proof.Machine.execFholdExpiry berth s
  | .faultRecord part => Sys2Proof.Machine.execFaultRecord part s
  | .harbourEvent part => Sys2Proof.Machine.execHarbourEvent part s
  | .workgroupResume berth point => Sys2Proof.Machine.execWorkgroupResume berth point s
  | .launchEnd lid => Sys2Proof.Machine.execLaunchEnd lid s
  | .kick part n v => Sys2Proof.Machine.execKick part n v s
  | .submissionEntry part n => Sys2Proof.Machine.execSubmissionEntry part n s
  | .entryReread part n => Sys2Proof.Machine.execEntryReread part n s
  | .queueReset part n => Sys2Proof.Machine.execQueueReset part n s
  | .tornClear part n => Sys2Proof.Machine.execTornClear part n s
  | .replayServiced part seqn => Sys2Proof.Machine.execReplayServiced part seqn s
  | .replayRefused part seqn => Sys2Proof.Machine.execReplayRefused part seqn s
  | .hdone part v => Sys2Proof.Machine.execHdone part v s
  | .tlbinvRange part v => Sys2Proof.Machine.execTlbinvRange part v s
  | .tlbinvAll part v => Sys2Proof.Machine.execTlbinvAll part v s
  | .tlbinvCompletion part => Sys2Proof.Machine.execTlbinvCompletion part s
  | .lckptTake part => Sys2Proof.Machine.execLckptTake part s
  | .lckptRestore part => Sys2Proof.Machine.execLckptRestore part s
  | .lckptImageWrite part => Sys2Proof.Machine.execLckptImageWrite part s
  | .pdef part v => Sys2Proof.Machine.execPdef part v s
  | .bycalGo physCore => Sys2Proof.Machine.execBycalGo physCore s
  | .calibrationComplete physCore windows => Sys2Proof.Machine.execCalibrationComplete physCore windows s
  | .collpost v => Sys2Proof.Machine.execCollpost v s
  | .collectiveCompletion cid => Sys2Proof.Machine.execCollectiveCompletion cid s
  | .harbourRegisterWrite off v => Sys2Proof.Machine.execHarbourRegisterWrite off v s
  | .transportWrite f => Sys2Proof.Machine.execTransportWrite f s
  | .transportRead f => Sys2Proof.Machine.execTransportRead f s
  | .readResponse f => Sys2Proof.Machine.execReadResponse f s
  | .transportRmw f => Sys2Proof.Machine.execTransportRmw f s
  | .rmwResponse f => Sys2Proof.Machine.execRmwResponse f s
  | .acknowledge f => Sys2Proof.Machine.execAcknowledge f s
  | .collectiveContribution f => Sys2Proof.Machine.execCollectiveContribution f s
  | .negativeAcknowledge f => Sys2Proof.Machine.execNegativeAcknowledge f s
  | .linkTimeout port => Sys2Proof.Machine.execLinkTimeout port s
  | .ethernetFrame f => Sys2Proof.Machine.execEthernetFrame f s
  | .managementFrame bytes => Sys2Proof.Machine.execManagementFrame bytes s
  | .dmaRequest d => Sys2Proof.Machine.execDmaRequest d s
  | .powerGood => Sys2Proof.Machine.execPowerGood s
  | .imageVerification img => Sys2Proof.Machine.execImageVerification img s
  | .attestationReport nonce => Sys2Proof.Machine.execAttestationReport nonce s
  | .antiRollbackRaise version => Sys2Proof.Machine.execAntiRollbackRaise version s
  | .powerCapStep r => Sys2Proof.Machine.execPowerCapStep r s
  | .criticalTemperature die => Sys2Proof.Machine.execCriticalTemperature die s
  | .hullSurveyRefresh h => Sys2Proof.Machine.execHullSurveyRefresh h s
  | .linkStateChange port up => Sys2Proof.Machine.execLinkStateChange port up s
  | .dieCools die => Sys2Proof.Machine.execDieCools die s

end Sys2Proof.Machine
end

