-- ==== Sys2Proof/Machine/Issue.lean ====
section
/-! DEFINITION. Issue: who acts next (R316; log 1), one action of the machine, the passing of time, and the state in which the next step fetches
a given instruction. -/

namespace Sys2Proof.Machine

/-! ### One action -/

/-- Place of a context in its core's round: of a crew among the crew places (R315), of a pilot among the berths (R316). -/
def roundPlace (id : CtxId) : Nat :=
  match id.who with
  | .pilot => id.berth % Config.berthsPerCore
  | .crew n => Config.crewsPerCore * (id.berth % Config.berthsPerCore) + n

/-- A context is still to enter the line it is at (R64). -/
def entersLine (s : State) (id : CtxId) : Bool :=
  ctxEligible s id && (dueTrap s id).isNone && (match wgOf s id.berth, (wgOf s id.berth).bind (headFor s id) with
    | some g, some h => !inLine g h id.who
    | _, _ => false)

/-- The wait mask of its line or the pending-write interlock holds a context's slot (R23, R76), once the results that nothing delays are written
(log 37). -/
def slotHeld (g : WG) (h : FEntry) (w : Who) (line : BitVec 512) : Bool :=
  let k := whoKind w
  let g := settleWait g w line
  (ctxIn g w).any (fun c => waitsFor c line) || (match decodeSlot k (lineSlot line (slotOf g h w)) with
    | .ok i => (fieldsOf i).any (fun f => pendHolds (settlePend g w k i (useOf k i) f) w k i (useOf k i) f)
    | .error _ => false)

/-- A context is ready (R315) but for its own `yield`: nothing blocks it, it has entered its line, and nothing holds its slot. -/
def slotReady (s : State) (id : CtxId) : Bool :=
  match wgOf s id.berth with
  | none => false
  | some g => ctxReady s id.berth g id.who && (match headFor s id g, (ctxIn g id.who).bind (fun c => c.line) with
    | some h, some l => inLine g h id.who && !slotHeld g h id.who l.bits
    | _, _ => false)

/-- A context may issue (R315, R316): it is ready, and yields to none. -/
def canAct (s : State) (id : CtxId) : Bool := ctxEligible s id && slotReady s id

/-- The first context after a place that is ready and satisfies a test, in round-robin order. -/
def firstAfter (s : State) (last : Nat) (xs : List CtxId) (test : CtxId → Bool) : Option CtxId :=
  (xs.filter (fun id => decide (last < roundPlace id)) ++ xs.filter (fun id => decide (roundPlace id ≤ last))).find? (fun id => canAct s id && test id)

/-- The line a context is in, and its slot. -/
def comingLine (s : State) (id : CtxId) : Option (BitVec 512 × Nat) :=
  match wgOf s id.berth with
  | none => none
  | some g =>
    match headFor s id g, (ctxIn g id.who).bind (fun c => c.line) with
    | some h, some l => if l.addr.toNat = lineOf g h id.who then some (l.bits, slotOf g h id.who) else none
    | _, _ => none

/-- The slot a crew comes to. -/
def nextWord (s : State) (id : CtxId) : Option (BitVec 96) := (comingLine s id).map (fun x => lineSlot x.1 x.2)

/-- An L instruction of format VV, which port 0 does not take (R315). -/
def longVV (w : BitVec 96) : Bool :=
  decide (bits w 11 8 = 0) && (match decodeSlot .crew w with | .ok i => isLong i | .error _ => false)

/-- The crews of a core. -/
def crewsOn (s : State) (core : Nat) : List CtxId := (coreCtxs s core).filter (fun id => decide (id.who ≠ .pilot))

/-- The crew for port 0: the first ready one after the last chosen for it whose next slot may use the port (R315). -/
def port0 (s : State) (core : Nat) : Option CtxId :=
  firstAfter s (coreOf s core).last0 (crewsOn s core) (fun id => (nextWord s id).any (fun w => !longVV w))

/-- An instruction names a pigeonhole or a latch entry, or holds a source. -/
def namesQueue (u : Use) (f : Fields) : Bool :=
  f.pre.hsel != 0 || [(u.dst, f.dst), (u.a, f.sa), (u.b, f.sb), (u.c, f.sc)].any (fun x => x.1.isReg && decide (232 ≤ x.2.toNat))

/-- Two slots of a crew may issue in one cycle (R79): no result outstanding holds the second, it neither reads nor writes the destination of the
first, and neither names a pigeonhole or a latch entry or holds a source. -/
def issueTogether (c : Ctx) (first second : BitVec 96) : Bool :=
  match decodeSlot .crew first, decodeSlot .crew second with
  | .ok i, .ok j =>
    match fieldsOf i, fieldsOf j with
    | some f, some h =>
      let u := useOf .crew i
      let v := useOf .crew j
      let preds := match u.dst with | .idx => [f.dst.toNat] | _ => []
      !namesQueue u f && !namesQueue v h && (roleNames .crew u.dst f.dst.toNat).all (fun n => !(usedRegs .crew j v h).contains n)
        && preds.all (fun n => !(usedPreds j v h).contains n) && c.pend.all (fun p => !holdsUp .crew j v h p)
    | _, _ => false
  | _, _ => false

/-- The code index of the second slot, where the slot a crew comes to begins a `TPL` pair that issues together (R79). -/
def pairSecond (s : State) (id : CtxId) : Option (BitVec 32) :=
  match wgOf s id.berth, comingLine s id with
  | some g, some (line, k) =>
    match headFor s id g, ctxIn g id.who with
    | some h, some c =>
      if (tplPairs (lineTpl line)).contains k && issueTogether c (lineSlot line k) (lineSlot line (k + 1)) then some (h.cix + 1) else none
    | _, _ => none
  | _, _ => none

/-- The first ready crew for port 1 by the port's own pointer, other than the one chosen for port 0. -/
def port1Free (s : State) (core : Nat) (first : Option (CtxId × Option (BitVec 32))) : Option CtxId :=
  firstAfter s (coreOf s core).last1 (crewsOn s core) (fun id => decide (first.map (fun x => x.1) ≠ some id) && (nextWord s id).any pairable)

/-- The crew chosen for port 0 comes to the second slot of its pair. -/
def atSecond (s : State) (id : CtxId) (cix : BitVec 32) : Bool :=
  canAct s id && ((wgOf s id.berth).bind (headFor s id)).any (fun h => h.cix == cix)

/-- The crew for port 1: the one that port 0 has chosen, at the second slot of its pair; else, by the port's own pointer, the first other ready
one whose next slot is of format VV or VI (R315). -/
def port1 (s : State) (core : Nat) (first : Option (CtxId × Option (BitVec 32))) : Option CtxId :=
  match first with
  | some (id, some cix) => if atSecond s id cix then some id else port1Free s core first
  | _ => port1Free s core first

/-- The pilot for the pilot pipeline (R316). -/
def portPilot (s : State) (core : Nat) : Option CtxId :=
  firstAfter s (coreOf s core).lastPilot ((coreCtxs s core).filter (fun id => decide (id.who = .pilot))) (fun _ => true)

/-- The context that issues next on a core, with its port: in each cycle port 0 chooses, then port 1, then the pilot pipeline, and one that finds
nobody is passed over (R315, R316). -/
def portNow (s : State) (core : Nat) : Option (Nat × CtxId) :=
  let c := coreOf s core
  [c.port, c.port + 1, c.port + 2].findSome? (fun p =>
    (match p % 3 with
      | 0 => port0 s core
      | 1 => port1 s core (if p < 3 then c.chosen else none)
      | _ => portPilot s core).map (fun id => (p % 3, id)))

/-- The pointer of the port a context issues on moves to it, and the cycle goes on; the second slot of a pair moves no pointer. -/
def markIssue (s : State) (id : CtxId) (c : Core) : Core :=
  match id.who with
  | .pilot => { c with lastPilot := roundPlace id, port := 0, chosen := none }
  | .crew _ =>
    if portNow s (berthCore id.berth) = some (1, id) then
      { c with last1 := if c.chosen.any (fun x => x.1 == id) then c.last1 else roundPlace id, port := 2, chosen := none }
    else { c with last0 := roundPlace id, port := 1, chosen := some (id, pairSecond s id) }

/-- The context of a core whose turn it is: one with a trap to take, which needs no port; else the one that issues next. -/
def turnNow (s : State) (core : Nat) : Option CtxId := ((coreCtxs s core).find? (trapReady s)).orElse (fun _ => (portNow s core).map (fun x => x.2))

/-- A CONTEXT'S TURN: it takes its trap; or it issues, its port's pointer moves, and the instruction it comes to acts. -/
def issueTurn (s : State) (id : CtxId) : Out :=
  match turn (if trapReady s id then s else modCore s (berthCore id.berth) (markIssue s id)) id with
  | .done t => .next t
  | .run t i => exec i t

/-- What a choice does. -/
def perform (s : State) (c : Choice) : Out :=
  match c with
  | .event i => exec i s
  | .issue id => issueTurn s id
  | .upset id u => .next (strike s id u)
  | .pin core n owned => .next (bySoftware s (fun s => pinTiles s core n owned))
  | .iommu rs => .next (bySoftware s (fun s => iommuOpen s rs))
  | .releaseEast => .next (bySoftware s (fun s => modPkg s (fun p => { p with eastUp := true })))
  | .resend port rank seq => .next (resend s port rank seq)
  | .corrected die => .next (countCorrected s die)
  | .badLine quay line => .next (markLine s quay line)

/-! ### Who acts when the state names nobody (log 1) -/

/-- The cores that hold a workgroup or a command. -/
def busyCores (s : State) : List Nat := ((s.wgs.map (fun x => berthCore x.1)) ++ s.cores.map (fun c => c.1)).eraseDups

/-- Steps of an engine's head command. -/
def engineSteps (core : Nat) (k : Engine) (x : Cmd) : List Instr :=
  if x.fin.isSome then [.engineCommandCompletion core k]
  else if x.wait.isSome || x.rebuild.isSome then []
  else
    match k, x.started with
    | .lighter, false => [.lighterDequeue core]
    | .lighter, true => [.lighterProgress core]
    | .crane, false => [.craneDequeue core]
    | .crane, true => if x.opc = 0x12 then [.cdrainExecution core] else [.cmmaStep core]
    | .buoy, false => [.buoyDequeue core]
    | .buoy, true => [.colourPhase core]

/-- Steps of a core beside its contexts. -/
def coreSteps (s : State) (core : Nat) : List Instr :=
  let c := coreOf s core
  let head := fun (k : Engine) => match headCmd s core k with | some x => engineSteps core k x | none => []
  head .lighter ++ head .crane ++ head .buoy ++ (if c.buoy.outbox.isEmpty then [] else [.boundaryUpdate core])
    ++ (if c.cancelled.isEmpty then [] else [.engineCommandCompletion core .lighter]) ++ (if c.freed then [.refillRule core] else [])

/-- Steps that a held context waits for. -/
def blockSteps (id : CtxId) (c : Ctx) : List Instr :=
  (if c.pend.any (fun p => p.waits.isNone) then [.resultWrite id 0] else []) ++
  (match c.blocked with
    | some .await => [.awaitReevaluation id]
    | some (.pop _) => [.popRequest id]
    | some (.push n) => [.queueCountRefresh id.berth n]
    | some (.accept _) => [.commandAcceptance id]
    | some .tapUnit => [.commandAcceptance id]
    | some .countersign | some .area => [.countersignPoint id]
    | some (.copy r p b) => [.pageCopy r p b]
    | _ => [])

/-- Steps of a resident workgroup. -/
def wgSteps (s : State) (b : Nat) (g : WG) : List Instr :=
  ((whos g).map (fun w => match ctxIn g w with | some c => blockSteps { berth := b, who := w } c | none => [])).flatten
    ++ ((whos g).filter (fun w => entersLine s { berth := b, who := w })).map (fun w => .lineFetch { berth := b, who := w } 0)
    ++ (if g.strays.isEmpty then [] else [.pushAccept b 0])
    ++ ((tabulate 16 (fun n => n)).map (fun n => if (bindOf g n).any (fun q => !q.transit.isEmpty) then [.pushAccept b n] else [])).flatten
    ++ ((tabulate 16 (fun n => n)).map (fun n => if ((timerOf g (.barrier n)).map (fun t => decide (t + hTimeout g.hdr ≤ s.cycle))).getD false
          then [.barrierTimeout b n] else [])).flatten
    ++ (if ((timerOf g .ckpt).map (fun t => decide (t + hTimeout g.hdr ≤ s.cycle))).getD false then [.checkpointTimeout b] else [])
    ++ (if isDup g && barrierDone s b g .ckpt then [.countersignPoint { berth := b, who := .pilot }] else [])
    ++ (if copyDone s b g then [.workgroupRetirement b] else [])
    ++ (if g.preempt && decide (g.run = .running) then [.preemption b] else [])
    ++ (if copyDrained s b g then [.contextSave b] else [])
    ++ (if g.faultSince.any (fun t => decide (t + (partOf s g.part).fhold ≤ s.cycle)) then [.fholdExpiry b] else [])
    ++ (if quantumOver s g || urgentVictim s b g then [.quantumExpiry b] else [])

/-- Steps of the harbourmaster for a launch. -/
def launchSteps (s : State) (l : Launch) : List Instr :=
  (if launchDet l && decide (l.relHead < mNwg l.man) then [.postmarkRelease l.lid] else [])
    ++ (if registers s l then [.launchDeal l.lid] else [])
    ++ (if l.state = .completing then [.launchCompletion l.lid] else [])
    ++ (if dealable s l then
        (if mGang l.man ≠ 0 || (gangOf s l.lid).isSome then [.gangReserve l.lid, .gangCommit l.lid] else [])
          ++ (if decide (mGang l.man = 0) && dealNow s l then [.launchDeal l.lid] else [])
          ++ l.chunks.filterMap (fun c => c.2.head?.bind (fun w =>
              let n := c.2.foldl min w
              if (memberNeed l n).any (fits s l.part c.1) then some (.placement l.lid n) else none))
          ++ (if l.back.isEmpty then [] else ((partCores (partOf s l.part)).find? (fun c => (waitingNeed l).any (fits s l.part c))).toList.map (fun c => .refillRule c))
      else [])

/-- A ring has a record and room. -/
def ringReady (r : Ring) : Bool := !r.wait.isEmpty && decide ((r.tail - r.head).toNat < r.cap.toNat)

/-- Steps of a partition's rings and queues. -/
def partSteps (s : State) (n : Nat) (p : Part) : List Instr :=
  (if ringReady p.fr then [.faultRecord n] else []) ++ (if ringReady p.hev then [.harbourEvent n] else [])
    ++ (if ringReady p.lkr then [.lookoutRingRecord n] else [])
    ++ (p.sq.map (fun q => if !sqActive q.2 then [] else if sqMatch s q.2 then (if quotaFull s n then [] else [.submissionEntry n q.1]) else [.entryReread n q.1])).flatten
    ++ (if p.tlbBusy then [.tlbinvCompletion n] else []) ++ (if p.ckBusy && quiet s n then [.lckptImageWrite n] else [])

/-- The steps of the package that could be taken now, without the outside world. -/
def openSteps (s : State) : List Instr :=
  ((busyCores s).map (coreSteps s)).flatten ++ (s.wgs.map (fun x => wgSteps s x.1 x.2)).flatten ++ (s.launches.map (launchSteps s)).flatten
    ++ (s.parts.map (fun p => partSteps s p.1 p.2)).flatten
    ++ ((s.revs.filter (fun x => mergeDue s x.1 || x.2.merging.isSome)).map (fun x => .merge x.1))
    ++ ((s.pkg.colls.filter collReady).map (fun c => .collectiveCompletion (BitVec.ofNat 64 (dCid c.desc))))

/-- The default order: contexts and other steps take turns, each in rotation. -/
def pick (s : State) : Option Choice :=
  let cores := busyCores s
  let turns := cores.filterMap (turnNow s)
  let steps := openSteps s
  let rot := fun {α : Type} (xs : List α) => xs[s.steps / 2 % max 1 xs.length]?
  if s.steps % 2 = 0 then ((rot turns).map Choice.issue).orElse (fun _ => (rot steps).map Choice.event)
  else ((rot steps).map Choice.event).orElse (fun _ => (rot turns).map Choice.issue)

/-- What acts now, and the state with the order that is left: the order that the state holds, else the default one. -/
def nextChoice (s : State) : Option Choice × State :=
  match s.plan with
  | c :: cs => (some c, { s with plan := cs })
  | [] => (pick s, s)

/-- One action of the machine; with nothing to do it only waits. -/
def act (s : State) : Out :=
  match nextChoice s with
  | (some c, t) => perform t c
  | (none, t) => .next t

/-- A yielding context no longer waits for those that have stopped being ready (R112). -/
def pruneYields (s : State) (g : WG) : WG :=
  modAllCtx g (fun c => if c.yields.isEmpty then c else
    { c with yields := c.yields.filter (slotReady s) })

/-- Some context yields. -/
def anyYields (s : State) : Bool := s.wgs.any (fun x => (whos x.2).any (fun w => (ctxIn x.2 w).any (fun c => !c.yields.isEmpty)))

/-- Time passes with a step (log 3), and package events that wait enter the rings that have room. -/
def tick (s0 : State) : State :=
  let s : State := if anyYields s0 then { s0 with wgs := s0.wgs.map (fun x => (x.1, pruneYields s0 x.2)) } else s0
  let s := if eventsWait s then flushEvents s.pkg.events.length s else s
  { s with cycle := s.cycle + 1 + Config.stepTime s.steps, steps := s.steps + 1 }

/-- What follows an action: the save areas keep in step with it, and time passes. -/
def afterAct (old t : State) : State := tick (syncImages old t)

/-! ### A state that fetches a given instruction -/

/-- Virtual and physical address of the line. -/
def demoLine : Nat := 0x10000

/-- The kernel header of the workgroup that fetches it: 128 lanes, every resource, pilot and crew entered at the line. -/
def demoHeader : BitVec 1024 :=
  BitVec.ofNat 1024 (demoLine + 2 ^ 64 * demoLine + 2 ^ 128 * 128 + 2 ^ 144 * 256 + 2 ^ 160 * 65536 + 2 ^ 192 * 16 + 2 ^ 208 * 64 + 2 ^ 216 * 4
    + 2 ^ 240 * 1)

/-- Its manifest: one workgroup. -/
def demoManifest : BitVec 2048 := BitVec.ofNat 2048 (2 ^ 128 * 1)

/-- The workgroup as placement grants it. -/
def demoWg (cycle : Nat) : WG :=
  startWg { freshLaunch 0 0 0 demoManifest none none with hdr := some demoHeader } demoHeader 0 0 cycle .single none

/-- The leaf that maps the line's page, executable. -/
def demoLeaf : DWord := BitVec.ofNat 64 (0x0F + 0x10000)

/-- Who issues a word: a crew, or the pilot where a crew does not. -/
def demoWho (w : BitVec 96) : Who :=
  match decodeSlot .crew w with
  | .ok _ => .crew 0
  | .error _ => .pilot

/-- A workgroup in berth 0 is about to fetch a line that holds the word in slot 0, and is the next to act. -/
def placeFetch (s : State) (w : BitVec 96) : State :=
  let line := buildLine plainLineHi w nopWord nopWord nopWord nopWord
  let s := setWg s 0 (demoWg s.cycle)
  let s := modCore s 0 (fun c =>
    { c with icache := c.icache.filter (fun x => !(x.asid == 0 && x.addr.toNat == demoLine)),
             tlb := { asid := 0, page := demoLine / pageSize, leaf := demoLeaf, size := pageSize } :: c.tlb.filter (fun t => !(t.asid == 0 && t.page == demoLine / pageSize)) })
  let s := modPkg s (fun p => { p with critical := nsErase 0 p.critical, remote := p.remote.filter (fun r => !(r.ctx.any (fun c => c.berth == 0))) })
  { s with hbm := cellsWriteN s.hbm demoLine (leBytes 64 line.toNat), hbmBad := nsErase (demoLine / 64) s.hbmBad,
           plan := .issue { berth := 0, who := demoWho w } :: s.plan }

end Sys2Proof.Machine
end

