-- ==== Sys2Proof/Machine/Step.lean ====
section
/-! DEFINITION. Step: one step of the package, which is one action of one of its agents. -/

namespace Sys2Proof.Machine

/-- One step: the agent whose turn it is acts, and time passes. -/
def step (s : State) : Host.Outcome State Fault Refusal :=
  match act s with
  | .next t => .next (afterAct s t)
  | .fault f => .fault f
  | .refused r => .refused r

/-- The state in which the next step fetches and runs the instruction word w: a slot of 96 bits whatever the table gives the row. -/
def State.withFetchWord (s : State) (_nbits w : Nat) : State := placeFetch s (BitVec.ofNat 96 w)

end Sys2Proof.Machine
end

