-- ==== Sys2Proof/WellFormed.lean ====
section
/-! DEFINITION. WellFormed: an instruction is well formed for a kind of context when that kind issues it and no
condition of R74 holds; the checks themselves stand in Machine/Legal.lean. -/

namespace Sys2Proof

/-- Well formed as a context of kind k issues it. -/
def Instr.wfFor (k : CtxKind) (i : Instr) : Bool := (Machine.illegalReason k i).isNone

/-- Well formed for some kind of context. -/
def Instr.wf (i : Instr) : Bool := i.wfFor .crew || i.wfFor .pilot

end Sys2Proof
end

