-- ==== Sys2Proof/Safety.lean ====
section
/-! DEFINITION. Safety: what the claims about runs are stated in: an instruction that has passed its checks, the state after it has
completed, the form every state keeps, and what two states share. -/

namespace Sys2Proof

open Machine

/-! ### Completing -/

/-- The instruction of the issuing context has passed every check of R75 and waits for nothing: it acts with the operands of e. -/
def Passes (i : Instr) (s : State) (e : Env) : Prop := prep i s = .go e

/-- The state after an instruction that gives a value and flags in each active lane (R141), with what it changed before in t. -/
def lanesDone (e : Env) (t : State) (f : Nat → Nat × BitVec 5) : State :=
  let rs := overLanes e.active f
  let val := fun (l : Nat) => (rs.getD l (0, fNone)).1
  completed e (fpxOr t e.id (flagsOf rs)) (dstResult e e.active val) (dstEntry e val) none

/-- A lane's value and flags of an operation on each element of its type (R36): operation f of u[j] and of the elements of a, b and c. -/
def elementLane (e : Env) (t : Ty) (rm : Rm) (b : Nat → Nat) (f : Nat → Nat → Nat → Nat → Nat × BitVec 5) (l : Nat) : Nat × BitVec 5 :=
  let rs := tabulate t.perUnit (fun j => f (uniformAt e rm l j) (elemAt t (e.av l) j) (elemAt t (b l) j) (elemAt t (e.cv l) j))
  (packElems t (fun j => (rs.getD j (0, fNone)).1) t.perUnit, flagsOf rs)

/-- The state after an operation on each element in each active lane; under `.rsr` each active lane has drawn (R56). -/
def elementsDone (e : Env) (t : Ty) (rm : Rm) (b : Nat → Nat) (f : Nat → Nat → Nat → Nat → Nat × BitVec 5) : State :=
  lanesDone (e.consuming rm e.active) e.s (elementLane e t rm b f)

/-- The state after an instruction that gives a value in each active lane and no flag. -/
def valuesDone (e : Env) (val : Nat → Nat) : State := lanesDone e e.s (fun l => (val l, fNone))

/-- The state after an instruction that gives a predicate bit in each active lane, with what it changed before in t. -/
def predicateDone (e : Env) (t : State) (p : Nat → Bool) : State :=
  completed e t (predResult e.f.dst.toNat e.active (maskOf (fun l => bitAt e.active l && p l))) none none

/-- The state after a compare of element 0 in each active lane (R148), with the flag of a signalling NaN. -/
def compareDone (e : Env) (t : Ty) (cc : Nat) (b : Nat → Nat) : State :=
  let rs := overLanes e.active (fun l =>
    let o := orderElem t (elemAt t (e.av l) 0) (elemAt t (b l) 0)
    ((condHolds cc o.1).toNat, o.2))
  predicateDone e (fpxOr e.s e.id (flagsOf rs)) (fun l => decide ((rs.getD l (0, fNone)).1 = 1))

/-- The state after a pilot instruction that gives a 64-bit value. -/
def scalarDone (e : Env) (v : Nat) : State :=
  completed e e.s (dstResult e e.active (fun _ => v % 2 ^ 64)) (dstEntry e (fun _ => v % 2 ^ 64)) none

/-- The state after a pilot instruction that gives a c-bit. -/
def cbitDone (e : Env) (v : Bool) : State := completed e e.s { Result.none with cbit := some (e.f.dst.toNat, v) } none none

/-- The state after an instruction that writes no register, with what it changed before in t. -/
def noneDone (e : Env) (t : State) : State := completed e t Result.none none none

/-- The state after an instruction that gives a value in each active lane, with what it changed before in t. -/
def resultDone (e : Env) (t : State) (val : Nat → Nat) : State := completed e t (dstResult e e.active val) (dstEntry e val) none

/-- The context that is issuing is ready at a slot: its workgroup and its part of it, and its head. -/
def Issues (s : State) (g : WG) (c : Ctx) (h : FEntry) : Prop :=
  wgOf s s.cur.berth = some g ∧ ctxIn g s.cur.who = some c ∧ headFor s s.cur g = some h ∧ c.ended = false ∧ c.blocked = none ∧ c.taking = none ∧
    mayIssue s s.cur g = true

/-- An instruction that countersign lets act now (R332): outside DUP, or performed by the leading copy for the pair; no result of the other copy
is at hand. -/
def Performs (e : Env) : Prop := ∃ c, ctxIn e.g e.id.who = some c ∧ c.copied = none ∧ (isDup e.g = false ∨ c.granted = true)

/-- The names that the instruction maps fit the reservation (R15). -/
def Fits (e : Env) : Prop := ((ctxIn e.g e.id.who).map (overruns e)).getD false = false

/-- Other packages have acknowledged every earlier write of the workgroup (R258). -/
def Acked (e : Env) : Prop := unacked e.s e.g.lid e.g.wgix = false

/-- The accesses of an instruction's lanes are aligned, mapped, permitted, owned, not poisoned, and in no staged atomic's way (R175). -/
def Reaches (e : Env) (quay : Bool) (as_ : List (Nat × Int)) (w : Nat) (rd wr : Bool) (xs : List LaneAcc) : Prop :=
  checkAccess e.s e.id e.g quay as_ w rd wr = .ok xs

/-- The value that a list of lanes' results gives a lane. -/
def laneOf (vals : List (Nat × Nat)) (l : Nat) : Nat := ((vals.find? (fun v => v.1 == l)).map (fun v => v.2)).getD 0

/-- An instruction may use the pigeonhole n for a pop, or a push: bound, and shared only where countersign and DET let it act now, with the
workgroup's earlier writes acknowledged before a push at partition or system scope (R24, R193, R250, R325, R332). -/
def MayUse (e : Env) (n : Nat) (push : Bool) (q : Binding) : Prop :=
  bindOf e.g n = some q ∧ (sharedQ e.g n = true → (isDet e.g = false ∨ headFree e.s e.id.berth e.g push = true) ∧ Performs e ∧
    (push = true → wideQ e.g n = true → Acked e))

/-- The oldest entry of the pigeonhole n can be popped: there, in tiles of the threads, in sound lines (R191, R197, R404). -/
def MayPop (e : Env) (n : Nat) : Prop := popState e.s e.g [n] [] = .ready

/-- The state after a pop (R191, R196): the entry is removed, waiting pushes ask again, and an error record traps after completion. -/
def popDone (e : Env) (q : Binding) (r : Result) (push : Option QEntry) : State :=
  let t := qWakePushes (qRemove e.s q) q.desc
  if qSide e.s q 0 / 2 ^ 129 % 2 = 1 then completedTrap e t r push (mkTrap 0x16 (leNat ((qOldest e.s q 0).take 8)) e.head.mask)
  else completed e t r push none

/-- The state after an engine command is accepted (R206 to R208): it stands at the end of its queue, its tag is clear, and the count of commands
sent goes on, in both copies of a pair. -/
def commandDone (e : Env) (k : Engine) (x : FormE) (cmd : Cmd) (after : State → State) : State :=
  let s := modCore e.s (berthCore e.id.berth) (fun y => setEngineQ y k (engineQ y k ++ [cmd]))
  let s := if x.tv then modBoth s e.id.berth (fun g => clearTag g x.tag.toNat) else s
  noneDone e (after (modBoth s e.id.berth (fun g => modCtxIn g e.id.who (fun y => { y with sent := y.sent.modify (engineIx k) (fun n => n + 1) }))))

/-- The issuer's earlier stores are performed at system scope (R255, R258): none of its context is staged under IDEM alone, and other packages have
acknowledged the workgroup's. -/
def StoresOut (e : Env) : Prop :=
  (isDet e.g = true ∨ ∀ g r, wgOf e.s (leadBerth e.id.berth e.g) = some g → r ∈ g.staging → r.of e.id.who = false) ∧ Acked e

/-- An engine takes a command now: its completion pigeonhole is usable, countersign and DET let it act, its issuer's stores
are out, its tag is free, the queue has room. -/
def MayAccept (e : Env) (k : Engine) (x : FormE) (opnd : List LaneWords) (use : GlobalUse) : Prop :=
  cqTrap e x = none ∧ Performs e ∧ detHolds e use = false ∧ (use = .none ∨ StoresOut e) ∧ (x.tv && tagBusy e.s e.id.berth x.tag.toNat) = false ∧
    engineFull e.s (berthCore e.id.berth) k opnd = false

/-- The pigeonhole that a format E instruction is to push, if any, takes its entry now (R192, R244, R250, R325). -/
def PushFits (e : Env) : Prop :=
  ∀ n, pushName e.u e.f = some n → (∃ q, bindOf e.g n = some q ∧ q.transit = [] ∧ 0 < qCachedFree q) ∧
    (sharedQ e.g n = true → isDet e.g = true → headFree e.s e.id.berth e.g true = true) ∧ (wideQ e.g n = true → Acked e)

/-- The context goes on: nothing holds it at its slot any more. -/
def freed (s : State) (c : CtxId) : State := modCtx s c (fun x => { x with blocked := none })

/-- An instruction that names no pigeonhole, and whose context neither holds a result of its pair or log, nor a grant, nor a quotient. -/
def Unshared (e : Env) : Prop :=
  popList e.u e.f = [] ∧ pushName e.u e.f = none ∧
    ∃ c, ctxIn e.g e.id.who = some c ∧ c.copied = none ∧ c.granted = false ∧ c.divided = none

/-- The state after a crew's transfer (R101, R104, R108): the instruction retires, its head gives way to the lanes that stay at the next slot
and to a lane's entry at each target, lanes of `gone` end, the targets are noted as landings; `none` where the frontier has no room. -/
def transferDone (e : Env) (targets : List (Nat × Word)) (gone : LaneMask) (r : Result) : Option State :=
  let x := retire e e.s r none none
  let rest : FEntry := { cix := BitVec.ofNat 32 (nextCix e.head.cix.toNat), mask := e.head.mask &&& ~~~e.active, park := none }
  let new := rest :: targets.map (fun t => { cix := t.2, mask := (1 : LaneMask) <<< t.1, park := none })
  (frontierEdit x.1 e.id.berth e.crewNo e.head.cix new gone).map (fun t =>
    let t := modWg t e.id.berth (fun g => modCrew g e.crewNo (fun c =>
      { c with landings := (targets.map (fun y => y.2)).eraseDups.map (fun y => (y, e.head.cix.setWidth 64)) ++ c.landings,
               ctx := { c.ctx with line := none } }))
    let t := if gone = 0 then t else afterRetire t e.id.berth e.crewNo
    match x.2 with
    | some p => trapHere t e.id p
    | none => t)

/-- The state after a pilot's transfer to a code pointer (R101, R113). -/
def pilotTransferDone (e : Env) (pc : Nat) (r : Result) : State :=
  let x := retire e e.s r none none
  let t := modWg x.1 e.id.berth (fun g =>
    { g with pilot := { g.pilot with pc := BitVec.ofNat 64 pc, landing := some e.g.pilot.pc, ctx := { g.pilot.ctx with line := none } } })
  match x.2 with
  | some p => trapHere t e.id p
  | none => t

/-! ### What states share -/

/-- The memories of a state are in their canonical form, so that equal contents are equal data. -/
def MemoryForm (s : State) : Prop := Memory.wf s.hbm = true ∧ Memory.wf s.quay = true

/-- Every byte of HBM and Quay memory, every page the sorting office holds, every poison mark and every tile's owner is as before. -/
def SameMemory (s t : State) : Prop :=
  (∀ a, cellsRead a t.hbm = cellsRead a s.hbm) ∧ (∀ a, cellsRead a t.quay = cellsRead a s.quay) ∧ t.revs = s.revs ∧ t.hbmBad = s.hbmBad ∧
    t.quayBad = s.quayBad ∧ t.engTiles = s.engTiles

/-! ### Operands and frames -/

/-- A register field names general registers alone, in an instruction that names no pigeonhole (R11, R12, R142); an unused field is 0. -/
def NamesRegisters (k : CtxKind) (r : Role) (code : Nat) : Prop :=
  r ≠ .qname ∧ match k with
    | .pilot => code < 64
    | .crew => code + max 1 (roleSpan r) ≤ 224 ∧ (r.isReg = true → code % roleSpan r = 0)

/-- Every register field of an instruction names general registers. -/
def PlainOperands (k : CtxKind) (u : Use) (f : Fields) : Prop :=
  NamesRegisters k u.dst f.dst.toNat ∧ NamesRegisters k u.a f.sa.toNat ∧ NamesRegisters k u.b f.sb.toNat ∧ NamesRegisters k u.c f.sc.toNat

/-- The crew's head goes on in its place (R102): no other entry waits at the following slot. A pilot always goes on. -/
def GoesOn (e : Env) : Prop := ∀ n c, e.id.who = .crew n → crewOf e.g n = some c → stepsInPlace c e.head = true

/-- An instruction of format VV, VI or VX (R69). -/
def isVector (i : Instr) : Bool :=
  match i with
  | .add _ | .sub _ | .mul _ | .mulhi _ | .mad _ | .min _ | .max _ | .abs _ | .neg _ | .avg _ | .div _ | .rem _ | .and _ | .or _ | .xor _
  | .not _ | .shl _ | .shr _ | .popc _ | .clz _ | .brev _ | .bfe _ | .bfi _ | .dot4 _ | .mov _ | .sel _ | .lea _ | .fma _ | .rcp _ | .rsq _
  | .sqrt _ | .exp2 _ | .log2 _ | .tanh _ | .sigm _ | .rint _ | .fscl _ | .fclass _ | .csgn _ | .cmp _ | .plog _ | .pget _ | .pset _ | .rand _
  | .cvt _ | .mxscale _ | .mxpack _ | .mxunpack _ => true
  | .addVi _ | .subVi _ | .mulVi _ | .minVi _ | .maxVi _ | .andVi _ | .orVi _ | .xorVi _ | .shlVi _ | .shrVi _ | .bfeVi _ | .cmpVi _ | .leaVi _
  | .movVi _ => true
  | .shfl _ | .bclane _ | .perm _ | .cmpct _ | .scan _ | .red _ | .vote _ | .ballot _ | .match _ | .sample _ => true
  | _ => false

/-- A vector instruction that rounds nothing and draws nothing whatever its type: it sets no sticky flag and consumes no draw. -/
def isExact (i : Instr) : Bool :=
  match i with
  | .mulhi _ | .mad _ | .avg _ | .div _ | .rem _ | .and _ | .or _ | .xor _ | .not _ | .shl _ | .shr _ | .popc _ | .clz _ | .brev _ | .bfe _
  | .bfi _ | .dot4 _ | .mov _ | .sel _ | .lea _ | .fclass _ | .csgn _ | .plog _ | .pget _ | .pset _ | .andVi _ | .orVi _ | .xorVi _ | .shlVi _
  | .shrVi _ | .bfeVi _ | .leaVi _ | .movVi _ | .shfl _ | .bclane _ | .perm _ | .cmpct _ | .vote _ | .ballot _ | .match _ => true
  | _ => false

/-- An instruction of format P (R69). -/
def isScalar (i : Instr) : Bool :=
  match i with
  | .sadd _ | .ssub _ | .smul _ | .smulh _ | .sdiv _ | .srem _ | .smin _ | .smax _ | .sand _ | .sor _ | .sxor _ | .sshl _ | .sshr _ | .scmp _
  | .ssel _ | .smov _ | .sli _ | .spopc _ | .sclz _ | .sctz _ | .sbfe _ | .sbfi _ | .sext _ | .cop _ => true
  | _ => false

/-- A crew as before, but for the contexts it has yielded to (R112). -/
def SameCrew (c d : Crew) : Prop := { d with ctx := { d.ctx with yields := c.ctx.yields } } = c

/-- A pilot as before, but for the contexts it has yielded to. -/
def SamePilot (p q : Pilot) : Prop := { q with ctx := { q.ctx with yields := p.ctx.yields } } = p

/-- A workgroup as before but for its pilot and its crews. -/
def SameRest (g h : WG) : Prop := { h with pilot := g.pilot, crews := g.crews } = g

/-- Every other workgroup is as before, but for the contexts that its contexts have yielded to. -/
def OthersSame (s t : State) (b : Nat) : Prop :=
  ∀ k h, k ≠ b → wgOf s k = some h → ∃ h', wgOf t k = some h' ∧ SameRest h h' ∧ SamePilot h.pilot h'.pilot ∧
    ∀ n c, crewOf h n = some c → ∃ d, crewOf h' n = some d ∧ SameCrew c d

end Sys2Proof
end

