-- ==== Sys2Proof/Certificates/Slice0/Obligations.lean ====
section
/-! DEFINITION. Obligations: what is claimed of the machine, one definition a statement. A statement about an instruction speaks of the
operands `e` with which it has passed its checks (`Passes`): when it passes them is a statement of its own. -/

open Sys2Proof Sys2Proof.Machine

/-! ### Results of crew instructions -/

/-- R146, R147, R148: the integer and floating-point arithmetic of format VV completes, with the element result of each active lane. -/
def Obligations.ArithmeticCompletes : Prop :=
  ∀ (x : FormVV) (s : State) (e : Env),
    (Passes (.add x) s e → exec (.add x) s = .next (elementsDone e x.ty x.rm e.bv (fun u a b _ => addElem x.ty x.rm x.sat u a b))) ∧
    (Passes (.sub x) s e → exec (.sub x) s = .next (elementsDone e x.ty x.rm e.bv (fun u a b _ => subElem x.ty x.rm x.sat u a b))) ∧
    (Passes (.mul x) s e → exec (.mul x) s = .next (elementsDone e x.ty x.rm e.bv (fun u a b _ => mulElem x.ty x.rm x.sat u a b))) ∧
    (Passes (.mulhi x) s e → exec (.mulhi x) s = .next (elementsDone e x.ty .rne e.bv (fun _ a b _ =>
      intRes x.ty false (x.ty.intOf a * x.ty.intOf b / (2 ^ x.ty.width : Nat))))) ∧
    (Passes (.mad x) s e → exec (.mad x) s = .next (elementsDone e x.ty .rne e.bv (fun _ a b c =>
      intRes x.ty x.sat (x.ty.intOf a * x.ty.intOf b + x.ty.intOf c)))) ∧
    (Passes (.min x) s e → exec (.min x) s = .next (elementsDone e x.ty .rne e.bv (fun _ a b _ => minMaxElem x.ty false a b))) ∧
    (Passes (.max x) s e → exec (.max x) s = .next (elementsDone e x.ty .rne e.bv (fun _ a b _ => minMaxElem x.ty true a b))) ∧
    (Passes (.abs x) s e → exec (.abs x) s = .next (elementsDone e x.ty .rne e.bv (fun _ a _ _ => absElem x.ty x.sat a))) ∧
    (Passes (.neg x) s e → exec (.neg x) s = .next (elementsDone e x.ty .rne e.bv (fun _ a _ _ => negElem x.ty x.sat a))) ∧
    (Passes (.avg x) s e → exec (.avg x) s = .next (elementsDone e x.ty .rne e.bv (fun _ a b _ =>
      intRes x.ty false ((x.ty.intOf a + x.ty.intOf b + (if x.sub = 0 then 1 else 0)) / 2)))) ∧
    (Passes (.div x) s e → exec (.div x) s = .next (elementsDone e x.ty .rne e.bv (fun _ a b _ => divElem x.ty a b))) ∧
    (Passes (.rem x) s e → exec (.rem x) s = .next (elementsDone e x.ty .rne e.bv (fun _ a b _ => remElem x.ty a b)))

/-- R146, R148: the bit, shift, field, dot-product, move, select and address forms of format VV complete, with the value of each active lane. -/
def Obligations.BitwiseCompletes : Prop :=
  ∀ (x : FormVV) (s : State) (e : Env),
    (Passes (.and x) s e → exec (.and x) s = .next (valuesDone e (fun l => Nat.land (e.av l) (e.bv l)))) ∧
    (Passes (.or x) s e → exec (.or x) s = .next (valuesDone e (fun l => Nat.lor (e.av l) (e.bv l)))) ∧
    (Passes (.xor x) s e → exec (.xor x) s = .next (valuesDone e (fun l => Nat.xor (e.av l) (e.bv l)))) ∧
    (Passes (.not x) s e → exec (.not x) s = .next (valuesDone e (fun l => 2 ^ x.ty.width - 1 - e.av l))) ∧
    (Passes (.shl x) s e → exec (.shl x) s = .next (elementsDone e x.ty .rne e.bv (fun _ a b _ => shlElem x.ty x.sat a b))) ∧
    (Passes (.shr x) s e → exec (.shr x) s = .next (elementsDone e x.ty .rne e.bv (fun _ a b _ =>
      intRes x.ty false (x.ty.intOf a / (2 ^ (min b x.ty.width) : Nat))))) ∧
    (Passes (.popc x) s e → exec (.popc x) s = .next (valuesDone e (fun l => popcount 32 (e.av l)))) ∧
    (Passes (.clz x) s e → exec (.clz x) s = .next (valuesDone e (fun l => leadingZeros 32 (e.av l)))) ∧
    (Passes (.brev x) s e → exec (.brev x) s = .next (valuesDone e (fun l => reverseBits 32 (e.av l)))) ∧
    (Passes (.bfe x) s e → exec (.bfe x) s = .next (elementsDone e x.ty .rne e.bv (fun _ a b _ => bfeElem x.ty a b))) ∧
    (Passes (.bfi x) s e → exec (.bfi x) s = .next (elementsDone e x.ty .rne e.bv (fun _ a b c => bfiElem a b c))) ∧
    (Passes (.dot4 x) s e → exec (.dot4 x) s = .next (valuesDone e (fun l =>
      (dot4Elem x.ty (x.sub == 1) x.sat (e.av l) (e.bv l) (e.cv l)).1))) ∧
    (Passes (.mov x) s e → exec (.mov x) s = .next (valuesDone e e.av)) ∧
    (Passes (.sel x) s e → exec (.sel x) s = .next (valuesDone e (fun l => if bitAt (e.pred e.f.sc.toNat) l then e.av l else e.bv l))) ∧
    (Passes (.lea x) s e → exec (.lea x) s = .next (valuesDone e (fun l =>
      lowBits x.ty.width ((e.av l : Int) + (if x.ty.signed then signedOf 32 (e.bv l) else (e.bv l : Int)) * (2 ^ x.sub.toNat : Nat)))))

/-- R149, R150, R151: the floating-point instructions of format VV complete, each rounding its exact result once. The flags of the
long-latency ones reach FPX at issue (log 66). Choices of the model: log 7, 28, 66. -/
def Obligations.FloatCompletes : Prop :=
  ∀ (x : FormVV) (s : State) (e : Env),
    (Passes (.fma x) s e → exec (.fma x) s = .next (elementsDone e x.ty x.rm e.bv (fun u a b c => fmaElem x.ty x.rm u a b c))) ∧
    (Passes (.rcp x) s e → exec (.rcp x) s = .next (elementsDone e x.ty x.rm e.bv (fun u a _ _ => unaryElem .rcp x.ty x.rm u a))) ∧
    (Passes (.rsq x) s e → exec (.rsq x) s = .next (elementsDone e x.ty x.rm e.bv (fun u a _ _ => unaryElem .rsq x.ty x.rm u a))) ∧
    (Passes (.sqrt x) s e → exec (.sqrt x) s = .next (elementsDone e x.ty x.rm e.bv (fun u a _ _ => unaryElem .sqrt x.ty x.rm u a))) ∧
    (Passes (.exp2 x) s e → exec (.exp2 x) s = .next (elementsDone e x.ty x.rm e.bv (fun u a _ _ => unaryElem .exp2 x.ty x.rm u a))) ∧
    (Passes (.log2 x) s e → exec (.log2 x) s = .next (elementsDone e x.ty x.rm e.bv (fun u a _ _ => unaryElem .log2 x.ty x.rm u a))) ∧
    (Passes (.tanh x) s e → exec (.tanh x) s = .next (elementsDone e x.ty x.rm e.bv (fun u a _ _ => unaryElem .tanh x.ty x.rm u a))) ∧
    (Passes (.sigm x) s e → exec (.sigm x) s = .next (elementsDone e x.ty x.rm e.bv (fun u a _ _ => unaryElem .sigm x.ty x.rm u a))) ∧
    (Passes (.rint x) s e → exec (.rint x) s = .next (elementsDone e x.ty x.rm e.bv (fun u a _ _ => rintElem x.ty x.rm u a))) ∧
    (Passes (.fscl x) s e → exec (.fscl x) s = .next (elementsDone e x.ty x.rm e.bv (fun u a b _ => fsclElem x.ty x.rm u a b))) ∧
    (Passes (.fclass x) s e → exec (.fclass x) s = .next (elementsDone e x.ty .rne e.bv (fun _ a _ _ => fclassElem x.ty a))) ∧
    (Passes (.csgn x) s e → exec (.csgn x) s = .next (elementsDone e x.ty .rne e.bv (fun _ a b _ => csgnElem x.ty x.sub.toNat a b)))

/-- R145: an instruction of format VI completes as the VV instruction does with `IMM` as source b (`lea` with a shift of 0, `mov` with
`IMM` as its result). -/
def Obligations.ImmediateCompletes : Prop :=
  ∀ (x : FormVI) (s : State) (e : Env),
    (Passes (.addVi x) s e → exec (.addVi x) s = .next (elementsDone e x.ty .rne (fun _ => immSource x.ty x.imm)
      (fun u a b _ => addElem x.ty .rne x.sat u a b))) ∧
    (Passes (.subVi x) s e → exec (.subVi x) s = .next (elementsDone e x.ty .rne (fun _ => immSource x.ty x.imm)
      (fun u a b _ => subElem x.ty .rne x.sat u a b))) ∧
    (Passes (.mulVi x) s e → exec (.mulVi x) s = .next (elementsDone e x.ty .rne (fun _ => immSource x.ty x.imm)
      (fun u a b _ => mulElem x.ty .rne x.sat u a b))) ∧
    (Passes (.minVi x) s e → exec (.minVi x) s = .next (elementsDone e x.ty .rne (fun _ => immSource x.ty x.imm)
      (fun _ a b _ => minMaxElem x.ty false a b))) ∧
    (Passes (.maxVi x) s e → exec (.maxVi x) s = .next (elementsDone e x.ty .rne (fun _ => immSource x.ty x.imm)
      (fun _ a b _ => minMaxElem x.ty true a b))) ∧
    (Passes (.andVi x) s e → exec (.andVi x) s = .next (valuesDone e (fun l => Nat.land (e.av l) (immSource x.ty x.imm)))) ∧
    (Passes (.orVi x) s e → exec (.orVi x) s = .next (valuesDone e (fun l => Nat.lor (e.av l) (immSource x.ty x.imm)))) ∧
    (Passes (.xorVi x) s e → exec (.xorVi x) s = .next (valuesDone e (fun l => Nat.xor (e.av l) (immSource x.ty x.imm)))) ∧
    (Passes (.shlVi x) s e → exec (.shlVi x) s = .next (elementsDone e x.ty .rne (fun _ => immSource x.ty x.imm)
      (fun _ a b _ => shlElem x.ty x.sat a b))) ∧
    (Passes (.shrVi x) s e → exec (.shrVi x) s = .next (elementsDone e x.ty .rne (fun _ => immSource x.ty x.imm)
      (fun _ a b _ => shrElem x.ty a b))) ∧
    (Passes (.bfeVi x) s e → exec (.bfeVi x) s = .next (elementsDone e x.ty .rne (fun _ => immSource x.ty x.imm)
      (fun _ a b _ => bfeElem x.ty a b))) ∧
    (Passes (.cmpVi x) s e → exec (.cmpVi x) s = .next (compareDone e x.ty x.cc.toNat (fun _ => immSource x.ty x.imm))) ∧
    (Passes (.leaVi x) s e → exec (.leaVi x) s = .next (valuesDone e (fun l => (e.av l + immSource x.ty x.imm) % 2 ^ x.ty.width))) ∧
    (Passes (.movVi x) s e → exec (.movVi x) s = .next (valuesDone e (fun _ => immSource x.ty x.imm)))

/-- R148, R158, R159: compares, predicate logic, moves between predicates and registers, and random draws complete. R152, R156, R157: conversion and
the MX forms that read blocks complete. That `mxunpack` consumes a draw in each lane it writes is the model's choice (log 58), and that the flags of
`mxscale` and `mxunpack` reach FPX at issue (log 66). Choices of the model: log 9, 28, 58, 66. -/
def Obligations.PredicatesDrawsAndConversionComplete : Prop :=
  (∀ (x : FormVV) (s : State) (e : Env),
     (Passes (.cmp x) s e → exec (.cmp x) s = .next (compareDone e x.ty x.cc.toNat e.bv)) ∧
     (Passes (.plog x) s e → exec (.plog x) s = .next (predicateDone e e.s (fun l =>
       bitAt (match x.cc.toNat with
         | 0 => e.pred e.f.sa.toNat &&& e.pred e.f.sb.toNat
         | 1 => e.pred e.f.sa.toNat ||| e.pred e.f.sb.toNat
         | 2 => e.pred e.f.sa.toNat ^^^ e.pred e.f.sb.toNat
         | 3 => e.pred e.f.sa.toNat &&& ~~~(e.pred e.f.sb.toNat)
         | 4 => e.pred e.f.sa.toNat ||| ~~~(e.pred e.f.sb.toNat)
         | _ => ~~~(e.pred e.f.sa.toNat ^^^ e.pred e.f.sb.toNat)) l))) ∧
     (Passes (.pget x) s e → exec (.pget x) s = .next (valuesDone e (fun l => if bitAt (e.pred e.f.sa.toNat) l then 0xFFFFFFFF else 0))) ∧
     (Passes (.pset x) s e → exec (.pset x) s = .next (predicateDone e e.s (fun l => decide (e.av l ≠ 0)))) ∧
     (Passes (.rand x) s e → exec (.rand x) s = .next (lanesDone (e.drawing e.active) e.s (fun l =>
       (if x.sub = 1 then (roundFin fmtF32 true .rne 0 ⟨false, (drawBlock e l).w0 / 256, 2 ^ 24⟩).1
        else if x.ty = .n64 then (drawBlock e l).w0 + 2 ^ 32 * (drawBlock e l).w1 else (drawBlock e l).w0, fNone))))) ∧
  (∀ (x : FormVV) (s : State) (e : Env),
     (Passes (.cvt x) s e → exec (.cvt x) s = .next (lanesDone (e.consuming x.rm e.active) e.s (fun l =>
       cvtLane x.ty x.t2 x.rm x.sat x.inf (bits x.sel 2 0) (uniformAt e x.rm l) (oldDst e l) (e.av l)))) ∧
     (Passes (.mxscale x) s e → exec (.mxscale x) s = .next (lanesDone e e.s (fun l =>
       if x.sub = 0 then (scaleDecode (byteOf (e.av l) (bits x.sel 1 0)), fNone)
       else if x.sub = 1 then (setByte (oldDst e l) (bits x.sel 1 0) (scaleEncode (e.av l)).1, (scaleEncode (e.av l)).2)
       else (setByte (oldDst e l) (bits x.sel 1 0) (scaleMul (byteOf (e.av l) (bits x.sel 1 0)) (byteOf (e.bv l) (bits x.sel 1 0))), fNone)))) ∧
     (Passes (.mxunpack x) s e →
       let full := maskOf (fun l => (fullBlocks e x.ty).contains (l / x.ty.slot))
       let rs := overLanes full (unpackLane e x.ty x.t2 x.rm (bits x.sel 4 2) (bits x.sel 1 0))
       let val := fun (l : Nat) => (rs.getD l (0, fNone)).1
       exec (.mxunpack x) s = .next (completed (e.consuming x.rm full) (fpxOr e.s e.id (flagsOf rs)) (dstResult e full val) (dstEntry e val) none)))

/-- R154, R155: `mxpack` completes. It writes the packed-side lanes of the processed blocks that the crew may write, and no other: for each processed
block k, a lane of packed block G·Nv + k receives that block's codes, and in the scale forms byte K of lane G·Nv + k its scale code. Its flags are those
of the processed blocks' elements, or invalid where a scale is taken of a NaN or an infinity; `.elem` under `.rsr` draws in the lanes of processed blocks
(log 58). The flags reach FPX at issue (log 66). Choices of the model: log 8, 58, 66. -/
def Obligations.PackCompletes : Prop :=
  ∀ (x : FormVV) (s : State) (e : Env), Passes (.mxpack x) s e →
    let ks := fullBlocks e x.t2
    let base := bits x.sel 4 2 * (128 / x.t2.slot)
    let kb := bits x.sel 1 0
    let per := 32 / x.ty.slot
    let block := fun (k : Nat) => packBlock e x.ty x.t2 x.rm (byteOf (e.bv (base + k)) kb) k
    let scale := fun (k : Nat) => (mxBase x.ty (blockVals x.t2 e.av k)).map (fun x0 =>
      ((if x.sub = 2 then mxAuto x.ty x.rm x0 (blockVals x.t2 e.av k) else x0) + 127).toNat)
    (x.sub = 0 →
      let val := fun (l : Nat) => match ks.find? (fun k => base + k == l / x.ty.slot) with
        | some k => packElems x.ty (fun j => ((block k).getD (l % x.ty.slot * per + j) (0, fNone)).1) per
        | none => 0
      exec (.mxpack x) s = .next (completed (e.consuming x.rm (maskOf (fun l => ks.contains (l / x.t2.slot))))
        (fpxOr e.s e.id (ks.foldl (fun a k => a ||| flagsOf (block k)) 0)) (dstResult e (packMask e x) (fun l => if l < 128 then val l else 0))
        (dstEntry e (fun l => if l < 128 then val l else 0)) none)) ∧
    (x.sub ≠ 0 →
      let val := fun (l : Nat) => match ks.find? (fun k => base + k == l) with
        | some k => setByte (oldDst e l) kb ((scale k).getD 0xFF)
        | none => 0
      exec (.mxpack x) s = .next (completed e (fpxOr e.s e.id (if ks.any (fun k => (scale k).isNone) then fInvalid else fNone))
        (dstResult e (packMask e x) val) (dstEntry e val) none))

/-- R160 to R165: the lane crossbar instructions complete. The flags of `scan`, `red` and `sample` reach FPX at issue (log 66), and the index of the
64-bit `shfl` and `perm` is the whole pair (log 65). Choices of the model: log 28, 65, 66. -/
def Obligations.CrossbarCompletes : Prop :=
  ∀ (x : FormVX) (s : State) (e : Env),
    (Passes (.shfl x) s e → exec (.shfl x) s = .next (valuesDone e (fun l => e.av (shflLane x.sub.toNat x.seg.toNat l (e.bv l))))) ∧
    (Passes (.bclane x) s e → exec (.bclane x) s = .next (valuesDone e (fun l =>
      e.av (if x.sub = 0 then segBase x.seg.toNat l + x.sel.toNat else (segActive e x.seg.toNat l).headD l)))) ∧
    (Passes (.perm x) s e → exec (.perm x) s = .next (valuesDone e (fun l =>
      if e.cv l % (2 * 2 ^ x.seg.toNat) < 2 ^ x.seg.toNat then e.av (segBase x.seg.toNat l + e.cv l % (2 * 2 ^ x.seg.toNat))
      else e.bv (segBase x.seg.toNat l + e.cv l % (2 * 2 ^ x.seg.toNat) - 2 ^ x.seg.toNat)))) ∧
    (Passes (.cmpct x) s e →
      let src := fun (l : Nat) => (segActive e x.seg.toNat l)[l - segBase x.seg.toNat l]?
      let val := fun (l : Nat) => ((src l).map e.av).getD 0
      exec (.cmpct x) s = .next (completed e e.s (dstResult e (maskOf (fun l => bitAt (hLaneMask e.g.hdr e.crewNo) l && (src l).isSome)) val)
        (dstEntry e val) none)) ∧
    (Passes (.scan x) s e →
      let ps := segPrefixes e x
      let val := fun (l : Nat) => match ps.find? (fun p => p.1 == l) with
        | some p => if x.sub == 0 then p.2.2.1 else p.2.1
        | none => 0
      exec (.scan x) s = .next (completed (e.consuming x.rm e.active) (combineState e ps) (dstResult e e.active val) (dstEntry e val) none)) ∧
    (Passes (.red x) s e →
      let ps := segPrefixes e x
      let val := fun (l : Nat) => match ps.reverse.find? (fun p => p.1 / 2 ^ x.seg.toNat == l / 2 ^ x.seg.toNat) with
        | some p => p.2.2.1
        | none => 0
      exec (.red x) s = .next (completed (e.consuming x.rm e.active) (combineState e ps) (dstResult e e.active val) (dstEntry e val) none)) ∧
    (Passes (.vote x) s e → exec (.vote x) s = .next (predicateDone e e.s (fun l =>
      let all := (segActive e x.seg.toNat l).all (fun m => bitAt (e.pred e.f.sa.toNat) m)
      let any := (segActive e x.seg.toNat l).any (fun m => bitAt (e.pred e.f.sa.toNat) m)
      if x.sub = 0 then all else if x.sub = 1 then any else all || !any))) ∧
    (Passes (.ballot x) s e → exec (.ballot x) s = .next (valuesDone e (fun l =>
      let m := (e.active &&& e.pred e.f.sa.toNat).toNat
      if x.seg.toNat ≤ 5 then m / 2 ^ segBase x.seg.toNat l % 2 ^ (2 ^ x.seg.toNat)
      else if x.seg.toNat = 6 then m / 2 ^ (32 * x.sub.toNat + segBase x.seg.toNat l) % 2 ^ 32
      else m / 2 ^ (32 * x.sub.toNat) % 2 ^ 32))) ∧
    (Passes (.match x) s e → exec (.match x) s = .next (valuesDone e (fun l =>
      let same := (segActive e x.seg.toNat l).filter (fun m => e.av m == e.av l)
      if x.sub = 0 then same.headD 0 else if x.sub = 1 then same.length else (same.filter (fun m => decide (m < l))).length))) ∧
    (Passes (.sample x) s e →
      let rs := (segStarts e x.seg.toNat).map (fun b => (b, sampleSeg e (segActive e x.seg.toNat b)))
      let val := fun (l : Nat) => match rs.find? (fun r => r.1 == segBase x.seg.toNat l) with
        | some r => r.2.1 + 2 ^ 32 * r.2.2.1
        | none => 0
      exec (.sample x) s = .next (completed e (fpxOr e.s e.id (rs.foldl (fun a r => a ||| r.2.2.2) 0)) (dstResult e e.active val) (dstEntry e val) none))

/-! ### Results of pilot instructions -/

/-- R96, R97: a pilot instruction completes with its 64-bit result or its c-bit; operand b is `pilotB`, the sign-extended immediate or a
source. -/
def Obligations.ScalarCompletes : Prop :=
  ∀ (x : FormP) (s : State) (e : Env),
    (Passes (.sadd x) s e → exec (.sadd x) s = .next (scalarDone e (e.av 0 + pilotB e x))) ∧
    (Passes (.ssub x) s e → exec (.ssub x) s = .next (scalarDone e (e.av 0 + (2 ^ 64 - pilotB e x)))) ∧
    (Passes (.smul x) s e → exec (.smul x) s = .next (scalarDone e (e.av 0 * pilotB e x))) ∧
    (Passes (.smulh x) s e → exec (.smulh x) s = .next (scalarDone e (intFit (pilotTy x.u) false
      ((pilotTy x.u).intOf (e.av 0) * (pilotTy x.u).intOf (pilotB e x) / (2 ^ 64 : Nat))))) ∧
    (Passes (.smin x) s e → exec (.smin x) s = .next (scalarDone e
      (if (pilotTy x.u).intOf (pilotB e x) < (pilotTy x.u).intOf (e.av 0) then pilotB e x else e.av 0))) ∧
    (Passes (.smax x) s e → exec (.smax x) s = .next (scalarDone e
      (if (pilotTy x.u).intOf (e.av 0) < (pilotTy x.u).intOf (pilotB e x) then pilotB e x else e.av 0))) ∧
    (Passes (.sand x) s e → exec (.sand x) s = .next (scalarDone e (Nat.land (e.av 0) (pilotB e x)))) ∧
    (Passes (.sor x) s e → exec (.sor x) s = .next (scalarDone e (Nat.lor (e.av 0) (pilotB e x)))) ∧
    (Passes (.sxor x) s e → exec (.sxor x) s = .next (scalarDone e (Nat.xor (e.av 0) (pilotB e x)))) ∧
    (Passes (.sshl x) s e → exec (.sshl x) s = .next (scalarDone e (if pilotB e x < 64 then e.av 0 * 2 ^ pilotB e x else 0))) ∧
    (Passes (.sshr x) s e → exec (.sshr x) s = .next (scalarDone e (lowBits 64 ((pilotTy x.u).intOf (e.av 0) / (2 ^ (min (pilotB e x) 64) : Nat))))) ∧
    (Passes (.ssel x) s e → exec (.ssel x) s = .next (scalarDone e (if cbitOf e.g.pilot e.f.sc.toNat then e.av 0 else pilotB e x))) ∧
    (Passes (.smov x) s e → exec (.smov x) s = .next (scalarDone e (e.av 0))) ∧
    (Passes (.sli x) s e → exec (.sli x) s = .next (scalarDone e
      (if x.u then (e.g.pilot.sregs.getD e.f.dst.toNat 0).toNat % 2 ^ 32 + 2 ^ 32 * x.imm.toNat else lowBits 64 (signedOf 32 x.imm.toNat)))) ∧
    (Passes (.spopc x) s e → exec (.spopc x) s = .next (scalarDone e (popcount 64 (e.av 0)))) ∧
    (Passes (.sclz x) s e → exec (.sclz x) s = .next (scalarDone e (leadingZeros 64 (e.av 0)))) ∧
    (Passes (.sctz x) s e → exec (.sctz x) s = .next (scalarDone e (trailingZeros 64 (e.av 0)))) ∧
    (Passes (.sbfe x) s e → exec (.sbfe x) s = .next (scalarDone e
      (let v := e.av 0 / 2 ^ (pilotB e x % 64) % 2 ^ wideLen (pilotB e x)
       if x.u then v else lowBits 64 (signedOf (wideLen (pilotB e x)) v)))) ∧
    (Passes (.sbfi x) s e → exec (.sbfi x) s = .next (scalarDone e
      (e.cv 0 - e.cv 0 / 2 ^ (pilotB e x % 64) % 2 ^ wideLen (pilotB e x) * 2 ^ (pilotB e x % 64)
        + e.av 0 % 2 ^ wideLen (pilotB e x) * 2 ^ (pilotB e x % 64)))) ∧
    (Passes (.sext x) s e → exec (.sext x) s = .next (scalarDone e
      (if 1 ≤ pilotB e x % 128 ∧ pilotB e x % 128 ≤ 63 then
        (if x.u then e.av 0 % 2 ^ (pilotB e x % 128) else lowBits 64 (signedOf (pilotB e x % 128) (e.av 0 % 2 ^ (pilotB e x % 128))))
       else e.av 0))) ∧
    (Passes (.scmp x) s e → exec (.scmp x) s = .next (cbitDone e
      (condHolds x.cc.toNat (intCmp ((pilotTy x.u).intOf (e.av 0)) ((pilotTy x.u).intOf (pilotB e x)))))) ∧
    (Passes (.cop x) s e → exec (.cop x) s = .next (cbitDone e
      (let a := cbitOf e.g.pilot e.f.sa.toNat
       let b := cbitOf e.g.pilot e.f.sb.toNat
       match x.cc.toNat with
       | 0 => a && b
       | 1 => a || b
       | 2 => a != b
       | 3 => a && !b
       | 4 => a || !b
       | _ => a == b)))

/-- R98, R100: `sdiv` and `srem` complete with the quotient toward zero and the remainder with the dividend's sign; a zero divisor gives
the largest or smallest value by the dividend's sign, and the dividend. With a pigeonhole as destination the quotient is held first, and
the same instruction completes at its next turn with the value held; the second copy of a pair completes with the entry that the first one
pushed (R332). Of the form with a pigeonhole R98 says nothing: it is the model's reading (log 40). -/
def Obligations.DivisionCompletes : Prop :=
  ∀ (x : FormP) (s : State) (e : Env),
    let a := (pilotTy x.u).intOf (e.av 0)
    let b := (pilotTy x.u).intOf (pilotB e x)
    let q := lowBits 64 (satInt (if b = 0 then (if a < 0 then (pilotTy x.u).imin else (pilotTy x.u).imax) else a.tdiv b) (pilotTy x.u).imin (pilotTy x.u).imax)
    let r := lowBits 64 (if b = 0 then a else a.tmod b)
    (pushName e.u e.f = none →
      (Passes (.sdiv x) s e → exec (.sdiv x) s = .next (scalarDone e q)) ∧ (Passes (.srem x) s e → exec (.srem x) s = .next (scalarDone e r))) ∧
    (∀ c n d, ctxIn e.g e.id.who = some c → pushName e.u e.f = some n → c.divided = some d →
      (Passes (.sdiv x) s e → exec (.sdiv x) s = .next (scalarDone e d.val.toNat)) ∧
      (Passes (.srem x) s e → exec (.srem x) s = .next (scalarDone e d.val.toNat))) ∧
    (∀ c n got, ctxIn e.g e.id.who = some c → pushName e.u e.f = some n → c.divided = none → c.copied = some got →
      (Passes (.sdiv x) s e → exec (.sdiv x) s = .next (scalarDone e (leNat ((got.push.map (fun y => y.bytes)).getD [])))) ∧
      (Passes (.srem x) s e → exec (.srem x) s = .next (scalarDone e (leNat ((got.push.map (fun y => y.bytes)).getD []))))) ∧
    (∀ c n, ctxIn e.g e.id.who = some c → pushName e.u e.f = some n → c.divided = none → c.copied = none → ∀ t p, popAll e.s e.id (popList e.u e.f) = (t, p) →
      (Passes (.sdiv x) s e → exec (.sdiv x) s = .next (modCtx t e.id (fun c => { c with divided := some { val := BitVec.ofNat 64 q, trap := p, q := n } }))) ∧
      (Passes (.srem x) s e → exec (.srem x) s = .next (modCtx t e.id (fun c => { c with divided := some { val := BitVec.ofNat 64 r, trap := p, q := n } }))))

/-! ### Control transfers -/

/-- R101, R108, R109, R111: a crew's transfer to valid code points completes where the frontier has room; `call` writes the code index of the next
slot to `v223`, and `ret` ends the lanes whose link is 0. R110, R114: `exit` ends the active lanes of a crew, or the pilot, whose results are
written and whose barriers are settled. Choices of the model: log 33, 38. -/
def Obligations.CrewTransferCompletes : Prop :=
  (∀ (x : FormB) (s t : State) (e : Env),
     (∀ i r, (i = .bra x ∨ i = .bru x) ∧ r = Result.none ∨
         i = .call x ∧ r = { Result.none with vec := [{ name := 223, mask := e.active, words := lanes (fun _ => BitVec.ofNat 32 (nextCix e.head.cix.toNat)) }] } →
       Passes i s e → 8 ≤ relCix e.head.cix.toNat x.imm → relCix e.head.cix.toNat x.imm < 2 ^ 32 →
       transferDone e (e.lanes.map (fun l => (l, BitVec.ofInt 32 (relCix e.head.cix.toNat x.imm)))) 0 r = some t → exec i s = .next t) ∧
     (Passes (.brx x) s e → (∀ l, l ∈ e.lanes → cixValid (e.av l % 2 ^ 32) = true) →
       transferDone e (e.lanes.map (fun l => (l, BitVec.ofNat 32 (e.av l)))) 0 Result.none = some t → exec (.brx x) s = .next t) ∧
     (∀ c, Passes (.ret x) s e → e.crew? = some c →
       let back := e.lanes.filter (fun l => decide (laneWord (regWords c 223) l ≠ 0))
       (∀ l, l ∈ back → cixValid (laneWord (regWords c 223) l).toNat = true) →
       transferDone e (back.map (fun l => (l, laneWord (regWords c 223) l))) (e.active &&& maskOf (fun l => laneWord (regWords c 223) l == 0))
         Result.none = some t → exec (.ret x) s = .next t)) ∧
  (∀ (x : FormB) (s t : State) (e : Env), Passes (.exit x) s e →
     (e.k = .crew → transferDone e [] e.active Result.none = some t → exec (.exit x) s = .next t) ∧
     (e.k = .pilot → exec (.exit x) s = .next (endPilot (retire e e.s Result.none none none).1 e.id.berth)))

/-- R101, R104, R109: a crew's transfer to a code point below 8, or past 32 bits, traps with 0x03 at its own slot and no effect; so does an
indirect one with an invalid target, or a return with an invalid link that is not 0, whose lowest such lane `TLANE` names, and a pilot's `sbrx` or
`sret` to an invalid code pointer; no relative target of the pilot that decodes is invalid (R66). A transfer to valid targets that would overflow the
frontier traps with 0x0D and no effect. The detail words of a relative target without a code index and of the overflow are the model's choice
(log 16, 65). -/
def Obligations.CrewTransferTraps : Prop :=
  ∀ (x : FormB) (s : State) (e : Env),
    let at_ := fun (i : Instr) (t : PendTrap) => exec i s = .next (trapHere e.s e.id t)
    let bad := fun (i : Instr) (target l : Nat) => at_ i { mkTrap 0x03 target e.head.mask with tlane := BitVec.ofNat 32 l }
    let overflows := fun (i : Instr) => at_ i (openTrap e.s 0x0D e.head.mask)
    let rel := relCix e.head.cix.toNat x.imm
    (∀ i, i = .bra x ∨ i = .bru x ∨ i = .call x → Passes i s e → (rel < 8 ∨ (2 ^ 32 : Int) ≤ rel) → bad i (lowBits 64 rel) e.first) ∧
    (∀ l before after, Passes (.brx x) s e → e.lanes = before ++ l :: after → (∀ m, m ∈ before → cixValid (e.av m % 2 ^ 32) = true) →
      cixValid (e.av l % 2 ^ 32) = false → bad (.brx x) (e.av l % 2 ^ 32) l) ∧
    (∀ c l before after, Passes (.ret x) s e → e.crew? = some c →
      let link := fun (m : Nat) => (laneWord (regWords c 223) m).toNat
      e.lanes = before ++ l :: after → (∀ m, m ∈ before → link m = 0 ∨ cixValid (link m) = true) → link l ≠ 0 → cixValid (link l) = false →
      bad (.ret x) (link l) l) ∧
    (∀ i r, (i = .bra x ∨ i = .bru x) ∧ r = Result.none ∨
        i = .call x ∧ r = { Result.none with vec := [{ name := 223, mask := e.active, words := lanes (fun _ => BitVec.ofNat 32 (nextCix e.head.cix.toNat)) }] } →
      Passes i s e → 8 ≤ rel → rel < 2 ^ 32 → transferDone e (e.lanes.map (fun l => (l, BitVec.ofInt 32 rel))) 0 r = none → overflows i) ∧
    (Passes (.brx x) s e → (∀ l, l ∈ e.lanes → cixValid (e.av l % 2 ^ 32) = true) →
      transferDone e (e.lanes.map (fun l => (l, BitVec.ofNat 32 (e.av l)))) 0 Result.none = none → overflows (.brx x)) ∧
    (∀ c, Passes (.ret x) s e → e.crew? = some c →
      let back := e.lanes.filter (fun l => decide (laneWord (regWords c 223) l ≠ 0))
      (∀ l, l ∈ back → cixValid (laneWord (regWords c 223) l).toNat = true) →
      transferDone e (back.map (fun l => (l, laneWord (regWords c 223) l))) (e.active &&& maskOf (fun l => laneWord (regWords c 223) l == 0))
        Result.none = none → overflows (.ret x)) ∧
    (∀ i, i = .sbrx x ∨ i = .sret x → Passes i s e → pcValid (e.av 0) = false → at_ i (mkTrap 0x03 (e.av 0) 0)) ∧
    (∀ i, i = .sbr x ∨ i = .scall x ∨ i = .loop x → Passes i s e → pcValid (relPc e.g.pilot.pc.toNat x.imm) = true)

/-- R113: a pilot's transfer to a valid code pointer completes; `scall` writes the link, `loop` counts down and falls through at 1 and 0. -/
def Obligations.PilotTransferCompletes : Prop :=
  ∀ (x : FormB) (s : State) (e : Env),
    let link : Result := { Result.none with scalar := some (x.dst.toNat, BitVec.ofNat 64 (nextPc e.g.pilot.pc.toNat)) }
    let count : Result := { Result.none with scalar := some (x.sa.toNat, BitVec.ofNat 64 (e.av 0 - 1)) }
    (Passes (.sbr x) s e → pcValid (relPc e.g.pilot.pc.toNat x.imm) = true →
      exec (.sbr x) s = .next (pilotTransferDone e (relPc e.g.pilot.pc.toNat x.imm) Result.none)) ∧
    (Passes (.sbrx x) s e → pcValid (e.av 0) = true → exec (.sbrx x) s = .next (pilotTransferDone e (e.av 0) Result.none)) ∧
    (Passes (.sret x) s e → pcValid (e.av 0) = true → exec (.sret x) s = .next (pilotTransferDone e (e.av 0) Result.none)) ∧
    (Passes (.scall x) s e → pcValid (relPc e.g.pilot.pc.toNat x.imm) = true →
      exec (.scall x) s = .next (pilotTransferDone e (relPc e.g.pilot.pc.toNat x.imm) link)) ∧
    (Passes (.loop x) s e → 2 ≤ e.av 0 → pcValid (relPc e.g.pilot.pc.toNat x.imm) = true →
      exec (.loop x) s = .next (pilotTransferDone e (relPc e.g.pilot.pc.toNat x.imm) count)) ∧
    (Passes (.loop x) s e → e.av 0 < 2 → exec (.loop x) s = .next (completed e e.s count none none))

/-- R116, R137: `bsync` and `ckpt` park their issuer at its slot, and the barriers whose participants have all arrived are settled. R112: `yield` goes
on, and its context waits for every other context of its core that is ready; a workgroup to be pre-empted stops. Choices of the model: log 38. -/
def Obligations.ArrivalsAndYieldsComplete : Prop :=
  (∀ (i : Instr) (p : Park) (s : State) (e : Env),
     (∃ x, i = .bsync x ∧ p = .barrier (bits x.imm 3 0)) ∨ (∃ x, i = .ckpt x ∧ p = .ckpt) → Passes i s e → Unshared e →
     let y := (retire e e.s Result.none none none).1
     (e.id.who = .pilot →
       exec i s = .next (settleBarriers (modWg y e.id.berth (fun g => { g with pilot := { g.pilot with park := some p } })) e.id.berth)) ∧
     (∀ n t, e.id.who = .crew n → frontierEdit y e.id.berth n e.head.cix [{ e.head with park := some p }] 0 = some t →
       exec i s = .next (settleBarriers t e.id.berth))) ∧
  (∀ (x : FormB) (s : State) (e : Env), Passes (.yield x) s e → Unshared e →
     let others := (coreCtxs e.s (berthCore e.id.berth)).filter (fun y =>
       decide (y ≠ e.id) && (match wgOf e.s y.berth with | some h => ctxReady e.s y.berth h y.who | none => false))
     let t := modCtx (advance e (retire e e.s Result.none none none).1) e.id (fun c => { c with yields := others })
     exec (.yield x) s = .next (if e.g.preempt then startDrain t e.id.berth else t))

/-! ### System instructions -/

/-- R125, R127, R128: `nop` goes on; `sysrd` gives the register's value in each active lane; `syswr` writes the low bits of the lowest
active lane's value to `FPX`, `TEPC`, `TVEC`, `PTVEC` or `TDIAG`. Choices of the model: log 16. -/
def Obligations.SystemRegistersComplete : Prop :=
  ∀ (x : FormX) (s : State) (e : Env),
    let n := bits x.imm 11 0
    let wrote := fun (f : WG → WG) => exec (.syswr x) s = .next (noneDone e (modWg e.s e.id.berth f))
    let v := e.av e.first
    (Passes (.nop x) s e → exec (.nop x) s = .next (noneDone e e.s)) ∧
    (Passes (.sysrd x) s e → exec (.sysrd x) s = .next (resultDone e e.s (sysValue e n))) ∧
    (Passes (.syswr x) s e →
      (∀ k, n = 0x010 → e.id.who = .crew k → wrote (fun g => modCrew g k (fun c => { c with fpx := BitVec.ofNat 5 v }))) ∧
      (n = 0x042 → wrote (fun g => modCtxIn g e.id.who (fun c =>
        { c with handler := c.handler.map (fun h => { h with trap := { h.trap with epc := BitVec.ofNat 64 v } }) }))) ∧
      (n = 0x043 → wrote (fun g => { g with tvec := BitVec.ofNat 32 v })) ∧
      (n = 0x044 → wrote (fun g => { g with ptvec := BitVec.ofNat 64 v })) ∧
      (n = 0x045 → wrote (fun g => { g with tdiag := BitVec.ofNat 32 v })))

/-- R126: `trap` retires, then traps with cause 0x18 and its number at the following slot; R131, R276, R408: `halt` retires, every issued result of
its workgroup is written, the workgroup stops, and harbour software receives both records. R130, R396: `rft` in a handler whose `TEPC` is a valid
code point leaves the handler: the pilot goes to `TEPC`; a crew's frontier returns from where the trap set it aside. An invalid code point traps
with cause 0x03 at the `rft`. Where the head of the frontier that a `trap` sets aside stands is log 34's choice. Choices of the model: log 13, 32,
33, 34. -/
def Obligations.TrapHaltAndReturnComplete : Prop :=
  (∀ (x : FormX) (s : State) (e : Env),
     let y := (retire e e.s Result.none none none).1
     (Passes (.trap x) s e → handled e = true →
       exec (.trap x) s = .next (takeTrap y e.id (mkTrap 0x18 (bits x.imm 15 0) e.active) (nextPoint e) e.head.cix e.head.mask)) ∧
     (Passes (.trap x) s e → handled e = false →
       exec (.trap x) s = .next (trapHere (advance e y) e.id (mkTrap 0x18 (bits x.imm 15 0) e.active))) ∧
     (Passes (.halt x) s e →
       let at_ : Nat := if e.k = .pilot then e.g.pilot.pc.toNat else e.head.cix.toNat
       let t := modWg (advance e y) e.id.berth (fun g => { (whos g).foldl commitAll g with run := .halted, stopper := some e.id.who })
       let id := (launchIdOf e.s e.g).toNat
       exec (.halt x) s = .next (putEvent (putFault t e.g.part 0x03 (asidOf e.g) id at_ e.g.wgix (whoCode e.id.who)) e.g.part 1 0
         (whoCode e.id.who) id e.g.wgix (nextPoint e).toNat 0))) ∧
  (∀ (x : FormX) (s : State) (e : Env) (c : Ctx) (h : Handler), Passes (.rft x) s e → ctxIn e.g e.id.who = some c → c.handler = some h →
     let y := (retire e e.s Result.none none none).1
     let p := h.trap.epc.toNat
     (e.id.who = .pilot → e.k = .pilot → pcValid p = true →
       exec (.rft x) s = .next (settleBarriers (modWg y e.id.berth (fun g => { g with pilot := pilotReturn g.pilot })) e.id.berth)) ∧
     (∀ n, e.id.who = .crew n → e.k = .crew → cixValid p = true → exec (.rft x) s = .next (settleBarriers (crewReturn y e.id.berth n) e.id.berth)) ∧
     ((if e.k = .crew then cixValid p else pcValid p) = false → exec (.rft x) s = .next (trapHere e.s e.id (mkTrap 0x03 p e.head.mask))))

/-- R132 to R136: `spawn` submits each active lane's manifest in lane order and gives its status; `depdec` decrements each active lane's
counter in lane order and gives its old value, once its issuer's staged stores are out; a lane whose counter another package has decremented gives the
value that it answered. Under DET each lane's effect is staged, and `depdec` gives its value at release. Both wait for the acknowledgements of other
packages. Choices of the model: log 17, 18, 50. -/
def Obligations.TasksComplete : Prop :=
  ∀ (x : FormX) (s : State) (e : Env) (xs : List LaneAcc), Performs e → Fits e → Acked e →
    (Passes (.spawn x) s e → checkPlaced e.s e.id e.g (manifestLines e) 64 true false = .ok xs →
      (stages e && areaFull e e.lanes.length) = false →
      let r := spawnLanes e (stages e) xs e.lanes (fillTlb e.s e.id e.g xs)
      exec (.spawn x) s = .next (resultDone e r.2 (laneGet r.1))) ∧
    (Passes (.depdec x) s e →
      let given := lanesDone e.s e.id (addresses e 0 none 8)
      checkPlaced e.s e.id e.g (counterPlaces e (lanesLeft e.s e.id (addresses e 0 none 8))) 8 true true = .ok xs →
      ((stages e && given.isEmpty) = false → StoresOut e →
        let r := decrementLanes xs (fillTlb e.s e.id e.g xs)
        exec (.depdec x) s = .next (resultDone e (decrementsOver e r.2) (laneGet (given ++ r.1)))) ∧
      ((stages e && given.isEmpty) = true → e.f.dst.toNat < 240 → areaFull e xs.length = false →
        let st := stageLanes e (fillTlb e.s e.id e.g xs) (xs.map (fun y => (y.lane, .depdec (BitVec.ofNat 64 y.ea))))
        exec (.depdec x) s = .next (completed e st.2 (dstResult e e.active (fun _ => 0)) none st.1)))

/-! ### Memory -/

/-- R169, R172, R173: `ld` and `ldx` complete with the bytes at each active lane's address, extended as the type says.
Choices of the model: log 57. -/
def Obligations.LoadsComplete : Prop :=
  ∀ (x : FormM) (s : State) (e : Env) (xs : List LaneAcc),
    let w := x.ty.width / 8
    let loaded := resultDone e (fillTlb e.s e.id e.g xs) (laneOf (xs.map (fun y => (y.lane, extendLoad e.k x.ty (accRead e.s e.id e.g y w)))))
    (Passes (.ld x) s e → Reaches e x.quay (e.lanes.map (fun l => (l, (e.av l : Int) + signedOf 32 x.imm.toNat + 0))) w true false xs →
      exec (.ld x) s = .next loaded) ∧
    (Passes (.ldx x) s e → Reaches e x.quay (e.lanes.map (fun l => (l, (e.av l : Int) + signedOf 32 x.imm.toNat + signedOf 32 (e.bv l) * w)))
      w true false xs → exec (.ldx x) s = .next loaded)

/-- R169, R173, R174: `st` and `stx` complete with the low bytes of source b stored at each active lane's address, in lane order.
Choices of the model: log 50, 57. -/
def Obligations.StoresComplete : Prop :=
  ∀ (x : FormM) (s : State) (e : Env) (xs : List LaneAcc),
    let w := x.ty.width / 8
    let ws := (xs.filter (fun y => y.isRemote || !remoteSent e.s e.id y.lane)).map (fun y => (y, natLe w (e.bv y.lane)))
    let stored := noneDone e (storeAll (fillTlb e.s e.id e.g xs) e.id w ws)
    storeHold e ws = none →
    (Passes (.st x) s e → Reaches e x.quay (e.lanes.map (fun l => (l, (e.av l : Int) + signedOf 32 x.imm.toNat + 0))) w false true xs →
      exec (.st x) s = .next stored) ∧
    (Passes (.stx x) s e → Reaches e x.quay (e.lanes.map (fun l => (l, (e.av l : Int) + signedOf 32 x.imm.toNat + signedOf 32 (e.cv l) * w)))
      w false true xs → exec (.stx x) s = .next stored)

/-- R177 to R181, R325: `atom` and `cas` read and write each active lane's bytes in lane order and give the old values; under DET those of
global memory are staged unless the workgroup is the drained head, and the others act at once, after the workgroup's staged stores to their bytes.
At partition and system scope they wait for the acknowledgements of other packages. A lane whose update has been performed while the instruction waited
for another package (R250) gives the value it got then. Choices of the model: log 50, 57. -/
def Obligations.AtomicsComplete : Prop :=
  ∀ (x : FormM) (s : State) (e : Env) (xs : List LaneAcc), headOnly e.id.berth e.g e.s xs = false →
    (leavesWindow xs = true → Performs e) → (3 ≤ scopeOf x → Acked e) →
    let at_ := e.lanes.map (fun l => (l, (e.av l : Int) + signedOf 24 x.imm.toNat + 0))
    Reaches e x.quay (lanesLeft e.s e.id at_) (x.ty.width / 8) true true xs →
    let given := lanesDone e.s e.id at_
    let staged := if given = [] then xs.filter (fun y => stagedRmw e.s e.id.berth e.g y) else []
    let out := flushOver (fillTlb e.s e.id e.g xs) e.id xs (x.ty.width / 8)
    let done := fun (f : Nat → Nat → Nat) =>
      let r := rmwLanes x.ty f xs out.1
      Host.Outcome.next (resultDone e r.2 (laneValue e x.ty (given ++ r.1)))
    let held := fun (f : Nat → Nat → Nat) (op : LaneAcc → StageOp) =>
      let r := rmwLanes x.ty f (xs.filter (fun y => y.va.isNone)) (fillTlb e.s e.id e.g xs)
      let st := stageLanes e r.2 (staged.map (fun y => (y.lane, op y)))
      Host.Outcome.next (completed e st.2 (dstResult e e.active (laneValue e x.ty r.1)) none st.1)
    let atomF := fun l old => atomOp (aopOf x % 16) x.ty old (e.bv l)
    let casF := fun l old => if old = e.cv l % 2 ^ x.ty.width then e.bv l else old
    (Passes (.atom x) s e →
      (staged = [] → out.2 = true → exec (.atom x) s = done atomF) ∧
      (staged ≠ [] → e.f.dst.toNat < 240 → areaFull e staged.length = false →
        exec (.atom x) s = held atomF
          (fun y => .atom (BitVec.ofNat 64 y.ea) (BitVec.ofNat 4 (aopOf x)) x.ty (BitVec.ofNat 64 (e.bv y.lane)) none))) ∧
    (Passes (.cas x) s e →
      (staged = [] → out.2 = true → exec (.cas x) s = done casF) ∧
      (staged ≠ [] → e.f.dst.toNat < 240 → areaFull e staged.length = false →
        exec (.cas x) s = held casF
          (fun y => .atom (BitVec.ofNat 64 y.ea) 0 x.ty (BitVec.ofNat 64 (e.bv y.lane)) (some (BitVec.ofNat 64 (e.cv y.lane))))))

/-- R180, R332: `fence` goes on, with no active lane too; at partition and system scope it is a countersign point and waits for the
acknowledgements of other packages. R122: `await` goes on with the words read when every active lane's word meets its comparison, and otherwise waits
with no effect. Stores that the issuer has staged under IDEM stay staged at a fence (log 50). Choices of the model: log 50, 51. -/
def Obligations.OrderingCompletes : Prop :=
  ∀ (s : State) (e : Env),
    (∀ x : FormM, Passes (.fence x) s e → scopeOf x = 3 ∨ scopeOf x = 4 → Performs e → Acked e →
      exec (.fence x) s = .next (noneDone e e.s)) ∧
    (∀ x : FormM, Passes (.fence x) s e → scopeOf x < 3 → exec (.fence x) s = .next (noneDone e e.s)) ∧
    (∀ (x : FormQ) (xs : List LaneAcc),
      let w := x.ty.width / 8
      let word := fun (y : LaneAcc) => leNat (accRead e.s e.id e.g y w)
      let meets := fun (y : LaneAcc) => condHolds (bits x.imm 3 0) (orderElem x.ty (word y % 2 ^ x.ty.width) (e.bv y.lane % 2 ^ x.ty.width)).1 = true
      Passes (.await x) s e → Reaches e (bitAt x.sub 0) (e.lanes.map (fun l => (l, (e.av l : Int) + 0 + 0))) w true false xs → Fits e →
      ((∀ y, y ∈ xs → meets y) → exec (.await x) s = .next (resultDone e (fillTlb e.s e.id e.g xs)
        (laneOf (xs.map (fun y => (y.lane, extendLoad e.k x.ty (natLe w (word y)))))))) ∧
      ((∃ y, y ∈ xs ∧ ¬ meets y) → exec (.await x) s = .next (block (dropRemote e.s e.id) e.id .await)))

/-- R182 to R186: `hacc` over tables in the issuer's reach runs its lanes in order and completes with their statuses; a lane whose key finds
no slot makes the hash-overflow trap follow completion, with the lowest such lane, its overflow mode, their number and its key. Under DET the steps in
the chain table are staged, and the statuses follow at their release (R181). Choices of the model: log 34, 41. -/
def Obligations.HashCompletes : Prop :=
  ∀ (x : FormM) (s : State) (e : Env) (c : Ctx), Passes (.hacc x) s e → ctxIn e.g e.id.who = some c → c.copied = none → (3 ≤ scopeOf x → Acked e) →
    let ps := (e.lanes.map (fun l => (l, (e.av l : Int) + signedOf 24 x.imm.toNat + 0))).map (placed e.s e.id.berth e.g x.quay 64)
    let keys := ps.filterMap (fun p => match p.place with | .ok (.quay k) => some (p.lane, k) | _ => none)
    let own := keys.all (fun k => ownWindow e.id.berth e.g k.2)
    let drained := headDrained e.s (leadBerth e.id.berth e.g) e.g
    (∀ p, p ∈ ps → ∃ k, p.place = .ok (.quay k) ∧ locBad e.s (.quay k) = false) →
    isDet e.g = false ∨ own = true ∨ drained = true →
    ∀ (sts : List (Nat × Nat)) (chained : LaneMask) (t : State), hashRun e (aopOf x) x.ty .now keys e.s = .ok sts chained t →
    isDup e.g = false ∨ chained = 0 ∧ own = true ∨ c.granted = true →
    (isDet e.g = false ∨ chained = 0 ∨ drained = true →
      ((∀ y, y ∈ sts → y.2 % 256 ≠ 4) → exec (.hacc x) s = .next (resultDone e t (laneOf sts))) ∧
      (∀ y ys, sts.filter (fun y => y.2 % 256 == 4) = y :: ys →
        let ovm := ((keys.find? (fun k => k.1 == y.1)).map (fun k => tOvm (descAt t k.2))).getD false
        exec (.hacc x) s = .next (completedTrap e t (dstResult e e.active (laneOf sts)) (dstEntry e (laneOf sts))
          (mkTrap 0x0F (y.1 + 2 ^ 7 * ovm.toNat + 2 ^ 8 * (ys.length + 1) + 2 ^ 32 * e.cv y.1) e.head.mask)))) ∧
    (isDet e.g = true → chained ≠ 0 → drained = false → e.f.dst.toNat < 240 → areaFull e (laneList chained).length = false →
      ∀ sts' chained' t', hashRun e (aopOf x) x.ty .stage keys e.s = .ok sts' chained' t' →
      exec (.hacc x) s = .next (completed e t'
        { dstResult e e.active (laneOf sts') with
          chain := some { mask := e.head.mask, staged := chained', keys := e.lanes.map (fun l => (l, e.cv l)) } }
        none ((wgOf t' (leadBerth e.id.berth e.g)).map (fun g => g.nextRec - 1))))

/-! ### Pigeonholes -/

/-- R190, R194: `qbind` binds the descriptor it names, at a window offset or a logical Quay address; `qunbind` frees the name and lets its
waiters go on; `qcount` gives the entries in the queue, or its free ones. Choices of the model: log 39. -/
def Obligations.BindingCompletes : Prop :=
  ∀ (x : FormQ) (s : State) (e : Env),
    let n := queueNo x.dst
    let a := e.av e.first
    let bound := fun (key : Nat) (win : Option Nat) =>
      noneDone e (modWg e.s e.id.berth (fun g => { g with binds := g.binds.set n (some (newBinding e.s e.id.berth e.g (descAt e.s key) key win)) }))
    (∀ key, Passes (.qbind x) s e → a % 64 = 0 → bindOf e.g n = none → locBad e.s (.quay key) = false →
      bindReason e.s e.id.berth e.g key = none →
      (x.sub = 1 → a + 64 ≤ hQuayb e.g.hdr → key = winKey e.id.berth e.g a → exec (.qbind x) s = .next (bound key (some a))) ∧
      (x.sub ≠ 1 → logicalKey e.s e.g.part a = some key → quayReach e.s e.id.berth e.g key = true → exec (.qbind x) s = .next (bound key none))) ∧
    (∀ q, Passes (.qunbind x) s e → bindOf e.g n = some q → q.transit = [] →
      exec (.qunbind x) s = .next (noneDone e (modWg e.s e.id.berth (fun g =>
        unblockWhere { g with binds := g.binds.set n none } (fun r => decide (r = .pop n) || decide (r = .push n) || decide (r = .unbind n)))))) ∧
    (∀ q, Passes (.qcount x) s e → bindOf e.g (queueNo x.sa) = some q →
      exec (.qcount x) s = .next (resultDone e e.s (fun _ => if x.sub = 0 then qCount e.s q else q.cap - qCount e.s q)))

/-- R191, R194, R195: `qtrypop`, `qpeek`, `qmask` and `bget` complete with the oldest entry: a crew's lane receives its word, the pilot the entry,
`bget` the entry in every active lane; the popping ones remove it, and `qmask` gives its mask; an empty queue gives `qtrypop` status 0. R192,
R194, R195: `qtrypush` puts its entry in the transit buffer with status 1, or gives status 0; `bcast` puts its group there,
while stores that the issuer has staged under IDEM stay staged (log 50). Choices of the model: log 39, 40, 50. -/
def Obligations.PopsAndPushesComplete : Prop :=
  (∀ (x : FormQ) (s : State) (e : Env) (q : Binding),
     let n := queueNo x.sa
     let val := fun (l : Nat) => if e.k = .crew then leNat (((qOldest e.s q 0).drop (4 * l)).take 4) else leNat (qOldest e.s q 0)
     (Passes (.qtrypop x) s e → MayUse e n false q →
       (MayPop e n → exec (.qtrypop x) s = .next (popDone e q (statusResult e (dstResult e e.active val) x.imm e.active) (dstEntry e val))) ∧
       (∀ m, popState e.s e.g [n] [] = .empty m → exec (.qtrypop x) s = .next (completed e e.s (statusResult e Result.none x.imm 0) none none))) ∧
     (Passes (.qpeek x) s e → bindOf e.g n = some q → MayPop e n →
       exec (.qpeek x) s = .next (resultDone e e.s val)) ∧
     (Passes (.qmask x) s e → MayUse e n false q → MayPop e n →
       exec (.qmask x) s = .next (popDone e q (statusResult e (dstResult e e.active val) x.imm (BitVec.ofNat 128 (qSide e.s q 0) &&& e.active))
         (dstEntry e val))) ∧
     (Passes (.bget x) s e → MayUse e n false q → MayPop e n →
       exec (.bget x) s = .next (popDone e q (dstResult e e.active (fun _ => leNat (qOldest e.s q 0)))
         (dstEntry e (fun _ => leNat (qOldest e.s q 0) % 2 ^ 32))))) ∧
  (∀ (x : FormQ) (s : State) (e : Env) (q : Binding),
     let n := queueNo x.dst
     let q' := if q.cap - (q.tail - q.head).toNat < 1 then { q with head := qHead e.s q, tail := qTail e.s q + BitVec.ofNat 32 q.transit.length } else q
     let fresh := modWg e.s e.id.berth (fun g => modBind g n (fun _ => q'))
     let entry : QEntry := if e.k = .crew
       then { bytes := (tabulate 128 (fun l => natLe 4 (if bitAt e.active l then e.av l else 0))).flatten, mask := e.active }
       else { bytes := natLe 8 (e.av 0), mask := BitVec.allOnes 128 }
     let room := q'.transit = [] ∧ 0 < qCachedFree q'
     (Passes (.qtrypush x) s e → MayUse e n true q →
       (∀ c got, ctxIn e.g e.id.who = some c → c.copied = some got → got.res.refused = false) →
       (room → pushMisowned fresh q' 1 = false →
         exec (.qtrypush x) s = .next (completed e (pushInto fresh e.id n [entry]) (statusResult e Result.none x.imm e.active) none none)) ∧
       (¬ room → exec (.qtrypush x) s =
         .next (completed (withoutPop e) fresh (statusResult e Result.none x.imm 0) none none))) ∧
     (Passes (.bcast x) s e → MayUse e n true q → bits x.imm 6 0 ≤ q.cap → q.transit = [] → bits x.imm 6 0 ≤ qCachedFree q →
       pushMisowned e.s q (bits x.imm 6 0) = false →
       let word := if x.sub = 0 then e.av 0 else e.av 0 / 2 ^ 32
       exec (.bcast x) s = .next (noneDone e (pushInto e.s e.id n (List.replicate (bits x.imm 6 0)
         { bytes := (tabulate 128 (fun _ => natLe 4 word)).flatten, mask := BitVec.allOnes 128 })))))

/-- R199, R201, R202: `own` gives its tiles to the engines or the threads; `twait` goes on once a tag of its mask, or with `.all` every one,
is set, `tfirst` at once; each gives the lowest set tag of its mask, or 64, and clears the hidden error it reports with a trap.
Choices of the model: log 42. -/
def Obligations.OwnershipAndTagsComplete : Prop :=
  ∀ (x : FormQ) (s : State) (e : Env),
    let a := e.av e.first
    let hit := Nat.land e.g.tags.toNat a
    let val := fun (_ : Nat) => if hit = 0 then 64 else trailingZeros 64 hit
    let told := fun (i : Instr) =>
      (e.g.tagErr.find? (fun t => bitAt (BitVec.ofNat 64 hit) t.1) = none → exec i s = .next (resultDone e e.s val)) ∧
      (∀ t, e.g.tagErr.find? (fun t => bitAt (BitVec.ofNat 64 hit) t.1) = some t →
        exec i s = .next (completedTrap e (modWg e.s e.id.berth (fun g => { g with tagErr := aerase t.1 g.tagErr })) (dstResult e e.active val)
          (dstEntry e val) (mkTrap 0x16 (t.1 + 2 ^ 8 * t.2) e.head.mask)))
    (Passes (.own x) s e → a % 4096 = 0 → a + 4096 * bits x.imm 8 0 ≤ hQuayb e.g.hdr →
      exec (.own x) s = .next (noneDone e (setTiles e.s (x.sub == 0) (tabulate (bits x.imm 8 0) (fun k => winKey e.id.berth e.g a / 4096 + k))))) ∧
    (Passes (.twait x) s e → tagMaskBad e.g a = false → (a = 0 ∨ (if x.sub = 0 then hit ≠ 0 else hit = a)) → told (.twait x)) ∧
    (Passes (.tfirst x) s e → tagMaskBad e.g a = false → told (.tfirst x))

/-! ### Engine commands -/

/-- R206, R207, R215, R229, R244: a command whose operands pass its checks, whose completion is usable and whose queue has room is accepted. R219 to
R226: `cmma` in its register and Quay forms and `cdrain` are accepted, a drain's row map named; `accld` gives each active lane its column of the
accumulator, and a sticky error traps after completion; its result may go to a pigeonhole (log 67). Choices of the model: log 20, 34, 67. -/
def Obligations.CommandsAccepted : Prop :=
  (∀ (x : FormE) (s : State) (e : Env),
     let a := e.av e.first
     let b := e.bv e.first
     let c := e.cv e.first
     let taken := fun (i : Instr) (k : Engine) (opc a b c : Nat) (use : GlobalUse) =>
       Passes i s e → MayAccept e k x [] use → exec i s = .next (commandDone e k x (cmdOf e k x opc a b c [] use) (fun s => s))
     let source := b % 64 = 0 ∧ canonical b = true
     let list := c % 4 = 0 ∧ c + 4 ≤ hQuayb e.g.hdr
     let array := (arrayOf e.s e.id.berth e.g).isSome = true
     let range := rgBad b = false ∧ b / 2 ^ 25 = 0
     let area := fun (n al : Nat) => a + n ≤ hQuayb e.g.hdr ∧ a % al = 0
     (a % 64 = 0 → canonical a = true →
       (source → taken (.lcopy x) .lighter 0x00 a b c (copyUse e a (some b))) ∧
       (source → list → taken (.lgather x) .lighter 0x01 a b c (copyUse e a (some b))) ∧
       (source → list → taken (.lscatter x) .lighter 0x02 a b c (copyUse e a (some b))) ∧
       taken (.lfill x) .lighter 0x03 a b c (copyUse e a none)) ∧
     taken (.czero x) .crane 0x11 0 0 0 .none ∧
     (array →
       (area 64 64 → taken (.bycoup x) .buoy 0x20 a b 0 .reads) ∧
       (range → area (2 * rgCount b) 1 → taken (.bybias x) .buoy 0x21 a b 0 .none) ∧
       (range → area (rgBitBytes b) 4 → taken (.byclamp x) .buoy 0x22 a b 0 .none) ∧
       (range → taken (.byfree x) .buoy 0x23 a b 0 .none) ∧
       (a / 2 ^ 10 % 32 ≠ 31 → 1 ≤ b → b ≤ 2 ^ 20 → a / 2 ^ 43 = 0 → taken (.bysweep x) .buoy 0x24 a b 0 .reads) ∧
       (range → area (4 * rgCount b) 1 → taken (.bycount x) .buoy 0x25 a b 0 .none) ∧
       (range → area (rgBitBytes b) 1 → taken (.bystate x) .buoy 0x26 a b 0 .none) ∧
       (a / 2 ^ 32 = 0 → a / 2 ^ 3 % 2 ^ 13 = 0 → taken (.bymode x) .buoy 0x27 a b 0 .none) ∧
       (b / 2 ^ 15 = 0 → area (4 * lkEntries b) 1 → taken (.bybmap x) .buoy 0x28 a b 0 .none))) ∧
  (∀ (x : FormE) (s : State) (e : Env),
     let c := e.cv e.first
     let tb := (cmmaTb x).getD .f16
     let regs := tabulate (craneRegs x.ty) (sourceReg e.a) ++ tabulate (craneRegs tb) (sourceReg e.b) ++ (if x.ty.isMx then [sourceReg e.c 0] else [])
     let n := bits x.cs 1 0
     let acc := accOf e.g n
     let val := fun (l : Nat) => ((acc.rows.getD l []).getD (bits x.cs 8 2) 0).toNat
     (Passes (.cmma x) s e → x.sub = 1 → MayAccept e .crane x regs .none →
       exec (.cmma x) s = .next (commandDone e .crane x (cmdOf e .crane x 0x10 0 0 0 regs .none) (fun s => s))) ∧
     (Passes (.cmma x) s e → x.sub ≠ 1 → cmmaCheck e (bits x.cs 19 9) x.ty tb = none → MayAccept e .crane x [] .none →
       exec (.cmma x) s = .next (commandDone e .crane x (cmdOf e .crane x 0x10 (e.av e.first) (e.bv e.first) c [] .none) (fun s => s))) ∧
     (Passes (.cdrain x) s e → cdrainCheck e x = none → MayAccept e .crane x [] .none →
       exec (.cdrain x) s = .next (commandDone e .crane x (cmdOf e .crane x 0x12 (e.av e.first) (e.bv e.first) c [] .none) (fun s =>
         if c / 2 ^ 23 % 2 = 1 then modBoth s e.id.berth (fun g => { g with rowMaps := nsInsert (256 * (c / 2 ^ 24 % 2 ^ 12)) g.rowMaps }) else s))) ∧
     (Passes (.accld x) s e → Performs e → PushFits e → accPending e.s e.id.berth e.g n = false → acc.poison = false →
       (acc.err = false → exec (.accld x) s = .next (completed e e.s (dstResult e e.active val) (dstEntry e val) none)) ∧
       (acc.err = true → exec (.accld x) s = .next (completedTrap e e.s (dstResult e e.active val) (dstEntry e val) (mkTrap 0x16 0x0800 e.head.mask)))))

/-- R235 to R237, R361 to R372: `tarm` arms or disarms its tap; `steer` sets or clears its pair's setting unless the pair is locked; `look`
stores, counts the suppressed lanes and presents each active lane's term in lane order, and is held where one crosses. Choices of the model: log 27, 44. -/
def Obligations.LookoutCompletes : Prop :=
  ∀ (x : FormE) (s : State) (e : Env), Performs e →
    (let k := bits x.cs 2 0
     let p := e.av e.first
     let at_ := e.s.pkg.prbbase.toNat + 64 * p
     let entry : BitVec 512 := BitVec.ofNat 512 (paNat e.s at_ 64)
     let armed := fun (t : Option Tap) => noneDone e (wakeTaps (modWg e.s e.id.berth (fun g => { g with taps := g.taps.set k t })))
     Passes (.tarm x) s e →
      (x.sub = 1 → exec (.tarm x) s = .next (armed none)) ∧
      (x.sub ≠ 1 → p ≤ 255 → hPmask e.g.hdr p = true → locBad e.s (.hbm at_) = false → probeBad entry = false →
        (((tapHome e).taps.getD k none).isSome = true ∨ unitsUsed e.s (berthCore e.id.berth) < Config.tapsPerCore) →
        exec (.tarm x) s = .next (armed (some { look := bitAt x.cs 3, probe := p, entry := entry, sums := [], cache := [] })))) ∧
    (let slot := e.av e.first % 2 ^ 16
     let k := e.av e.first / 2 ^ 16 % 8
     let alpha := e.bv e.first % 2 ^ 32
     let locked := slotSlk (slotBits e.s (asidOf e.g) slot) k = true
     Passes (.steer x) s e → slot ≠ 0xFFFF → ((tapHome e).taps.getD k none).isSome = true → (x.sub ≠ 0 ∨ ∃ v, decodeF fmtF32 alpha = .fin v) →
      (locked → exec (.steer x) s = .next (noneDone e e.s)) ∧
      (¬ locked → x.sub = 1 → exec (.steer x) s = .next (noneDone e (slotBit e.s (asidOf e.g) slot (8 + k) false))) ∧
      (¬ locked → x.sub ≠ 1 → exec (.steer x) s =
        .next (noneDone e (slotSetAlpha (slotBit e.s (asidOf e.g) slot (8 + k) true) (asidOf e.g) slot k alpha)))) ∧
    (let slot := fun (l : Nat) => e.bv l % 2 ^ 16
     let stopped := fun (l : Nat) => decide (slot l ≠ 0xFFFF) && slotStop (slotBits e.s (asidOf e.g) (slot l)) && !unsuppressed e.s e.g
     let done := fun (xs : List LaneAcc) =>
      let t := xs.foldl (fun s x => if stopped x.lane then slotSuppress s (asidOf e.g) (slot x.lane) else s)
        (lookStore e e.s (xs.filter (fun x => !stopped x.lane)))
      lookGo (modCtx (noneDone e t) e.id (fun c => { c with looking := lookTerms e })) e.id
     Passes (.look x) s e →
      (x.sub = 0 → exec (.look x) s = .next (done [])) ∧
      (∀ xs, x.sub ≠ 0 → Reaches e true (e.lanes.map (fun l => (l, (e.cv l : Int)))) 4 false true xs → exec (.look x) s = .next (done xs)))

/-- R239 to R242, R281, R289: `region` declares or removes a region; `fork` gives its status, or makes the revision and gives its handle;
`join` of a merged child gives its status and settles it; `discard` drops the child, none of whose revisions is being merged. Each waits for room in
the pigeonhole it pushes, which log 67 lets be named; a fork that is not staged follows its workgroup's stores. Choices of the model: log 20, 46, 67. -/
def Obligations.RevisionsComplete : Prop :=
  ∀ (x : FormE) (s : State) (e : Env), Performs e → PushFits e →
    (let base := e.av 0
     let size := e.bv 0
     let n := bits x.cs 3 0
     let clash := ((tabulate 16 (fun k => k)).zip e.g.pilot.regions).any (fun r => decide (r.1 ≠ n) && (match r.2 with
      | some r => overlaps base size r.base.toNat r.size.toNat
      | none => false))
     let entry : Option Region :=
      if size = 0 then none else some { base := BitVec.ofNat 64 base, size := BitVec.ofNat 64 size, mtype := BitVec.ofNat 4 (bits x.cs 7 4) }
     Passes (.region x) s e → base % 65536 = 0 → size % 65536 = 0 → isGlobal base = true → clash = false → bits x.cs 7 4 ≤ 0xC →
      exec (.region x) s = .next (noneDone e (modBoth e.s e.id.berth (fun g => { g with pilot := { g.pilot with regions := g.pilot.regions.set n entry } })))) ∧
    (∀ xs, Passes (.fork x) s e → Acked e → checkPlaced e.s e.id e.g (manifestLines e) 64 true false = .ok xs →
      let e' := { e with s := fillTlb e.s e.id e.g xs }
      let m := demote (manifestRead e xs 0) (mPrio e.g.man)
      let st := forkStatus e'.s e.id.berth e.g m
      let h := e.g.pilot.lastHandle + 1
      let a : DWord := BitVec.ofNat 64 (e.av 0)
      let t := modBoth (modLaunch e'.s e.g.lid (fun l => { l with budget := l.budget - forkPages e.g.pilot.regions })) e.id.berth
        (fun g => { g with pilot := { g.pilot with lastHandle := h } })
      (st ≠ 0 → exec (.fork x) s = .next (resultDone e' e'.s (fun _ => st * 2 ^ 32))) ∧
      (st = 0 → stages e' = false → StoresOut e' →
        exec (.fork x) s = .next (resultDone e' (forkNow t e.g.lid e.g.part e.g.wgix h m a e.g.pilot.regions) (fun _ => h))) ∧
      (st = 0 → stages e' = true → areaFull e' 1 = false →
        exec (.fork x) s = .next (resultDone e' (modWg t (leadBerth e.id.berth e.g) (fun g => stageOp g e.id.who 0 (pointOf e.s e.id) (.fork h m a e.g.pilot.regions)))
          (fun _ => h)))) ∧
    (∀ rid r st, Passes (.join x) s e → handleRefused e (e.av 0) = false → revOfHandle e.s e.g.lid e.g.wgix (e.av 0) = some (rid, r) →
      r.state = .merged st → exec (.join x) s = .next (resultDone e (closeRev e.s rid .settled) (fun _ => st))) ∧
    (∀ rid r, Passes (.discard x) s e → handleRefused e (e.av 0) = false → revOfHandle e.s e.g.lid e.g.wgix (e.av 0) = some (rid, r) →
      r.merging = none → treeMerging (e.s.nextRev + 1) (dropRev (e.s.nextRev + 1) e.s rid) rid = false →
      exec (.discard x) s = .next (resultDone e (dropRev (e.s.nextRev + 1) e.s rid) (fun _ => 0)))

/-! ### Steps of contexts, queues and barriers -/

/-- R23, R62, R122, R191, R206: a line arrives for the context that is to enter it; an outstanding result is written and leaves its flag;
an `await`, a pop whose entry is there, and a held command whose queue has room ask again. Choices of the model: log 1, 61. -/
def Obligations.ContextEvents : Prop :=
  ∀ (s : State) (c : CtxId) (g : WG) (x : Ctx), wgOf s c.berth = some g → ctxIn g c.who = some x →
    (∀ (flip : BitVec 512) (h : FEntry) (t : State), headFor s c g = some h → ctxEligible s c = true → dueTrap s c = none →
      inLine g h c.who = false → enterLine s c g h flip = .ok t →
      exec (.lineFetch c flip) s = .next t ∧ ∃ y l, ctxOf t c = some y ∧ y.line = some l ∧ l.addr = BitVec.ofNat 64 (lineOf g h c.who) ∧
        lineParity l.bits = true ∧ lineReason l.bits = none) ∧
    (∀ (k : Nat) (p : PendWrite), x.pend[k]? = some p → p.waits = none →
      exec (.resultWrite c k) s = .next (setWg s c.berth (modCtxIn (applyResult g c.who p.res) c.who (fun y =>
        { y with pend := y.pend.eraseIdx k,
                 flags := match p.flag with | some f => y.flags.modify f (fun n => n - 1) | none => y.flags })))) ∧
    (x.blocked = some .await → exec (.awaitReevaluation c) s = .next (freed s c)) ∧
    (∀ n, x.blocked = some (.pop n) → (∀ m, popState s g [n] [] ≠ .empty m) → exec (.popRequest c) s = .next (freed s c)) ∧
    (∀ k, x.blocked = some (.accept k) → engineFull s (berthCore c.berth) k [] = false → exec (.commandAcceptance c) s = .next (freed s c)) ∧
    (x.blocked = some .tapUnit → exec (.commandAcceptance c) s = .next (freed s c))

/-- R192: a home agent with room takes the entries of a transit buffer and empties it, after those that a rollback has taken off their binding; a
binding's cached counts are read afresh. R234, R367: the due Lookout or buoy-bias trap is taken at its slot. R118, R119, R138: a timer that has run
for the time-out writes its record, clears, and withdraws the arrival of the pilot, else of the lowest crew that holds a live one, with cause 0x0C.
A refresh reads head and tail both, as log 39 takes R192. Choices of the model: log 31, 36, 39. -/
def Obligations.QueueTrapAndTimeoutEvents : Prop :=
  (∀ (s : State) (b : Nat) (g : WG), wgOf s b = some g →
     (∀ n q, let t := acceptStrays s b
       (wgOf t b).bind (fun g => bindOf g n) = some q → q.transit ≠ [] → qCount t q + q.transit.length ≤ q.cap →
       exec (.pushAccept b n) s = .next (qWakePops (modWg (qAppend t q false false q.transit) b (fun g =>
         unblockWhere (modBind g n (fun q => { q with transit := [] })) (fun r => decide (r = .push n) || decide (r = .unbind n)))) q.desc)) ∧
     (∀ n, exec (.queueCountRefresh b n) s = .next (setWg s b (unblockWhere
       (modBind g n (fun q => { q with head := qHead s q, tail := qTail s q + BitVec.ofNat 32 q.transit.length })) (fun r => decide (r = .push n))))) ∧
     (∀ w t, dueTrap s ⟨b, w⟩ = some t →
       let y := popTrap s ⟨b, w⟩ t
       let taken := fun (i : Instr) =>
         (t.entry.isSome = true ∨ parkedAt s ⟨b, w⟩ g = none → exec i s = .next (trapAt y.1 ⟨b, w⟩ y.2)) ∧
         (∀ p, t.entry = none → parkedAt s ⟨b, w⟩ g = some p → exec i s = .next (withdrawTrap y.1 b w p y.2))
       (t.cause = 0x10 → taken (.lookoutTrap ⟨b, w⟩)) ∧ (t.cause = 0x11 → w = .pilot → taken (.buoyBiasTrap b)))) ∧
  (∀ (s : State) (b : Nat) (g : WG) (w : Who) (t : Nat), wgOf s b = some g → g.run = .running → t + hTimeout g.hdr ≤ s.cycle →
     (∀ n x, g.bars[n]? = some x → x.start = some t → timeoutReceiver s b g (.barrier n) = some w →
       let d := diagWrite s b g (.barrier n)
       exec (.barrierTimeout b n) s = .next (withdrawTrap
         (modWg d.2 b (fun g => { g with bars := g.bars.modify n (fun x => { x with start := none }) })) b w (.barrier n) (mkTrap 0x0C d.1 0))) ∧
     (g.ckBar.start = some t → timeoutReceiver s b g .ckpt = some w →
       let d := diagWrite s b g .ckpt
       exec (.checkpointTimeout b) s = .next (withdrawTrap
         (modWg d.2 b (fun g => { g with ckBar := { g.ckBar with start := none } })) b w .ckpt (mkTrap 0x0C d.1 0))))

/-! ### Steps of the engines -/

/-- R207 to R209: a command that has stopped flips its tiles and sets its tag once; when its home agents have room its record is appended, it
leaves its queue, and the contexts that wait for it ask again; the records of cancelled commands follow, with code 0x09. Choices of the model: log 43. -/
def Obligations.CommandsComplete : Prop :=
  ∀ (s : State) (core : Nat) (k : Engine) (x : Cmd) (err info : Nat) (plim : Bool), headCmd s core k = some x → x.fin = some (err, info, plim) →
    let t := if x.flipped then s else wakeEngine (modHead (flipAndTag s x err) core k (fun x => { x with flipped := true })) core x.berth
    let qs := recordQueues x
    ((∀ q, q ∈ qs → qCount t q + 1 ≤ q.cap) →
      let eerr := decide (err ≠ 0) && decide (err ≠ 0x0A)
      let u := qs.foldl (fun s q => qWakePops (qAppend s q true eerr [recordEntry q.wide (recordBits x err info plim)]) q.desc) t
      let v := modCore u core (fun c => setEngineQ c k ((engineQ c k).drop 1))
      exec (.engineCommandCompletion core k) s = .next (postCancelled (wakeEngine (if plim then biasTrap v x.berth x.c.toNat else v) core x.berth) core)) ∧
    ((∃ q, q ∈ qs ∧ ¬ qCount t q + 1 ≤ q.cap) → exec (.engineCommandCompletion core k) s = .next (postCancelled t core))

/-- R211, R214 to R217, R248: the lighter's next command binds the records it names and starts; it moves its next run of bytes, at most to the
next line, or its next MX block with its scale byte: from the fill pattern, or from the source at the row that it is at or that its index
list names, with what its source line has beyond them held for later, or the run it has kept while another package acknowledged its bytes; it ends with
its last byte. Choices of the model: log 43, 53. -/
def Obligations.LighterRuns : Prop :=
  ∀ (s : State) (core : Nat) (x : Cmd) (g : WG), headCmd s core .lighter = some x → wgOf s x.berth = some g → x.wait = none → x.rebuild = none →
    x.fin = none →
    (∀ d, x.started = false → leavingWg s x.berth = false →
      let read := fun (t : State) (a : Nat) => if isGlobal a then tlbFill t core (asidOf g) a else t
      let f := read s x.a.toNat
      let starts := fun (t : State) (rs : List (BitVec 512)) => exec (.lighterDequeue core) s = .next (walkAhead
        (modHead (remoteDone t core) core .lighter (fun y => { y with started := true, bound := rs })) core g { x with started := true, bound := rs })
      bindBlock f x.berth g x.carry x.a.toNat = .ok d → recordBad d = false →
      (x.opc = 0x03 → starts f [d]) ∧
      (∀ r, x.opc < 0x03 →
        let h := read f x.b.toNat
        bindBlock h x.berth g x.carry x.b.toNat = .ok r → recordBad r = false → rEt r = rEt d → rMxs r = rMxs d →
        (if x.opc = 0 then rExt r 0 * rRows r = rExt d 0 * rRows d
         else rExt r 0 = rExt d 0 ∧ x.c.toNat + 4 * rRows (if x.opc = 1 then d else r) ≤ hQuayb g.hdr) →
        starts h [d, r])) ∧
    (∀ d w rd rs bs bad last t puts u, x.started = true → leavingWg s x.berth = false ∨ x.edge = false → x.bound[0]? = some d → walkRecord x = some w →
      let r := x.bound.getD 1 d
      let f := if x.done % rRowBytes w = 0 then walkAhead s core g x else s
      let n := (chunkTo x d w rd).2
      let h := modHead f core .lighter (fun y => { y with row := chunkRow x rd rs })
      chunkRows f g x d r w = (.ok rd, .ok rs) →
      (x.chunk = none ∧ (∃ bs', chunkRead h g x d r w rs n = .ok bs' last t ∧ bs = x.buf ++ bs') ∧ bad = (last || (decide (0 < x.buf.length) && x.bufBad)) ∨
        ∃ c, x.chunk = some c ∧ t = h ∧ bs = c.bytes ∧ bad = c.bad ∧ last = c.lastBad) →
      placeSegs x.berth g x.carry d (chunkSegs f g x d d (lineSegs 4 (chunkTo x d w rd).1 n)) bs t = .ok puts u →
      let wrote := fun (poison : Bool) (s : State) (ps : List PutAt) =>
        ps.foldl (fun s p => modHead (engWrite s g p.l p.win p.bs poison) core .lighter (fun x => noteTile x p.l p.win)) s
      let data := fun (v : State) => wrote bad v puts
      let moved := fun (v : State) =>
        let v := modHead (remoteDone v core) core .lighter (fun y =>
          { y with done := x.done + n, edge := decide (x.done / 4096 < (x.done + n) / 4096), buf := bs.drop n, bufBad := last, chunk := none,
                   row := if rRowBytes w ≤ x.done % rRowBytes w + n then none else y.row })
        exec (.lighterProgress core) s = .next (if rRowBytes w * rRows w ≤ x.done + n
          then endHead v core .lighter 0 (lighterInfo { x with done := x.done + n }) else v)
      (rMxs d = false → moved (data u)) ∧
      (∀ sb sbad sputs y, rMxs d = true →
        (x.chunk = none ∧ (∃ v, chunkScale h g x r w rs = .ok sb sbad v) ∨ ∃ c, x.chunk = some c ∧ sb = c.scale ∧ sbad = c.scaleBad) →
        placeSegs x.berth g x.carry d [(scaleAt x d w rd, 1)] sb u = .ok sputs y → moved (wrote sbad (data y) sputs)))

/-- R211, R218, R222, R225, R361, R369: the crane's next command starts; `czero` clears its accumulator, and an accumulator in error stops the
others; a `cmma` adds one block of each row and column, the Quay form from engine-owned tiles; a drain first has its taps fetch their blocks, of
which a damaged one ends it, and samples its rows' entries, then presents and writes a row at a time, held while a crossing waits for the ring, and
ended where a tile of its row is the threads' again.
Choices of the model: log 44, 60. -/
def Obligations.CraneRuns : Prop :=
  ∀ (s : State) (core : Nat) (x : Cmd) (g : WG), headCmd s core .crane = some x → wgOf s x.berth = some g → x.fin = none →
    let begun := modHead s core .crane (fun y => { y with started := true })
    let col := pCol x.c.toNat
    let fresh := fun (t : Tap) (a : Nat) => some t ∈ g.taps ∧ a ∈ tapBlocks t col ∧ ∀ b, b ∈ t.cache → b.1 ≠ a
    let bad := fun (a : Nat) => ∃ k, k < 4 ∧ s.hbmBad.contains ((a + 64 * k) / 64) = true
    (x.started = false → leavingWg s x.berth = false →
      (x.opc = 0x11 → exec (.craneDequeue core) s =
        .next (endHead (modAcc begun x.berth (craneAcc x) (fun _ => { rows := [], err := false, poison := false })) core .crane 0 0)) ∧
      (x.opc ≠ 0x11 → (accOf g (craneAcc x)).err = true → exec (.craneDequeue core) s = .next (endHead begun core .crane 0x08 0)) ∧
      (x.opc ≠ 0x11 → x.opc ≠ 0x12 → (accOf g (craneAcc x)).err = false → exec (.craneDequeue core) s = .next begun) ∧
      (x.opc = 0x12 → (accOf g (craneAcc x)).err = false →
        ((∃ t a, fresh t a ∧ bad a) → exec (.craneDequeue core) s = .next (endHead begun core .crane 0x07 0)) ∧
        ((∀ t a, fresh t a → ¬ bad a) → exec (.craneDequeue core) s = .next (modWg begun x.berth (fun g =>
          { g with taps := g.taps.map (fun t => t.map (fun t => (tapBlocks t col).foldl (tapFetch begun) t)) }))))) ∧
    (x.started = true → x.opc = 0x10 → leavingWg s x.berth = false →
      let regs := x.sub == 1
      let ranges := if regs then [] else stepRanges x x.done
      let bad := ranges.any (fun r => winBad s x.berth g r.1 r.2)
      let d := if regs then stepRegs x else stepQuay s x.berth g x x.done
      (∀ r, r ∈ ranges → rangeOwned s x.berth g r.1 r.2 = true) →
      let t := modHead (modAcc s x.berth (craneAcc x) (fun a => { stepAcc regs x d a with poison := a.poison || bad })) core .crane
        (fun y => { y with done := y.done + 1 })
      exec (.cmmaStep core) s = .next (if cmmaSteps x ≤ x.done + 1 then endHead t core .crane 0 (x.done + 1) else t)) ∧
    (x.started = true → x.opc = 0x12 →
      (x.bound = [] → (∀ m, rowMapOf x.c.toNat = some m → m + 256 ≤ hQuayb g.hdr) →
        (∀ r, r ∈ drainRanges x → rangeOwned s x.berth g r.1 r.2 = true) →
        exec (.cdrainExecution core) s = .next (modHead s core .crane (fun y => { y with bound := tabulate 128 (sampleRow s x.berth g x) }))) ∧
      (x.bound ≠ [] → x.ring = true → exec (.cdrainExecution core) s = .next s) ∧
      (x.bound ≠ [] → x.ring = false →
        let ranges := rowRanges x x.done (rowStopped s g (x.bound.getD x.done 0))
        let shown := drainPresent s core g x
        ((∃ r, r ∈ ranges ∧ rangeOwned s x.berth g r.1 r.2 = false) →
          exec (.cdrainExecution core) s = .next (endHead s core .crane 0x01 x.phase)) ∧
        ((∀ r, r ∈ ranges → rangeOwned s x.berth g r.1 r.2 = true) → exec (.cdrainExecution core) s = .next (if shown.2 then shown.1 else drainRow shown.1 core ((wgOf shown.1 x.berth).getD g) x))))

/-- R210, R211, R229, R230, R232, R349, R352: the array's next command takes effect at its dequeue: biases, clamps with their states, freed nodes, the
states and the counts written to the window, the mode with its id, the boundary map with its links, and a coupling list, whole and once; a sweep starts
at its first phase, or where the last one of the same word stopped. With the sticky error set, a command with a record ends with code 0x08 and clears
it. Choices of the model: log 45. -/
def Obligations.ArrayCommandsRun : Prop :=
  ∀ (s : State) (core : Nat) (x : Cmd) (g : WG), headCmd s core .buoy = some x → wgOf s x.berth = some g → x.started = false → x.fin = none →
    x.wait = none → x.rebuild = none → leavingWg s x.berth = false →
    let y := (coreOf s core).buoy
    let w := x.b.toNat
    let n := rgCount w
    let owned := fun (n : Nat) => rangeOwned s x.berth g x.a.toNat n = true
    let bs := fun (n : Nat) => winRead s x.berth g x.a.toNat n
    let ran := fun (t : State) => exec (.buoyDequeue core) s = .next (buoyEnd t core 0 0)
    let wrote := fun (bs : List Byte) => modHead (winWrite s x.berth g x.a.toNat bs false) core .buoy (fun x => noteRange x x.a.toNat bs.length)
    let biases := fun (h : List (Nat × BitVec 16)) =>
      (rgNodes w).foldl (fun h i => ainsert i (BitVec.ofNat 16 (leNat (((bs (2 * n)).drop (2 * (i - rgFirst w))).take 2))) h) h
    (y.err = true → x.cq ≠ none → exec (.buoyDequeue core) s = .next (modBuoy (endHead s core .buoy 0x08 0) core (fun y => { y with err := false }))) ∧
    (y.err = false ∨ x.cq = none →
      (x.opc = 0x20 → x.bound = [] → owned 64 → winBad s x.berth g x.a.toNat 64 = false →
        let h : BitVec 512 := BitVec.ofNat 512 (winNat s x.berth g x.a.toNat 64)
        let from_ := if bitAt h 52 then bits h 127 64 else bits h 51 32
        let named := fun (i : Nat) => decide (bits h 11 0 ≤ i) && decide (i < bits h 11 0 + bits h 24 12)
        headerBad h = false → ∀ new t all u,
          listNodes x.berth g x.carry (bitAt h 52) (bits h 24 12) (bits h 11 0) from_ (modHead s core .buoy (fun x => { x with bound := [h] })) = .ok new t →
          copyResident x.berth g x.carry y.lists named (residency (new.foldl (fun ls z => ainsert z.1 z.2 ls) y.lists) 0) t = .ok all u →
          ran (modBuoy u core (fun y => { y with lists := all, coupBad := false }))) ∧
      (x.opc = 0x21 → owned (2 * n) → ran (modBuoy s core (fun y => { y with h := biases y.h }))) ∧
      (x.opc = 0x22 → owned (rgBitBytes w) → ran (modBuoy s core (fun y =>
        { y with m := (rgNodes w).foldl (fun m i => nodeBit m i (decide (leNat (bs (rgBitBytes w)) / 2 ^ (i - rgFirst w) % 2 = 1))) y.m,
                 clamp := (rgNodes w).foldl (fun m i => nodeBit m i true) y.clamp }))) ∧
      (x.opc = 0x23 → ran (modBuoy s core (fun y => { y with clamp := (rgNodes w).foldl (fun m i => nodeBit m i false) y.clamp }))) ∧
      (x.opc = 0x24 → y.offline = false ∨ y.replay = true →
        let go := fun (t : State) (p : Nat) =>
          modHead (modBuoy t core (fun y => { y with resume := none })) core .buoy (fun x => { x with started := true, phase := p })
        (y.resume = none → exec (.buoyDequeue core) s = .next (go s 0)) ∧
        (∀ p, y.resume = some (x.a, p) → exec (.buoyDequeue core) s = .next (go s p)) ∧
        (∀ v p, y.resume = some (v, p) → v ≠ x.a → exec (.buoyDequeue core) s = .next (go (sweepUp s core g.lid) 0))) ∧
      (x.opc = 0x25 →
        let counts := ((rgNodes w).map (fun i => natLe 4 (agetD 0 i y.cnt).toNat)).flatten
        owned counts.length → owned (4 * n) → exec (.buoyDequeue core) s = .next
          (let t := buoyEnd (wrote counts) core 0 0
           if x.sub = 1 then modBuoy t core (fun y =>
             { y with cnt := y.cnt.filter (fun c => !(decide (rgFirst w ≤ c.1) && decide (c.1 < rgFirst w + n))) })
           else t)) ∧
      (x.opc = 0x26 →
        let states := natLe (rgBitBytes w) (y.m.toNat / 2 ^ rgFirst w % 2 ^ n)
        owned states.length → ran (wrote states)) ∧
      (x.opc = 0x27 →
        let v := x.a.toNat
        let id := v / 2 ^ 16 % 2 ^ 16
        let reset := v / 4 % 2 = 1
        ¬ (bitAt g.mode 3 = true ∧ v % 2 = 0) → idTaken s g core id = false →
        let t := if reset ∧ y.id ≠ 0xFFFF then
            modArrays s g.lid (fun r => { r with links := r.links.map (fun l => if l.rid = y.id.toNat then { l with base := 0, labels := [(0, y.m)] } else l) })
          else s
        ran (modBuoy t core (fun y =>
          { (if y.replay && v % 2 = 0 then monitorStart y else y) with
              replay := decide (v % 2 = 1), cnt := if v / 2 % 2 = 1 then [] else y.cnt, sweep := if reset then 0 else y.sweep,
              outbox := if reset then [] else y.outbox, id := BitVec.ofNat 16 id }))) ∧
      (x.opc = 0x28 →
        let k := lkEntries w
        let words := tabulate k (fun j => leNat (((bs (4 * k)).drop (4 * j)).take 4))
        let map := words.map (fun v => (v % 2 ^ 12, v / 2 ^ 12 % 2 ^ 16))
        let link := fun (id : Nat) => linkNow s g.lid { rid := id, stale := w / 2 ^ 12 % 8, base := 0, labels := [] }
        owned (4 * k) → winBad s x.berth g x.a.toNat (4 * k) = false → (∀ v, v ∈ words → v < 2 ^ 28) →
        ran (modBuoy s core (fun y => { y with bmap := map, links := (map.map (fun p => p.2)).eraseDups.map link }))))

/-- R231, R340, R347, R349, R350, R351, R353: a phase of a sweep updates the free nodes of its colour from the states at its start and the labels of
the remote arrays it reads, which stay chosen for the sweep; the oldest states in flight arrive at their subscribers; a window of the monitor with
every count of ones within the limits passes, another faults the array at its lowest such node, and one that is not due leaves the state (log 61). Choices of the model: log 4, 45, 61. -/
def Obligations.SweepsRun : Prop :=
  ∀ (s : State) (core : Nat),
    let y := (coreOf s core).buoy
    let runs := monitorRuns (coreOf s core) = true
    let good := fun (n : Nat) => 31744 ≤ onesIn core y n ∧ onesIn core y n ≤ 33792
    let closes := fun (i : Instr) =>
      ((∀ n, n < 4096 → good n) → exec i s = .next (modBuoy s core (fun y =>
        { y with window := y.window + 1, winStart := y.winStart + 65536, draws := max y.draws (y.winStart + 65536) }))) ∧
      (∀ n, n < 4096 → ¬ good n → (∀ m, m < n → good m) → exec i s = .next (monitorFault s core n))
    (∀ x g, headCmd s core .buoy = some x → wgOf s x.berth = some g → x.started = true → x.fin = none → x.wait = none → x.rebuild = none →
      x.opc = 0x24 → leavingWg s x.berth = false →
      (runs → y.winStart + 65536 ≤ y.draws → closes (.colourPhase core)) ∧
      (∀ ns t (k : Nat → Nat) (m : Nat → BitVec 4096), ¬ runs ∨ y.draws < y.winStart + 65536 → y.offline = false ∨ y.replay = true →
        x.phase ≠ 0 ∨ heldBack s g.lid y = false →
        let nodes := (List.range 4096).filter (fun i => !bitAt y.clamp i && (((alookup i y.lists).map (fun l => l.colour)).getD 0) == swColour x.a.toNat x.phase)
        gatherNodes x.berth g x.carry y nodes s = .ok ns t →
        let bnd := (ns.map (fun n => (n.2.filter (fun c => c.bnd)).map (fun c => c.nb))).flatten.eraseDups
        let ids := (bnd.filterMap (fun k => (y.bmap[k]?).map (fun m => m.2))).eraseDups
        (∀ n, n ∈ bnd → n < y.bmap.length) → (∀ id, id ∈ ids → labelFor t g.lid y y.sweep.toNat id = .use (k id) (m id)) →
        let labels := ids.foldl (fun a id => ainsert id (m id) a) []
        let relink := fun (l : Link) => if ids.contains l.rid then linkNow (remoteDone t core) g.lid l else l
        exec (.colourPhase core) s = .next (phaseDone (modBuoy (remoteDone t core) core (fun y =>
          { updateNodes core g y labels (swBeta x.a.toNat) x.phase ns with
              links := y.links.map relink, chosen := ids.foldl (fun a id => ainsert id (k id) a) y.chosen,
              stall := BitVec.ofNat 32 (stallCount t.cycle y), stallFrom := none })) core g x))) ∧
    (∀ id k m rest lid, y.outbox = (id, k, m) :: rest → y.owner = some lid →
      exec (.boundaryUpdate core) s = .next (modArraysIm (modBuoy s core (fun y => { y with outbox := rest })) lid (fun im r =>
        { r with links := r.links.map (fun l => if l.rid = id && !l.labels.isEmpty then linkAdd (labelKept im r l) l k m else l) }))) ∧
    (runs → closes (.plimsollWindow core y.window)) ∧
    (∀ w, ¬ runs ∨ w ≠ y.window → exec (.plimsollWindow core w) s = .next s)

/-- R275, R366, R367, R369, R408, R268: a ring whose next place lies in HBM takes the records it has room for, each in 32 bytes at its tail; the
traps of the crossings whose records the Lookout ring has taken become pending, and what waits for them goes on. A ring whose next place no stack
backs stops the machine, for the manual gives that write no effect. Choices of the model: log 25, 44. -/
def Obligations.RingsTakeRecords : Prop :=
  ∀ (s : State) (n : Nat),
    let p := partOf s n
    let taken := fun (r : Ring) => ringDrain s.hbm r r.wait.length
    (ringUnbacked p.fr = false → exec (.faultRecord n) s =
      .next (modPart { s with hbm := (taken p.fr).1 } n (fun q => { q with fr := (taken p.fr).2 }))) ∧
    (ringUnbacked p.hev = false → exec (.harbourEvent n) s =
      .next (modPart { s with hbm := (taken p.hev).1 } n (fun q => { q with hev := (taken p.hev).2 }))) ∧
    (ringUnbacked p.lkr = false →
      let k := p.lkr.wait.length - (taken p.lkr).2.wait.length
      exec (.lookoutRingRecord n) s = .next ((p.looks.take k).foldl crossed
        (modPart { s with hbm := (taken p.lkr).1 } n (fun q => { q with lkr := (taken p.lkr).2, looks := q.looks.drop k })))) ∧
    (ringUnbacked p.fr = true → exec (.faultRecord n) s = .fault .unbackedPhysical) ∧
    (ringUnbacked p.hev = true → exec (.harbourEvent n) s = .fault .unbackedPhysical) ∧
    (ringUnbacked p.lkr = true → exec (.lookoutRingRecord n) s = .fault .unbackedPhysical) ∧
    (∀ (r : Ring) (x : BitVec 256), MemoryForm s → r.wait = [x] → (r.tail - r.head).toNat < r.cap.toNat →
      let at_ := r.base.toNat + 32 * (r.tail.toNat % r.cap.toNat)
      cellsReadN (taken r).1 at_ 32 = natLe 32 x.toNat ∧ (taken r).2 = { r with wait := [], tail := r.tail + 1 } ∧
        ∀ a, (a < at_ ∨ at_ + 32 ≤ a) → cellsRead a (taken r).1 = cellsRead a s.hbm)

/-! ### Revisions, release and placement -/

/-- R282, R285, R288, R289: a page copy is made and its waiters go on; a due merge takes, line by line and region by region, the bytes of a
child that completed with status 0, nothing of a failed one, and its joiners ask again. R257, R322, R323, R326: the
head's next record, resident, saved or ended, is released once what went before it is performed at system scope, its value or trap going to its
issuer, or holds the release. R331, R332: a pair that compares equal goes on, its held stores out; one that first differs rolls back. Choices of the
model: log 46, 50, 51, 57. -/
def Obligations.RevisionAndReleaseEvents : Prop :=
  (∀ (s : State) (rid : Nat) (r : Rev), alookup rid s.revs = some r →
     (∀ page side e size, s.wgs.any (fun x => (whos x.2).any (fun w =>
         ((ctxIn x.2 w).bind (fun c => c.blocked)) == some (.copy rid page side))) = true → walk s r.asid (page * 65536) = some (e, size) →
       exec (.pageCopy rid page side) s = .next (unblockAll (copyPage s rid page side (ePa e + page * 65536 % size))
         (fun _ _ b => decide (b = .copy rid page side)))) ∧
     (mergeDue s rid = true ∨ r.merging ≠ none →
       let failed := ((launchOf s r.child).map (fun l => decide (l.status ≠ 0))).getD false
       let ended := fun (status : Nat) => exec (.merge rid) s = .next (unblockAll (closeRev s rid (.merged status)) (fun _ g b => match b with
         | .join h => (g.lid == r.lid && g.wgix == r.wgix && decide (r.handle ≤ h))
           || (revOfHandle s g.lid g.wgix h).any (fun x => liesUnder (s.nextRev + 1) s rid x.1)
         | _ => false))
       let p := r.merging.getD { region := 0, unit := 0, counts := [] }
       (failed = true → ended 1) ∧
       (failed = false → p.region = r.regions.length → ended 0) ∧
       (∀ g, failed = false → r.regions[p.region]? = some (some g) →
         let at_ := fun (t : State) (q : MergePos) => exec (.merge rid) s = .next (modRev t rid (fun r => { r with merging := some q }))
         (∀ k, g.mtype ≠ 0xB → nextLine s r rid g p.unit = some k →
           at_ (mergeAt s r rid g.mtype.toNat (g.base.toNat + 64 * k)) { p with unit := k + 1 }) ∧
         (g.mtype = 0xB → p.counts = [] → at_ s { p with counts := (appendRead s r rid g.base.toNat).list }) ∧
         (g.mtype = 0xB → p.counts ≠ [] →
           let c := appendOf p.counts
           let now := appendRead s r rid g.base.toNat
           c.nA < c.nC → p.unit ≤ c.lines g.size.toNat →
           (¬ (now.nP = c.nP ∧ now.rsz = c.rsz) → at_ s { p with unit := 0, counts := now.list }) ∧
           (now.nP = c.nP ∧ now.rsz = c.rsz →
             (p.unit < c.lines g.size.toNat → at_ (appendLine s r rid g.base.toNat g.size.toNat c p.unit) { p with unit := p.unit + 1 }) ∧
             (p.unit = c.lines g.size.toNat →
               at_ (appendHeader s r g.base.toNat g.size.toNat { c with lost := now.lost, bad := now.bad }) { p with unit := p.unit + 1 })))))) ∧
  (∀ (s : State),
     (∀ lid l, launchOf s lid = some l → launchDet l = true →
       (unperformed s lid l.relHead = true → exec (.postmarkRelease lid) s = .next (advanceHead s lid)) ∧
       (unperformed s lid l.relHead = false → (∀ home r rs, headRecords s l ≠ some (home, r :: rs)) →
         exec (.postmarkRelease lid) s = .next (advanceHead (advanceHead s lid) lid)) ∧
       (∀ home r rs, unperformed s lid l.relHead = false → headRecords s l = some (home, r :: rs) → headWriting s l home = false →
         let x := releaseRec s l (homeCore l home) r
         let went := fun (t : State) => exec (.postmarkRelease lid) s =
           .next (advanceHead (releaseLoop 512 (modRecords t lid l.relHead (fun rs => rs.filter (fun y => y.id != r.id))) lid) lid)
         (x.2 = .later → exec (.postmarkRelease lid) s = .next (advanceHead x.1 lid)) ∧
         (∀ v, x.2 = .done v → went (deliverRecord x.1 lid l.relHead r (some v))) ∧
         (∀ t, x.2 = .refused t → went (queueTrap (deliverRecord x.1 lid l.relHead r none) lid l.relHead r.who t)) ∧
         (∀ man a, r.op = .spawn man a → x = (submit s l.part man none none a.toNat, .done 0)) ∧
         (∀ n man a regions, r.op = .fork n man a regions → x = (forkNow s l.lid l.part l.relHead n man a regions, .done 0)) ∧
         (∀ n, r.op = .join n → x.1 = s ∧
           ((∀ y, revOfHandle s l.lid l.relHead n = some y → revOver y.2 = true) → x.2 = .done 0) ∧
           (∀ y, revOfHandle s l.lid l.relHead n = some y → revOver y.2 = false → x.2 = .later)) ∧
         (∀ a pa z, r.op = .depdec a → pageHeld s l.lid (mAsid l.man) a.toNat = false → recordShort s l (homeCore l home) r = false →
           recordFailed s l r = false → devLoc s (mAsid l.man) l.view a.toNat true = some z →
           (∀ q, z = .remote q →
             x = releaseAway s l (homeCore l home) r a.toNat q 8 depdecRmw [] (fun s old => (decremented s q old, old))) ∧
           (rawPa s (mAsid l.man) a.toNat = some pa → (∀ q, z ≠ .remote q) →
           let u := copyAll s (mAsid l.man) l.view a.toNat pa (s.nextRev + 2)
           locBad u (viewLoc u l.view a.toNat pa) = false →
           x = ((decrement u (viewLoc u l.view a.toNat pa)).2, .done (decrement u (viewLoc u l.view a.toNat pa)).1))))) ∧
     (∀ c lead trail g h x y e f, pairOf s c.berth = some (lead, trail) → wgOf s lead = some g → wgOf s trail = some h →
       ctxIn g c.who = some x → ctxIn h c.who = some y → x.blocked = some .countersign → y.blocked = some .countersign →
       peekEnv s ⟨lead, c.who⟩ = some e → peekEnv s ⟨trail, c.who⟩ = some f →
       g.log.find? (fun k => decide (k.who = c.who) && k.ordinal == x.ordinal) = none →
       let same := x.sig = y.sig ∧ e.i = f.i ∧ signedOperands e = signedOperands f
       (∀ t, same → g.log.length < 1024 → releaseHeld s ⟨lead, c.who⟩ = some t →
         let u := dropHeld t lead c.who
         exec (.countersignPoint c) s = .next (if ((wgOf u lead).map (fun g => unacked u g.lid g.wgix)).getD false then u else grant u lead c.who)) ∧
       (¬ same → g.mism = 0 → rollbackWaits s lead = false → exec (.countersignPoint c) s = .next (rollback (modPair s lead (fun g => { g with mism := g.mism + 1 })) lead))))

/-- R135, R279, R308 to R311, R313, R314: a launch whose counter could not be read, or lies in another package, registers again; a launch is dealt, a
dealt workgroup placed on its chunk's core, a core with resources freed refilled in roadstead order, a gang's next member reserved and a reserved gang
committed, unless a workgroup that has returned, or a lower gang, goes before it. Choices of the model: log 47, 52. -/
def Obligations.PlacementEvents : Prop :=
  ∀ (s : State),
    (∀ lid l, launchOf s lid = some l →
      (l.state = .submitted ∨ l.state = .waiting ∧ counterAway s l ≠ none → exec (.launchDeal lid) s = .next (registerAgain s l)) ∧
      (dealable s l = true → l.hdr.isSome = true → mGang l.man = 0 → dealNow s l = true →
        let t := dealLoop (16 * 640) s lid
        exec (.launchDeal lid) s = .next (modLaunch t lid (fun l =>
          { l with dealDue := (dealCore t l).isSome || (gangOf t lid).isSome || (launchDup l && outranked t l.part l) }))) ∧
      (∀ wgix c t, l.chunks.find? (fun c => c.2.contains wgix) = some c → (∀ n, n ∈ c.2 → wgix ≤ n) → placeable l = true → waitsBehind l wgix = false →
        bringOn s l.part l wgix c.1 = some t → exec (.placement lid wgix) s = .next t) ∧
      (∀ part y, dealable s l = true → l.hdr.isSome = true → gangOf s lid = some (part, y) → outranked s part l = false →
        (gangBehind s l y.gang = false → exec (.gangReserve lid) s = .next (reserveNext s part l y)) ∧
        (gangBehind s l y.gang = true → exec (.gangReserve lid) s = .next (dropGang s part))) ∧
      (∀ part y, gangOf s lid = some (part, y) → gangMissing s l y.gang ≠ [] → gangBehind s l y.gang = false →
        (∀ w, w ∈ gangMissing s l y.gang → (reservedOf y w).length = copiesOf l ∧ ((savedOf l w).isEmpty = false ∨ (argBytes s l w).isSome = true)) →
        exec (.gangCommit lid) s = .next (settleLaunch (commitMembers part y lid (gangMissing s l y.gang)
          (modPart s part (fun p => { p with gang := none }))) lid))) ∧
    (∀ core p l rest w t, partOfCore s core = some p → refillNow s core = true → retirementDue s core = false → saveDue s core = false →
      roadstead s p = l :: rest → launchOf s l.lid = some l → dealable s l = true → l.hdr.isSome = true → mGang l.man = 0 →
      (launchDup l = true → (partOf s l.part).gang = none ∧ outranked s l.part l = false) → lowestUnplaced l = some w →
      ((coreOf s core).freed = true ∨ l.back.contains w = true) → bringOn s l.part l w core = some t →
      exec (.refillRule core) s = .next (refillLoop core p (coreOf s core).freed 33 t))

/-- R114, R304, R305, R312, R323: a workgroup whose contexts have ended, with nothing outstanding, retires and frees its berth; a completing
launch writes its status, then reads its successor list, then decrements their counters, and is over; a translation fault, or a request to another
package, holds it where it stands; harbour software reports one handed to it, and ends one, the commands of its saved workgroups with it.
Choices of the model: log 47, 52. -/
def Obligations.EndsComplete : Prop :=
  ∀ (s : State),
    (∀ b g t, wgOf s b = some g → copyDone s b g = true → g.peer = none → idemFlush s b = .ok t → unacked t g.lid g.wgix = false →
      exec (.workgroupRetirement b) s = .next (retireNote (retireCopy t b) g)) ∧
    (∀ lid l, launchOf s lid = some l → l.state = .completing → l.ended = [] → (∀ x, x ∈ s.revs → x.2.lid = lid → revOver x.2 = true) →
      (∀ x, x ∈ s.wgs → x.2.lid ≠ lid) → (∀ r, r ∈ s.pkg.remote → ∀ h, r.home = some h → h.1 = lid → r.answer ≠ none) →
      let left := 2 * mNsucc l.man + 2
      let went := fun (t : State) => exec (.launchCompletion lid) s = .next (doneSteps left t lid)
      let stays := fun (t : State) => exec (.launchCompletion lid) s = .next t
      let step := fun (t : State) (f : DonePos → DonePos) => modDone (doneSkipped t lid) lid f
      let away := fun (op pa rmw : Nat) (payload : List Byte) (on : State → Option (List Byte) → Prop) =>
        (masterAnswer s lid (mNwg l.man) op pa = none → stays (masterSend s lid (mNwg l.man) op pa 8 rmw payload)) ∧
        (∀ r, masterAnswer s lid (mNwg l.man) op pa = some r → (r.answer = none → stays s) ∧ (∀ bs, r.answer = some bs → on (requestTaken s r) bs))
      (l.done.status = false →
        let bad := decide (mSucc l.man ≠ 0) && fieldAddrBad (mSucc l.man) 8 && !l.done.noted
        let word := natLe 8 (l.status + 2 ^ 32 * l.id.toNat)
        let wrote := fun (t : State) =>
          let u := step t (fun d => { d with status := true, noted := d.noted || bad })
          went (if bad then skipRecord u l 0 else u)
        (doneStatus l = none → wrote s) ∧
        (∀ a, doneStatus l = some a →
          (∀ x, donePlace s l a true = .ok x → wrote ((devWrite s (mAsid l.man) l.view a word).getD s)) ∧
          (donePlace s l a true = .skip → wrote s) ∧
          (∀ va, donePlace s l a true = .hold va → stays (masterFault s l va true)) ∧
          (∀ pa, donePlace s l a true = .away pa → away 1 pa 0 word (fun t _ => wrote t)))) ∧
      (l.done.status = true →
        let put := fun (t : State) (c : Option Nat) => went (step t (fun d => { d with read := d.read ++ [c] }))
        let counted := fun (t : State) => went (step t (fun d => { d with decs := d.decs + 1 }))
        (∀ a, (doneList l)[l.done.read.length]? = some a →
          (∀ x, donePlace s l a false = .ok x → put s (some (leNat (locRead s x 8)))) ∧
          (donePlace s l a false = .skip → put s none) ∧
          (∀ va, donePlace s l a false = .hold va → stays (masterFault s l va false)) ∧
          (∀ pa, donePlace s l a false = .away pa → away 2 pa 0 (natLe 2 8) (fun t bs => put t (bs.map leNat)))) ∧
        ((doneList l)[l.done.read.length]? = none →
          (l.done.read[l.done.decs]? = some none → counted (skipRecord s l 0)) ∧
          (∀ a, l.done.read[l.done.decs]? = some (some a) →
            (fieldAddrBad a 8 = true → counted (skipRecord s l a)) ∧
            (fieldAddrBad a 8 = false →
              (donePlace s l a true = .skip → counted (skipRecord s l a)) ∧
              (∀ va, donePlace s l a true = .hold va → stays (masterFault s l va true)) ∧
              (∀ pa, donePlace s l a true = .away pa → away 4 pa depdecRmw [] (fun t bs => match bs with
                | some bs => counted (decremented t pa (leNat bs))
                | none => counted (skipRecord t l a))) ∧
              (∀ x pa, donePlace s l a true = .ok x → rawPa s (mAsid l.man) a = some pa →
                let t := copyAll s (mAsid l.man) l.view a pa (s.nextRev + 2)
                counted (decrement t (viewLoc t l.view a pa)).2))) ∧
          (l.done.read[l.done.decs]? = none → stays (launchOver s l))))) ∧
    (∀ lid l, s.pkg.westUp = true → launchOf s lid = some l → l.state ≠ .completed → ¬ (l.state = .completing ∧ l.status = 3) →
      let t := l.saved.foldl cancelSaved ((launchBerths s lid).foldl endBerth s)
      let ends := fun (u : State) => exec (.launchEnd lid) s = .next (advanceHead (modLaunch (disownRemote u lid) lid (fun l =>
        { l with state := .completing, status := 3, done := { l.done with status := false }, undealt := mNwg l.man, chunks := [], saved := [],
                 aborted := [], ended := [], dealDue := false })) lid)
      (gangOf t lid = none → ends t) ∧ (∀ y, gangOf t lid = some y → ends (dropGang t y.1))) ∧
    (∀ part v l, s.pkg.westUp = true → s.launches.find? (fun l => l.part == part && l.handed && decide (l.id = BitVec.ofNat 32 (bits v 31 0)) &&
        decide (l.state = .ready)) = some l →
      exec (.hdone part v) s =
        .next (finishLaunch (modLaunch s l.lid (fun l => { l with handed := false, state := .completing, status := bits v 39 32 })) l.lid))

/-- R317, R318, R278, R399 to R401, R398: a quantum that ends without a waiting launch starts anew, and a victim is marked; a victim stops and
writes its results; a drained workgroup is saved, its image written to its area; a saved one returns; one held for `FHOLD` is swapped out; harbour
software resumes a stopped one at its valid `TEPC` or at a valid code point it chose, a halted one at the slot after `halt`, and with an invalid one its
launch ends. Choices of the model: log 23, 55. -/
def Obligations.PreemptionEvents : Prop :=
  ∀ (s : State) (b : Nat) (g : WG), wgOf s b = some g →
    (g.preempt = false → g.run ≠ .draining →
      let chosen := exec (.quantumExpiry b) s = .next ((withGang s g).foldl (fun s k => modWg s k (fun g => { g with preempt := true })) s)
      (urgentVictim s b g = true → chosen) ∧
      (urgentVictim s b g = false → quantumOver s g = true →
        (quantumVictim s b g = false → exec (.quantumExpiry b) s = .next (setWg s b { g with quantum := s.cycle })) ∧
        (quantumVictim s b g = true → chosen))) ∧
    (g.preempt = true → g.run = .running → onHotDie s b = false →
      exec (.preemption b) s = .next (modPair (startDrain s b) b (fun g => (whos g).foldl commitAll g))) ∧
    (∀ a, g.peer = none → copyDrained s b g = true → onHotDie s b = false → retirementDue s (berthCore b) = false →
      let t := if ((coreOf s (berthCore b)).lighter.head?).any (fun x => x.berth == b) then remoteDone s (berthCore b) else s
      let v : Saved := { imageSave s b g with base := a, len := imageLen (imageSave s b g) }
      areaAt s (asidOf g) [] v.len = some a →
      exec (.contextSave b) s = .next (wakeTaps (settleLaunch (freeBerth (parkRemote
        (imageWrite (modLaunch t g.lid (fun l => { l with saved := l.saved ++ [v] })) v (launchIdOf t g)) b g.lid g.wgix g.copy) b) g.lid))) ∧
    (∀ l wgix core part n, launchOf s l.lid = some l → partOfCore s core = some part → memberNeed l wgix = some n → placeable l = true →
      (savedOf l wgix).isEmpty = false → (∀ v, v ∈ savedOf l wgix → savedHeld v = false) → mGang l.man = 0 → waitsBehind l wgix = false →
      detPlaceable s l wgix = true → fits s part core n = true →
      (∀ t, launchDup l = false → restoreOn s part l.lid wgix core none = some t → exec (.restore l.lid wgix core) s = .next t) ∧
      (launchDup l = true → (partOf s part).gang = none → outranked s part l = false →
        (∀ o t, (coreOrder s part l).find? (fun c => c != core && fits s part c n) = some o → restoreOn s part l.lid wgix core (some o) = some t →
          exec (.restore l.lid wgix core) s = .next t) ∧
        ((coreOrder s part l).find? (fun c => c != core && fits s part c n) = none →
          exec (.restore l.lid wgix core) s = .next (modPart s part (fun p => { p with gang := some { lid := l.lid, gang := wgix, reserved := [(wgix, core)] } }))))) ∧
    (∀ t, g.faultSince = some t → t + (partOf s g.part).fhold ≤ s.cycle → saveRoom s (asidOf g) (withPair s g) = true → onHotDie s b = false →
      exec (.fholdExpiry b) s = .next (modPair (startDrain s b) b (fun g => (whos g).foldl commitAll g))) ∧
    (∀ point, s.pkg.westUp = true → g.run = .halted ∨ g.run = .stopped → eventHeld s g.part 1 (launchIdOf s g) g.wgix = false → g.peer = none →
      let p := resumePoint g point
      let goes := fun (t : State) => exec (.workgroupResume b point) s =
        .next (modWg t b (fun g => { g with run := .running, stopper := none, stopPt := none }))
      let ends := exec (.workgroupResume b point) s = .next (endLaunch s g.lid)
      (g.stopper = none → (∀ a, p = some a → pcValid a.toNat = true) → goes s) ∧
      (g.stopper = some .pilot → (∀ a, p = some a → pcValid a.toNat = true) → goes (resumeAt s b .pilot point)) ∧
      (g.stopper = none ∨ g.stopper = some .pilot → (∃ a, p = some a ∧ pcValid a.toNat = false) → ends) ∧
      (∀ n, g.stopper = some (.crew n) →
        (resumeEntry s b g n = none ∨ (∀ a, p = some a → cixValid a.toNat = true) → goes (resumeAt s b (.crew n) point)) ∧
        (resumeEntry s b g n ≠ none → (∃ a, p = some a ∧ cixValid a.toNat = false) → ends)))

/-! ### Harbour software and the package -/

/-- R301 to R303: a kick announces a tail; a matching entry is accepted while the quota has room; a mismatched one is read again, and at the
sixteenth reading stops its queue; `EN` and `TORN` start it again. Choices of the model: log 49. -/
def Obligations.SubmissionEvents : Prop :=
  ∀ (s : State) (part n : Nat) (v : DWord),
    let q := sqOf s part n
    let put := fun (t : State) (q : SubQ) => modSq t part n (fun _ => q)
    (s.pkg.westUp = true → exec (.kick part n v) s =
      .next (put s { q with tail := BitVec.ofNat 32 (v.toNat % 2 ^ 32), kseq := BitVec.ofNat 32 (v.toNat / 2 ^ 32), tries := 0 })) ∧
    (let taken : SubQ := { q with head := q.head + BitVec.ofNat 32 (sqLen s q), xseq := q.xseq + 1, prev := sqManifest s q, tries := 0 }
     sqActive q = true → sqMatch s q = true → quotaFull s part = false →
      exec (.submissionEntry part n) s = .next (submit (put s taken) part (sqManifest s q) none none
          (q.base.toNat + q.head.toNat % q.cap.toNat))) ∧
    (sqActive q = true → sqMatch s q = false →
      (q.tries < 15 → exec (.entryReread part n) s = .next (put s { q with tries := q.tries + 1 })) ∧
      (15 ≤ q.tries → exec (.entryReread part n) s =
        .next (put (putFault s part 0x04 0 0 0 0 (n + 2 ^ 32 * sqSeq s q)) { q with torn := true, tries := 0 }))) ∧
    (s.pkg.westUp = true → ∃ t, exec (.queueReset part n) s = .next t ∧ sqOf t part n = { q with en := true, wasOff := false, xseq := 1, prev := 0, tries := 0 }) ∧
    (s.pkg.westUp = true → exec (.tornClear part n) s = .next (put s { q with torn := false, tries := 0 }))

/-- R274, R277, R300, R336, R337, R355: a verdict on an open fault record reaches all that waits for its page and closes it; an invalidation drops the
translations of its range or address space and completes when no access made with an old one is under way, and a second one waits for the first; a
checkpoint starts, is written when the partition is quiet, and is restored; a partition is defined; a calibration starts, and ends by four windows of
draws; one of other than four windows leaves the state (log 61). Choices of the model: log 4, 22, 23, 53, 56, 61, 67. -/
def Obligations.ServiceEvents : Prop :=
  ∀ (s : State) (part : Nat) (v : DWord),
    let p := partOf s part
    (∀ seqn f, s.pkg.westUp = true → openFault s part seqn = some f →
      let closed := fun (t : State) => modPart t part (fun p => { p with openFaults := p.openFaults.filter (fun g => g.seqn != seqn) })
      let told := fun (ok : Bool) => closed (answerThreads (answerLaunches (answerQueues s f.asid f.page ok) f ok) f.asid f.page ok)
      exec (.replayServiced part seqn) s = .next (told true) ∧ exec (.replayRefused part seqn) s = .next (told false)) ∧
    (s.pkg.westUp = true → p.tlbBusy = false →
      (∃ t, exec (.tlbinvRange part v) s = .next t ∧ (partOf t part).tlbBusy = true ∧ ∀ core y, (coreSlice p core).isSome = true →
        y ∈ (coreOf t core).tlb ++ (coreOf t core).ahead ++ agetD [] (core / Config.coresPerDie) t.walkers → y.asid = v.toNat / 2 ^ 32 % 2 ^ 16 →
        y.page * 65536 + y.size ≤ p.tlbR.toNat / 2 ^ 16 * 65536 ∨ (p.tlbR.toNat / 2 ^ 16 + v.toNat % 2 ^ 32) * 65536 ≤ y.page * 65536) ∧
      (∃ t, exec (.tlbinvAll part v) s = .next t ∧ (partOf t part).tlbBusy = true ∧ ∀ core y, (coreSlice p core).isSome = true →
        y ∈ (coreOf t core).tlb ++ (coreOf t core).ahead ++ agetD [] (core / Config.coresPerDie) t.walkers → y.asid ≠ v.toNat / 2 ^ 32 % 2 ^ 16)) ∧
    (s.pkg.westUp = true → p.tlbBusy = true →
      exec (.tlbinvRange part v) s = .next (modPart s part (fun p => { p with tlbNext := p.tlbNext ++ [(false, v)] })) ∧
      exec (.tlbinvAll part v) s = .next (modPart s part (fun p => { p with tlbNext := p.tlbNext ++ [(true, v)] }))) ∧
    ((∀ r, r ∈ s.pkg.remote → r.answer = none → remotePart s r ≠ some part) →
      (p.tlbNext = [] → exec (.tlbinvCompletion part) s = .next (modPart s part (fun p => { p with tlbBusy := false }))) ∧
      (∀ x xs, p.tlbNext = x :: xs →
        exec (.tlbinvCompletion part) s = .next (tlbStart (modPart s part (fun p => { p with tlbNext := xs })) part x.1 x.2))) ∧
    (s.pkg.westUp = true → p.ckBusy = false → exec (.lckptTake part) s = .next (modPart s part (fun p => { p with ckBusy := true, ckFail := false }))) ∧
    (p.ckBusy = true → quiet s part = true →
      let im := takeImage s part
      let room := im.len ≤ p.lckptl.toNat % 2 ^ 48 ∧ paBacked (imageAddr p) = true ∧ paBacked (imageAddr p + im.len - 1) = true
      (room → exec (.lckptImageWrite part) s =
        .next (modPart { s with hbm := cellsWriteN s.hbm (imageAddr p) (ckptBytes im), images := im :: s.images } part
          (fun p => { p with ckBusy := false, ckDone := true, ckFail := false, lckptl := BitVec.ofNat 64 im.len }))) ∧
      (¬ room → exec (.lckptImageWrite part) s = .next (modPart s part (fun p => { p with ckBusy := false, ckDone := true, ckFail := true })))) ∧
    (let found := s.images.find? (fun x => x.len == p.lckptl.toNat % 2 ^ 48 && decide (cellsReadN s.hbm (imageAddr p) x.len = ckptBytes x))
     s.pkg.westUp = true → p.ckBusy = false →
      (found = none → exec (.lckptRestore part) s = .next (modPart s part (fun p => { p with ckDone := true, ckFail := true }))) ∧
      (∀ im, found = some im → imagePages im.pages s = none →
        exec (.lckptRestore part) s = .next (modPart s part (fun p => { p with ckDone := true, ckFail := true }))) ∧
      (∀ im t, found = some im → imagePages im.pages s = some t →
        ∃ u, exec (.lckptRestore part) s = .next u ∧ u.hbm = t.hbm ∧ u.hbmBad = t.hbmBad ∧ (partOf u part).lidCtr = im.lidCtr ∧ (partOf u part).sq = im.sq ∧
          (partOf u part).ckDone = true ∧ (partOf u part).ckFail = false ∧ u.launches.length = s.launches.length + im.launches.length)) ∧
    (let q : Part := { p with lgp := bits v 3 1, cols := bits v 8 4, row := bitAt v 9 }
     s.pkg.westUp = true → p.en = false → bitAt v 0 = true → pdefLegal s part q = true →
      exec (.pdef part v) s = .next (modPart s part (fun _ => { q with en := true, lidCtr := 0 }))) ∧
    (∀ c k, calCore c = some k →
      (s.pkg.westUp = true → exec (.bycalGo c) s = .next (modCore s k (fun x => { x with buoy := { x.buoy with calBusy := true } }))) ∧
      (∀ n, n ≠ 4 → exec (.calibrationComplete c n) s = .next s) ∧
      (let y := (coreOf s k).buoy
       let pass := ∀ w, w < 4 → ∀ n, n < 4096 →
        let ones := onesIn k { y with window := w, winStart := y.draws + 65536 * w } n
        31744 ≤ ones ∧ ones ≤ 33792
       y.calBusy = true → ∃ t, exec (.calibrationComplete c 4) s = .next t ∧ (coreOf t k).buoy.calBusy = false ∧
        ((coreOf t k).buoy.calPass = true ↔ pass) ∧ ((coreOf t k).buoy.offline = true ↔ y.offline = true ∧ ¬ pass) ∧
        (coreOf t k).buoy.draws = y.draws + 4 * 65536))

/-- R258, R407, R414, R417, R419, R422: a released harbour core reads, writes, modifies and reserves HBM, an error it finds poisoning the line, and
reads, writes and modifies the registers; one to another package is sent; a reserved address answers an access fault, and so, by inference from R268
(log 63), does a hole beside a stack. A register write takes its legal values; a collective is posted, or refused with an event for which it waits.
Choices of the model: log 12, 24, 56, 63. -/
def Obligations.HarbourAccessCompletes : Prop :=
  ∀ (s : State) (v : DWord),
    (∀ a, coreUp s a.core = true →
      let gets := fun (t : State) (r : AgentResult) => exec (.accessPerformed a) s = .next (agentGets t a.core r)
      let found : State := if a.uncorrectable = true then { s with hbmBad := nsInsert (a.pa / 64) s.hbmBad } else s
      let bad := found.hbmBad.contains (a.pa / 64)
      let off := a.pa - 2 ^ 41
      let sends := fun (op width rmw : Nat) (bs : List Byte) => exec (.accessPerformed a) s =
        .next (remoteSend (agentGets s a.core .none) none (agentLane + a.core) op a.pa width rmw bs).2
      (paBacked a.pa = true →
        (a.kind = .read → gets found (.bytes (paRead s a.pa a.width) bad)) ∧
        (∀ bs, a.kind = .write bs → gets (agentStore found a.pa (bs.take a.width)) (.bytes [] false)) ∧
        (∀ aop ty b, a.kind = .rmw aop ty b →
          gets (agentStore found a.pa (natLe (ty.width / 8) (atomOp aop.toNat ty (paNat s a.pa (ty.width / 8)) b.toNat)))
            (.bytes (natLe (ty.width / 8) (paNat s a.pa (ty.width / 8))) bad)) ∧
        (a.kind = .reserve →
          gets { found with reserved := ainsert a.core (a.pa, paRead s a.pa a.width) s.reserved } (.bytes (paRead s a.pa a.width) bad)) ∧
        (∀ bs, a.kind = .conditional bs →
          let t : State := { found with reserved := aerase a.core s.reserved }
          (reservedNow s a = true → gets (agentStore t a.pa (bs.take a.width)) (.bytes [0] false)) ∧
          (reservedNow s a = false → gets t (.bytes [1] false)))) ∧
      (2 ^ 41 ≤ a.pa → a.pa < 2 ^ 41 + 2 ^ 36 →
        (a.kind = .read → gets s (.bytes (natLe a.width (regRead s off / 2 ^ (8 * (off % 8)))) false)) ∧
        (∀ bs, a.kind = .write bs → gets (regStore s off (bs.take a.width)) (.bytes [] false)) ∧
        (∀ aop ty b, a.kind = .rmw aop ty b →
          let old := regRead s off / 2 ^ (8 * (off % 8)) % 2 ^ ty.width
          gets (regStore s off (natLe (ty.width / 8) (atomOp aop.toNat ty old b.toNat))) (.bytes (natLe (ty.width / 8) old) false)) ∧
        (a.kind = .reserve ∨ (∃ bs, a.kind = .conditional bs) → gets s .accessFault)) ∧
      (2 ^ 42 ≤ a.pa → a.pa < 2 ^ 43 → gets s (.bytes (natLe a.width (Config.openDetail s.steps).toNat) false)) ∧
      (2 ^ 51 ≤ a.pa → a.pa < 2 ^ 52 →
        (a.kind = .read → sends 2 a.width 0 (natLe 2 a.width)) ∧
        (∀ bs, a.kind = .write bs → sends 1 a.width 0 (bs.take a.width)) ∧
        (∀ aop ty b, a.kind = .rmw aop ty b → sends 4 (ty.width / 8) (aop.toNat + 2 ^ 8 * Machine.tyCode ty) (natLe (ty.width / 8) b.toNat)) ∧
        (a.kind = .reserve ∨ (∃ bs, a.kind = .conditional bs) → gets s .accessFault)) ∧
      ((2 ^ 41 + 2 ^ 36 ≤ a.pa ∧ a.pa < 2 ^ 42) ∨ (2 ^ 43 ≤ a.pa ∧ a.pa < 2 ^ 51) ∨ 2 ^ 52 ≤ a.pa → gets s .accessFault) ∧
      (paBacked a.pa = false → a.pa < 2 ^ 41 → gets s .accessFault)) ∧
    (∀ a, coreUp s a.core = false → exec (.accessPerformed a) s = .next s) ∧
    (∀ off, s.pkg.westUp = false → exec (.harbourRegisterWrite off v) s = .next s ∧ exec (.collpost v) s = .next s) ∧
    (s.pkg.westUp = true →
      let wrote := fun (off : Nat) (t : State) => exec (.harbourRegisterWrite off v) s = .next t
      wrote 0x00 (modPkg s (fun p => { p with capw := max 1000 (min 16000 (bits v 15 0)) })) ∧
      wrote 0x08 (modPkg s (fun p => { p with rank := bits v 8 0 })) ∧
      wrote 0x10 (modPkg s (fun p => { p with linkto := bits v 31 0 })) ∧
      wrote 0x18 (modPkg s (fun p => { p with scrubiv := bits v 31 0 })) ∧
      wrote 0x20 (modPkg s (fun p => { p with prbbase := BitVec.ofNat 64 (2 ^ 14 * bits v 51 14) })) ∧
      exec (.harbourRegisterWrite 0x28 v) s = exec (.collpost v) s ∧
      (∀ c, c < 704 → wrote (0x400 + 8 * c) (if bitAt v 0 then calGo s c else s)) ∧
      (∀ k, k < 16 → wrote (0x2000 + 16 * k) (modRxmap s k (fun m => { m with en := bitAt v 0, wr := bitAt v 1, lo := bits v 51 16 })) ∧
        wrote (0x2008 + 16 * k) (modRxmap s k (fun m => { m with hi := bits v 51 16 }))) ∧
      (∀ p o, p < 32 → o < 0x10000 → o % 8 = 0 → wrote (0x100000 + 0x10000 * p + o) (partWrite s p o v)) ∧
      (∀ x o, x < 65536 → o < 0x40 → o % 8 = 0 → wrote (0x1000000 + 0x40 * x + o) (spaceWrite s x o v)) ∧
      (∀ off, off % 8 ≠ 0 ∨ (0x30 ≤ off ∧ off < 0x400) ∨ (0x2100 ≤ off ∧ off < 0x100000) ∨ 0x1400000 ≤ off → wrote off s)) ∧
    (let d : BitVec 512 := BitVec.ofNat 512 (paNat s (64 * bits v 51 6) 64)
     s.pkg.westUp = true →
     (descRefused s d = true → exec (.collpost v) s = .next (if eventsWait s = true then s else putEventAll s 7 1 (dCid d))) ∧
     (descRefused s d = false → ∃ t, exec (.collpost v) s = .next t ∧ ∃ c, c ∈ t.pkg.colls ∧ c.desc = d ∧
        partBytes c s.pkg.rank = paRead s (dSrc d) (dNelem d * dWidth d)))

/-- R409 to R414: a frame is sorted by its type and checked; a duplicate is answered again, a gap asks for the missing frames, and a frame in its
sequence is performed and answered: a write to exported bytes, a read, an atomic, a decrement, a contribution to a posted collective; one that
`RXMAP` does not export, or with a reserved operation or type, is counted and negatively acknowledged; an answer settles its request; a complete
collective writes its combined buffer; a link that stays down for `LINKTO` posts an event. Choices of the model: log 12, 17, 57. -/
def Obligations.TransportCompletes : Prop :=
  ∀ (s : State) (f : RxFrame),
    let bs := fPayload f.bytes
    let pa := fPa f.bytes
    let comes := portReady s f = true ∧ f.etype = 0x88B5
    let seq := agetD 0 (fSrc f.bytes) (portOf s f.port).rxSeq
    let asked := fun (op : Nat) => comes ∧ malformed s f.bytes = false ∧
      fSeq f.bytes = seq ∧ fOp f.bytes = op
    let answered := fun (op : Nat) => comes ∧ malformed s f.bytes = false ∧ fOp f.bytes = op
    let refused := fun (op : Nat) => seqDone (answer (badFrame s f.port) f op []) f
    let requests : List Instr := [.transportWrite f, .transportRead f, .transportRmw f, .collectiveContribution f]
    let answers : List Instr := [.readResponse f, .rmwResponse f, .acknowledge f, .negativeAcknowledge f]
    (∀ i, i ∈ requests ++ answers →
      (portReady s f = true → f.etype ≠ 0x88B5 → exec i s = .next (toSoftware s f)) ∧
      (comes → malformed s f.bytes = true → exec i s = .next (badFrame s f.port))) ∧
    (∀ i, i ∈ requests → comes → malformed s f.bytes = false →
      (fSeq f.bytes = seq → fOp f.bytes = 0 ∨ 9 ≤ fOp f.bytes → exec i s = .next (refuse s f)) ∧
      (fSeq f.bytes ≠ seq → (seq - fSeq f.bytes).toNat < 2 ^ 31 → exec i s = .next (repeatAnswer s f)) ∧
      (2 ^ 31 ≤ (seq - fSeq f.bytes).toNat → exec i s = .next (askAgain s f seq))) ∧
    (asked 1 → exported s pa (max 1 bs.length) true = true → exec (.transportWrite f) s = .next (seqDone (answer (paStore s pa bs) f 6 []) f)) ∧
    (asked 1 → exported s pa (max 1 bs.length) true = false → exec (.transportWrite f) s = .next (refused 8)) ∧
    (asked 2 → fNat bs 0 2 ≤ 4096 → exported s pa (max 1 (fNat bs 0 2)) false = true →
      exec (.transportRead f) s = .next (seqDone (answer s f 3 (paRead s pa (fNat bs 0 2))) f)) ∧
    (asked 2 → 4096 < fNat bs 0 2 ∨ exported s pa (max 1 (fNat bs 0 2)) false = false → exec (.transportRead f) s = .next (refused 8)) ∧
    (asked 4 → rmwOf f.bytes = none → exec (.transportRmw f) s = .next (refused 8)) ∧
    (∀ aop t, asked 4 → rmwOf f.bytes = some (aop, t) → exported s pa (t.width / 8) true = false → exec (.transportRmw f) s = .next (refused 8)) ∧
    (asked 4 → bs = [] → fRmw f.bytes = depdecRmw → exported s pa 8 true = true →
      let old := paNat s pa 8
      let t := if old = 0 then s else paStore s pa (natLe 8 (old - 1))
      exec (.transportRmw f) s =
        .next (seqDone (answer (if old = 1 then (waitersOn t (.hbm pa)).foldl makeReady t else t) f 5 (natLe 8 old)) f)) ∧
    (∀ aop t, asked 4 → rmwOf f.bytes = some (aop, t) → ¬ (bs = [] ∧ fRmw f.bytes = depdecRmw) → exported s pa (t.width / 8) true = true →
      let w := t.width / 8
      let old := paNat s pa w
      let new := if w < bs.length then (if old = fNat bs w w then fNat bs 0 w else old) else atomOp aop t old (fNat bs 0 w)
      exec (.transportRmw f) s = .next (seqDone (answer (paStore s pa (natLe w new)) f 5 (natLe w old)) f)) ∧
    (asked 7 →
      let mine := fun (c : Coll) => dCid c.desc == pa && decide (dFrank c.desc ≤ fSrc f.bytes) && decide (fSrc f.bytes < dFrank c.desc + dNmem c.desc)
      s.pkg.colls.any mine = true → ∃ t, exec (.collectiveContribution f) s = .next t ∧ ∀ c, c ∈ t.pkg.colls → mine c = true →
        ∃ c', c' ∈ s.pkg.colls ∧ c.desc = c'.desc ∧ partBytes c (fSrc f.bytes) = partBytes c' (fSrc f.bytes) ++ bs) ∧
    (answered 3 → ∀ r, requestOf s f [2] = some r → exec (.readResponse f) s = .next (settle s r (some bs))) ∧
    (answered 5 → ∀ r, requestOf s f [4] = some r → exec (.rmwResponse f) s = .next (settle s r (some bs))) ∧
    (answered 6 → ∀ r, requestOf s f [1, 7] = some r → exec (.acknowledge f) s = .next (settle s r (some bs))) ∧
    (answered 8 → ∀ r, requestOf s f [1, 2, 4, 7] = some r → exec (.negativeAcknowledge f) s = .next (settle s r none)) ∧
    (∀ cid c, eventsWait s = false → s.pkg.colls.find? (fun c => dCid c.desc == cid.toNat && collReady c) = some c →
      exec (.collectiveCompletion cid) s = .next (putEventAll (modPkg (paStore s (dDst c.desc) (collResult c)) (fun p =>
        { p with colls := p.colls.filter (fun x => dCid x.desc != cid.toNat) })) 7 0 cid.toNat)) ∧
    (∀ j t, j < 8 → eventsWait s = false → (portOf s j).downSince = some t → (portOf s j).up = false → t + s.pkg.linkto * s.pkg.fclk ≤ s.cycle →
      exec (.linkTimeout j) s = .next (putEventAll (modPort s j (fun p => { p with downSince := none })) 5 j 0)) ∧
    (∀ j up, j < 8 → exec (.linkStateChange j up) s = .next (modPort s j (fun p =>
      { p with up := up, downSince := if up then none else if p.up then some s.cycle else p.downSince })))

/-- R402, R409, R415 to R421: the package's own steps: power-good, customs and its reports, the anti-rollback counter, the clock under the
power cap, each change of which raises event 0x06, dies at and below their critical temperature, the hull survey, whose end of life within a year
raises event 0x04, scrubs, frames for harbour software, storage requests. Choices of the model: log 5, 12, 56. -/
def Obligations.PackageEvents : Prop :=
  ∀ (s : State),
    exec .powerGood s = .next (modPkg s (fun p => { p with powered := true })) ∧
    (∀ img, s.pkg.powered = true → imageGood s img = true → exec (.imageVerification img) s =
      .next (modPkg (paStore s (fNat img.header 8 8) img.body) (fun p =>
        { p with westUp := true, recovery := false, version := BitVec.ofNat 32 (fNat img.header 4 4), images := p.images ++ [Config.sm3 img.body] }))) ∧
    (∀ nonce, s.pkg.powered = true → s.pkg.recovery = false → exec (.attestationReport nonce) s = .next (modPkg s (fun p =>
      { p with report := reportBody s nonce ++ natLe 64 (Config.sm2Sign p.reports (reportBody s nonce)).toNat, reports := p.reports + 1,
               certificate := Config.vendorCertificate }))) ∧
    (∀ version : Word, s.pkg.westUp = true → s.pkg.rollback.toNat < version.toNat →
      exec (.antiRollbackRaise version) s = .next (modPkg s (fun p => { p with rollback := version }))) ∧
    (∀ r, ∃ t, exec (.powerCapStep r) s = .next t ∧ t.pkg.watts = r.watts ∧ t.pkg.thermal = r.thermal ∧
      t.pkg.fclk = (if eventsWait s then s.pkg.fclk else if s.pkg.capw < r.watts.toNat || r.thermal then (if 450 ≤ s.pkg.fclk then s.pkg.fclk - 50 else s.pkg.fclk)
        else if s.pkg.fclk < 1400 then s.pkg.fclk + 50 else s.pkg.fclk) ∧
      (let u := modPkg s (fun p => { p with watts := r.watts, thermal := r.thermal })
       t = if t.pkg.fclk = s.pkg.fclk then u else putEventAll (modPkg u (fun p => { p with fclk := t.pkg.fclk })) 6 0 0)) ∧
    (∀ die, exec (.criticalTemperature die) s = .next (modPkg s (fun p => { p with critical := nsInsert die p.critical }))) ∧
    (∀ die, exec (.dieCools die) s = .next (modPkg s (fun p => { p with critical := nsErase die p.critical }))) ∧
    (∀ h, eventsWait s = true → exec (.hullSurveyRefresh h) s = .next s) ∧
    (∀ h, eventsWait s = false →
      let u := modHull s h.die (fun x =>
        { stress := h.stress, drift := h.drift, cecc := BitVec.ofNat 16 (min 0xFFFF x.hour), eol := h.eol, hour := 0 })
      exec (.hullSurveyRefresh h) s = .next (if h.eol.toNat < h.today + 365 then putEventAll u 4 0 0 else u)) ∧
    (∀ r, s.pkg.scrubiv ≠ 0 → ∃ t, exec (.scrubPass r) s = .next t ∧ (hullOf t r.die).hour = (hullOf s r.die).hour + r.corrected ∧
      (∀ l, l ∈ r.hbmLines → t.hbmBad.contains l = true) ∧ (∀ l, l ∈ r.quayLines → t.quayBad.contains l = true)) ∧
    (∀ f, portReady s f = true → f.etype ≠ 0x88B5 → exec (.ethernetFrame f) s = .next (modPort s f.port (fun p => { p with rx := p.rx ++ [f] }))) ∧
    (∀ bytes, s.pkg.recovery = false → exec (.managementFrame bytes) s = .next (modPkg s (fun p => { p with mgmt := p.mgmt ++ [bytes] }))) ∧
    (∀ d n, n = (match d.data with | some bs => bs.length | none => d.width) →
      s.pkg.iommu.any (fun r => decide (r.1 ≤ d.pa) && decide (d.pa + n ≤ r.2 + 1)) = true → paBacked d.pa = true → paBacked (d.pa + n - 1) = true →
      (∀ bs, d.data = some bs → exec (.dmaRequest d) s = .next (paStore s d.pa bs)) ∧
      (d.data = none → exec (.dmaRequest d) s = .next (modPkg s (fun p => { p with dmaRead := paRead s d.pa d.width }))))

/-! ### Checks, traps and frames -/

/-- R75, R141: an instruction whose context is ready, that is well formed, names general registers, uses no damaged or outstanding result, acts
in some lane and maps no register beyond its bank passes every check. That a hold or a last-read bit on a predicate is an illegal operand is the
model's choice (log 65). Choices of the model: log 27, 65. -/
def Obligations.ChecksPass : Prop :=
  ∀ (i : Instr) (s : State) (g : WG) (f : Fields) (c : Ctx) (h : FEntry), Issues s g c h → fieldsOf i = some f →
    let k := whoKind s.cur.who
    let u := useOf k i
    i.wfFor k = true → privileged i = false → (k = .crew → markBad u f = false) → fieldIllegal k g c i = false →
    valueIllegal (setWg s s.cur.berth g) s.cur g i u f h = false → PlainOperands k u f →
    c.upsets = [] → c.pend = [] → (∀ n, flagOf c f.pre = some n → c.flags.getD n 0 < 15) → c.copied = none → activeFor s.cur g h f.pre ≠ 0 →
    (∀ n x, s.cur.who = .crew n → crewOf g n = some x →
      (∀ r, r ∈ roleNames .crew u.dst f.dst.toNat ++ extraRegs i → (alookup r x.regs).isSome = true) ∨
      (∀ b, b < 4 → bankUse g b + 1 ≤ 2 * hRegs g.hdr)) →
    let e := mkEnv (setWg s s.cur.berth g) s.cur g i u f h
    Passes i s e ∧ popList e.u e.f = [] ∧ pushName e.u e.f = none

/-- R16, R19, R74 to R78, R127, R197: the first check of decode that fails traps at the slot: illegal instruction with its reason, privileged one,
which stops the workgroup, illegal operand, queue misuse, register-budget overrun. R175, R200, R404: a memory access then traps where a lane is
misaligned (0x08), beyond its reach (0x0A), outside the window (0x07) or in an engine's tile (0x0E), and, outside DUP, where it reads a poisoned line
(0x15). Reasons 0x4 to 0x6 (log 10) and the trap of a hold bit on a predicate (log 65) are the model's choice. Choices: log 10, 16, 27, 65. -/
def Obligations.DecodeTrapsInOrder : Prop :=
  (∀ (i : Instr) (s : State) (g : WG) (f : Fields) (c : Ctx) (h : FEntry), Issues s g c h → fieldsOf i = some f →
    let k := whoKind s.cur.who
    let u := useOf k i
    let traps := fun (s : State) (t : PendTrap) => exec i s = .next (trapHere s s.cur t)
    (∀ r, illegalReason k i = some r → traps s (mkTrap 0x01 (r + 16 * slotOf g h s.cur.who) h.mask)) ∧
    (illegalReason k i = none →
      (privileged i = true → traps s (openTrap s 0x17 h.mask) ∧
        (unwritten c = false → ∀ t, exec i s = .next t → ∃ g', wgOf t s.cur.berth = some g' ∧ g'.run = .stopped ∧ g'.stopper = some s.cur.who)) ∧
      (privileged i = false →
        (dstBad k u.dst f.dst.toNat = true ∨ (k = .crew ∧ markBad u f = true) ∨ fieldIllegal k g c i = true → traps s (openTrap s 0x05 h.mask)) ∧
        ((∀ latch, srcBad k latch u.a f.sa.toNat = false ∧ srcBad k latch u.b f.sb.toNat = false ∧ srcBad k latch u.c f.sc.toNat = false) →
          dstBad k u.dst f.dst.toNat = false → (k = .crew → markBad u f = false) → fieldIllegal k g c i = false → c.upsets = [] → c.pend = [] →
          (∀ n, flagOf c f.pre = some n → c.flags.getD n 0 < 15) → c.divided = none →
          let s' := setWg s s.cur.berth g
          let misused := misuseOf s' s.cur g i u f
          let met := agentMisuse s' g (agentUses g c k i u f) []
          let late := fun (t : PendTrap) => exec i s = .next (trapHere s' s.cur t)
          (valueIllegal s' s.cur g i u f h = true → late (openTrap s' 0x05 h.mask)) ∧
          (valueIllegal s' s.cur g i u f h = false →
            (∀ r n, misused = some (r, n) → late (qTrap r n h.mask)) ∧
            (∀ r n, misused = none → activeFor s.cur g h f.pre ≠ 0 → met = some (r, n) → late (qTrap r n h.mask)) ∧
            (∀ m x, misused = none → met = none → s.cur.who = .crew m → crewOf g m = some x → activeFor s.cur g h f.pre ≠ 0 → addressFirst i = false →
              let names := writtenNames (mkEnv s' s.cur g i u f h) c
              budgetOk g x (freedNames u f names) names = false → late (openTrap s' 0x06 h.mask))))))) ∧
  (∀ (x : FormM) (i : Instr) (s : State) (e : Env) (as_ : List (Nat × Int)) (w : Nat) (rd wr : Bool), Passes i s e →
    let hash := i = .hacc x
    let off24 := e.lanes.map (fun l => (l, (e.av l : Int) + signedOf 24 x.imm.toNat + 0))
    let off32 := e.lanes.map (fun l => (l, (e.av l : Int) + signedOf 32 x.imm.toNat + 0))
    let indexed := fun (f : Nat → Nat) => e.lanes.map (fun l => (l, (e.av l : Int) + signedOf 32 x.imm.toNat + signedOf 32 (f l) * (x.ty.width / 8 : Nat)))
    (hash ∧ as_ = off24 ∧ w = 64) ∨ (w = x.ty.width / 8 ∧
      ((i = .ld x ∧ as_ = off32 ∧ rd = true ∧ wr = false) ∨ (i = .ldx x ∧ as_ = indexed e.bv ∧ rd = true ∧ wr = false) ∨
       (i = .st x ∧ as_ = off32 ∧ rd = false ∧ wr = true) ∨ (i = .stx x ∧ as_ = indexed e.cv ∧ rd = false ∧ wr = true) ∨
       ((i = .atom x ∨ i = .cas x) ∧ as_ = off24 ∧ lanesLeft e.s e.id as_ = as_ ∧ rd = true ∧ wr = true))) →
    let ea := fun (a : Int) => lowBits 64 a
    let inWin := fun (a : Int) => if inQuayWin (ea a) then logicalKey e.s e.g.part (ea a - quayWin) else none
    let misaligned := fun (a : Int) => decide ((if x.quay then a else (ea a : Int)) % w ≠ 0)
    let violates := fun (a : Int) => !x.quay && (if isGlobal (ea a) then decide hash
      else match inWin a with | some k => !quayReach e.s e.id.berth e.g k | none => true)
    let outside := fun (a : Int) => x.quay && (decide (a < 0) || decide ((hQuayb e.g.hdr : Int) < a + w))
    let owned := fun (a : Int) => if x.quay then engOwned e.s (winKey e.id.berth e.g a.toNat)
      else !isGlobal (ea a) && (match inWin a with | some k => engOwned e.s k | none => false)
    let none_ := fun (p : Int → Bool) => ∀ y, y ∈ as_ → p y.2 = false
    let traps := fun (cause : Nat) (p : Int → Bool) => ∀ l a before after, as_ = before ++ (l, a) :: after → p a = true →
      (∀ y, y ∈ before → p y.2 = false) →
      exec i s = .next (trapHere e.s e.id (mkTrap cause (ea a) (lanesOf (l :: (after.filter (fun y => p y.2)).map (fun y => y.1)))))
    traps 0x08 misaligned ∧
    (none_ misaligned → traps 0x0A violates) ∧
    (none_ misaligned → none_ violates → traps 0x07 outside) ∧
    (none_ misaligned → none_ violates → none_ outside → traps 0x0E owned) ∧
    (none_ misaligned → none_ violates → none_ outside → none_ owned → ¬ hash → isDup e.g = false → rd = true →
      let ps := as_.map (placed e.s e.id.berth e.g x.quay w)
      let fs := ps.filterMap (found e.s e.id.berth e.g wr)
      let hit := fun (f : Found) => readsPoison e.s e.id e.g w wr f.acc
      (∀ p, p ∈ ps → (found e.s e.id.berth e.g wr p).isSome = true ∧ (wr = true → copyFor e.s e.id.berth e.g p = none)) →
      (∀ f, f ∈ fs → rebuildHeld e.s e.g (readsBadLine e.s e.id e.g w wr f.acc) f = false) →
      ∀ f before after, fs = before ++ f :: after → hit f = true → (∀ y, y ∈ before → hit y = false) →
      exec i s = .next (trapHere e.s e.id (mkTrap 0x15 f.acc.ea (lanesOf (f.acc.lane :: (after.filter hit).map (fun y => y.acc.lane)))))))

/-- R391, R393, R394, R397, R398: taking a trap writes the context's results; a crew's frontier and latches are set aside and it goes on at
`TVEC` with the lanes of its head, the pilot at `PTVEC`, with the trap's registers; no other context and no byte of memory changes. A cause for
harbour software, no handler address, or a trap in a handler stops the workgroup with an event; so does, in its handler, a handler address that is
no code point (a double trap). Under DET it waits for the release of results. Choices of the model: log 29, 30, 33. -/
def Obligations.TrapsAreTaken : Prop :=
  ∀ (s : State) (b : Nat) (g : WG) (t : PendTrap) (epc : DWord) (entry : Word) (m : LaneMask), wgOf s b = some g →
    let told := fun (s' : State) (cause : Nat) (w : Who) (at_ detail : Nat) =>
      (partOf s' g.part).hev.wait = (partOf s g.part).hev.wait ++ [eventBits 1 cause (whoCode w) (launchIdOf s g).toNat g.wgix at_ detail
        (partOf s g.part).hev.seq]
    let crewTrap : TrapCtx := { cause := t.cause, detail := t.detail, epc := epc, tlane := t.tlane, tmask := t.tmask, lkval := t.lkval }
    let pilotTrap : TrapCtx := { cause := t.cause, detail := t.detail, epc := epc, tlane := 0, tmask := 0, lkval := t.lkval }
    (∀ n c, crewOf g n = some c → unwritten c.ctx = false → alwaysHarbour t.cause.toNat = false → c.ctx.handler = none → g.tvec ≠ 0 →
      let s' := takeTrap s ⟨b, .crew n⟩ t epc entry m
      (cixValid g.tvec.toNat = true → SameMemory s s' ∧ ∃ g' c' h, wgOf s' b = some g' ∧ crewOf g' n = some c' ∧ c'.ctx.handler = some h ∧
        h.frontier = c.frontier ∧ h.spilled = c.spilled ∧ h.latches = c.latches ∧ h.entry = entry ∧ h.trap = crewTrap ∧
        c'.frontier = [{ cix := g.tvec, mask := m, park := none }] ∧ c'.spilled = 0 ∧ c'.landings = [(g.tvec, g.tvec.setWidth 64)] ∧
        (∀ y, crewOf (commitAll g (.crew n)) n = some y → c'.regs = y.regs ∧ c'.preds = y.preds ∧ c'.draw = y.draw) ∧ c'.ctx.pend = [] ∧
        c'.fpx = c.fpx ∧ c'.live = c.live ∧ c'.ctx.blocked = none ∧ g'.run = g.run ∧
        g'.pilot = g.pilot ∧ ∀ k, k ≠ n → crewOf g' k = crewOf g k) ∧
      (cixValid g.tvec.toNat = false → SameMemory s s' ∧ told s' 0x03 (.crew n) g.tvec.toNat g.tvec.toNat ∧ ∃ g' c' h, wgOf s' b = some g' ∧
        g'.run = .stopped ∧ g'.stopper = some (.crew n) ∧ crewOf g' n = some c' ∧ c'.ctx.handler = some h ∧ h.trap = crewTrap ∧
        h.frontier = c.frontier ∧ c'.frontier = [{ cix := g.tvec, mask := m, park := none }])) ∧
    (unwritten g.pilot.ctx = false → alwaysHarbour t.cause.toNat = false → g.pilot.ctx.handler = none → g.ptvec ≠ 0 →
      let s' := takeTrap s ⟨b, .pilot⟩ t epc entry m
      (pcValid g.ptvec.toNat = true → SameMemory s s' ∧ ∃ g' h, wgOf s' b = some g' ∧ g'.pilot.ctx.handler = some h ∧ h.trap = pilotTrap ∧
        g'.pilot.pc = g.ptvec ∧ g'.pilot.landing = some g.ptvec ∧ g'.pilot.sregs = (commitAll g .pilot).pilot.sregs ∧
        g'.pilot.cbits = (commitAll g .pilot).pilot.cbits ∧ g'.pilot.ctx.pend = [] ∧
        g'.pilot.ctx.blocked = none ∧ g'.run = g.run ∧ g'.crews = g.crews) ∧
      (pcValid g.ptvec.toNat = false → SameMemory s s' ∧ told s' 0x03 .pilot g.ptvec.toNat g.ptvec.toNat ∧ ∃ g' h, wgOf s' b = some g' ∧
        g'.run = .stopped ∧ g'.stopper = some .pilot ∧ g'.pilot.ctx.handler = some h ∧ h.trap = pilotTrap ∧ g'.pilot.pc = g.ptvec)) ∧
    (∀ w c, ctxIn g w = some c → unwritten c = false →
      alwaysHarbour t.cause.toNat = true ∨ c.handler.isSome = true ∨ (w = .pilot ∧ g.ptvec = 0) ∨ (w ≠ .pilot ∧ g.tvec = 0) →
      let s' := takeTrap s ⟨b, w⟩ t epc entry m
      SameMemory s s' ∧ told s' t.cause.toNat w epc.toNat t.detail.toNat ∧
        ∃ g' c', wgOf s' b = some g' ∧ g'.run = .stopped ∧ g'.stopper = some w ∧ ctxIn g' w = some c' ∧ c'.handler = c.handler) ∧
    (∀ w c, ctxIn g w = some c → unwritten c = true → takeTrap s ⟨b, w⟩ t epc entry m =
      modCtx s ⟨b, w⟩ (fun c => { c with taking := some { trap := t, epc := epc, entry := entry, mask := m, pair := false }, blocked := none }))

/-- R14, R20 to R23, R141: a vector instruction that names no pigeonhole changes, beside its destination, only the registers it is the last to read,
its crew's sticky flags (which only gain) and draws, latches and place, and of those none of the first two where it neither rounds nor draws.
Choices of the model: log 11. -/
def Obligations.VectorFrame : Prop :=
  ∀ (i : Instr) (s t : State) (e : Env) (n : Nat) (c : Crew), isVector i = true → Passes i s e → Unshared e → GoesOn e →
    e.id.who = .crew n → crewOf e.g n = some c → exec i s = .next t →
    SameMemory s t ∧ OthersSame e.s t e.id.berth ∧ ∃ g' c', wgOf t e.id.berth = some g' ∧ crewOf g' n = some c' ∧
      (∀ k, k ∉ roleNames .crew e.u.dst e.f.dst.toNat → k ∉ freedNames e.u e.f [] → alookup k c'.regs = alookup k c.regs) ∧
      (∀ k, ¬ (e.u.dst = .idx ∧ k = e.f.dst.toNat) → predOf c' k = predOf c k) ∧
      c.fpx ||| c'.fpx = c'.fpx ∧ (isExact i = true → c'.fpx = c.fpx ∧ c'.draw = c.draw) ∧
      c'.latches = latchStep e c.latches ∧ c'.live = c.live ∧ c'.spilled = c.spilled ∧ c'.ctx.handler = c.ctx.handler ∧
      c'.ctx.traps = c.ctx.traps ∧ c'.ctx.held = c.ctx.held ∧ c'.ctx.ended = c.ctx.ended ∧
      SameRest e.g g' ∧ SamePilot e.g.pilot g'.pilot ∧ (∀ m d, m ≠ n → crewOf e.g m = some d → ∃ d', crewOf g' m = some d' ∧ SameCrew d d')

/-- R22, R25, R96: a pilot instruction of format P that names no pigeonhole changes, beside its destination register or c-bit, only the pilot's
place; one whose guard is false has no effect, whatever its format, but that the pilot goes on at the next slot (a store of a redundant pair is
still counted as one of its store instructions, R330). -/
def Obligations.PilotFrame : Prop :=
  (∀ (i : Instr) (s t : State) (e : Env), isScalar i = true → Passes i s e → Unshared e → e.id.who = .pilot → exec i s = .next t →
    SameMemory s t ∧ OthersSame e.s t e.id.berth ∧ ∃ g', wgOf t e.id.berth = some g' ∧
      (∀ k, ¬ (e.u.dst = .word ∧ k = e.f.dst.toNat) → g'.pilot.sregs.getD k 0 = e.g.pilot.sregs.getD k 0) ∧
      (∀ k, ¬ (e.u.dst = .idx ∧ k = e.f.dst.toNat) → cbitOf g'.pilot k = cbitOf e.g.pilot k) ∧
      g'.pilot.pc = BitVec.ofNat 64 (nextPc e.g.pilot.pc.toNat) ∧ g'.pilot.ctx.handler = e.g.pilot.ctx.handler ∧
      g'.pilot.regions = e.g.pilot.regions ∧ SameRest e.g g' ∧
      (∀ m d, crewOf e.g m = some d → ∃ d', crewOf g' m = some d' ∧ SameCrew d d')) ∧
  (∀ (i : Instr) (s : State) (g : WG) (f : Fields) (c : Ctx) (h : FEntry), Issues s g c h → fieldsOf i = some f → s.cur.who = .pilot →
    i.wfFor .pilot = true → privileged i = false → fieldIllegal .pilot g c i = false → PlainOperands .pilot (useOf .pilot i) f → c.upsets = [] →
    c.pend = [] → (∀ n, flagOf c f.pre = some n → c.flags.getD n 0 < 15) → c.copied = none → c.granted = false → c.divided = none →
    (storesIn i = true → g.peer = none) → cbitOf g.pilot f.pre.grd.toNat = f.pre.gneg →
    ∃ t g', exec i s = .next t ∧ SameMemory s t ∧ OthersSame s t s.cur.berth ∧ wgOf t s.cur.berth = some g' ∧
      g'.pilot.sregs = g.pilot.sregs ∧ g'.pilot.cbits = g.pilot.cbits ∧ g'.pilot.pc = BitVec.ofNat 64 (nextPc g.pilot.pc.toNat) ∧
      g'.pilot.ctx.handler = g.pilot.ctx.handler ∧ SameRest g g' ∧
      (∀ m d, crewOf g m = some d → ∃ d', crewOf g' m = some d' ∧ SameCrew d d'))

/-- R169, R173, R174, R178, R183, R184: a load changes no byte of memory; a store or an atomic whose places are found changes no byte but those of its
lanes' places, each of the type's width, and, where a store completes, no register but those it is the last to read; an `hacc` whose lanes name one
table changes no byte of the Quay but the table's slots and its three counts, and without a chain none of HBM. (Under IDEM alone a store or an atomic
may send staged ones out; a redundant copy that finds damage in its own window may roll back.) Choices of the model: log 50. -/
def Obligations.MemoryFrame : Prop :=
  ∀ (x : FormM) (i : Instr) (s t : State) (e : Env) (as_ : List (Nat × Int)) (xs : List LaneAcc),
    let w := x.ty.width / 8
    let plain := fun (off : Int) => e.lanes.map (fun l => (l, (e.av l : Int) + off + 0))
    let indexed := fun (f : Nat → Nat) => e.lanes.map (fun l => (l, (e.av l : Int) + signedOf 32 x.imm.toNat + signedOf 32 (f l) * w))
    let sameBut := fun (xs : List LaneAcc) =>
      (∀ a, (∀ y p, y ∈ xs → y.loc = .hbm p → a < p ∨ p + w ≤ a) → cellsRead a t.hbm = cellsRead a s.hbm) ∧
      (∀ a, (∀ y p, y ∈ xs → y.loc = .quay p → a < p ∨ p + w ≤ a) → cellsRead a t.quay = cellsRead a s.quay)
    Passes i s e → Unshared e → GoesOn e → exec i s = .next t →
    ((i = .ld x ∧ as_ = plain (signedOf 32 x.imm.toNat)) ∨ (i = .ldx x ∧ as_ = indexed e.bv) →
      Reaches e x.quay as_ w true false xs → SameMemory s t) ∧
    ((i = .st x ∧ as_ = plain (signedOf 32 x.imm.toNat)) ∨ (i = .stx x ∧ as_ = indexed e.cv) →
      MemoryForm s → Reaches e x.quay as_ w false true xs → isDet e.g = true ∨ isIdem e.g = false →
      sameBut xs ∧
      (storeHold e (xs.map (fun y => (y, natLe w (e.bv y.lane)))) = none → ∃ g', wgOf t e.id.berth = some g' ∧
        g'.pilot.sregs = e.g.pilot.sregs ∧ g'.pilot.cbits = e.g.pilot.cbits ∧ g'.tvec = e.g.tvec ∧ g'.accs = e.g.accs ∧
        ∀ m c, crewOf e.g m = some c → ∃ c', crewOf g' m = some c' ∧ c'.preds = c.preds ∧ c'.fpx = c.fpx ∧ c'.draw = c.draw ∧
          c'.ctx.handler = c.ctx.handler ∧ ∀ k, k ∉ freedNames e.u e.f [] → alookup k c'.regs = alookup k c.regs)) ∧
    (i = .atom x ∨ i = .cas x → as_ = plain (signedOf 24 x.imm.toNat) → MemoryForm s → Reaches e x.quay (lanesLeft e.s e.id as_) w true true xs →
      isDet e.g = true ∨ isIdem e.g = false → sameBut xs) ∧
    (i = .hacc x → as_ = plain (signedOf 24 x.imm.toNat) → MemoryForm s → isDet e.g = true ∨ isIdem e.g = false → isDup e.g = false →
      let ps := as_.map (placed e.s e.id.berth e.g x.quay 64)
      let keys := ps.filterMap (fun p => match p.place with | .ok (.quay k) => some (p.lane, k) | _ => none)
      (∀ m, m = .now ∨ m = .stage → ∃ sts chained u, hashRun e (aopOf x) x.ty m keys e.s = .ok sts chained u) →
      ∀ key, (∀ p, p ∈ ps → p.place = .ok (.quay key) ∧ locBad e.s (.quay key) = false) →
      let d := descAt s key
      let slots := offKey key (tToff d)
      slots + 8 * 2 ^ tLcap d ≤ key ∨ key + 64 ≤ slots →
      (∀ a, (a < key + 4 ∨ key + 8 ≤ a) → (a < key + 20 ∨ key + 28 ≤ a) → (a < slots ∨ slots + 8 * 2 ^ tLcap d ≤ a) →
        cellsRead a t.quay = cellsRead a s.quay) ∧
      (tOvm d = false → ∀ a, cellsRead a t.hbm = cellsRead a s.hbm))

/-! ### Results as numbers -/

/-- R146, R147: in the integer types a result without `SAT` is the exact one modulo 2^n, with `SAT` the exact one brought into the type's range, and
sets no flag; `mulhi` is the upper half of the product; quotient and remainder satisfy division toward zero. -/
def Obligations.IntegerResults : Prop :=
  ∀ (t : Ty) (rm : Rm) (u a b : Nat), clsIA t = true →
    let M : Int := (2 ^ t.width : Nat)
    let v := t.intOf
    let gives := fun (op : Bool → Nat × BitVec 5) (x : Int) =>
      ((v (op false).1 - x) % M = 0 ∧ (op false).1 < 2 ^ t.width ∧ (op false).2 = 0) ∧
      (v (op true).1 = max t.imin (min t.imax x) ∧ (op true).1 < 2 ^ t.width ∧ (op true).2 = 0)
    t.imin ≤ v a ∧ v a ≤ t.imax ∧ gives (fun sat => addElem t rm sat u a b) (v a + v b) ∧ gives (fun sat => subElem t rm sat u a b) (v a - v b) ∧
    gives (fun sat => mulElem t rm sat u a b) (v a * v b) ∧ gives (fun sat => negElem t sat a) (-(v a)) ∧
    gives (fun sat => absElem t sat a) (if v a < 0 then -(v a) else v a) ∧
    (∃ k, v a * v b = v (mulhiElem t a b).1 * M + k ∧ 0 ≤ k ∧ k < M) ∧
    (let q := v (divElem t a b).1
     let r := v (remElem t a b).1
     (v b = 0 → r = v a ∧ q = if v a < 0 then t.imin else t.imax) ∧
     (v b ≠ 0 → ¬ (v a = t.imin ∧ v b = -1 ∧ t.signed = true) →
       v a = v b * q + r ∧ r.natAbs < (v b).natAbs ∧ (r < 0 → v a < 0) ∧ (0 < r → 0 < v a)) ∧
     (v a = t.imin → v b = -1 → t.signed = true → q = t.imax ∧ r = 0))

/-- R151: `fclass` sets exactly the bit of its operand's class, by the fields of the format: m fraction bits, then x exponent bits, then the sign. -/
def Obligations.ClassBits : Prop :=
  ∀ (t : Ty) (m x a : Nat), (t = .f32 ∧ m = 23 ∧ x = 8) ∨ (t = .f16 ∧ m = 10 ∧ x = 5) ∨ (t = .bf16 ∧ m = 7 ∧ x = 8) → a < 2 ^ (1 + x + m) →
    let frac := a % 2 ^ m
    let ex := a / 2 ^ m % 2 ^ x
    let neg := a / 2 ^ (m + x) = 1
    let cls := fun (k : Nat) => fclassElem t a = (2 ^ k, 0)
    (ex = 2 ^ x - 1 → frac = 0 → if neg then cls 0 else cls 7) ∧
    (ex = 2 ^ x - 1 → frac ≠ 0 → if frac < 2 ^ (m - 1) then cls 8 else cls 9) ∧
    (ex = 0 → frac = 0 → if neg then cls 3 else cls 4) ∧ (ex = 0 → frac ≠ 0 → if neg then cls 2 else cls 5) ∧
    (ex ≠ 0 → ex ≠ 2 ^ x - 1 → if neg then cls 1 else cls 6)

/-! ### Encodings, fetching, steps and reset -/

/-- R63: a line word is illegal exactly where one of its four conditions holds, with the reason of one that does, and a line whose parity is good
traps at its entry slot with cause 0x02 and that reason. -/
def Obligations.IllegalLinesTrap : Prop :=
  (∀ l : BitVec 512,
    let reserved := fun (n : Nat) => 12 ≤ n ∧ n ≤ 14
    let cond := fun (r : Nat) => match r with
      | 1 => bits l 31 30 ≠ 0
      | 2 => reserved (bits l 25 22) ∨ reserved (bits l 29 26)
      | 3 => ∃ k, k ∈ tplPairs (bits l 4 2) ∧ ¬ (bits (lineSlot l k) 11 8 ≤ 1 ∧ bits (lineSlot l (k + 1)) 11 8 ≤ 1)
      | 4 => ∃ k, k < 5 ∧ ((bits (lineSlot l k) 17 16 = 1 ∧ bits l 25 22 = 15) ∨ (bits (lineSlot l k) 17 16 = 2 ∧ bits l 29 26 = 15))
      | _ => False
    (lineReason l = none ↔ ∀ r, ¬ cond r) ∧ ∀ r, lineReason l = some r → cond r) ∧
  (∀ (s t : State) (c : CtxId) (g : WG) (h : FEntry) (flip b : BitVec 512) (r : Nat), wgOf s c.berth = some g → headFor s c g = some h →
    ctxEligible s c = true → dueTrap s c = none → inLine g h c.who = false → arriveLine s c g h (lineOf g h c.who) flip = .bits b t →
    lineReason b = some r → exec (.lineFetch c flip) s = .next (trapHere t c (mkTrap 0x02 r h.mask)))

/-- R68 to R73: instruction words written out by the encoding tables decode to the instructions they stand for. -/
def Obligations.DecodeWords : Prop :=
  let plain : Pre := ⟨0, false, 0, 0, 0, 0⟩
  decodeSlot .crew 0x00000000500604020A800006 = .ok (.fma ⟨{ plain with lr := 2 }, 5, 1, 2, 3, .f32, 0, .rne, false, false, .i32, 0, 0⟩) ∧
  decodeSlot .crew 0x000000070000000006000126 = .ok (.movVi ⟨plain, 3, 0, 0, .i32, false, 7⟩) ∧
  decodeSlot .crew 0x00000C00500C000814000207 = .ok (.sample ⟨plain, 10, 4, 0, 6, .f32, 0, .rne, false, false, .i32, 3, 0⟩) ∧
  decodeSlot .crew 0x010000000408060412000307 = .ok (.hacc ⟨plain, 9, 2, 3, 4, .i32, true, 0x01000000⟩) ∧
  decodeSlot .crew 0x040000000000161C18002304 = .ok (.atom ⟨{ plain with grd := 2 }, 12, 14, 11, 0, .i32, false, 0x04000000⟩) ∧
  decodeSlot .crew 0x0000000008020C1000000303 = .ok (.stx ⟨plain, 0, 8, 6, 1, .n32, false, 0⟩) ∧
  decodeSlot .pilot 0x004D0000680C0A0800000410 = .ok (.cmma ⟨plain, 0, 4, 5, 6, .e4m3, 0, 0, false, 0, false, 0x004D0⟩) ∧
  decodeSlot .pilot 0x000009800000040200000424 = .ok (.bysweep ⟨plain, 0, 1, 2, 0, .i32, 0, 0, false, 3, true, 0⟩) ∧
  decodeSlot .pilot 0x000000050000000002000510 = .ok (.sli ⟨plain, 1, 0, 0, 0, false, false, 0, 5⟩) ∧
  decodeSlot .crew 0x000000100000000000001600 = .ok (.bra ⟨{ plain with grd := 1 }, 0, 0, 0x10⟩) ∧
  decodeSlot .pilot 0x00000000000000020000060C = .ok (.loop ⟨plain, 0, 1, 0⟩) ∧
  decodeSlot .pilot 0x0000000000000001E6000701 = .ok (.qunbind ⟨plain, 243, 0, 0, .i32, 0, 0⟩) ∧
  decodeSlot .crew 0x000000420000003C00000803 = .ok (.syswr ⟨plain, 0, 30, 0x42⟩) ∧
  decodeSlot .crew 0x000000000000000000000800 = .ok (.nop ⟨plain, 0, 0, 0⟩)

/-- R68 to R73: decoding the word of a well-formed instruction gives it back, every operand at every value. -/
def Obligations.EncodeDecodes : Prop := ∀ (k : CtxKind) (i : Instr), i.wfFor k = true → decodeSlot k (encode i) = .ok i

/-- R69, R73, R74, R80 to R88: what decodes is well formed and is encoded by the word alone; the formats 0x9 to 0xF give reason 0x1, an opcode that
no row of a format has reason 0x2, and a reserved type, second type or rounding code reason 0x4 where neither reason 0x2 nor 0x3 applies; a vector
instruction decodes for no pilot. Choices of the model: log 10. -/
def Obligations.DecodeEncodes : Prop :=
  ∀ (k : CtxKind) (w : BitVec 96),
    let fmt := bits w 11 8
    let opc := bits w 7 0
    let has := fun (lo hi : Nat) => lo ≤ opc ∧ opc ≤ hi
    let gap : Prop := match fmt with
      | 0 => ¬ has 0x01 0x30
      | 1 => ¬ (has 0x01 0x03 ∨ has 0x07 0x08 ∨ has 0x0B 0x0D ∨ has 0x0F 0x10 ∨ opc = 0x14 ∨ opc = 0x16 ∨ opc = 0x18 ∨ opc = 0x26)
      | 2 => ¬ has 0x00 0x09
      | 3 => ¬ has 0x00 0x07
      | 4 => ¬ (has 0x00 0x03 ∨ has 0x10 0x13 ∨ has 0x20 0x28 ∨ has 0x30 0x32 ∨ has 0x40 0x43)
      | 5 => ¬ has 0x00 0x17
      | 6 => ¬ has 0x00 0x0C
      | 7 => ¬ has 0x00 0x0C
      | 8 => ¬ has 0x00 0x08
      | _ => False
    (∀ i, decodeSlot k w = .ok i → encode i = w ∧ i.wfFor k = true) ∧
    (9 ≤ fmt → decodeSlot k w = .error 1) ∧ (fmt ≤ 8 → (decodeSlot k w = .error 2 ↔ gap)) ∧
    (fmt ≤ 2 → k = .pilot → ¬ gap → decodeSlot k w = .error 3) ∧
    (((fmt ≤ 4 ∨ fmt = 7) ∧ 0x15 ≤ bits w 63 59) ∨ ((fmt = 0 ∨ fmt = 2) ∧ (0x15 ≤ bits w 73 69 ∨ 6 ≤ bits w 66 64)) →
      decodeSlot k w ≠ .error 2 → decodeSlot k w ≠ .error 3 → decodeSlot k w = .error 4)

/-- R23, R59, R64, R315, R392: when a context's turn comes, with no trap to take, it enters its line if it is not in it, writes the results that the
line's wait mask names, and where none of those is still outstanding and no breakpoint is to trap, the step runs the instruction its slot decodes
to, or traps with the reason that the word is none; a line not in the instruction cache is the 64 bytes of memory at its address. The mask is
examined before every slot (log 37). Choices of the model: log 1, 3, 35, 37. -/
def Obligations.StepRunsDecoded : Prop :=
  (∀ (s t : State) (id : CtxId) (rest : List Choice) (g g' : WG) (h : FEntry) (c d : Ctx) (l : LineBuf), s.plan = .issue id :: rest →
    let s0 : State := { s with plan := rest }
    let s1 : State := { modCore s0 (berthCore id.berth) (markIssue s0 id) with cur := id }
    let k := settleWait g' id.who l.bits
    let u := setWg t id.berth k
    let word := lineSlot l.bits (slotOf k h id.who)
    wgOf s1 id.berth = some g → trapReady s0 id = false → trapReady s1 id = false → ctxEligible s1 id = true → headFor s1 id g = some h →
    (inLine g h id.who = true ∧ t = s1) ∨ (inLine g h id.who = false ∧ enterLine s1 id g h 0 = .ok t) →
    wgOf t id.berth = some g' → ctxIn g' id.who = some c → c.line = some l → ctxIn k id.who = some d → waitsFor d l.bits = false →
    breakHit u id k h = false ∨ d.bpPass = true ∨ midway d = true →
    (∀ i, decodeSlot (whoKind id.who) word = .ok i → step s = match exec i u with
      | .next v => .next (afterAct s v)
      | .fault x => .fault x
      | .refused x => .refused x) ∧
    (∀ r, decodeSlot (whoKind id.who) word = .error r →
      step s = .next (afterAct s (trapHere u id (mkTrap 0x01 (r + 16 * slotOf k h id.who) h.mask))))) ∧
  (∀ (s : State) (id : CtxId) (g : WG) (h : FEntry) (leaf : DWord) (pa : Nat), wgOf s id.berth = some g →
    let va := lineOf g h id.who
    let b := BitVec.ofNat 512 (leNat (cellsReadN s.hbm pa 64))
    (coreOf s (berthCore id.berth)).icache.find? (fun x => x.asid == asidOf g && x.addr.toNat == va) = none → isGlobal va = true →
    translate s (berthCore id.berth) (asidOf g) va false true = some (leaf, pa) → viewLoc s (viewOf s g) va pa = .hbm pa → eRb leaf = false →
    locBad s (.hbm pa) = false → lineParity b = true → lineReason b = none → remoteSent s id 1 = false →
    (∀ d, landingOf g h id.who = some d → lineTgt b (slotOf g h id.who) = true) → (ctxIn g id.who).isSome = true →
    ∃ t g' c, enterLine s id g h 0 = .ok t ∧ wgOf t id.berth = some g' ∧ ctxIn g' id.who = some c ∧ c.line = some ⟨BitVec.ofNat 64 va, b⟩)

/-- Every step keeps HBM and Quay memory (R259, R268) in the canonical form that the model gives them. No rule gives that form: it is the model's own
(log 2). Choices of the model: log 1, 2. -/
def Obligations.StepsKeepMemoryForm : Prop := ∀ s t : State, MemoryForm s → step s = .next t → MemoryForm t

/-- HBM and Quay memory (R259, R268) are in the model's own canonical form (log 2) at reset. Choices of the model: log 2. -/
def Obligations.ResetMemoryForm : Prop := MemoryForm State.reset

/-- R128, R303, R420 to R422: what the harbour registers read after reset, and what a workgroup's registers hold when it is placed (R14, R20, R25, R30,
R128, R308). Choices of the model: log 2, 6. -/
def Obligations.ResetValues : Prop :=
  (∀ off, ¬ (0x100 ≤ off ∧ off < 0x300 ∧ off / 8 % 2 = 1) →
    let o := off / 8 * 8
    let p := (o - 0x100000) % 0x10000
    let inPart := 0x100000 ≤ o ∧ o < 0x300000
    regRead State.reset off =
      if o = 0 then 16000 + 2 ^ 32 * 1400 else if o = 0x10 then 1000 else if o = 0x18 then 86400
      else if inPart ∧ p = 0x008 then 2000 else if inPart ∧ p = 0x010 then 4096
      else if inPart ∧ 0x1000 ≤ p ∧ p < 0x1800 ∧ p % 0x40 = 0x20 then 2 ^ 32 else 0) ∧
  (∀ a, cellsRead a State.reset.hbm = 0 ∧ cellsRead a State.reset.quay = 0) ∧ (∀ b, wgOf State.reset b = none) ∧
  (∀ (l : Launch) (h : BitVec 1024) (wgix wbase cycle : Nat) (copy : Copy) (peer : Option Nat),
    let g := startWg l h wgix wbase cycle copy peer
    g.tvec = 0 ∧ g.ptvec = 0 ∧ g.tdiag = 0xFFFFFFFF ∧ g.tags = 0 ∧ g.ckcnt = 0 ∧ (∀ k, g.pilot.sregs.getD k 0 = 0) ∧ (∀ k, k ≠ 0 → cbitOf g.pilot k = false) ∧
    g.pilot.pc = BitVec.ofNat 64 (hPentry h) ∧ (∀ k, bindOf g k = none) ∧
    ∀ n c, crewOf g n = some c → n < hCrews h ∧ c.fpx = 0 ∧ (∀ l, laneWord c.draw l = 0) ∧ (∀ k, k ≠ 0 → predOf c k = 0) ∧ (∀ k, regWords c k = []) ∧ (∀ k, latchOk c k = false) ∧ c.ctx.handler = none ∧
      c.frontier = [{ cix := 8, mask := hLaneMask h n, park := none }])
end

