-- ==== Sys2Proof/Laws/Bits.lean ====
section
/-! SUPPORT. Laws of association lists, of tabulated lists and of byte stores: a read after a write, and the canonical form that
every operation over memory keeps. -/

namespace Sys2Proof

theorem tabulateFrom_length {α : Type} (f : Nat → α) (n : Nat) : ∀ start, (tabulateFrom f start n).length = n := by
  induction n with
  | zero => intro start; rfl
  | succ n ih => intro start; simp [tabulateFrom, ih]

@[simp] theorem tabulate_length {α : Type} (n : Nat) (f : Nat → α) : (tabulate n f).length = n := tabulateFrom_length f n 0

theorem tabulateFrom_getElem? {α : Type} (f : Nat → α) (n : Nat) :
    ∀ start k, (tabulateFrom f start n)[k]? = if k < n then some (f (start + k)) else none := by
  induction n with
  | zero => intro start k; simp [tabulateFrom]
  | succ n ih =>
    intro start k
    cases k with
    | zero => simp [tabulateFrom]
    | succ k => simp [tabulateFrom, ih, Nat.add_comm, Nat.add_left_comm]

@[simp] theorem tabulate_getElem? {α : Type} (n : Nat) (f : Nat → α) (k : Nat) : (tabulate n f)[k]? = if k < n then some (f k) else none := by
  simp [tabulate, tabulateFrom_getElem?]

theorem tabulate_getD {α : Type} (n : Nat) (f : Nat → α) (k : Nat) (d : α) : (tabulate n f).getD k d = if k < n then f k else d := by
  rw [List.getD_eq_getElem?_getD, tabulate_getElem?]; split <;> rfl

/-- The word of a lane in words computed lane by lane. -/
theorem laneWord_lanes (f : Nat → Word) (l : Nat) (h : l < 128) : laneWord (lanes f) l = f l := by
  rw [laneWord, lanes, tabulate_getD, if_pos h]

namespace Machine

theorem alookup_ainsert_self {α : Type} (k : Nat) (v : α) (xs : List (Nat × α)) : alookup k (ainsert k v xs) = some v := by
  induction xs with
  | nil => simp [ainsert, alookup]
  | cons x xs ih =>
    obtain ⟨j, w⟩ := x
    simp only [ainsert]
    split
    · simp [alookup]
    · split
      · simp [alookup]
      · rename_i h1 h2; simp [alookup, ih, h2]

theorem alookup_ainsert_of_ne {α : Type} (k j : Nat) (v : α) (xs : List (Nat × α)) (h : k ≠ j) :
    alookup j (ainsert k v xs) = alookup j xs := by
  induction xs with
  | nil => simp [ainsert, alookup, h]
  | cons x xs ih =>
    obtain ⟨i, w⟩ := x
    simp only [ainsert]
    split
    · simp [alookup, h]
    · split
      · rename_i h1 h2; subst h2; simp [alookup, h]
      · simp [alookup, ih]

@[simp] theorem alookup_ainsert {α : Type} (k j : Nat) (v : α) (xs : List (Nat × α)) :
    alookup j (ainsert k v xs) = if k = j then some v else alookup j xs := by
  split
  · rename_i h; subst h; exact alookup_ainsert_self k v xs
  · rename_i h; exact alookup_ainsert_of_ne k j v xs h

theorem agetD_ainsert {α : Type} (d : α) (k j : Nat) (v : α) (xs : List (Nat × α)) :
    agetD d j (ainsert k v xs) = if k = j then v else agetD d j xs := by
  simp only [agetD, alookup_ainsert]; split <;> rfl

theorem alookup_aerase_of_ne {α : Type} (k j : Nat) (xs : List (Nat × α)) (h : k ≠ j) : alookup j (aerase k xs) = alookup j xs := by
  induction xs with
  | nil => rfl
  | cons x xs ih =>
    obtain ⟨i, w⟩ := x
    simp only [aerase]
    split
    · rename_i h1; subst h1; simp [alookup, h]
    · simp [alookup, ih]

theorem alookup_map {α β : Type} (f : Nat → α → β) (k : Nat) (xs : List (Nat × α)) :
    alookup k (xs.map (fun x => (x.1, f x.1 x.2))) = (alookup k xs).map (f k) := by
  induction xs with
  | nil => rfl
  | cons x xs ih =>
    obtain ⟨i, w⟩ := x
    simp only [List.map, alookup]
    split
    · rename_i h; subst h; rfl
    · exact ih

/-! ### Byte stores -/

theorem cellsWfFrom_mono (m : List Host.Cell) (lo lo' : Nat) (h : lo' ≤ lo) (hw : cellsWfFrom lo m = true) : cellsWfFrom lo' m = true := by
  cases m with
  | nil => rfl
  | cons x xs =>
    obtain ⟨k, b⟩ := x
    simp only [cellsWfFrom, Bool.and_eq_true, decide_eq_true_eq] at hw ⊢
    exact ⟨⟨by omega, hw.1.2⟩, hw.2⟩

/-- Below its lower bound a canonical store reads 0. -/
theorem cellsRead_below (m : List Host.Cell) (lo a : Nat) (h : a < lo) (hw : cellsWfFrom lo m = true) : cellsRead a m = 0 := by
  cases m with
  | nil => rfl
  | cons x xs =>
    obtain ⟨k, b⟩ := x
    simp only [cellsWfFrom, Bool.and_eq_true, decide_eq_true_eq] at hw
    have h1 : k ≠ a := by omega
    have h2 : a < k := by omega
    simp [cellsRead, h1, h2]

/-- A written byte keeps the canonical form. -/
theorem cellsWrite_wfFrom (a : Nat) (b : Byte) (m : List Host.Cell) (lo : Nat) (hlo : lo ≤ a) (hw : cellsWfFrom lo m = true) :
    cellsWfFrom lo (cellsWrite a b m) = true := by
  induction m generalizing lo with
  | nil =>
    simp only [cellsWrite]
    split
    · rfl
    · rename_i hb
      simp only [cellsWfFrom, Bool.and_eq_true, decide_eq_true_eq]
      exact ⟨⟨hlo, hb⟩, trivial⟩
  | cons x xs ih =>
    obtain ⟨k, c⟩ := x
    simp only [cellsWfFrom, Bool.and_eq_true, decide_eq_true_eq] at hw
    obtain ⟨⟨hk, hc⟩, hxs⟩ := hw
    simp only [cellsWrite]
    split
    · rename_i ha
      split
      · simp only [cellsWfFrom, Bool.and_eq_true, decide_eq_true_eq]
        exact ⟨⟨hk, hc⟩, hxs⟩
      · rename_i hb
        simp only [cellsWfFrom, Bool.and_eq_true, decide_eq_true_eq]
        exact ⟨⟨hlo, hb⟩, ⟨ha, hc⟩, hxs⟩
    · split
      · rename_i h1 h2
        subst h2
        split
        · exact cellsWfFrom_mono xs (k + 1) lo (by omega) hxs
        · rename_i hb
          simp only [cellsWfFrom, Bool.and_eq_true, decide_eq_true_eq]
          exact ⟨⟨hk, hb⟩, hxs⟩
      · rename_i h1 h2
        simp only [cellsWfFrom, Bool.and_eq_true, decide_eq_true_eq]
        exact ⟨⟨hk, hc⟩, ih (k + 1) (by omega) hxs⟩

/-- A written byte keeps the canonical form of the memory. -/
theorem cellsWrite_wf (a : Nat) (b : Byte) (m : List Host.Cell) (h : Memory.wf m = true) : Memory.wf (cellsWrite a b m) = true :=
  cellsWrite_wfFrom a b m 0 (Nat.zero_le a) h

/-- A written byte string keeps it. -/
theorem cellsWriteN_wf (m : List Host.Cell) (a : Nat) (bs : List Byte) (h : Memory.wf m = true) : Memory.wf (cellsWriteN m a bs) = true := by
  induction bs generalizing m a with
  | nil => exact h
  | cons b bs ih => exact ih _ _ (cellsWrite_wf a b m h)

theorem cells_filter_wfFrom (p : Host.Cell → Bool) (m : List Host.Cell) (lo : Nat) (h : cellsWfFrom lo m = true) :
    cellsWfFrom lo (m.filter p) = true := by
  induction m generalizing lo with
  | nil => rfl
  | cons x xs ih =>
    obtain ⟨k, b⟩ := x
    simp only [cellsWfFrom, Bool.and_eq_true, decide_eq_true_eq] at h
    obtain ⟨⟨hk, hb⟩, hxs⟩ := h
    simp only [List.filter]
    split
    · simp only [cellsWfFrom, Bool.and_eq_true, decide_eq_true_eq]
      exact ⟨⟨hk, hb⟩, ih (k + 1) hxs⟩
    · exact cellsWfFrom_mono _ (k + 1) lo (by omega) (ih (k + 1) hxs)

/-- Zeroing a range keeps it. -/
theorem cellsZero_wf (m : List Host.Cell) (a n : Nat) (h : Memory.wf m = true) : Memory.wf (cellsZero m a n) = true :=
  cells_filter_wfFrom _ m 0 h

/-- Putting cells back keeps it. -/
theorem cellsPlace_wf (m : List Host.Cell) (a n : Nat) (cs : List Host.Cell) (h : Memory.wf m = true) :
    Memory.wf (cellsPlace m a n cs) = true := by
  have key : ∀ (cs : List Host.Cell) (m : List Host.Cell), Memory.wf m = true →
      Memory.wf (cs.foldl (fun m c => if c.1 < n then cellsWrite (a + c.1) c.2 m else m) m) = true := by
    intro cs
    induction cs with
    | nil => intro m h; exact h
    | cons c cs ih =>
      intro m h
      simp only [List.foldl]
      apply ih
      split
      · exact cellsWrite_wf _ _ m h
      · exact h
  exact key cs _ (cellsZero_wf m a n h)

/-- READ AFTER WRITE: the written address reads the byte. -/
theorem cellsRead_write_self (a : Nat) (b : Byte) (m : List Host.Cell) (lo : Nat) (hw : cellsWfFrom lo m = true) :
    cellsRead a (cellsWrite a b m) = b := by
  induction m generalizing lo with
  | nil =>
    simp only [cellsWrite]
    split
    · rename_i h; simp [cellsRead, h]
    · simp [cellsRead]
  | cons x xs ih =>
    obtain ⟨k, c⟩ := x
    simp only [cellsWfFrom, Bool.and_eq_true, decide_eq_true_eq] at hw
    obtain ⟨⟨hk, hc⟩, hxs⟩ := hw
    simp only [cellsWrite]
    split
    · rename_i ha
      split
      · rename_i hb
        have h1 : k ≠ a := by omega
        simp [cellsRead, h1, ha, hb]
      · simp [cellsRead]
    · rename_i ha
      split
      · rename_i h2
        subst h2
        split
        · rename_i hb; rw [hb]; exact cellsRead_below xs (k + 1) k (by omega) hxs
        · simp [cellsRead]
      · rename_i h2
        have h3 : ¬ a < k := ha
        simp [cellsRead, h2, h3, ih (k + 1) hxs]

/-- A write leaves every other address alone. -/
theorem cellsRead_write_of_ne (a a' : Nat) (b : Byte) (m : List Host.Cell) (lo : Nat) (h : a ≠ a') (hw : cellsWfFrom lo m = true) :
    cellsRead a' (cellsWrite a b m) = cellsRead a' m := by
  induction m generalizing lo with
  | nil =>
    simp only [cellsWrite]
    split
    · rfl
    · simp [cellsRead, h]
  | cons x xs ih =>
    obtain ⟨k, c⟩ := x
    simp only [cellsWfFrom, Bool.and_eq_true, decide_eq_true_eq] at hw
    obtain ⟨⟨hk, hc⟩, hxs⟩ := hw
    simp only [cellsWrite]
    split
    · rename_i ha
      split
      · rfl
      · by_cases h1 : a' < a
        · have h2 : k ≠ a' := by omega
          have h3 : a' < k := by omega
          simp [cellsRead, h, h1, h2, h3]
        · simp [cellsRead, h, h1]
    · rename_i ha
      split
      · rename_i h2
        subst h2
        split
        · by_cases h1 : a' < k
          · rw [cellsRead_below xs (k + 1) a' (by omega) hxs]; simp [cellsRead, h, h1]
          · simp [cellsRead, h, h1]
        · simp [cellsRead, h]
      · rename_i h2
        simp only [cellsRead]
        split
        · rfl
        · split
          · rfl
          · exact ih (k + 1) hxs

/-- A written byte string leaves every address outside it alone. -/
theorem cellsRead_writeN_of_out (m : List Host.Cell) (a a' : Nat) (bs : List Byte) (h : a' < a ∨ a + bs.length ≤ a')
    (hw : Memory.wf m = true) : cellsRead a' (cellsWriteN m a bs) = cellsRead a' m := by
  induction bs generalizing m a with
  | nil => rfl
  | cons b bs ih =>
    simp only [List.length_cons] at h
    rw [cellsWriteN, ih _ (a + 1) (by omega) (cellsWrite_wf a b m hw), cellsRead_write_of_ne a a' b m 0 (by omega) hw]

/-- A byte string reads back. -/
theorem cellsReadN_writeN (m : List Host.Cell) (a : Nat) (bs : List Byte) (hw : Memory.wf m = true) :
    cellsReadN (cellsWriteN m a bs) a bs.length = bs := by
  induction bs generalizing m a with
  | nil => rfl
  | cons b bs ih =>
    simp only [List.length_cons, cellsReadN, cellsWriteN]
    rw [cellsRead_writeN_of_out _ (a + 1) a bs (by omega) (cellsWrite_wf a b m hw), cellsRead_write_self a b m 0 hw, ih _ _ (cellsWrite_wf a b m hw)]

/-- Little-endian bytes hold their number. -/
theorem leNat_leBytes (n v : Nat) : leNat (leBytes n v) = v % 256 ^ n := by
  induction n generalizing v with
  | zero => simp [leBytes, leNat, Nat.mod_one]
  | succ n ih =>
    simp only [leBytes, leNat, ih, BitVec.toNat_ofNat]
    show v % 256 + _ = _
    rw [Nat.pow_succ, Nat.mul_comm (256 ^ n) 256, Nat.mod_mul]

@[simp] theorem leBytes_length (n v : Nat) : (leBytes n v).length = n := by
  induction n generalizing v with
  | zero => rfl
  | succ n ih => simp [leBytes, ih]

end Machine

end Sys2Proof
end

