-- ==== Sys2Proof/Laws/State.lean ====
section
/-! SUPPORT. Laws of the updates of the state: what each leaves of every field, so that no proof unfolds a record update. -/

namespace Sys2Proof.Machine

/-! ### `setWg` -/

@[simp] theorem setWg_cycle (s : State) (b : Nat) (g : WG) : (setWg s b g).cycle = s.cycle := rfl
@[simp] theorem setWg_steps (s : State) (b : Nat) (g : WG) : (setWg s b g).steps = s.steps := rfl
@[simp] theorem setWg_plan (s : State) (b : Nat) (g : WG) : (setWg s b g).plan = s.plan := rfl
@[simp] theorem setWg_cur (s : State) (b : Nat) (g : WG) : (setWg s b g).cur = s.cur := rfl
@[simp] theorem setWg_hbm (s : State) (b : Nat) (g : WG) : (setWg s b g).hbm = s.hbm := rfl
@[simp] theorem setWg_hbmBad (s : State) (b : Nat) (g : WG) : (setWg s b g).hbmBad = s.hbmBad := rfl
@[simp] theorem setWg_quay (s : State) (b : Nat) (g : WG) : (setWg s b g).quay = s.quay := rfl
@[simp] theorem setWg_quayBad (s : State) (b : Nat) (g : WG) : (setWg s b g).quayBad = s.quayBad := rfl
@[simp] theorem setWg_engTiles (s : State) (b : Nat) (g : WG) : (setWg s b g).engTiles = s.engTiles := rfl
@[simp] theorem setWg_cores (s : State) (b : Nat) (g : WG) : (setWg s b g).cores = s.cores := rfl
@[simp] theorem setWg_parts (s : State) (b : Nat) (g : WG) : (setWg s b g).parts = s.parts := rfl
@[simp] theorem setWg_spaces (s : State) (b : Nat) (g : WG) : (setWg s b g).spaces = s.spaces := rfl
@[simp] theorem setWg_launches (s : State) (b : Nat) (g : WG) : (setWg s b g).launches = s.launches := rfl
@[simp] theorem setWg_nextLaunch (s : State) (b : Nat) (g : WG) : (setWg s b g).nextLaunch = s.nextLaunch := rfl
@[simp] theorem setWg_revs (s : State) (b : Nat) (g : WG) : (setWg s b g).revs = s.revs := rfl
@[simp] theorem setWg_nextRev (s : State) (b : Nat) (g : WG) : (setWg s b g).nextRev = s.nextRev := rfl
@[simp] theorem setWg_readyCtr (s : State) (b : Nat) (g : WG) : (setWg s b g).readyCtr = s.readyCtr := rfl
@[simp] theorem setWg_pkg (s : State) (b : Nat) (g : WG) : (setWg s b g).pkg = s.pkg := rfl
@[simp] theorem setWg_agents (s : State) (b : Nat) (g : WG) : (setWg s b g).agents = s.agents := rfl
@[simp] theorem setWg_reserved (s : State) (b : Nat) (g : WG) : (setWg s b g).reserved = s.reserved := rfl
@[simp] theorem setWg_walkers (s : State) (b : Nat) (g : WG) : (setWg s b g).walkers = s.walkers := rfl
@[simp] theorem setWg_images (s : State) (b : Nat) (g : WG) : (setWg s b g).images = s.images := rfl
@[simp] theorem setWg_wgs (s : State) (b : Nat) (g : WG) : (setWg s b g).wgs = ainsert b g s.wgs := rfl

/-! ### `modCore` -/

@[simp] theorem modCore_cycle (s : State) (k : Nat) (f : Core → Core) : (modCore s k f).cycle = s.cycle := rfl
@[simp] theorem modCore_steps (s : State) (k : Nat) (f : Core → Core) : (modCore s k f).steps = s.steps := rfl
@[simp] theorem modCore_plan (s : State) (k : Nat) (f : Core → Core) : (modCore s k f).plan = s.plan := rfl
@[simp] theorem modCore_cur (s : State) (k : Nat) (f : Core → Core) : (modCore s k f).cur = s.cur := rfl
@[simp] theorem modCore_hbm (s : State) (k : Nat) (f : Core → Core) : (modCore s k f).hbm = s.hbm := rfl
@[simp] theorem modCore_hbmBad (s : State) (k : Nat) (f : Core → Core) : (modCore s k f).hbmBad = s.hbmBad := rfl
@[simp] theorem modCore_quay (s : State) (k : Nat) (f : Core → Core) : (modCore s k f).quay = s.quay := rfl
@[simp] theorem modCore_quayBad (s : State) (k : Nat) (f : Core → Core) : (modCore s k f).quayBad = s.quayBad := rfl
@[simp] theorem modCore_engTiles (s : State) (k : Nat) (f : Core → Core) : (modCore s k f).engTiles = s.engTiles := rfl
@[simp] theorem modCore_wgs (s : State) (k : Nat) (f : Core → Core) : (modCore s k f).wgs = s.wgs := rfl
@[simp] theorem modCore_parts (s : State) (k : Nat) (f : Core → Core) : (modCore s k f).parts = s.parts := rfl
@[simp] theorem modCore_spaces (s : State) (k : Nat) (f : Core → Core) : (modCore s k f).spaces = s.spaces := rfl
@[simp] theorem modCore_launches (s : State) (k : Nat) (f : Core → Core) : (modCore s k f).launches = s.launches := rfl
@[simp] theorem modCore_nextLaunch (s : State) (k : Nat) (f : Core → Core) : (modCore s k f).nextLaunch = s.nextLaunch := rfl
@[simp] theorem modCore_revs (s : State) (k : Nat) (f : Core → Core) : (modCore s k f).revs = s.revs := rfl
@[simp] theorem modCore_nextRev (s : State) (k : Nat) (f : Core → Core) : (modCore s k f).nextRev = s.nextRev := rfl
@[simp] theorem modCore_readyCtr (s : State) (k : Nat) (f : Core → Core) : (modCore s k f).readyCtr = s.readyCtr := rfl
@[simp] theorem modCore_pkg (s : State) (k : Nat) (f : Core → Core) : (modCore s k f).pkg = s.pkg := rfl
@[simp] theorem modCore_agents (s : State) (k : Nat) (f : Core → Core) : (modCore s k f).agents = s.agents := rfl
@[simp] theorem modCore_reserved (s : State) (k : Nat) (f : Core → Core) : (modCore s k f).reserved = s.reserved := rfl
@[simp] theorem modCore_walkers (s : State) (k : Nat) (f : Core → Core) : (modCore s k f).walkers = s.walkers := rfl
@[simp] theorem modCore_images (s : State) (k : Nat) (f : Core → Core) : (modCore s k f).images = s.images := rfl
@[simp] theorem modCore_cores (s : State) (k : Nat) (f : Core → Core) : (modCore s k f).cores = ainsert k (f (coreOf s k)) s.cores := rfl

/-! ### `modPart` -/

@[simp] theorem modPart_cycle (s : State) (p : Nat) (f : Part → Part) : (modPart s p f).cycle = s.cycle := rfl
@[simp] theorem modPart_steps (s : State) (p : Nat) (f : Part → Part) : (modPart s p f).steps = s.steps := rfl
@[simp] theorem modPart_plan (s : State) (p : Nat) (f : Part → Part) : (modPart s p f).plan = s.plan := rfl
@[simp] theorem modPart_cur (s : State) (p : Nat) (f : Part → Part) : (modPart s p f).cur = s.cur := rfl
@[simp] theorem modPart_hbm (s : State) (p : Nat) (f : Part → Part) : (modPart s p f).hbm = s.hbm := rfl
@[simp] theorem modPart_hbmBad (s : State) (p : Nat) (f : Part → Part) : (modPart s p f).hbmBad = s.hbmBad := rfl
@[simp] theorem modPart_quay (s : State) (p : Nat) (f : Part → Part) : (modPart s p f).quay = s.quay := rfl
@[simp] theorem modPart_quayBad (s : State) (p : Nat) (f : Part → Part) : (modPart s p f).quayBad = s.quayBad := rfl
@[simp] theorem modPart_engTiles (s : State) (p : Nat) (f : Part → Part) : (modPart s p f).engTiles = s.engTiles := rfl
@[simp] theorem modPart_cores (s : State) (p : Nat) (f : Part → Part) : (modPart s p f).cores = s.cores := rfl
@[simp] theorem modPart_wgs (s : State) (p : Nat) (f : Part → Part) : (modPart s p f).wgs = s.wgs := rfl
@[simp] theorem modPart_spaces (s : State) (p : Nat) (f : Part → Part) : (modPart s p f).spaces = s.spaces := rfl
@[simp] theorem modPart_launches (s : State) (p : Nat) (f : Part → Part) : (modPart s p f).launches = s.launches := rfl
@[simp] theorem modPart_nextLaunch (s : State) (p : Nat) (f : Part → Part) : (modPart s p f).nextLaunch = s.nextLaunch := rfl
@[simp] theorem modPart_revs (s : State) (p : Nat) (f : Part → Part) : (modPart s p f).revs = s.revs := rfl
@[simp] theorem modPart_nextRev (s : State) (p : Nat) (f : Part → Part) : (modPart s p f).nextRev = s.nextRev := rfl
@[simp] theorem modPart_readyCtr (s : State) (p : Nat) (f : Part → Part) : (modPart s p f).readyCtr = s.readyCtr := rfl
@[simp] theorem modPart_pkg (s : State) (p : Nat) (f : Part → Part) : (modPart s p f).pkg = s.pkg := rfl
@[simp] theorem modPart_agents (s : State) (p : Nat) (f : Part → Part) : (modPart s p f).agents = s.agents := rfl
@[simp] theorem modPart_reserved (s : State) (p : Nat) (f : Part → Part) : (modPart s p f).reserved = s.reserved := rfl
@[simp] theorem modPart_walkers (s : State) (p : Nat) (f : Part → Part) : (modPart s p f).walkers = s.walkers := rfl
@[simp] theorem modPart_images (s : State) (p : Nat) (f : Part → Part) : (modPart s p f).images = s.images := rfl
@[simp] theorem modPart_parts (s : State) (p : Nat) (f : Part → Part) : (modPart s p f).parts = ainsert p (f (partOf s p)) s.parts := rfl

/-! ### `modLaunch` -/

@[simp] theorem modLaunch_cycle (s : State) (l : Nat) (f : Launch → Launch) : (modLaunch s l f).cycle = s.cycle := rfl
@[simp] theorem modLaunch_steps (s : State) (l : Nat) (f : Launch → Launch) : (modLaunch s l f).steps = s.steps := rfl
@[simp] theorem modLaunch_plan (s : State) (l : Nat) (f : Launch → Launch) : (modLaunch s l f).plan = s.plan := rfl
@[simp] theorem modLaunch_cur (s : State) (l : Nat) (f : Launch → Launch) : (modLaunch s l f).cur = s.cur := rfl
@[simp] theorem modLaunch_hbm (s : State) (l : Nat) (f : Launch → Launch) : (modLaunch s l f).hbm = s.hbm := rfl
@[simp] theorem modLaunch_hbmBad (s : State) (l : Nat) (f : Launch → Launch) : (modLaunch s l f).hbmBad = s.hbmBad := rfl
@[simp] theorem modLaunch_quay (s : State) (l : Nat) (f : Launch → Launch) : (modLaunch s l f).quay = s.quay := rfl
@[simp] theorem modLaunch_quayBad (s : State) (l : Nat) (f : Launch → Launch) : (modLaunch s l f).quayBad = s.quayBad := rfl
@[simp] theorem modLaunch_engTiles (s : State) (l : Nat) (f : Launch → Launch) : (modLaunch s l f).engTiles = s.engTiles := rfl
@[simp] theorem modLaunch_cores (s : State) (l : Nat) (f : Launch → Launch) : (modLaunch s l f).cores = s.cores := rfl
@[simp] theorem modLaunch_wgs (s : State) (l : Nat) (f : Launch → Launch) : (modLaunch s l f).wgs = s.wgs := rfl
@[simp] theorem modLaunch_parts (s : State) (l : Nat) (f : Launch → Launch) : (modLaunch s l f).parts = s.parts := rfl
@[simp] theorem modLaunch_spaces (s : State) (l : Nat) (f : Launch → Launch) : (modLaunch s l f).spaces = s.spaces := rfl
@[simp] theorem modLaunch_nextLaunch (s : State) (l : Nat) (f : Launch → Launch) : (modLaunch s l f).nextLaunch = s.nextLaunch := rfl
@[simp] theorem modLaunch_revs (s : State) (l : Nat) (f : Launch → Launch) : (modLaunch s l f).revs = s.revs := rfl
@[simp] theorem modLaunch_nextRev (s : State) (l : Nat) (f : Launch → Launch) : (modLaunch s l f).nextRev = s.nextRev := rfl
@[simp] theorem modLaunch_readyCtr (s : State) (l : Nat) (f : Launch → Launch) : (modLaunch s l f).readyCtr = s.readyCtr := rfl
@[simp] theorem modLaunch_pkg (s : State) (l : Nat) (f : Launch → Launch) : (modLaunch s l f).pkg = s.pkg := rfl
@[simp] theorem modLaunch_agents (s : State) (l : Nat) (f : Launch → Launch) : (modLaunch s l f).agents = s.agents := rfl
@[simp] theorem modLaunch_reserved (s : State) (l : Nat) (f : Launch → Launch) : (modLaunch s l f).reserved = s.reserved := rfl
@[simp] theorem modLaunch_walkers (s : State) (l : Nat) (f : Launch → Launch) : (modLaunch s l f).walkers = s.walkers := rfl
@[simp] theorem modLaunch_images (s : State) (l : Nat) (f : Launch → Launch) : (modLaunch s l f).images = s.images := rfl

/-! ### `modPkg` -/

@[simp] theorem modPkg_cycle (s : State) (f : Pkg → Pkg) : (modPkg s f).cycle = s.cycle := rfl
@[simp] theorem modPkg_steps (s : State) (f : Pkg → Pkg) : (modPkg s f).steps = s.steps := rfl
@[simp] theorem modPkg_plan (s : State) (f : Pkg → Pkg) : (modPkg s f).plan = s.plan := rfl
@[simp] theorem modPkg_cur (s : State) (f : Pkg → Pkg) : (modPkg s f).cur = s.cur := rfl
@[simp] theorem modPkg_hbm (s : State) (f : Pkg → Pkg) : (modPkg s f).hbm = s.hbm := rfl
@[simp] theorem modPkg_hbmBad (s : State) (f : Pkg → Pkg) : (modPkg s f).hbmBad = s.hbmBad := rfl
@[simp] theorem modPkg_quay (s : State) (f : Pkg → Pkg) : (modPkg s f).quay = s.quay := rfl
@[simp] theorem modPkg_quayBad (s : State) (f : Pkg → Pkg) : (modPkg s f).quayBad = s.quayBad := rfl
@[simp] theorem modPkg_engTiles (s : State) (f : Pkg → Pkg) : (modPkg s f).engTiles = s.engTiles := rfl
@[simp] theorem modPkg_cores (s : State) (f : Pkg → Pkg) : (modPkg s f).cores = s.cores := rfl
@[simp] theorem modPkg_wgs (s : State) (f : Pkg → Pkg) : (modPkg s f).wgs = s.wgs := rfl
@[simp] theorem modPkg_parts (s : State) (f : Pkg → Pkg) : (modPkg s f).parts = s.parts := rfl
@[simp] theorem modPkg_spaces (s : State) (f : Pkg → Pkg) : (modPkg s f).spaces = s.spaces := rfl
@[simp] theorem modPkg_launches (s : State) (f : Pkg → Pkg) : (modPkg s f).launches = s.launches := rfl
@[simp] theorem modPkg_nextLaunch (s : State) (f : Pkg → Pkg) : (modPkg s f).nextLaunch = s.nextLaunch := rfl
@[simp] theorem modPkg_revs (s : State) (f : Pkg → Pkg) : (modPkg s f).revs = s.revs := rfl
@[simp] theorem modPkg_nextRev (s : State) (f : Pkg → Pkg) : (modPkg s f).nextRev = s.nextRev := rfl
@[simp] theorem modPkg_readyCtr (s : State) (f : Pkg → Pkg) : (modPkg s f).readyCtr = s.readyCtr := rfl
@[simp] theorem modPkg_agents (s : State) (f : Pkg → Pkg) : (modPkg s f).agents = s.agents := rfl
@[simp] theorem modPkg_reserved (s : State) (f : Pkg → Pkg) : (modPkg s f).reserved = s.reserved := rfl
@[simp] theorem modPkg_walkers (s : State) (f : Pkg → Pkg) : (modPkg s f).walkers = s.walkers := rfl
@[simp] theorem modPkg_images (s : State) (f : Pkg → Pkg) : (modPkg s f).images = s.images := rfl
@[simp] theorem modPkg_pkg (s : State) (f : Pkg → Pkg) : (modPkg s f).pkg = f s.pkg := rfl

/-! ### `modWg` -/

@[simp] theorem modWg_cycle (s : State) (b : Nat) (f : WG → WG) : (modWg s b f).cycle = s.cycle := by unfold modWg; split <;> rfl
@[simp] theorem modWg_steps (s : State) (b : Nat) (f : WG → WG) : (modWg s b f).steps = s.steps := by unfold modWg; split <;> rfl
@[simp] theorem modWg_plan (s : State) (b : Nat) (f : WG → WG) : (modWg s b f).plan = s.plan := by unfold modWg; split <;> rfl
@[simp] theorem modWg_cur (s : State) (b : Nat) (f : WG → WG) : (modWg s b f).cur = s.cur := by unfold modWg; split <;> rfl
@[simp] theorem modWg_hbm (s : State) (b : Nat) (f : WG → WG) : (modWg s b f).hbm = s.hbm := by unfold modWg; split <;> rfl
@[simp] theorem modWg_hbmBad (s : State) (b : Nat) (f : WG → WG) : (modWg s b f).hbmBad = s.hbmBad := by unfold modWg; split <;> rfl
@[simp] theorem modWg_quay (s : State) (b : Nat) (f : WG → WG) : (modWg s b f).quay = s.quay := by unfold modWg; split <;> rfl
@[simp] theorem modWg_quayBad (s : State) (b : Nat) (f : WG → WG) : (modWg s b f).quayBad = s.quayBad := by unfold modWg; split <;> rfl
@[simp] theorem modWg_engTiles (s : State) (b : Nat) (f : WG → WG) : (modWg s b f).engTiles = s.engTiles := by unfold modWg; split <;> rfl
@[simp] theorem modWg_cores (s : State) (b : Nat) (f : WG → WG) : (modWg s b f).cores = s.cores := by unfold modWg; split <;> rfl
@[simp] theorem modWg_parts (s : State) (b : Nat) (f : WG → WG) : (modWg s b f).parts = s.parts := by unfold modWg; split <;> rfl
@[simp] theorem modWg_spaces (s : State) (b : Nat) (f : WG → WG) : (modWg s b f).spaces = s.spaces := by unfold modWg; split <;> rfl
@[simp] theorem modWg_launches (s : State) (b : Nat) (f : WG → WG) : (modWg s b f).launches = s.launches := by unfold modWg; split <;> rfl
@[simp] theorem modWg_nextLaunch (s : State) (b : Nat) (f : WG → WG) : (modWg s b f).nextLaunch = s.nextLaunch := by unfold modWg; split <;> rfl
@[simp] theorem modWg_revs (s : State) (b : Nat) (f : WG → WG) : (modWg s b f).revs = s.revs := by unfold modWg; split <;> rfl
@[simp] theorem modWg_nextRev (s : State) (b : Nat) (f : WG → WG) : (modWg s b f).nextRev = s.nextRev := by unfold modWg; split <;> rfl
@[simp] theorem modWg_readyCtr (s : State) (b : Nat) (f : WG → WG) : (modWg s b f).readyCtr = s.readyCtr := by unfold modWg; split <;> rfl
@[simp] theorem modWg_pkg (s : State) (b : Nat) (f : WG → WG) : (modWg s b f).pkg = s.pkg := by unfold modWg; split <;> rfl
@[simp] theorem modWg_agents (s : State) (b : Nat) (f : WG → WG) : (modWg s b f).agents = s.agents := by unfold modWg; split <;> rfl
@[simp] theorem modWg_reserved (s : State) (b : Nat) (f : WG → WG) : (modWg s b f).reserved = s.reserved := by unfold modWg; split <;> rfl
@[simp] theorem modWg_walkers (s : State) (b : Nat) (f : WG → WG) : (modWg s b f).walkers = s.walkers := by unfold modWg; split <;> rfl
@[simp] theorem modWg_images (s : State) (b : Nat) (f : WG → WG) : (modWg s b f).images = s.images := by unfold modWg; split <;> rfl

/-! ### `modCtx` -/

@[simp] theorem modCtx_cycle (s : State) (c : CtxId) (f : Ctx → Ctx) : (modCtx s c f).cycle = s.cycle := modWg_cycle ..
@[simp] theorem modCtx_steps (s : State) (c : CtxId) (f : Ctx → Ctx) : (modCtx s c f).steps = s.steps := modWg_steps ..
@[simp] theorem modCtx_plan (s : State) (c : CtxId) (f : Ctx → Ctx) : (modCtx s c f).plan = s.plan := modWg_plan ..
@[simp] theorem modCtx_cur (s : State) (c : CtxId) (f : Ctx → Ctx) : (modCtx s c f).cur = s.cur := modWg_cur ..
@[simp] theorem modCtx_hbm (s : State) (c : CtxId) (f : Ctx → Ctx) : (modCtx s c f).hbm = s.hbm := modWg_hbm ..
@[simp] theorem modCtx_hbmBad (s : State) (c : CtxId) (f : Ctx → Ctx) : (modCtx s c f).hbmBad = s.hbmBad := modWg_hbmBad ..
@[simp] theorem modCtx_quay (s : State) (c : CtxId) (f : Ctx → Ctx) : (modCtx s c f).quay = s.quay := modWg_quay ..
@[simp] theorem modCtx_quayBad (s : State) (c : CtxId) (f : Ctx → Ctx) : (modCtx s c f).quayBad = s.quayBad := modWg_quayBad ..
@[simp] theorem modCtx_engTiles (s : State) (c : CtxId) (f : Ctx → Ctx) : (modCtx s c f).engTiles = s.engTiles := modWg_engTiles ..
@[simp] theorem modCtx_cores (s : State) (c : CtxId) (f : Ctx → Ctx) : (modCtx s c f).cores = s.cores := modWg_cores ..
@[simp] theorem modCtx_parts (s : State) (c : CtxId) (f : Ctx → Ctx) : (modCtx s c f).parts = s.parts := modWg_parts ..
@[simp] theorem modCtx_spaces (s : State) (c : CtxId) (f : Ctx → Ctx) : (modCtx s c f).spaces = s.spaces := modWg_spaces ..
@[simp] theorem modCtx_launches (s : State) (c : CtxId) (f : Ctx → Ctx) : (modCtx s c f).launches = s.launches := modWg_launches ..
@[simp] theorem modCtx_nextLaunch (s : State) (c : CtxId) (f : Ctx → Ctx) : (modCtx s c f).nextLaunch = s.nextLaunch := modWg_nextLaunch ..
@[simp] theorem modCtx_revs (s : State) (c : CtxId) (f : Ctx → Ctx) : (modCtx s c f).revs = s.revs := modWg_revs ..
@[simp] theorem modCtx_nextRev (s : State) (c : CtxId) (f : Ctx → Ctx) : (modCtx s c f).nextRev = s.nextRev := modWg_nextRev ..
@[simp] theorem modCtx_readyCtr (s : State) (c : CtxId) (f : Ctx → Ctx) : (modCtx s c f).readyCtr = s.readyCtr := modWg_readyCtr ..
@[simp] theorem modCtx_pkg (s : State) (c : CtxId) (f : Ctx → Ctx) : (modCtx s c f).pkg = s.pkg := modWg_pkg ..
@[simp] theorem modCtx_agents (s : State) (c : CtxId) (f : Ctx → Ctx) : (modCtx s c f).agents = s.agents := modWg_agents ..
@[simp] theorem modCtx_reserved (s : State) (c : CtxId) (f : Ctx → Ctx) : (modCtx s c f).reserved = s.reserved := modWg_reserved ..
@[simp] theorem modCtx_walkers (s : State) (c : CtxId) (f : Ctx → Ctx) : (modCtx s c f).walkers = s.walkers := modWg_walkers ..
@[simp] theorem modCtx_images (s : State) (c : CtxId) (f : Ctx → Ctx) : (modCtx s c f).images = s.images := modWg_images ..

/-! ### Reaching what was put -/

@[simp] theorem wgOf_setWg (s : State) (b c : Nat) (g : WG) : wgOf (setWg s b g) c = if b = c then some g else wgOf s c := by
  simp [wgOf]

theorem wgOf_modWg (s : State) (b c : Nat) (f : WG → WG) :
    wgOf (modWg s b f) c = if b = c then (wgOf s b).map f else wgOf s c := by
  unfold modWg
  split
  · rename_i g h; simp [h]
  · rename_i h; split
    · rename_i e; subst e; simp [h]
    · rfl

@[simp] theorem wgOf_modWg_self (s : State) (b : Nat) (f : WG → WG) : wgOf (modWg s b f) b = (wgOf s b).map f := by
  simp [wgOf_modWg]

theorem wgOf_modWg_of_ne (s : State) (b c : Nat) (f : WG → WG) (h : b ≠ c) : wgOf (modWg s b f) c = wgOf s c := by
  simp [wgOf_modWg, h]

@[simp] theorem coreOf_modCore (s : State) (k j : Nat) (f : Core → Core) :
    coreOf (modCore s k f) j = if k = j then f (coreOf s k) else coreOf s j := by
  simp [coreOf, modCore, agetD_ainsert]

@[simp] theorem partOf_modPart (s : State) (p q : Nat) (f : Part → Part) :
    partOf (modPart s p f) q = if p = q then f (partOf s p) else partOf s q := by
  simp [partOf, modPart, agetD_ainsert]

@[simp] theorem wgOf_modCore (s : State) (k b : Nat) (f : Core → Core) : wgOf (modCore s k f) b = wgOf s b := rfl
@[simp] theorem wgOf_modPart (s : State) (p b : Nat) (f : Part → Part) : wgOf (modPart s p f) b = wgOf s b := rfl
@[simp] theorem wgOf_modPkg (s : State) (b : Nat) (f : Pkg → Pkg) : wgOf (modPkg s f) b = wgOf s b := rfl
@[simp] theorem wgOf_modLaunch (s : State) (l b : Nat) (f : Launch → Launch) : wgOf (modLaunch s l f) b = wgOf s b := rfl
@[simp] theorem coreOf_setWg (s : State) (b k : Nat) (g : WG) : coreOf (setWg s b g) k = coreOf s k := rfl
@[simp] theorem partOf_setWg (s : State) (b p : Nat) (g : WG) : partOf (setWg s b g) p = partOf s p := rfl
@[simp] theorem coreOf_modWg (s : State) (b k : Nat) (f : WG → WG) : coreOf (modWg s b f) k = coreOf s k := by
  simp [coreOf]
@[simp] theorem partOf_modWg (s : State) (b p : Nat) (f : WG → WG) : partOf (modWg s b f) p = partOf s p := by
  simp [partOf]

/-! ### Crews and contexts of a workgroup -/

@[simp] theorem crewOf_modCrew (g : WG) (n m : Nat) (f : Crew → Crew) :
    crewOf (modCrew g n f) m = if n = m then (crewOf g m).map f else crewOf g m := by
  simp [crewOf, modCrew, List.getElem?_modify]
  split <;> simp

@[simp] theorem modCrew_pilot (g : WG) (n : Nat) (f : Crew → Crew) : (modCrew g n f).pilot = g.pilot := rfl
@[simp] theorem modCrew_hdr (g : WG) (n : Nat) (f : Crew → Crew) : (modCrew g n f).hdr = g.hdr := rfl
@[simp] theorem modCrew_mode (g : WG) (n : Nat) (f : Crew → Crew) : (modCrew g n f).mode = g.mode := rfl
@[simp] theorem modCrew_wbase (g : WG) (n : Nat) (f : Crew → Crew) : (modCrew g n f).wbase = g.wbase := rfl
@[simp] theorem modCrew_binds (g : WG) (n : Nat) (f : Crew → Crew) : (modCrew g n f).binds = g.binds := rfl
@[simp] theorem modCrew_peer (g : WG) (n : Nat) (f : Crew → Crew) : (modCrew g n f).peer = g.peer := rfl
@[simp] theorem modCrew_tags (g : WG) (n : Nat) (f : Crew → Crew) : (modCrew g n f).tags = g.tags := rfl
@[simp] theorem modCrew_tvec (g : WG) (n : Nat) (f : Crew → Crew) : (modCrew g n f).tvec = g.tvec := rfl
@[simp] theorem modCrew_ptvec (g : WG) (n : Nat) (f : Crew → Crew) : (modCrew g n f).ptvec = g.ptvec := rfl

@[simp] theorem ctxIn_pilot (g : WG) : ctxIn g .pilot = some g.pilot.ctx := rfl
@[simp] theorem ctxIn_crew (g : WG) (n : Nat) : ctxIn g (.crew n) = (crewOf g n).map (fun c => c.ctx) := rfl
@[simp] theorem modCtxIn_pilot (g : WG) (f : Ctx → Ctx) : modCtxIn g .pilot f = { g with pilot := { g.pilot with ctx := f g.pilot.ctx } } := rfl
@[simp] theorem modCtxIn_crew (g : WG) (n : Nat) (f : Ctx → Ctx) : modCtxIn g (.crew n) f = modCrew g n (fun c => { c with ctx := f c.ctx }) := rfl

theorem ctxIn_modCtxIn (g : WG) (w : Who) (f : Ctx → Ctx) : ctxIn (modCtxIn g w f) w = (ctxIn g w).map f := by
  cases w <;> simp [Function.comp_def]

end Sys2Proof.Machine
end

