-- ==== Sys2Proof/Laws/Check.lean ====
section
/-! SUPPORT. What an instruction that has passed its checks is: its operands, its context, and the checks of R75 that it passed. -/

namespace Sys2Proof.Machine

/-- A check that is not passed ends the turn. -/
theorem check_go {p : Prop} [Decidable p] {t : State} {q : Prep} {e : Env} (h : (if p then Prep.done t else q) = .go e) : ¬p ∧ q = .go e := by
  by_cases hp : p
  · simp [hp] at h
  · exact ⟨hp, by simpa [hp] using h⟩

/-- The checks of pigeonhole operands give the instruction with what one performance popped for both copies, with a lane that acts or a fence. -/
theorem prepQueues_go (e e' : Env) (h : prepQueues e = .go e') :
    ∃ c, ctxIn e.g e.id.who = some c ∧ e' = operandsOf e c ∧ (e.active = 0 → ordersIdle e = true) := by
  unfold prepQueues at h
  dsimp only at h
  split at h
  · cases h
  · rename_i c hc
    split at h
    · split at h <;> cases h
    · rename_i ha
      refine ⟨c, hc, ?_, fun h0 => by simpa [h0] using ha⟩
      split at h
      · cases h
      · cases h
      · cases h
      · obtain ⟨-, h⟩ := check_go h
        obtain ⟨-, h⟩ := check_go h
        split at h
        · cases h
        · cases h
        · cases h
        · split at h
          · cases h
          · obtain ⟨-, h⟩ := check_go h
            exact (Prep.go.inj h).symm

/-- The checks after decode give the instruction with its operands read: no queue misuse but of a division that has popped, no overrun but where
an address is checked first. -/
theorem prepChecks_go (s : State) (id : CtxId) (g : WG) (i : Instr) (f : Fields) (h : FEntry) (e : Env) (hp : prepChecks s id g i f h = .go e) :
    let e₀ := mkEnv s id g i (useOf (whoKind id.who) i) f h
    ∃ c, ctxIn g id.who = some c ∧ e = operandsOf e₀ c ∧ (e₀.active = 0 → ordersIdle e₀ = true) ∧
      (c.divided = none → misuseOf s id g i (useOf (whoKind id.who) i) f = none) ∧ (overruns e₀ c = true → addressFirst i = true) := by
  unfold prepChecks at hp
  dsimp only at hp ⊢
  split at hp
  · cases hp
  · rename_i c hc
    split at hp
    · cases hp
    · rename_i hm
      obtain ⟨ho, hp⟩ := check_go hp
      obtain ⟨c', hc', he, ha⟩ := prepQueues_go _ _ hp
      have : c' = c := Option.some.inj (hc'.symm.trans hc)
      subst this
      refine ⟨c', hc, he, ha, fun hd => ?_, fun h1 => by simpa [h1] using ho⟩
      cases hq : misuseOf s id g i (useOf (whoKind id.who) i) f with
      | none => rfl
      | some x => simp [hq, hd] at hm

/-- What has passed its checks. -/
theorem prep_go (i : Instr) (s : State) (e : Env) (h : prep i s = .go e) :
    ∃ g f c hd, wgOf s s.cur.berth = some g ∧ fieldsOf i = some f ∧ ctxIn g s.cur.who = some c ∧ headFor s s.cur g = some hd ∧
      c.ended = false ∧ c.blocked = none ∧ c.taking = none ∧ mayIssue s s.cur g = true ∧ illegalReason (whoKind s.cur.who) i = none ∧ privileged i = false ∧
      let k := whoKind s.cur.who
      let g' := settlePend g s.cur.who k i (useOf k i) f
      let e₀ := mkEnv (setWg s s.cur.berth g') s.cur g' i (useOf k i) f hd
      ∃ c', ctxIn g' s.cur.who = some c' ∧ e = operandsOf e₀ c' ∧ (e₀.active = 0 → ordersIdle e₀ = true) := by
  unfold prep at h
  split at h
  · rename_i g f hg hf
    simp only at h
    split at h
    · rename_i c hd hc hh
      obtain ⟨hb, h⟩ := check_go h
      simp only [Bool.or_eq_true, Bool.not_eq_true', not_or, Bool.not_eq_true, Option.isSome_eq_false_iff, Option.isNone_iff_eq_none,
        Bool.not_eq_false] at hb
      split at h
      · cases h
      · rename_i hl
        obtain ⟨hpv, h⟩ := check_go h
        obtain ⟨-, h⟩ := check_go h
        split at h
        · split at h <;> cases h
        obtain ⟨-, h⟩ := check_go h
        obtain ⟨-, h⟩ := check_go h
        obtain ⟨c', hc', he, ha, -, -⟩ := prepChecks_go _ _ _ _ _ _ _ h
        exact ⟨g, f, c, hd, hg, hf, hc, hh, hb.1.1.1, hb.1.1.2, hb.1.2, hb.2, hl, by simpa using hpv, c', hc', he, ha⟩
    · cases h
  · cases h

@[simp] theorem operandsOf_i (e : Env) (c : Ctx) : (operandsOf e c).i = e.i := by unfold operandsOf; split <;> rfl
@[simp] theorem operandsOf_s (e : Env) (c : Ctx) : (operandsOf e c).s = e.s := by unfold operandsOf; split <;> rfl
@[simp] theorem operandsOf_g (e : Env) (c : Ctx) : (operandsOf e c).g = e.g := by unfold operandsOf; split <;> rfl
@[simp] theorem operandsOf_id (e : Env) (c : Ctx) : (operandsOf e c).id = e.id := by unfold operandsOf; split <;> rfl
@[simp] theorem operandsOf_f (e : Env) (c : Ctx) : (operandsOf e c).f = e.f := by unfold operandsOf; split <;> rfl
@[simp] theorem operandsOf_u (e : Env) (c : Ctx) : (operandsOf e c).u = e.u := by unfold operandsOf; split <;> rfl
@[simp] theorem operandsOf_head (e : Env) (c : Ctx) : (operandsOf e c).head = e.head := by unfold operandsOf; split <;> rfl
@[simp] theorem operandsOf_active (e : Env) (c : Ctx) : (operandsOf e c).active = e.active := by unfold operandsOf; split <;> rfl
@[simp] theorem operandsOf_draws (e : Env) (c : Ctx) : (operandsOf e c).draws = e.draws := by unfold operandsOf; split <;> rfl

/-- With no result of the pair at hand the operands are those read. -/
theorem operandsOf_none (e : Env) (c : Ctx) (h : c.copied = none) : operandsOf e c = e := by simp [operandsOf, h]

/-- The operands of an instruction that has passed its checks are that instruction's. -/
theorem passes_instr {i : Instr} {s : State} {e : Env} (h : Passes i s e) : e.i = i := by
  obtain ⟨g, f, c, hd, -, -, -, -, -, -, -, -, -, -, c', -, rfl, -⟩ := prep_go i s e h
  simp [mkEnv]

/-- An instruction that has passed its checks acts: issue lets it. -/
theorem passes_issue {i : Instr} {s : State} {e : Env} (h : Passes i s e) (act : Env → Out) : issue i s act = act e := by
  simp only [Passes] at h
  simp only [issue, h]

/-- Outside DUP, and in the leading copy that performs for a pair, a countersigned instruction acts (R332). -/
theorem performs_act {e : Env} (h : Performs e) (act : Env → Out) : countersigned e act = act e := by
  obtain ⟨c, hc, hn, h | h⟩ := h <;> simp [countersigned, *]

/-- A field that names general registers lies below the latches. -/
theorem lt_plain (k : CtxKind) (r : Role) (c : Nat) (h : NamesRegisters k r c) : c < 224 := by
  obtain ⟨hq, h⟩ := h
  cases k <;> simp_all <;> omega

/-- A field that names general registers is a legal source. -/
theorem srcBad_plain (k : CtxKind) (l : Nat → Bool) (r : Role) (c : Nat) (h : NamesRegisters k r c) : srcBad k l r c = false := by
  obtain ⟨hq, h⟩ := h
  cases k <;> cases r <;> simp_all [srcBad, roleSpan, Role.isReg] <;> omega

/-- A field that names general registers is a legal destination. -/
theorem dstBad_plain (k : CtxKind) (r : Role) (c : Nat) (h : NamesRegisters k r c) : dstBad k r c = false := by
  obtain ⟨hq, h⟩ := h
  cases k <;> cases r <;> simp_all [dstBad, roleSpan, Role.isReg] <;> omega

/-- A field that names general registers pops no pigeonhole. -/
theorem popsQueue_plain (k : CtxKind) (r : Role) (c : Nat) (h : NamesRegisters k r c) : popsQueue r c = false := by
  have := lt_plain k r c h
  simp [popsQueue]; omega

/-- With nothing outstanding nothing is written back. -/
theorem commitWhere_nil (w : Who) (t : PendWrite → Bool) (n k : Nat) (g : WG) (c : Ctx) (h : ctxIn g w = some c) (hp : c.pend = []) :
    commitWhere w t n k g = g := by
  cases n <;> simp [commitWhere, h, hp]

/-- A context with nothing outstanding has nothing to settle before an instruction. -/
theorem settlePend_nil (g : WG) (w : Who) (k : CtxKind) (i : Instr) (u : Use) (f : Fields) (c : Ctx) (h : ctxIn g w = some c) (hp : c.pend = []) :
    settlePend g w k i u f = g := by
  unfold settlePend
  simp only [commitWhere_nil w _ _ _ g c h hp]
  split
  · split <;> rfl
  · rfl

/-- An instruction that may use a pigeonhole acts on its binding. -/
theorem may_gate {e : Env} {n : Nat} {push : Bool} {q : Binding} (h : MayUse e n push q) (act : Env → Binding → Out) :
    queueGate e n push act = act e q := by
  obtain ⟨h1, h2⟩ := h
  simp only [queueGate, h1]
  by_cases hs : sharedQ e.g n = true
  · obtain ⟨h3, h4, h5⟩ := h2 hs
    rw [if_pos hs, performs_act h4]
    have hw : (push && wideQ e.g n && unacked e.s e.g.lid e.g.wgix) = false := by
      cases push <;> cases hq : wideQ e.g n <;> simp_all [Acked]
    rcases h3 with h3 | h3 <;> simp [h3, hw]
  · simp [hs]

/-- With its issuer's stores performed an instruction that follows them acts. -/
theorem stores_out {e : Env} (h : StoresOut e) (act : State → Out) : storesOut e act = act e.s := by
  obtain ⟨h1, h2⟩ := h
  have hm : (if isDet e.g then none else (((wgOf e.s (leadBerth e.id.berth e.g)).map (fun g => g.staging)).getD []).find?
      (fun r => r.of e.id.who)) = none := by
    rcases h1 with h1 | h1
    · simp [h1]
    · split
      · rfl
      · simp only [List.find?_eq_none]
        intro r hr
        cases hg : wgOf e.s (leadBerth e.id.berth e.g) with
        | none => simp [hg] at hr
        | some g => simp [h1 g r hg (by simpa [hg] using hr)]
  have h2' : unacked e.s e.g.lid e.g.wgix = false := h2
  simp only [storesOut, hm, Option.isSome_none, Bool.false_eq_true, if_false, h2']

/-- A command that an engine takes now is handed over. -/
theorem may_accept {e : Env} {k : Engine} {x : FormE} {opnd : List LaneWords} {use : GlobalUse} (h : MayAccept e k x opnd use) (opc a b c : Nat)
    (us : Env → GlobalUse) (hu : us e = use) (after : State → State) :
    handOver k x opc a b c opnd us after e = .next (commandDone e k x (cmdOf e k x opc a b c opnd use) after) := by
  obtain ⟨h1, h2, h3, h4, h5, h6⟩ := h
  subst hu
  simp only [handOver, h1, performs_act h2, acceptCmd, h3, h5, h6, Bool.or_self, Bool.false_eq_true, if_false]
  rcases h4 with h4 | h4
  · rw [if_pos h4]; rfl
  · rw [stores_out h4]; simp only [h5, h6, Bool.or_self, Bool.false_eq_true, if_false, ite_self]; rfl

/-- Two changes that agree on a context are one change of it. -/
theorem modCtx_eq {s : State} {c : CtxId} {g : WG} {x : Ctx} (hg : wgOf s c.berth = some g) (hx : ctxIn g c.who = some x) (f h : Ctx → Ctx) (hf : f x = h x) : modCtx s c f = modCtx s c h := by
  simp only [modCtx, modWg, hg]
  congr 1
  cases hw : c.who with
  | pilot => simp [modCtxIn, ctxIn, hw] at *; rw [hx, hf]
  | crew n =>
    rw [hw] at hx
    simp only [ctxIn, crewOf, modCtxIn, modCrew] at *
    congr 1
    apply List.ext_getElem?
    intro i
    simp only [List.getElem?_modify]
    by_cases hi : n = i
    · subst hi
      cases hc : g.crews[n]? with
      | none => rfl
      | some y => 
        rw [hc] at hx; simp at hx; subst hx; simp [hf]
    · simp [hi]

end Sys2Proof.Machine
end

