-- ==== Sys2Proof/Laws/Complete.lean ====
section
/-! SUPPORT. Laws of completing an instruction: what `retire`, `advance` and `completed` do to an instruction that uses no pigeonhole and
waits for no pair. -/

namespace Sys2Proof

open Machine

/-! ### Values in the active lanes -/

/-- A value computed over the lanes of a mask: 0 outside it. -/
theorem overLanes_getD (m : LaneMask) (f : Nat → Nat × BitVec 5) (l : Nat) :
    (overLanes m f).getD l (0, fNone) = if bitAt m l then f l else (0, fNone) := by
  rw [overLanes, tabulate_getD]
  split
  · rfl
  · rename_i h
    have : bitAt m l = false := by
      simp only [bitAt]; exact BitVec.getLsbD_of_ge m l (by omega)
    simp [this]

/-! ### `yieldNote` and `dropRemote` -/

theorem wgOf_yieldNote (s : State) (id : CtxId) (b : Nat) :
    wgOf (yieldNote s id) b = (wgOf s b).map (fun g =>
      if berthCore b = berthCore id.berth then modAllCtx g (fun c => { c with yields := c.yields.filter (fun y => decide (y ≠ id)) }) else g) := by
  refine Eq.trans ?_ (alookup_map (fun k g =>
    if berthCore k = berthCore id.berth then modAllCtx g (fun c => { c with yields := c.yields.filter (fun y => decide (y ≠ id)) }) else g) b s.wgs)
  show alookup b _ = alookup b _
  congr 1
  apply List.map_congr_left
  intro x _
  by_cases hx : berthCore x.1 = berthCore id.berth <;> simp [hx]

@[simp] theorem wgOf_dropRemote (s : State) (id : CtxId) (b : Nat) : wgOf (dropRemote s id) b = wgOf s b := rfl

@[simp] theorem modAllCtx_hdr (g : WG) (f : Ctx → Ctx) : (modAllCtx g f).hdr = g.hdr := rfl
@[simp] theorem modAllCtx_sregs (g : WG) (f : Ctx → Ctx) : (modAllCtx g f).pilot.sregs = g.pilot.sregs := rfl
@[simp] theorem modAllCtx_cbits (g : WG) (f : Ctx → Ctx) : (modAllCtx g f).pilot.cbits = g.pilot.cbits := rfl
@[simp] theorem modAllCtx_pc (g : WG) (f : Ctx → Ctx) : (modAllCtx g f).pilot.pc = g.pilot.pc := rfl
theorem crewOf_modAllCtx (g : WG) (f : Ctx → Ctx) (n : Nat) : crewOf (modAllCtx g f) n = (crewOf g n).map (fun c => { c with ctx := f c.ctx }) := by
  simp [crewOf, modAllCtx]

/-! ### `retire` -/

/-- What a retired instruction leaves of its context: no block, no grant; a signature only where it was shared (R329); the damage that its
result overwrites is gone (R402). -/
def retiredCtx (e : Env) (push : Option QEntry) (r : Result) (c : Ctx) : Ctx :=
  let signed := c.granted || c.copied.isSome
  { c with blocked := none, bpPass := false, granted := false, copied := none, divided := none,
           ordinal := if signed then c.ordinal + 1 else c.ordinal, sig := if signed then crcBytes c.sig (signBytes e push) else c.sig,
           slack := if isDup e.g && storesIn e.i then c.slack + 1 else c.slack,
           upsets := c.upsets.filter (fun u => !upsetGone e r u) }

/-- The latches of the issuing crew after an instruction (R19). -/
def latched (e : Env) (s : State) : State :=
  match e.id.who with
  | .crew n => modWg s e.id.berth (fun g => modCrew g n (fun c => { c with latches := latchStep e c.latches }))
  | .pilot => s

/-- A store instruction may let the leading copy's go on (R330). -/
def slackFreed (e : Env) (s : State) : State := if storesIn e.i then slackWake s e.id else s

/-- RETIRING an instruction that shares nothing: its registers, the latches, its context, and the yields of others; no trap follows. -/
theorem retire_unshared (e : Env) (s : State) (r : Result) (waits : Option Nat) (h : Unshared e) :
    retire e s r none waits =
      (yieldNote (dropRemote (slackFreed e (modCtx (latched e (modWg s e.id.berth (fun g => commitResult e g r waits))) e.id (retiredCtx e none r))) e.id) e.id, none) := by
  obtain ⟨hp, hq, c, hc, h1, h2, h3⟩ := h
  unfold retire retireWith
  simp only [hp, hc, Option.bind_some, h1, h3, Option.isSome_none, Bool.false_and, List.filter_nil, popAll, List.foldl_nil]
  have hs : ∀ t got, shareResult e t got = t := by
    intro t got
    unfold shareResult
    simp only [hc]
    cases e.g.peer <;> simp [h2]
  simp only [hs]
  rfl

/-- Completing an instruction that shares nothing. -/
theorem completed_unshared (e : Env) (s : State) (r : Result) (waits : Option Nat) (h : Unshared e) :
    completed e s r none waits =
      advance e (yieldNote (dropRemote (slackFreed e (modCtx (latched e (modWg s e.id.berth (fun g => commitResult e g r waits))) e.id (retiredCtx e none r))) e.id) e.id) := by
  simp only [completed, retire_unshared e s r waits h]

/-! ### `advance` -/

/-- A pilot goes on at the following slot. -/
theorem advance_pilot (e : Env) (s : State) (h : e.id.who = .pilot) :
    advance e s = modWg s e.id.berth (fun g => { g with pilot := { g.pilot with pc := BitVec.ofNat 64 (nextPc g.pilot.pc.toNat), landing := none } }) := by
  simp [advance, h]

/-- A crew whose head goes on in its place. -/
theorem advance_inPlace (e : Env) (s : State) (n : Nat) (g : WG) (c : Crew) (h : e.id.who = .crew n) (hg : wgOf s e.id.berth = some g)
    (hc : crewOf g n = some c) (hs : stepsInPlace c e.head = true) :
    advance e s = modWg s e.id.berth (fun g => modCrew g n (stepHead e.head)) := by
  simp [advance, h, hg, hc, hs]

end Sys2Proof
end

