-- ==== Sys2Proof/Laws/Frame.lean ====
section
/-! SUPPORT. Laws of what completing an instruction leaves alone: memory, other workgroups and other contexts. -/

namespace Sys2Proof

open Machine

/-! ### Memory -/

/-- Nothing that memory consists of has changed. -/
def MemEq (s t : State) : Prop :=
  t.hbm = s.hbm ∧ t.quay = s.quay ∧ t.revs = s.revs ∧ t.hbmBad = s.hbmBad ∧ t.quayBad = s.quayBad ∧ t.engTiles = s.engTiles

theorem MemEq.refl (s : State) : MemEq s s := ⟨rfl, rfl, rfl, rfl, rfl, rfl⟩

theorem MemEq.trans {s t u : State} (h : MemEq s t) (k : MemEq t u) : MemEq s u :=
  ⟨k.1.trans h.1, k.2.1.trans h.2.1, k.2.2.1.trans h.2.2.1, k.2.2.2.1.trans h.2.2.2.1, k.2.2.2.2.1.trans h.2.2.2.2.1, k.2.2.2.2.2.trans h.2.2.2.2.2⟩

theorem MemEq.same {s t : State} (h : MemEq s t) : SameMemory s t :=
  ⟨fun a => by rw [h.1], fun a => by rw [h.2.1], h.2.2.1, h.2.2.2.1, h.2.2.2.2.1, h.2.2.2.2.2⟩

theorem memEq_setWg (s : State) (b : Nat) (g : WG) : MemEq s (setWg s b g) := ⟨rfl, rfl, rfl, rfl, rfl, rfl⟩
theorem memEq_modWg (s : State) (b : Nat) (f : WG → WG) : MemEq s (modWg s b f) := by simp [MemEq]
theorem memEq_modCtx (s : State) (c : CtxId) (f : Ctx → Ctx) : MemEq s (modCtx s c f) := by simp [MemEq]
theorem memEq_modCore (s : State) (k : Nat) (f : Core → Core) : MemEq s (modCore s k f) := ⟨rfl, rfl, rfl, rfl, rfl, rfl⟩
theorem memEq_modPkg (s : State) (f : Pkg → Pkg) : MemEq s (modPkg s f) := ⟨rfl, rfl, rfl, rfl, rfl, rfl⟩
theorem memEq_modPart (s : State) (p : Nat) (f : Part → Part) : MemEq s (modPart s p f) := ⟨rfl, rfl, rfl, rfl, rfl, rfl⟩
theorem memEq_yieldNote (s : State) (id : CtxId) : MemEq s (yieldNote s id) := ⟨rfl, rfl, rfl, rfl, rfl, rfl⟩
theorem memEq_dropRemote (s : State) (id : CtxId) : MemEq s (dropRemote s id) := ⟨rfl, rfl, rfl, rfl, rfl, rfl⟩

/-- Stopping for harbour software touches no memory. -/
theorem memEq_harbourStop (s : State) (id : CtxId) (t : PendTrap) (epc : DWord) (entry : Word) :
    MemEq s (harbourStop s id t epc entry) := by
  unfold harbourStop
  split
  · exact .refl s
  · exact (memEq_setWg ..).trans (memEq_modPart ..)

/-- Delivering a trap touches no memory. -/
theorem memEq_deliverTrap (s : State) (id : CtxId) (t : PendTrap) (epc : DWord) (entry : Word) (m : LaneMask) :
    MemEq s (deliverTrap s id t epc entry m) := by
  unfold deliverTrap
  split
  · exact .refl s
  · rename_i g hg
    dsimp only
    refine (memEq_setWg s id.berth (quiesce g id.who t.cause)).trans ?_
    split
    · split
      · exact memEq_harbourStop ..
      · split
        · exact memEq_setWg ..
        · exact (memEq_setWg ..).trans (memEq_harbourStop ..)
    · split
      · exact .refl _
      · split
        · exact memEq_harbourStop ..
        · split
          · exact memEq_setWg ..
          · exact (memEq_setWg ..).trans (memEq_harbourStop ..)

/-- Taking a trap touches no memory. -/
theorem memEq_takeTrap (s : State) (id : CtxId) (t : PendTrap) (epc : DWord) (entry : Word) (m : LaneMask) : MemEq s (takeTrap s id t epc entry m) := by
  unfold takeTrap
  split
  · exact memEq_modCtx ..
  · exact memEq_deliverTrap ..

/-- Changing a pair touches no memory. -/
theorem memEq_modPair (s : State) (b : Nat) (f : WG → WG) : MemEq s (modPair s b f) := by
  unfold modPair
  split
  · exact .refl s
  · split
    · exact (memEq_modWg ..).trans (memEq_modWg ..)
    · exact memEq_modWg ..

/-- Delivering the trap that waited for results touches no memory. -/
theorem memEq_finishTrap (s : State) (id : CtxId) : MemEq s (finishTrap s id) := by
  unfold finishTrap pairStop
  split
  · dsimp only
    refine (memEq_modCtx s id (fun c => { c with taking := none })).trans ?_
    split
    · exact (memEq_harbourStop ..).trans (memEq_modPair ..)
    · exact memEq_deliverTrap ..
  · exact .refl s

/-- A trap at the slot touches no memory. -/
theorem memEq_trapHere (s : State) (id : CtxId) (t : PendTrap) : MemEq s (trapHere s id t) := by
  unfold trapHere
  split
  · exact memEq_takeTrap ..
  · split
    · exact memEq_takeTrap ..
    · exact .refl s
  · exact .refl s

/-- Letting a pair's leading context go on touches no memory. -/
theorem memEq_slackFreed (e : Env) (s : State) : MemEq s (slackFreed e s) := by
  unfold slackFreed slackWake
  split
  · split
    · exact memEq_modCtx ..
    · exact .refl s
  · exact .refl s

/-- An instruction that is no store lets nothing of a pair go on. -/
theorem slackFreed_plain (e : Env) (s : State) (h : storesIn e.i = false) : slackFreed e s = s := by simp [slackFreed, h]

/-- Retiring an instruction that shares nothing touches no memory. -/
theorem memEq_retire (e : Env) (s : State) (r : Result) (waits : Option Nat) (h : Unshared e) : MemEq s (retire e s r none waits).1 := by
  rw [retire_unshared e s r waits h]
  refine MemEq.trans ?_ (memEq_yieldNote ..)
  refine MemEq.trans ?_ (memEq_dropRemote ..)
  refine MemEq.trans ?_ (memEq_slackFreed ..)
  refine MemEq.trans ?_ (memEq_modCtx ..)
  refine (memEq_modWg s e.id.berth (fun g => commitResult e g r waits)).trans ?_
  unfold latched
  split
  · exact memEq_modWg ..
  · exact .refl _

/-- A state with an operand environment has the memory of the state it was checked in. -/
theorem memEq_passes {i : Instr} {s : State} {e : Env} (h : Passes i s e) : MemEq s e.s := by
  obtain ⟨g, f, c, hd, -, -, -, -, -, -, -, -, -, -, c', -, rfl, -⟩ := prep_go i s e h
  simpa [mkEnv] using memEq_setWg ..

/-- The workgroup, context and head of an instruction that has passed its checks. -/
theorem passes_wg {i : Instr} {s : State} {e : Env} (h : Passes i s e) : wgOf e.s e.id.berth = some e.g := by
  obtain ⟨g, f, c, hd, -, -, -, -, -, -, -, -, -, -, c', -, rfl, -⟩ := prep_go i s e h
  simp [mkEnv]

/-! ### A crew's workgroup after an instruction -/

/-- What a workgroup becomes when a crew's instruction retires that shares nothing (R14 to R16, R19, R23, R112). -/
def retiredWg (e : Env) (n : Nat) (g : WG) (r : Result) (waits : Option Nat) : WG :=
  modAllCtx (modCrew (modCrew (commitResult e g r waits) n (fun c => { c with latches := latchStep e c.latches })) n
    (fun c => { c with ctx := retiredCtx e none r c.ctx })) (fun c => { c with yields := c.yields.filter (fun y => decide (y ≠ e.id)) })

theorem wgOf_retire_crew (e : Env) (s : State) (n : Nat) (g : WG) (r : Result) (waits : Option Nat) (h : Unshared e) (hN : storesIn e.i = false) (hw : e.id.who = .crew n)
    (hg : wgOf s e.id.berth = some g) : wgOf (retire e s r none waits).1 e.id.berth = some (retiredWg e n g r waits) := by
  rw [retire_unshared e s r waits h, slackFreed_plain _ _ hN]
  simp [wgOf_yieldNote, latched, hw, hg, modCtx, retiredWg]

theorem wgOf_retire_pilot (e : Env) (s : State) (g : WG) (r : Result) (waits : Option Nat) (h : Unshared e) (hN : storesIn e.i = false) (hw : e.id.who = .pilot)
    (hg : wgOf s e.id.berth = some g) : wgOf (retire e s r none waits).1 e.id.berth =
      some (modAllCtx (modCtxIn (commitResult e g r waits) .pilot (retiredCtx e none r))
        (fun c => { c with yields := c.yields.filter (fun y => decide (y ≠ e.id)) })) := by
  rw [retire_unshared e s r waits h, slackFreed_plain _ _ hN]
  simp [wgOf_yieldNote, latched, hw, hg, modCtx]

theorem wgOf_retire_other (e : Env) (s : State) (b : Nat) (r : Result) (waits : Option Nat) (h : Unshared e) (hN : storesIn e.i = false) (hb : b ≠ e.id.berth) :
    wgOf (retire e s r none waits).1 b = (wgOf s b).map (fun g =>
      if berthCore b = berthCore e.id.berth then modAllCtx g (fun c => { c with yields := c.yields.filter (fun y => decide (y ≠ e.id)) }) else g) := by
  have hb' : e.id.berth ≠ b := fun x => hb x.symm
  rw [retire_unshared e s r waits h, slackFreed_plain _ _ hN]
  rw [wgOf_yieldNote, wgOf_dropRemote]
  congr 1
  unfold modCtx latched
  cases e.id.who <;> simp [wgOf_modWg_of_ne _ _ _ _ hb']

/-- A crew as before but for what yields. -/
theorem sameCrew_yields (c : Crew) (ys : List CtxId) : SameCrew c { c with ctx := { c.ctx with yields := ys } } := rfl
theorem samePilot_yields (p : Pilot) (ys : List CtxId) : SamePilot p { p with ctx := { p.ctx with yields := ys } } := rfl

/-! ### What a crew keeps -/

/-- A crew d keeps what c has, but for registers in rs, predicates in ps, and what its context counts. -/
structure Kept (rs : Nat → Prop) (ps : Nat → Prop) (c d : Crew) : Prop where
  regs : ∀ k, ¬ rs k → alookup k d.regs = alookup k c.regs
  preds : ∀ k, ¬ ps k → predOf d k = predOf c k
  latches : d.latches = c.latches
  frontier : d.frontier = c.frontier
  spilled : d.spilled = c.spilled
  live : d.live = c.live
  fpx : d.fpx = c.fpx
  draw : d.draw = c.draw
  landings : d.landings = c.landings
  handler : d.ctx.handler = c.ctx.handler
  traps : d.ctx.traps = c.ctx.traps
  held : d.ctx.held = c.ctx.held
  ended : d.ctx.ended = c.ctx.ended

theorem Kept.refl (rs ps c) : Kept rs ps c c := ⟨fun _ _ => rfl, fun _ _ => rfl, rfl, rfl, rfl, rfl, rfl, rfl, rfl, rfl, rfl, rfl, rfl⟩
theorem Kept.trans {rs ps c d e} (h : Kept rs ps c d) (k : Kept rs ps d e) : Kept rs ps c e :=
  ⟨fun n hn => (k.regs n hn).trans (h.regs n hn), fun n hn => (k.preds n hn).trans (h.preds n hn), k.latches.trans h.latches, k.frontier.trans h.frontier, k.spilled.trans h.spilled,
   k.live.trans h.live, k.fpx.trans h.fpx, k.draw.trans h.draw, k.landings.trans h.landings, k.handler.trans h.handler, k.traps.trans h.traps, k.held.trans h.held, k.ended.trans h.ended⟩

/-- Writing a register keeps the others. -/
theorem kept_crewWrite (rs ps) (c : Crew) (w : VecWrite) (h : rs w.name) : Kept rs ps c (crewWrite c w) := by
  unfold crewWrite
  split
  · exact .refl ..
  · refine ⟨fun k hk => ?_, fun _ _ => rfl, rfl, rfl, rfl, rfl, rfl, rfl, rfl, rfl, rfl, rfl, rfl⟩
    exact alookup_ainsert_of_ne _ _ _ _ (fun x => hk (x ▸ h))

/-- Writing registers keeps the others. -/
theorem kept_writes (rs ps) (ws : List VecWrite) : ∀ c : Crew, (∀ w, w ∈ ws → rs w.name) → Kept rs ps c (ws.foldl crewWrite c) := by
  induction ws with
  | nil => intro c _; exact .refl ..
  | cons w ws ih =>
    intro c h
    exact (kept_crewWrite rs ps c w (h w (by simp))).trans (ih _ (fun v hv => h v (by simp [hv])))

/-- Writing a predicate keeps the others. -/
theorem kept_predWrite (rs ps) (c : Crew) (k : Nat) (m b : LaneMask) (h : ps k) : Kept rs ps c (predWrite c k m b) := by
  unfold predWrite
  split
  · exact .refl ..
  · refine ⟨fun _ _ => rfl, fun j hj => ?_, rfl, rfl, rfl, rfl, rfl, rfl, rfl, rfl, rfl, rfl, rfl⟩
    have : k ≠ j := fun x => hj (x ▸ h)
    simp [predOf, this]

/-- Mapping a name keeps the others. -/
theorem kept_mapName (rs ps) (c : Crew) (n : Nat) (h : rs n) : Kept rs ps c (mapName c n) := by
  unfold mapName
  split
  · exact .refl ..
  · refine ⟨fun k hk => ?_, fun _ _ => rfl, rfl, rfl, rfl, rfl, rfl, rfl, rfl, rfl, rfl, rfl, rfl⟩
    exact alookup_ainsert_of_ne _ _ _ _ (fun x => hk (x ▸ h))

/-- Mapping names keeps the others. -/
theorem kept_maps (rs ps) (ns : List Nat) : ∀ c : Crew, (∀ w, w ∈ ns → rs w) → Kept rs ps c (ns.foldl mapName c) := by
  induction ns with
  | nil => intro c _; exact .refl ..
  | cons w ws ih =>
    intro c h
    exact (kept_mapName rs ps c w (h w (by simp))).trans (ih _ (fun v hv => h v (by simp [hv])))

/-- Freeing names keeps the others. -/
theorem erase_kept (rs : Nat → Prop) (ns : List Nat) : ∀ xs : List (Nat × LaneWords), (∀ w, w ∈ ns → rs w) → ∀ k, ¬ rs k →
    alookup k (ns.foldl (fun rs k => aerase k rs) xs) = alookup k xs := by
  induction ns with
  | nil => intro xs _ k _; rfl
  | cons w ws ih =>
    intro xs h k hk
    rw [List.foldl_cons, ih _ (fun v hv => h v (by simp [hv])) k hk]
    exact alookup_aerase_of_ne _ _ _ (fun x => hk (x ▸ h w (by simp)))

/-- What is kept beside the draws is kept whatever the draws. -/
theorem Kept.withDraw {rs ps c d} (h : Kept rs ps c d) (x : LaneWords) : Kept rs ps { c with draw := x } { d with draw := x } :=
  ⟨h.regs, h.preds, h.latches, h.frontier, h.spilled, h.live, h.fpx, rfl, h.landings, h.handler, h.traps, h.held, h.ended⟩

/-- Draws advance nothing else of a crew. -/
theorem kept_draw (rs ps : Nat → Prop) (c : Crew) (m : LaneMask) : Kept rs ps { c with draw := (drawAdvance c m).draw } (drawAdvance c m) := by
  unfold drawAdvance
  split
  · exact .refl ..
  · exact .refl ..

/-- COMMITTING A RESULT (R14 to R16, R23, R56): the crew keeps every register that is neither written nor freed, and every predicate not written;
without a draw it keeps its draws. -/
theorem kept_commit (e : Env) (g : WG) (n : Nat) (c : Crew) (r : Result) (waits : Option Nat) (rs ps : Nat → Prop) (hw : e.id.who = .crew n)
    (hc : crewOf g n = some c) (hv : ∀ v, v ∈ r.vec → rs v.name) (hf : ∀ k, k ∈ freedNames e.u e.f (r.vec.map (fun v => v.name)) → rs k)
    (hp : ∀ k m b, r.pred = some (k, m, b) → ps k) :
    ∃ d, crewOf (commitResult e g r waits) n = some d ∧ Kept rs ps { c with draw := d.draw } d ∧ (e.draws = 0 → d.draw = c.draw) := by
  unfold commitResult
  simp only [hw]
  have h1 : Kept rs ps c ((r.vec.map (fun v => v.name)).foldl mapName { c with regs := (freedNames e.u e.f (r.vec.map (fun v => v.name))).foldl (fun rs k => aerase k rs) c.regs }) := by
    refine Kept.trans (d := { c with regs := (freedNames e.u e.f (r.vec.map (fun v => v.name))).foldl (fun rs k => aerase k rs) c.regs })
      ⟨fun k hk => erase_kept rs _ _ hf k hk, fun _ _ => rfl, rfl, rfl, rfl, rfl, rfl, rfl, rfl, rfl, rfl, rfl, rfl⟩ ?_
    refine kept_maps rs ps _ _ ?_
    intro w hw
    simp only [List.mem_map] at hw
    obtain ⟨v, hv', rfl⟩ := hw
    exact hv v hv'
  split
  · simp only [modCtxIn_crew, crewOf_modCrew, hc, if_true, Option.map_some]
    refine ⟨_, rfl, ?_, fun _ => h1.draw⟩
    refine (h1.withDraw _).trans ⟨fun _ _ => rfl, fun _ _ => rfl, rfl, rfl, rfl, rfl, rfl, rfl, rfl, ?_, ?_, ?_, ?_⟩ <;>
    · dsimp only; split <;> rfl
  · simp only [applyResult, crewOf_modCrew, hc, if_true, Option.map_some]
    generalize (r.vec.map (fun v => v.name)).foldl mapName _ = c1 at h1 ⊢
    have hd : ∀ d, Kept rs ps (drawAdvance c1 e.draws) d → Kept rs ps { c with draw := d.draw } d ∧ (e.draws = 0 → d.draw = c.draw) := by
      intro d hk
      refine ⟨?_, fun h0 => ?_⟩
      · rw [hk.draw]
        exact ((h1.withDraw _).trans (kept_draw rs ps c1 e.draws)).trans hk
      · rw [hk.draw, ← h1.draw]
        simp [drawAdvance, h0]
    refine ⟨_, rfl, hd _ ((kept_writes rs ps r.vec (drawAdvance c1 e.draws) hv).trans ?_)⟩
    split
    · rename_i k m b hpr
      exact kept_predWrite _ _ _ _ _ _ (hp k m b hpr)
    · exact .refl ..

/-- Committing a crew's result changes no other crew, not the pilot, and nothing else of the workgroup. -/
theorem commit_rest (e : Env) (g : WG) (n : Nat) (r : Result) (waits : Option Nat) (hw : e.id.who = .crew n) :
    (commitResult e g r waits).pilot = g.pilot ∧ SameRest g (commitResult e g r waits) ∧
    ∀ m, m ≠ n → crewOf (commitResult e g r waits) m = crewOf g m := by
  unfold commitResult
  simp only [hw]
  split
  · refine ⟨rfl, rfl, fun m hm => ?_⟩
    simp [modCtxIn_crew, crewOf_modCrew, Ne.symm hm]
  · refine ⟨rfl, rfl, fun m hm => ?_⟩
    simp [applyResult, crewOf_modCrew, Ne.symm hm]

theorem sameRest_trans {g h k : WG} (x : SameRest g h) (y : SameRest h k) : SameRest g k :=
  Eq.trans (congrArg (fun w : WG => { w with pilot := g.pilot, crews := g.crews }) (show { k with pilot := h.pilot, crews := h.crews } = h from y)) (show { h with pilot := g.pilot, crews := g.crews } = g from x)
theorem sameRest_modCrew (g : WG) (n : Nat) (f : Crew → Crew) : SameRest g (modCrew g n f) := rfl
theorem sameRest_modAllCtx (g : WG) (f : Ctx → Ctx) : SameRest g (modAllCtx g f) := rfl
theorem sameRest_retired (e : Env) (n : Nat) (g : WG) (r : Result) (w : Option Nat) : SameRest (commitResult e g r w) (retiredWg e n g r w) :=
  sameRest_trans (sameRest_modCrew _ n _) (sameRest_trans (sameRest_modCrew _ n _) (sameRest_modAllCtx _ _))
/-- COMPLETING A CREW'S INSTRUCTION that shares nothing, its head going on in its place, from a state t0 in which only its flags have
changed: what its crew keeps, and that nothing else of the workgroup changes. -/
theorem completed_crew (e : Env) (t0 : State) (r : Result) (n : Nat) (c : Crew) (fp : BitVec 5) (hU : Unshared e) (hN : storesIn e.i = false)
    (hG : stepsInPlace c e.head = true) (hw : e.id.who = .crew n) (hc : crewOf e.g n = some c)
    (hg : wgOf t0 e.id.berth = some (modCrew e.g n (fun c => { c with fpx := fp })))
    (rs ps : Nat → Prop)
    (hv : ∀ v, v ∈ r.vec → rs v.name) (hf : ∀ k, k ∈ freedNames e.u e.f (r.vec.map (fun v => v.name)) → rs k)
    (hp : ∀ k m b, r.pred = some (k, m, b) → ps k) :
    ∃ g' c', wgOf (completed e t0 r none none) e.id.berth = some g' ∧ crewOf g' n = some c' ∧
      (∀ k, ¬ rs k → alookup k c'.regs = alookup k c.regs) ∧ (∀ k, ¬ ps k → predOf c' k = predOf c k) ∧
      c'.fpx = fp ∧ (e.draws = 0 → c'.draw = c.draw) ∧
      c'.latches = latchStep e c.latches ∧ c'.live = c.live ∧ c'.spilled = c.spilled ∧ c'.ctx.handler = c.ctx.handler ∧
      c'.ctx.traps = c.ctx.traps ∧ c'.ctx.held = c.ctx.held ∧ c'.ctx.ended = c.ctx.ended ∧
      SameRest e.g g' ∧ SamePilot e.g.pilot g'.pilot ∧ (∀ m d, m ≠ n → crewOf e.g m = some d → ∃ d', crewOf g' m = some d' ∧ SameCrew d d') := by
  have hc0 : crewOf (modCrew e.g n (fun c => { c with fpx := fp })) n = some { c with fpx := fp } := by
    simp [crewOf_modCrew, hc]
  obtain ⟨d, hd, nd, hdr⟩ := kept_commit e _ n _ r none rs ps hw hc0 hv hf hp
  obtain ⟨h1, h2, h3⟩ := commit_rest e (modCrew e.g n (fun c => { c with fpx := fp })) n r none hw
  have hr := wgOf_retire_crew e t0 n _ r none hU hN hw hg
  have hcr : crewOf (retiredWg e n (modCrew e.g n (fun c => { c with fpx := fp })) r none) n = some
      { d with latches := latchStep e d.latches, ctx := { retiredCtx e none r d.ctx with yields := (retiredCtx e none r d.ctx).yields.filter (fun y => decide (y ≠ e.id)) } } := by
    simp [retiredWg, crewOf_modAllCtx, crewOf_modCrew, hd]
  have hadv : completed e t0 r none none = advance e (retire e t0 r none none).1 := by
    simp only [completed, retire_unshared e t0 r none hU]
  rw [hadv, advance_inPlace e _ n _ _ hw hr hcr (by
    have := nd.frontier; have := nd.spilled
    simp only [stepsInPlace] at *
    simp_all)]
  refine ⟨_, _, by rw [wgOf_modWg_self, hr]; rfl, by rw [crewOf_modCrew, if_pos rfl, hcr]; rfl, ?_⟩
  refine ⟨nd.regs, nd.preds, nd.fpx, hdr, by simp [stepHead, nd.latches], nd.live, nd.spilled, nd.handler, nd.traps, nd.held, nd.ended, ?_, ?_, ?_⟩
  · exact sameRest_trans (sameRest_trans (sameRest_modCrew e.g n _) h2) (sameRest_trans (sameRest_retired e n _ r none) (sameRest_modCrew _ n _))
  · show SamePilot _ (retiredWg e n _ r none).pilot
    simp only [retiredWg, modAllCtx, modCrew_pilot, h1]
    rfl
  · intro m x hm hx
    refine ⟨{ x with ctx := { x.ctx with yields := x.ctx.yields.filter (fun y => decide (y ≠ e.id)) } }, ?_, rfl⟩
    rw [crewOf_modCrew, if_neg (Ne.symm hm)]
    simp [retiredWg, crewOf_modAllCtx, crewOf_modCrew, Ne.symm hm, h3 m hm, hx]

/-- COMPLETING A CREW'S INSTRUCTION touches no memory where its head goes on in its place. -/
theorem memEq_completed_crew (e : Env) (t0 : State) (r : Result) (n : Nat) (g : WG) (c : Crew) (hU : Unshared e) (hw : e.id.who = .crew n)
    (hg : wgOf (retire e t0 r none none).1 e.id.berth = some g) (hc : crewOf g n = some c) (hG : stepsInPlace c e.head = true) :
    MemEq t0 (completed e t0 r none none) := by
  have hadv : completed e t0 r none none = advance e (retire e t0 r none none).1 := by
    simp only [completed, retire_unshared e t0 r none hU]
  rw [hadv, advance_inPlace e _ n _ _ hw hg hc hG]
  exact (memEq_retire e t0 r none hU).trans (memEq_modWg ..)

/-- COMPLETING A PILOT'S INSTRUCTION that shares nothing: its result is written, it goes on at the next slot, and nothing else changes. -/
theorem completed_pilot (e : Env) (t0 : State) (r : Result) (g : WG) (hU : Unshared e) (hN : storesIn e.i = false) (hw : e.id.who = .pilot) (hg : wgOf t0 e.id.berth = some g) :
    MemEq t0 (completed e t0 r none none) ∧ wgOf (completed e t0 r none none) e.id.berth =
      some (let h := modAllCtx (modCtxIn (commitResult e g r none) .pilot (retiredCtx e none r))
              (fun c => { c with yields := c.yields.filter (fun y => decide (y ≠ e.id)) })
            { h with pilot := { h.pilot with pc := BitVec.ofNat 64 (nextPc h.pilot.pc.toNat), landing := none } }) := by
  have hadv : completed e t0 r none none = advance e (retire e t0 r none none).1 := by
    simp only [completed, retire_unshared e t0 r none hU]
  rw [hadv, advance_pilot e _ hw]
  refine ⟨(memEq_retire e t0 r none hU).trans (memEq_modWg ..), ?_⟩
  rw [wgOf_modWg_self, wgOf_retire_pilot e t0 g r none hU hN hw hg]
  rfl

end Sys2Proof
end

