-- ==== Sys2Proof/Tests/Slice0.lean ====
section
/-! SUPPORT. Tests: words written out from the encoding tables, terms that are not well formed, results by hand, and for the hypotheses of every
statement a state that meets them. A list of checks whose every member is true names, in order, the clauses of the statements it speaks of. -/

namespace Sys2Proof.Tests
open Sys2Proof Sys2Proof.Machine
/-- Prefix fields all zero. -/
def plain : Pre := ⟨0, false, 0, 0, 0, 0⟩

/-! ### Decoding -/

/-- The word decodes, as that kind of context issues it, to the instruction. -/
def reads (x : CtxKind × Nat × Instr) : Bool :=
  match decodeSlot x.1 (BitVec.ofNat 96 x.2.1) with
  | .ok i => decide (i = x.2.2)
  | .error _ => false
/-- Words of format VV (R71, R72, R80), written out field by field. -/
def wordsVv1 : List (CtxKind × Nat × Instr) := [
  (.crew, 0x8100018140C400001, .add ⟨{ plain with lr := 1 }, 6, 10, 12, 0, .i16, 0, .rne, true, false, .i32, 0, 0⟩),
  (.crew, 0x8100018140C400002, .sub ⟨{ plain with lr := 1 }, 6, 10, 12, 0, .i16, 0, .rne, true, false, .i32, 0, 0⟩),
  (.crew, 0x8100018140C400003, .mul ⟨{ plain with lr := 1 }, 6, 10, 12, 0, .i16, 0, .rne, true, false, .i32, 0, 0⟩),
  (.crew, 0x480018140C000004, .mulhi ⟨plain, 6, 10, 12, 0, .n64, 0, .rne, false, false, .i32, 0, 0⟩),
  (.crew, 0x202018140C003005, .mad ⟨{ plain with grd := 3 }, 6, 10, 12, 16, .i8, 0, .rne, false, false, .i32, 0, 0⟩),
  (.crew, 0x500604020A800006, .fma ⟨{ plain with lr := 2 }, 5, 1, 2, 3, .f32, 0, .rne, false, false, .i32, 0, 0⟩),
  (.crew, 0x600018140C00A007, .min ⟨{ plain with grd := 2, gneg := true }, 6, 10, 12, 0, .bf16, 0, .rne, false, false, .i32, 0, 0⟩),
  (.crew, 0x600018140C00A008, .max ⟨{ plain with grd := 2, gneg := true }, 6, 10, 12, 0, .bf16, 0, .rne, false, false, .i32, 0, 0⟩),
  (.crew, 0x8400000140C000009, .abs ⟨plain, 6, 10, 0, 0, .i64, 0, .rne, true, false, .i32, 0, 0⟩),
  (.crew, 0x8400000140C00000A, .neg ⟨plain, 6, 10, 0, 0, .i64, 0, .rne, true, false, .i32, 0, 0⟩),
  (.crew, 0x801CE140C24000B, .and ⟨{ plain with hsel := 1, hent := 2 }, 6, 10, 231, 0, .n32, 0, .rne, false, false, .i32, 0, 0⟩),
  (.crew, 0x801CE140C24000C, .or ⟨{ plain with hsel := 1, hent := 2 }, 6, 10, 231, 0, .n32, 0, .rne, false, false, .i32, 0, 0⟩)]

theorem test_decode_vv1 : wordsVv1.all reads = true := by decide +kernel

/-- Words of format VV (R71, R72, R80), written out field by field. -/
def wordsVv2 : List (CtxKind × Nat × Instr) := [
  (.crew, 0x801CE140C24000D, .xor ⟨{ plain with hsel := 1, hent := 2 }, 6, 10, 231, 0, .n32, 0, .rne, false, false, .i32, 0, 0⟩),
  (.crew, 0x1C00C00000E, .not ⟨plain, 6, 224, 0, 0, .i32, 0, .rne, false, false, .i32, 0, 0⟩),
  (.crew, 0x8000016120E00000F, .shl ⟨plain, 7, 9, 11, 0, .i32, 0, .rne, true, false, .i32, 0, 0⟩),
  (.crew, 0x280016120E000010, .shr ⟨plain, 7, 9, 11, 0, .n8, 0, .rne, false, false, .i32, 0, 0⟩),
  (.crew, 0x80000120E000011, .popc ⟨plain, 7, 9, 0, 0, .n32, 0, .rne, false, false, .i32, 0, 0⟩),
  (.crew, 0x80000120E000012, .clz ⟨plain, 7, 9, 0, 0, .n32, 0, .rne, false, false, .i32, 0, 0⟩),
  (.crew, 0x80000120E000013, .brev ⟨plain, 7, 9, 0, 0, .n32, 0, .rne, false, false, .i32, 0, 0⟩),
  (.crew, 0x16120E000014, .bfe ⟨plain, 7, 9, 11, 0, .i32, 0, .rne, false, false, .i32, 0, 0⟩),
  (.crew, 0x81A16120E000015, .bfi ⟨plain, 7, 9, 11, 13, .n32, 0, .rne, false, false, .i32, 0, 0⟩),
  (.crew, 0x1C005000161206000016, .cmp ⟨plain, 3, 9, 11, 0, .f32, 0, .rne, false, false, .i32, 7, 0⟩),
  (.crew, 0x4008181410000017, .sel ⟨plain, 8, 10, 12, 4, .i64, 0, .rne, false, false, .i32, 0, 0⟩),
  (.crew, 0x44001A1410000018, .lea ⟨plain, 8, 10, 13, 0, .i64, 2, .rne, false, false, .i32, 0, 0⟩)]

theorem test_decode_vv2 : wordsVv2.all reads = true := by decide +kernel

/-- Words of format VV (R71, R72, R80), written out field by field. -/
def wordsVv3 : List (CtxKind × Nat × Instr) := [
  (.crew, 0x80016120E020019, .div ⟨{ plain with sfl := 2 }, 7, 9, 11, 0, .n32, 0, .rne, false, false, .i32, 0, 0⟩),
  (.crew, 0x80016120E02001A, .rem ⟨{ plain with sfl := 2 }, 7, 9, 11, 0, .n32, 0, .rne, false, false, .i32, 0, 0⟩),
  (.crew, 0x2580000120E01001B, .rcp ⟨{ plain with sfl := 1 }, 7, 9, 0, 0, .f16, 0, .rup, false, false, .i32, 0, 0⟩),
  (.crew, 0x2580000120E01001C, .rsq ⟨{ plain with sfl := 1 }, 7, 9, 0, 0, .f16, 0, .rup, false, false, .i32, 0, 0⟩),
  (.crew, 0x2580000120E01001D, .sqrt ⟨{ plain with sfl := 1 }, 7, 9, 0, 0, .f16, 0, .rup, false, false, .i32, 0, 0⟩),
  (.crew, 0x2580000120E01001E, .exp2 ⟨{ plain with sfl := 1 }, 7, 9, 0, 0, .f16, 0, .rup, false, false, .i32, 0, 0⟩),
  (.crew, 0x2580000120E01001F, .log2 ⟨{ plain with sfl := 1 }, 7, 9, 0, 0, .f16, 0, .rup, false, false, .i32, 0, 0⟩),
  (.crew, 0x2580000120E010020, .tanh ⟨{ plain with sfl := 1 }, 7, 9, 0, 0, .f16, 0, .rup, false, false, .i32, 0, 0⟩),
  (.crew, 0x2580000120E010021, .sigm ⟨{ plain with sfl := 1 }, 7, 9, 0, 0, .f16, 0, .rup, false, false, .i32, 0, 0⟩),
  (.crew, 0x10151700000120E000022, .cvt ⟨plain, 7, 9, 0, 0, .e5m2, 0, .rtz, false, true, .f32, 0, 1⟩),
  (.crew, 0x30000040016120E000023, .mxscale ⟨plain, 7, 9, 11, 0, .i32, 2, .rne, false, false, .i32, 0, 3⟩),
  (.crew, 0x90144680016120E000024, .mxpack ⟨plain, 7, 9, 11, 0, .e4m3, 0, .rna, false, false, .f32, 0, 9⟩)]

theorem test_decode_vv3 : wordsVv3.all reads = true := by decide +kernel

/-- Words of format VV (R71, R72, R80), written out field by field. -/
def wordsVv4 : List (CtxKind × Nat × Instr) := [
  (.crew, 0x60220580016120E000025, .mxunpack ⟨plain, 7, 9, 11, 0, .f16, 0, .rne, false, false, .e2m1, 0, 6⟩),
  (.crew, 0x1E60E000026, .mov ⟨plain, 7, 243, 0, 0, .i32, 0, .rne, false, false, .i32, 0, 0⟩),
  (.crew, 0x4800000010000027, .rand ⟨plain, 8, 0, 0, 0, .n64, 0, .rne, false, false, .i32, 0, 0⟩),
  (.crew, 0x1000000004020A000028, .plog ⟨plain, 5, 1, 2, 0, .i32, 0, .rne, false, false, .i32, 4, 0⟩),
  (.crew, 0xC0E000029, .pget ⟨plain, 7, 6, 0, 0, .i32, 0, .rne, false, false, .i32, 0, 0⟩),
  (.crew, 0x120E00002A, .pset ⟨plain, 7, 9, 0, 0, .i32, 0, .rne, false, false, .i32, 0, 0⟩),
  (.crew, 0x1A0016120E00002B, .avg ⟨plain, 7, 9, 11, 0, .n16, 1, .rne, false, false, .i32, 0, 0⟩),
  (.crew, 0x8221A16120E00002C, .dot4 ⟨plain, 7, 9, 11, 13, .i8, 1, .rne, true, false, .i32, 0, 0⟩),
  (.crew, 0x500000120E00002D, .fclass ⟨plain, 7, 9, 0, 0, .f32, 0, .rne, false, false, .i32, 0, 0⟩),
  (.crew, 0x5C0016120E00002E, .csgn ⟨plain, 7, 9, 11, 0, .f16, 2, .rne, false, false, .i32, 0, 0⟩),
  (.crew, 0x3500000120E00002F, .rint ⟨plain, 7, 9, 0, 0, .f32, 0, .rdn, false, false, .i32, 0, 0⟩),
  (.crew, 0x5500016120E000030, .fscl ⟨plain, 7, 9, 11, 0, .f32, 0, .rsr, false, false, .i32, 0, 0⟩)]

theorem test_decode_vv4 : wordsVv4.all reads = true := by decide +kernel

/-- Words of format VI (R71, R81), written out field by field. -/
def wordsVi1 : List (CtxKind × Nat × Instr) := [
  (.crew, 0xFFFFFFFE040000120E000101, .addVi ⟨plain, 7, 9, 0, .i32, true, 0xfffffffe⟩),
  (.crew, 0xFFFFFFFE040000120E000102, .subVi ⟨plain, 7, 9, 0, .i32, true, 0xfffffffe⟩),
  (.crew, 0xFFFFFFFE040000120E000103, .mulVi ⟨plain, 7, 9, 0, .i32, true, 0xfffffffe⟩),
  (.crew, 0x12345678080000120E000107, .minVi ⟨plain, 7, 9, 0, .n32, false, 0x12345678⟩),
  (.crew, 0x12345678080000120E000108, .maxVi ⟨plain, 7, 9, 0, .n32, false, 0x12345678⟩),
  (.crew, 0x12345678080000120E00010B, .andVi ⟨plain, 7, 9, 0, .n32, false, 0x12345678⟩),
  (.crew, 0x12345678080000120E00010C, .orVi ⟨plain, 7, 9, 0, .n32, false, 0x12345678⟩),
  (.crew, 0x12345678080000120E00010D, .xorVi ⟨plain, 7, 9, 0, .n32, false, 0x12345678⟩),
  (.crew, 0x504000000120E00010F, .shlVi ⟨plain, 7, 9, 0, .i32, false, 0x504⟩),
  (.crew, 0x504000000120E000110, .shrVi ⟨plain, 7, 9, 0, .i32, false, 0x504⟩),
  (.crew, 0x504000000120E000114, .bfeVi ⟨plain, 7, 9, 0, .i32, false, 0x504⟩),
  (.crew, 0x700000A1204000116, .cmpVi ⟨plain, 2, 9, 5, .i32, false, 0x7⟩)]

theorem test_decode_vi1 : wordsVi1.all reads = true := by decide +kernel

/-- Words of format VI (R71, R81), written out field by field. -/
def wordsVi2 : List (CtxKind × Nat × Instr) := [
  (.crew, 0x800000004000001410000118, .leaVi ⟨plain, 8, 10, 0, .i64, false, 0x80000000⟩),
  (.crew, 0x70000000006000126, .movVi ⟨plain, 3, 0, 0, .i32, false, 0x7⟩)]

theorem test_decode_vi2 : wordsVi2.all reads = true := by decide +kernel

/-- Words of format VX (R71, R72, R82), written out field by field. -/
def wordsVx : List (CtxKind × Nat × Instr) := [
  (.crew, 0x1400060016120E010200, .shfl ⟨{ plain with sfl := 1 }, 7, 9, 11, 0, .i32, 3, .rne, false, false, .i32, 5, 0⟩),
  (.crew, 0x641C00000000120E000201, .bclane ⟨plain, 7, 9, 0, 0, .i32, 0, .rne, false, false, .i32, 7, 100⟩),
  (.crew, 0x1000520000120E000202, .scan ⟨plain, 7, 9, 0, 0, .f32, 1, .rne, false, false, .i32, 4, 0⟩),
  (.crew, 0x51C00080000120E000203, .red ⟨plain, 7, 9, 0, 0, .n32, 0, .rne, false, false, .i32, 7, 5⟩),
  (.crew, 0x18000400000608000204, .vote ⟨plain, 4, 3, 0, 0, .i32, 2, .rne, false, false, .i32, 6, 0⟩),
  (.crew, 0x1C00020000060E000205, .ballot ⟨plain, 7, 3, 0, 0, .i32, 1, .rne, false, false, .i32, 7, 0⟩),
  (.crew, 0xC00040000120E000206, .match ⟨plain, 7, 9, 0, 0, .i32, 2, .rne, false, false, .i32, 3, 0⟩),
  (.crew, 0xC00500C000814000207, .sample ⟨plain, 10, 4, 0, 6, .f32, 0, .rne, false, false, .i32, 3, 0⟩),
  (.crew, 0x800001A16120E000208, .perm ⟨plain, 7, 9, 11, 13, .i32, 0, .rne, false, false, .i32, 2, 0⟩),
  (.crew, 0x120E000209, .cmpct ⟨plain, 7, 9, 0, 0, .i32, 0, .rne, false, false, .i32, 0, 0⟩)]

theorem test_decode_vx : wordsVx.all reads = true := by decide +kernel

/-- Words of format M (R71, R83), written out field by field. -/
def wordsM : List (CtxKind × Nat × Instr) := [
  (.crew, 0xFFFFFFF0A000001410000300, .ld ⟨plain, 8, 10, 0, 0, .b128, false, 0xfffffff0⟩),
  (.pilot, 0x404C00060400000301, .st ⟨plain, 0, 2, 3, 0, .n64, true, 0x40⟩),
  (.crew, 0x4240016120E000302, .ldx ⟨plain, 7, 9, 11, 0, .i8, true, 0x4⟩),
  (.crew, 0x8020C1000000303, .stx ⟨plain, 0, 8, 6, 1, .n32, false, 0x0⟩),
  (.crew, 0x40000000000161C18002304, .atom ⟨{ plain with grd := 2 }, 12, 14, 11, 0, .i32, false, 0x4000000⟩),
  (.pilot, 0x30000104808060402000305, .cas ⟨plain, 1, 2, 3, 4, .n64, false, 0x3000010⟩),
  (.crew, 0x20000000000000000000306, .fence ⟨plain, 0, 0, 0, 0, .i32, false, 0x2000000⟩),
  (.crew, 0x10000000408060412000307, .hacc ⟨plain, 9, 2, 3, 4, .i32, true, 0x1000000⟩)]

theorem test_decode_m : wordsM.all reads = true := by decide +kernel

/-- Words of format E (R71, R84, R204), written out field by field. -/
def wordsE1 : List (CtxKind × Nat × Instr) := [
  (.crew, 0x490000181400000400, .lcopy ⟨plain, 0, 10, 12, 0, .i32, 0, 9, true, 0, false, 0x0⟩),
  (.pilot, 0xA7F0006040200000401, .lgather ⟨plain, 0, 1, 2, 3, .i32, 0, 63, true, 4, true, 0x0⟩),
  (.pilot, 0xF800006040200000402, .lscatter ⟨plain, 0, 1, 2, 3, .i32, 0, 0, false, 15, true, 0x0⟩),
  (.crew, 0x410000181400000403, .lfill ⟨plain, 0, 10, 12, 0, .i32, 0, 1, true, 0, false, 0x0⟩),
  (.pilot, 0x4D0000680C0A0800000410, .cmma ⟨plain, 0, 4, 5, 6, .e4m3, 0, 0, false, 0, false, 0x4d0⟩),
  (.crew, 0x20000000000000000411, .czero ⟨plain, 0, 0, 0, 0, .i32, 0, 0, false, 0, false, 0x2⟩),
  (.pilot, 0x10455006000200000412, .cdrain ⟨plain, 0, 1, 0, 3, .f32, 0, 5, true, 0, false, 0x1⟩),
  (.crew, 0x1FD000500000000E000413, .accld ⟨plain, 7, 0, 0, 0, .f32, 0, 0, false, 0, false, 0x1fd⟩),
  (.pilot, 0x9000000000200000420, .bycoup ⟨plain, 0, 1, 0, 0, .i32, 0, 0, false, 2, true, 0x0⟩),
  (.pilot, 0xE000000040200000421, .bybias ⟨plain, 0, 1, 2, 0, .i32, 0, 0, false, 12, true, 0x0⟩),
  (.pilot, 0xE000000040200000422, .byclamp ⟨plain, 0, 1, 2, 0, .i32, 0, 0, false, 12, true, 0x0⟩),
  (.pilot, 0xE000000040200000428, .bybmap ⟨plain, 0, 1, 2, 0, .i32, 0, 0, false, 12, true, 0x0⟩)]

theorem test_decode_e1 : wordsE1.all reads = true := by decide +kernel

/-- Words of format E (R71, R84, R204), written out field by field. -/
def wordsE2 : List (CtxKind × Nat × Instr) := [
  (.pilot, 0x430000040200000425, .bycount ⟨plain, 0, 1, 2, 0, .i32, 0, 3, true, 0, false, 0x0⟩),
  (.pilot, 0x430000040200000426, .bystate ⟨plain, 0, 1, 2, 0, .i32, 0, 3, true, 0, false, 0x0⟩),
  (.pilot, 0x8800000040000000423, .byfree ⟨plain, 0, 0, 2, 0, .i32, 0, 0, false, 1, true, 0x0⟩),
  (.pilot, 0x9800000040200000424, .bysweep ⟨plain, 0, 1, 2, 0, .i32, 0, 0, false, 3, true, 0x0⟩),
  (.pilot, 0xC00000427, .bymode ⟨plain, 0, 6, 0, 0, .i32, 0, 0, false, 0, false, 0x0⟩),
  (.crew, 0x521A161200000430, .look ⟨plain, 0, 9, 11, 13, .f32, 1, 0, false, 0, false, 0x0⟩),
  (.crew, 0xD0000000001200000431, .tarm ⟨plain, 0, 9, 0, 0, .i32, 0, 0, false, 0, false, 0xd⟩),
  (.pilot, 0x40200000432, .steer ⟨plain, 0, 1, 2, 0, .i32, 0, 0, false, 0, false, 0x0⟩),
  (.pilot, 0x3F0000000040200000440, .region ⟨plain, 0, 1, 2, 0, .i32, 0, 0, false, 0, false, 0x3f⟩),
  (.pilot, 0xC0A000441, .fork ⟨plain, 5, 6, 0, 0, .i32, 0, 0, false, 0, false, 0x0⟩),
  (.pilot, 0xC0A000442, .join ⟨plain, 5, 6, 0, 0, .i32, 0, 0, false, 0, false, 0x0⟩),
  (.pilot, 0xC0A000443, .discard ⟨plain, 5, 6, 0, 0, .i32, 0, 0, false, 0, false, 0x0⟩)]

theorem test_decode_e2 : wordsE2.all reads = true := by decide +kernel

/-- Words of format P (R71, R85), written out field by field. -/
def wordsP1 : List (CtxKind × Nat × Instr) := [
  (.pilot, 0xFFFFFFFF020001F40A000500, .sadd ⟨plain, 5, 250, 0, 0, true, false, 0, 0xffffffff⟩),
  (.pilot, 0xFFFFFFFF020001F40A000501, .ssub ⟨plain, 5, 250, 0, 0, true, false, 0, 0xffffffff⟩),
  (.pilot, 0xFFFFFFFF020001F40A000502, .smul ⟨plain, 5, 250, 0, 0, true, false, 0, 0xffffffff⟩),
  (.pilot, 0x40004027E000503, .smulh ⟨plain, 63, 1, 2, 0, false, true, 0, 0x0⟩),
  (.pilot, 0x40004027E000504, .sdiv ⟨plain, 63, 1, 2, 0, false, true, 0, 0x0⟩),
  (.pilot, 0x40004027E000505, .srem ⟨plain, 63, 1, 2, 0, false, true, 0, 0x0⟩),
  (.pilot, 0x40004027E000506, .smin ⟨plain, 63, 1, 2, 0, false, true, 0, 0x0⟩),
  (.pilot, 0x40004027E000507, .smax ⟨plain, 63, 1, 2, 0, false, true, 0, 0x0⟩),
  (.pilot, 0xFFFFFFFF020001F40A000508, .sand ⟨plain, 5, 250, 0, 0, true, false, 0, 0xffffffff⟩),
  (.pilot, 0xFFFFFFFF020001F40A000509, .sor ⟨plain, 5, 250, 0, 0, true, false, 0, 0xffffffff⟩),
  (.pilot, 0xFFFFFFFF020001F40A00050A, .sxor ⟨plain, 5, 250, 0, 0, true, false, 0, 0xffffffff⟩),
  (.pilot, 0xFFFFFFFF020001F40A00050B, .sshl ⟨plain, 5, 250, 0, 0, true, false, 0, 0xffffffff⟩)]

theorem test_decode_p1 : wordsP1.all reads = true := by decide +kernel

/-- Words of format P (R71, R85), written out field by field. -/
def wordsP2 : List (CtxKind × Nat × Instr) := [
  (.pilot, 0x40004027E00050C, .sshr ⟨plain, 63, 1, 2, 0, false, true, 0, 0x0⟩),
  (.pilot, 0x1C0004020E00050D, .scmp ⟨plain, 7, 1, 2, 0, false, true, 3, 0x0⟩),
  (.pilot, 0xC04020A00050E, .ssel ⟨plain, 5, 1, 2, 6, false, false, 0, 0x0⟩),
  (.pilot, 0x3E000950F, .smov ⟨{ plain with grd := 1, gneg := true }, 240, 1, 0, 0, false, false, 0, 0x0⟩),
  (.pilot, 0x50000000002000510, .sli ⟨plain, 1, 0, 0, 0, false, false, 0, 0x5⟩),
  (.pilot, 0x20A000511, .spopc ⟨plain, 5, 1, 0, 0, false, false, 0, 0x0⟩),
  (.pilot, 0x20A000512, .sclz ⟨plain, 5, 1, 0, 0, false, false, 0, 0x0⟩),
  (.pilot, 0x40004020A000513, .sbfe ⟨plain, 5, 1, 2, 0, false, true, 0, 0x0⟩),
  (.pilot, 0x805020600020A000514, .sbfi ⟨plain, 5, 1, 0, 3, true, false, 0, 0x805⟩),
  (.pilot, 0x2800060402000515, .cop ⟨plain, 1, 2, 3, 0, false, false, 5, 0x0⟩),
  (.pilot, 0x20A000516, .sctz ⟨plain, 5, 1, 0, 0, false, false, 0, 0x0⟩),
  (.pilot, 0x20020000020A000517, .sext ⟨plain, 5, 1, 0, 0, true, false, 0, 0x20⟩)]

theorem test_decode_p2 : wordsP2.all reads = true := by decide +kernel

/-- Words of format B (R71, R86), written out field by field. -/
def wordsB1 : List (CtxKind × Nat × Instr) := [
  (.crew, 0x100000000000001600, .bra ⟨{ plain with grd := 1 }, 0, 0, 0x10⟩),
  (.crew, 0xFFFFFFF8000000000000A601, .bru ⟨{ plain with grd := 2, gneg := true }, 0, 0, 0xfffffff8⟩),
  (.crew, 0x1200000602, .brx ⟨plain, 0, 9, 0x0⟩),
  (.crew, 0x1B0000000000000603, .call ⟨plain, 0, 0, 0x1b⟩),
  (.crew, 0x604, .ret ⟨plain, 0, 0, 0x0⟩),
  (.crew, 0x1605, .exit ⟨{ plain with grd := 1 }, 0, 0, 0x0⟩),
  (.pilot, 0x606, .yield ⟨plain, 0, 0, 0x0⟩),
  (.pilot, 0xF0000000000000607, .bsync ⟨plain, 0, 0, 0xf⟩),
  (.pilot, 0xFFFFFFFC0000000000004608, .sbr ⟨{ plain with grd := 4 }, 0, 0, 0xfffffffc⟩),
  (.pilot, 0x1000000609, .sbrx ⟨plain, 0, 8, 0x0⟩),
  (.pilot, 0x8000000003C00060A, .scall ⟨plain, 30, 0, 0x8⟩),
  (.pilot, 0x3C0000060B, .sret ⟨plain, 0, 30, 0x0⟩)]

theorem test_decode_b1 : wordsB1.all reads = true := by decide +kernel

/-- Words of format B (R71, R86), written out field by field. -/
def wordsB2 : List (CtxKind × Nat × Instr) := [
  (.pilot, 0x20000060C, .loop ⟨plain, 0, 1, 0x0⟩)]

theorem test_decode_b2 : wordsB2.all reads = true := by decide +kernel

/-- Words of format Q (R71, R87), written out field by field. -/
def wordsQ1 : List (CtxKind × Nat × Instr) := [
  (.pilot, 0x7E2000700, .qbind ⟨plain, 241, 3, 0, .i32, 0, 0x0⟩),
  (.pilot, 0x1E6000701, .qunbind ⟨plain, 243, 0, 0, .i32, 0, 0x0⟩),
  (.crew, 0x2000001EA0E000702, .qtrypop ⟨plain, 7, 245, 0, .i32, 0, 0x2⟩),
  (.pilot, 0x700000013E0000703, .qtrypush ⟨plain, 240, 9, 0, .i32, 0, 0x7⟩),
  (.crew, 0x1FE0E000704, .qcount ⟨plain, 7, 255, 0, .i32, 0, 0x0⟩),
  (.crew, 0x1000001EA0E000705, .qmask ⟨plain, 7, 245, 0, .i32, 0, 0x1⟩),
  (.pilot, 0x1E80E000706, .qpeek ⟨plain, 7, 244, 0, .i32, 0, 0x0⟩),
  (.crew, 0x80018140C000707, .await ⟨plain, 6, 10, 12, .n32, 0, 0x0⟩),
  (.pilot, 0x200200000800000708, .own ⟨plain, 0, 4, 0, .i32, 1, 0x20⟩),
  (.pilot, 0x200000C0A000709, .twait ⟨plain, 5, 6, 0, .i32, 1, 0x0⟩),
  (.crew, 0x100E00070A, .tfirst ⟨plain, 7, 8, 0, .i32, 0, 0x0⟩),
  (.pilot, 0x40000000BE400070B, .bcast ⟨plain, 242, 5, 0, .i32, 0, 0x4⟩)]

theorem test_decode_q1 : wordsQ1.all reads = true := by decide +kernel

/-- Words of format Q (R71, R87), written out field by field. -/
def wordsQ2 : List (CtxKind × Nat × Instr) := [
  (.crew, 0x480001EC1000070C, .bget ⟨plain, 8, 246, 0, .n64, 0, 0x0⟩)]

theorem test_decode_q2 : wordsQ2.all reads = true := by decide +kernel

/-- Words of format X (R71, R88), written out field by field. -/
def wordsX : List (CtxKind × Nat × Instr) := [
  (.crew, 0x800, .nop ⟨plain, 0, 0, 0x0⟩),
  (.pilot, 0xBEEF0000000000001801, .trap ⟨{ plain with grd := 1 }, 0, 0, 0xbeef⟩),
  (.crew, 0x110000000010000802, .sysrd ⟨plain, 8, 0, 0x11⟩),
  (.crew, 0x420000003C00000803, .syswr ⟨plain, 0, 30, 0x42⟩),
  (.crew, 0x804, .rft ⟨plain, 0, 0, 0x0⟩),
  (.pilot, 0x805, .halt ⟨plain, 0, 0, 0x0⟩),
  (.crew, 0x806, .ckpt ⟨plain, 0, 0, 0x0⟩),
  (.pilot, 0xC0A000807, .spawn ⟨plain, 5, 6, 0x0⟩),
  (.crew, 0x1410000808, .depdec ⟨plain, 8, 10, 0x0⟩)]

theorem test_decode_x : wordsX.all reads = true := by decide +kernel

/-! ### Well-formedness: a term that each check refuses, with its reason (R74) -/

/-- The kind of context that issues it, the reason, the term. -/
def refusedTerms : List (CtxKind × Nat × Instr) :=
  let v : FormVV := ⟨plain, 6, 10, 12, 0, .i32, 0, .rne, false, false, .i32, 0, 0⟩
  let vi : FormVI := ⟨plain, 6, 10, 0, .i32, false, 5⟩
  let vx : FormVX := ⟨plain, 6, 10, 12, 0, .i32, 0, .rne, false, false, .i32, 0, 0⟩
  let m : FormM := ⟨plain, 6, 10, 0, 0, .i32, false, 0⟩
  let e : FormE := ⟨plain, 0, 1, 2, 0, .i32, 0, 0, false, 0, false, 0⟩
  let p : FormP := ⟨plain, 5, 1, 2, 0, false, false, 0, 0⟩
  let b : FormB := ⟨plain, 0, 0, 0⟩
  let q : FormQ := ⟨plain, 5, 6, 0, .i32, 0, 0⟩
  let x : FormX := ⟨plain, 0, 0, 0⟩
  [ (.pilot, 3, .add v), (.crew, 3, .sadd p), (.crew, 4, .add { v with ty := .i4 }), (.crew, 4, .add { v with sub := 1 }), (.crew, 4, .add { v with rm := .rtz }),
    (.crew, 4, .add { v with inf := true }), (.crew, 4, .cmp { v with dst := 1, cc := 6 }), (.crew, 4, .and { v with sat := true }), (.crew, 5, .add { v with t2 := .f32 }),
    (.crew, 5, .add { v with cc := 1 }), (.crew, 5, .add { v with sel := 1 }), (.crew, 5, .add { v with sc := 1 }), (.crew, 5, .cmp { v with dst := 8 }),
    (.crew, 4, .movVi { vi with sa := 0, ty := .i8 }), (.crew, 4, .cmpVi { vi with dst := 1, cc := 6 }), (.crew, 4, .andVi { vi with sat := true }), (.crew, 5, .addVi { vi with cc := 1 }),
    (.crew, 4, .shfl { vx with seg := 8 }), (.crew, 4, .perm { vx with sub := 1 }), (.crew, 4, .bclane { vx with sb := 0, seg := 2, sel := 4 }), (.crew, 5, .shfl { vx with sel := 1 }),
    (.crew, 4, .ld { m with ty := .i4 }), (.pilot, 4, .ld { m with ty := .b128 }), (.crew, 4, .atom { m with sb := 11, imm := 0x05000000 }), (.crew, 4, .atom { m with sb := 11, imm := 0x38000000 }),
    (.crew, 5, .atom { m with sb := 11, imm := 0x80000000 }), (.crew, 5, .fence { m with dst := 0, sa := 0, quay := true }),
    (.pilot, 4, .region { e with sub := 1 }), (.pilot, 4, .cmma { e with sa := 1, ty := .f16, cs := 0x0B0 }), (.pilot, 5, .steer { e with tv := true }), (.pilot, 5, .lcopy { e with tag := 1 }),
    (.pilot, 4, .scmp { p with dst := 1, cc := 6 }), (.pilot, 5, .sadd { p with u := true }), (.pilot, 5, .sadd { p with imm := 1 }), (.pilot, 5, .sclz { p with sb := 0, useImm := true }),
    (.crew, 5, .ret { b with imm := 1 }), (.crew, 5, .bsync { b with imm := 16 }), (.crew, 5, .yield { b with pre := { plain with grd := 1 } }), (.crew, 7, .bra { b with imm := 5 }),
    (.pilot, 4, .own { q with dst := 0, sa := 1, imm := 0 }), (.pilot, 4, .own { q with dst := 0, sa := 1, imm := 257 }), (.pilot, 5, .twait { q with imm := 1 }),
    (.crew, 5, .trap { x with imm := 0x10000 }), (.crew, 5, .halt { x with pre := { plain with gneg := true } }),
    (.crew, 6, .add { v with pre := { plain with sfl := 1 } }), (.crew, 6, .div { v with pre := { plain with sfl := 3 } }), (.crew, 6, .add { v with pre := { plain with hsel := 1, hent := 3 } }),
    (.crew, 6, .add { v with pre := { plain with hent := 1 } }), (.crew, 6, .nop { x with pre := { plain with hsel := 1 } }), (.crew, 6, .add { v with pre := { plain with lr := 4 } }),
    (.pilot, 6, .sadd { p with pre := { plain with lr := 1 } }) ]

theorem test_refuses : refusedTerms.all (fun t => decide (illegalReason t.1 t.2.2 = some t.2.1) && !t.2.2.wfFor t.1) = true := by decide +kernel

/-- A step of the part is no instruction of a program. -/
theorem test_refuses_events : (Instr.powerGood).wf = false ∧ (Instr.craneDequeue 0).wf = false := by decide +kernel

/-! ### Results, by hand from the rules named -/

/-- R146, R147, R98: wrapping, saturating, division by zero and toward zero. -/
theorem test_integers : addElem .i8 .rne false 0 127 1 = (128, 0) ∧ addElem .i8 .rne true 0 127 1 = (127, 0) ∧ (divElem .i32 5 0).1 = 0x7FFFFFFF ∧
    (remElem .i32 5 0).1 = 5 ∧ (divElem .i32 0xFFFFFFF9 2).1 = 0xFFFFFFFD ∧ (remElem .i32 0xFFFFFFF9 2).1 = 0xFFFFFFFF := by decide +kernel

/-- R41, R149: 1 + 2 is 3 in FP32, and the fused product is not rounded before the sum (2^-24 survives beside 1 + 2^-12 squared). -/
theorem test_floats : (addElem .f32 .rne false 0 0x3F800000 0x40000000).1 = 0x40400000 ∧ (fmaElem .f32 .rne 0 0x3F800800 0x3F800800 0xBF801000).1 = 0x33800000 ∧
    (fclassElem .f32 0x80000000).1 = 8 := by decide +kernel

/-! ### States that meet the hypotheses of the statements -/

/-- The instruction passes its checks, with operands that have the property. -/
def goes (i : Instr) (s : State) (p : Env → Bool) : Bool :=
  match prep i s with
  | .go e => p e
  | .done _ => false

/-- What `goes` shows. -/
theorem goes_passes {i : Instr} {s : State} {p : Env → Bool} (h : goes i s p = true) : ∃ e, Passes i s e ∧ p e = true := by
  unfold goes at h
  split at h
  · rename_i e he
    exact ⟨e, he, h⟩
  · cases h

/-- The entry at which crew 0 stands: lanes 0 and 1, at the first slot of its second line. -/
def crewHead : FEntry := { cix := 16, mask := 3, park := none }
/-- The wide pigeonhole q3 at offset 0 of the window, and the narrow q10 at offset 64, each with room for four entries. -/
def wideQ : Binding := ⟨0, some 0, true, 1, 1, 4, 0x1000, 0x200, 0, 1, [], none⟩
/-- The narrow one. -/
def narrowQ : Binding := ⟨64, some 64, false, 1, 1, 4, 0x3C0, 0x7C0, 0, 1, [], none⟩
/-- A workgroup with one crew of lanes 0 and 1, p1 to p7 set in both, q3 and q10 bound, and with registers. -/
def wg (xs : List (Nat × List Word)) (ss : List (Nat × DWord)) : WG :=
  let g := demoWg 0
  { g with pilot := { g.pilot with sregs := ss.foldl (fun a x => a.set x.1 x.2) g.pilot.sregs },
           crews := g.crews.map (fun c => { c with regs := xs, preds := [0, 3, 3, 3, 3, 3, 3, 3], frontier := [crewHead], live := 3 }),
           binds := (g.binds.set 3 (some wideQ)).set 10 (some narrowQ) }
/-- The machine with that workgroup in berth 0 whose context w issues; the page 0x10000 is mapped, and each queue holds one entry. -/
def onCore (w : Who) (g : WG) : State :=
  { setWg State.reset 0 g with
    cur := ⟨0, w⟩, quay := [(16, 1), (80, 1)], launches := [freshLaunch 0 0 0 demoManifest none none], parts := [(0, { Part.off with en := true, rsquota := 4096 })],
    cores := [(0, { Core.idle with buoy := { Buoy.idle with holder := some 0 }, tlb := [⟨0, 1, demoLeaf, 65536⟩] })] }
/-- Its crew issues. -/
def crewAt (g : WG) : State := onCore (.crew 0) g
/-- Its pilot issues. -/
def pilotAt (g : WG) : State := onCore .pilot g
/-- A workgroup in modes. -/
def inMode (m : BitVec 4) (g : WG) : WG := { g with mode := m }
/-! Forms with their other fields zero. -/

def fE (dst sa sb sc : BitVec 8) (ty : Ty) (sub : BitVec 2) (cs : BitVec 20) : FormE := ⟨plain, dst, sa, sb, sc, ty, sub, 0, true, 0, false, cs⟩
def fM (dst sa sb sc : BitVec 8) (ty : Ty) (quay : Bool) (imm : Word) : FormM := ⟨plain, dst, sa, sb, sc, ty, quay, imm⟩
def fQ (dst sa sb : BitVec 8) (ty : Ty) (sub : BitVec 2) (imm : Word) : FormQ := ⟨plain, dst, sa, sb, ty, sub, imm⟩
def fB (sa : BitVec 8) (imm : Word) : FormB := ⟨plain, 0, sa, imm⟩
def fX (dst sa : BitVec 8) (imm : Word) : FormX := ⟨plain, dst, sa, imm⟩
def fP (dst sa sb : BitVec 8) : FormP := ⟨plain, dst, sa, sb, 0, false, false, 0, 0⟩
/-- An answer without error. -/
def ok {α β : Type} (x : Except α β) : Bool := match x with | .ok _ => true | .error _ => false

/-- Control transfers (R101 to R114): the lowest and the highest code points, one below and one past them, an indirect one whose second lane's is bad. -/
def transfers : List Bool :=
  let g := wg [(9, [8, 20]), (10, [9, 13]), (223, [0, 8])] [(1, 2), (2, 1), (8, 0x10004), (9, 5)]
  let s := crewAt g
  let g8 : WG := { g with crews := g.crews.map (fun c => { c with frontier := [{ crewHead with cix := 8 }] }) }
  let far : WG := { g with crews := g.crews.map (fun c => { c with frontier := [{ crewHead with cix := 0xFFFFFFF8 }] }) }
  let room := fun (e : Env) (ts : List (Nat × Word)) (gone : LaneMask) => (transferDone e ts gone Result.none).isSome
  let crowd : WG := { g with crews := g.crews.map (fun c => { c with
    regs := [(9, [8, 20]), (223, [8, 20])], preds := [0, 1, 3, 3, 3, 3, 3, 3], live := 0x1FFFF,
    frontier := crewHead :: tabulate 15 (fun k => { cix := BitVec.ofNat 32 (24 + 8 * k), mask := (1 : LaneMask) <<< (k + 2), park := none }) }) }
  let badLink : WG := { g with crews := g.crews.map (fun c => { c with regs := [(223, [0, 13])] }) }
  let one : FormB := { fB 0 0x100 with pre := { plain with grd := 1 } }
  let crowded := fun (e : Env) (ts : List (Nat × Word)) (r : Result) => (transferDone e ts 0 r).isNone
  let far0 := fun (e : Env) => e.lanes.map (fun l => (l, BitVec.ofInt 32 (relCix e.head.cix.toNat 0x100)))
  let rel := fun (e : Env) (imm : Word) => relCix e.head.cix.toNat imm
  let direct := fun (e : Env) (imm : Word) => room e (e.lanes.map (fun l => (l, BitVec.ofInt 32 (rel e imm)))) 0
  [ goes (.bra (fB 0 0)) (crewAt g8) (fun e => decide (rel e 0 = 8) && direct e 0),
    goes (.bru (fB 0 4)) (crewAt far) (fun e => decide (rel e 4 = 2 ^ 32 - 4) && direct e 4),
    goes (.call (fB 0 0x10)) s (fun e => decide (8 ≤ rel e 0x10 ∧ rel e 0x10 < 2 ^ 32) && direct e 0x10),
    goes (.brx (fB 9 0)) s (fun e => e.lanes.all (fun l => cixValid (e.av l % 2 ^ 32)) && room e (e.lanes.map (fun l => (l, BitVec.ofNat 32 (e.av l)))) 0),
    goes (.ret (fB 0 0)) s (fun e => match e.crew? with
      | some c => cixValid (laneWord (regWords c 223) 1).toNat && room e [(1, laneWord (regWords c 223) 1)] 1
      | none => false),
    goes (.exit (fB 0 0)) s (fun e => decide (e.k = .crew) && room e [] e.active),
    goes (.exit (fB 0 0)) (pilotAt g) (fun e => decide (e.k = .pilot)),
    goes (.bra (fB 0 0xFFFFFFFC)) (crewAt g8) (fun e => decide (rel e 0xFFFFFFFC = 4)),
    goes (.call (fB 0 8)) (crewAt far) (fun e => decide (rel e 8 = 2 ^ 32)),
    goes (.brx (fB 10 0)) s (fun e => decide (e.lanes = [0, 1]) && cixValid (e.av 0 % 2 ^ 32) && !cixValid (e.av 1 % 2 ^ 32)),
    goes (.ret (fB 0 0)) (crewAt badLink) (fun e => decide (e.lanes = [0, 1]) && e.crew?.any (fun c => decide ((laneWord (regWords c 223) 0).toNat = 0)
      && decide ((laneWord (regWords c 223) 1).toNat ≠ 0) && !cixValid (laneWord (regWords c 223) 1).toNat)),
    goes (.bra one) (crewAt crowd) (fun e => crowded e (far0 e) Result.none), goes (.bru one) (crewAt crowd) (fun e => crowded e (far0 e) Result.none),
    goes (.call one) (crewAt crowd) (fun e => crowded e (far0 e)
      { Result.none with vec := [{ name := 223, mask := e.active, words := lanes (fun _ => BitVec.ofNat 32 (nextCix e.head.cix.toNat)) }] }),
    goes (.brx (fB 9 0)) (crewAt crowd) (fun e => e.lanes.all (fun l => cixValid (e.av l % 2 ^ 32)) && crowded e (e.lanes.map (fun l => (l, BitVec.ofNat 32 (e.av l)))) Result.none),
    goes (.ret (fB 0 0)) (crewAt crowd) (fun e => e.crew?.any (fun c => let w := fun (l : Nat) => laneWord (regWords c 223) l
      e.lanes.all (fun l => cixValid (w l).toNat) && crowded e (e.lanes.map (fun l => (l, w l))) Result.none)),
    goes (.sbrx (fB 9 0)) (pilotAt g) (fun e => !pcValid (e.av 0)), goes (.sret (fB 9 0)) (pilotAt g) (fun e => !pcValid (e.av 0)),
    goes (.sbr (fB 0 4)) (pilotAt g) (fun e => pcValid (relPc e.g.pilot.pc.toNat 4)),
    goes (.sbrx (fB 8 0)) (pilotAt g) (fun e => pcValid (e.av 0)), goes (.sret (fB 8 0)) (pilotAt g) (fun e => pcValid (e.av 0)),
    goes (.scall ⟨plain, 30, 0, 8⟩) (pilotAt g) (fun e => pcValid (relPc e.g.pilot.pc.toNat 8)),
    goes (.loop (fB 1 0)) (pilotAt g) (fun e => decide (e.av 0 = 2) && pcValid (relPc e.g.pilot.pc.toNat 0)),
    goes (.loop (fB 2 0)) (pilotAt g) (fun e => decide (e.av 0 = 1)) ]

theorem test_meets_transfers : transfers.all id = true := by decide +kernel

/-- Quotients held for a pigeonhole (R100), arrivals and yields (R112, R116, R137), system registers (R128), traps, halts and returns (R126, R130). -/
def systems : List Bool :=
  let g := wg [(9, [1, 2])] [(1, 7), (2, 2)]
  let quot := fun (d : Option Divided) => pilotAt { g with pilot := { g.pilot with ctx := { g.pilot.ctx with divided := d } } }
  let plainPush := fun (e : Env) (n : Option Nat) => decide (pushName e.u e.f = n)
  let lone := fun (e : Env) => (popList e.u e.f).isEmpty && (pushName e.u e.f).isNone
  let park := fun (p : Park) (e : Env) => lone e && (frontierEdit (retire e e.s Result.none none none).1 0 0 e.head.cix [{ e.head with park := some p }] 0).isSome
  let inHandler := fun (epc : DWord) (w : Who) => onCore w (modCtxIn g w (fun c => { c with handler := some ⟨⟨0x18, 0, epc, 0, 0, 0⟩, [crewHead], 0, latchesEmpty, 16, []⟩ }))
  let got : Shared := { vals := [[7], [2], []], res := Result.none, push := some ⟨natLe 8 3, 0⟩, trap := none, waits := none }
  let copied := pilotAt (inMode 2 { g with copy := .trail, pilot := { g.pilot with ctx := { g.pilot.ctx with copied := some got } } })
  [ goes (.sdiv (fP 5 1 2)) (pilotAt g) (fun e => plainPush e none), goes (.sdiv (fP 250 1 2)) copied (fun e => plainPush e (some 10)), goes (.sdiv (fP 250 1 2)) (quot (some ⟨3, none, 10⟩)) (fun e => plainPush e (some 10)),
    goes (.srem (fP 250 1 2)) (quot none) (fun e => plainPush e (some 10)),
    goes (.bsync (fB 0 0xF)) (pilotAt g) lone, goes (.bsync (fB 0 0xF)) (crewAt g) (park (.barrier 15)),
    goes (.ckpt (fX 0 0 0)) (pilotAt g) lone, goes (.ckpt (fX 0 0 0)) (crewAt g) (park .ckpt), goes (.yield (fB 0 0)) (crewAt g) lone,
    goes (.sysrd (fX 8 0 0x10)) (crewAt g) (fun _ => true), goes (.syswr (fX 0 9 0x10)) (crewAt g) (fun e => decide (e.id.who = .crew 0)),
    goes (.syswr (fX 0 1 0x42)) (pilotAt g) (fun _ => true), goes (.syswr (fX 0 9 0x43)) (crewAt g) (fun _ => true),
    goes (.syswr (fX 0 1 0x44)) (pilotAt g) (fun _ => true), goes (.syswr (fX 0 1 0x45)) (pilotAt g) (fun _ => true),
    goes (.trap (fX 0 0 7)) (crewAt { g with tvec := 8 }) (fun e => handled e), goes (.trap (fX 0 0 7)) (crewAt g) (fun e => !handled e),
    goes (.halt (fX 0 0 0)) (pilotAt g) (fun _ => true),
    goes (.rft (fX 0 0 0)) (inHandler 0x10004 .pilot) (fun e => decide (e.k = .pilot) && pcValid 0x10004),
    goes (.rft (fX 0 0 0)) (inHandler 8 (.crew 0)) (fun e => decide (e.k = .crew) && cixValid 8),
    goes (.rft (fX 0 0 0)) (inHandler 5 .pilot) (fun e => decide (e.k = .pilot) && !pcValid 5) ]

theorem test_meets_systems : systems.all id = true := by decide +kernel

/-- Loads, stores, atomics, tasks, fences, `await` and hashing: in the window up to its last byte, and in the mapped page. -/
def memory : List Bool :=
  let g := wg [(2, [0x2000, 0x2000]), (4, [7, 7]), (8, [0xFFF8, 0]), (6, [0, 2]), (10, [0x10000, 0x10008]), (11, [0, 0]), (12, [0, 1])] [(2, 0x10100), (3, 1), (6, 0x10100), (10, 0x10000)]
  let s := crewAt g
  let table := { s with quay := s.quay ++ [(0x2000, 64), (0x2003, 4)] }
  let det := inMode 4 g
  let chained := { crewAt det with launches := [{ freshLaunch 0 0 0 demoManifest none none with relHead := 1 }],
                                   quay := s.quay ++ [(0x2000, 64), (0x2003, 0x84), (0x200A, 1), (0x2010, 0x40)] }
  let behind := { crewAt det with launches := [{ freshLaunch 0 0 0 demoManifest none none with relHead := 1 }] }
  let pbehind := { behind with cur := ⟨0, .pilot⟩ }
  let noff := fun (e : Env) (imm : Word) => e.lanes.map (fun l => (l, (e.av l : Int) + signedOf 32 imm.toNat + 0))
  let aoff := fun (e : Env) (imm : Word) => e.lanes.map (fun l => (l, (e.av l : Int) + signedOf 24 imm.toNat + 0))
  let indexed := fun (e : Env) (f : Nat → Nat) (imm : Word) (w : Nat) => e.lanes.map (fun l => (l, (e.av l : Int) + signedOf 32 imm.toNat + signedOf 32 (f l) * w))
  let reach := fun (e : Env) (quay : Bool) (as_ : List (Nat × Int)) (w : Nat) (rd wr : Bool) => checkAccess e.s e.id e.g quay as_ w rd wr
  let performs := fun (e : Env) => (ctxIn e.g e.id.who).any (fun c => c.copied.isNone) && !isDup e.g && !unacked e.s e.g.lid e.g.wgix
  let fits := fun (e : Env) => !((ctxIn e.g e.id.who).map (overruns e)).getD false
  let direct := fun (e : Env) (c : Chk) => match c with
    | .ok xs => performs e && !headOnly 0 e.g e.s xs && (xs.filter (fun y => stagedRmw e.s e.id.berth e.g y)).isEmpty
        && (flushOver (fillTlb e.s e.id e.g xs) e.id xs 4).2
    | _ => false
  let staged := fun (e : Env) (c : Chk) => match c with
    | .ok xs => performs e && !headOnly 0 e.g e.s xs && !xs.any (fun y => remoteSent e.s e.id y.lane) && xs.any (fun y => stagedRmw e.s e.id.berth e.g y)
        && decide (e.f.dst.toNat < 240) && !areaFull e xs.length
    | _ => false
  let isOk := fun (c : Chk) => match c with | .ok _ => true | _ => false
  let stored := fun (e : Env) (w : Nat) (c : Chk) => match c with
    | .ok xs => (storeHold e (xs.map (fun y => (y, natLe w (e.bv y.lane))))).isNone && !isDet e.g && !isIdem e.g && (popList e.u e.f).isEmpty
        && e.crew?.any (fun c => stepsInPlace c e.head)
    | _ => false
  let dec := fun (e : Env) => checkPlaced e.s e.id e.g (((addresses e 0 none 8).map (placed e.s e.id.berth e.g false 8)).map globalOnly) 8 true true
  let met := fun (e : Env) (x : FormQ) (want : Bool) => match reach e false (e.lanes.map (fun l => (l, (e.av l : Int) + 0 + 0))) 4 true false with
    | .ok xs => xs.all (fun y => condHolds (bits x.imm 3 0) (orderElem x.ty (leNat (accRead e.s e.id e.g y 4) % 2 ^ 32) (e.bv y.lane % 2 ^ 32)).1) == want
    | _ => false
  let hashed := fun (e : Env) (spent : Bool) =>
    let ps := (e.lanes.map (fun l => (l, (e.av l : Int) + 0 + 0))).map (placed e.s e.id.berth e.g true 64)
    let keys := ps.filterMap (fun p => match p.place with | .ok (.quay k) => some (p.lane, k) | _ => none)
    !isDet e.g && !isDup e.g && ps.all (fun p => match p.place with | .ok (.quay k) => !locBad e.s (.quay k) | _ => false) &&
      (match hashRun e 1 .i32 .now keys e.s with | .ok sts _ _ => sts.any (fun y => y.2 % 256 == 4) == spent | _ => false)
  [ goes (.ld (fM 14 8 0 0 .i64 true 0)) s (fun e => isOk (reach e true (noff e 0) 8 true false)),
    goes (.ldx (fM 5 8 6 0 .i16 true 4)) s (fun e => isOk (reach e true (indexed e e.bv 4 2) 2 true false)),
    goes (.ld (fM 4 10 0 0 .b128 false 0)) (crewAt (wg [(10, [0x10000, 0x10FF0])] [])) (fun e => isOk (reach e false (noff e 0) 16 true false)),
    goes (.st (fM 0 8 6 0 .n64 true 0)) s (fun e => stored e 8 (reach e true (noff e 0) 8 false true)),
    goes (.stx (fM 0 10 6 12 .n32 false 0)) s (fun e => stored e 4 (reach e false (indexed e e.cv 0 4) 4 false true)),
    goes (.atom (fM 12 10 11 0 .i32 false 0)) s (fun e => direct e (reach e false (aoff e 0) 4 true true)),
    goes (.atom (fM 12 10 11 0 .i32 false 0)) behind (fun e => staged e (reach e false (aoff e 0) 4 true true)),
    goes (.cas (fM 1 2 3 3 .n64 false 0)) (pilotAt g) (fun e => direct e (reach e false (aoff e 0) 8 true true)),
    goes (.cas (fM 1 2 3 3 .n64 false 0)) pbehind (fun e => staged e (reach e false (aoff e 0) 8 true true)),
    goes (.spawn (fX 5 6 0)) (pilotAt g) (fun e => performs e && fits e && isOk (checkPlaced e.s e.id e.g (manifestLines e) 64 true false) && !(stages e && areaFull e e.lanes.length)),
    goes (.depdec (fX 5 6 0)) (pilotAt g) (fun e => performs e && fits e && !stages e && (match dec e with | .ok xs => (flushOver (fillTlb e.s e.id e.g xs) e.id xs 8).2 | _ => false)),
    goes (.depdec (fX 5 6 0)) pbehind (fun e => performs e && fits e && isOk (dec e) && stages e && decide (e.f.dst.toNat < 240) && !areaFull e 1),
    goes (.fence (fM 0 0 0 0 .i32 false 0x02000000)) s (fun _ => scopeOf (fM 0 0 0 0 .i32 false 0x02000000) != 3 && scopeOf (fM 0 0 0 0 .i32 false 0x02000000) != 4),
    goes (.fence (fM 0 0 0 0 .i32 false 0x03000000)) s (fun e => scopeOf (fM 0 0 0 0 .i32 false 0x03000000) == 3 && performs e),
    goes (.await (fQ 5 10 11 .n32 0 0)) (crewAt (wg [(10, [0x10000, 0x10008]), (11, [0, 0])] [])) (fun e => fits e && met e (fQ 5 10 11 .n32 0 0) true),
    goes (.await (fQ 5 10 12 .n32 0 0)) s (fun e => fits e && met e (fQ 5 10 12 .n32 0 0) false),
    goes (.hacc (fM 9 2 4 4 .i32 true 0x01000000)) s (fun e => hashed e false),
    goes (.hacc (fM 9 2 4 4 .i32 true 0x01000000)) table (fun e => hashed e true),
    goes (.hacc (fM 9 2 4 4 .i32 true 0x01000000)) chained (fun e =>
      let keys := e.lanes.map (fun l => (l, winKey 0 e.g 0x2000))
      isDet e.g && !headDrained e.s 0 e.g && keys.all (fun k => ownWindow 0 e.g k.2) && (match hashRun e 1 .i32 .now keys e.s, hashRun e 1 .i32 .stage keys e.s with
        | .ok _ m _, .ok _ _ _ => decide (m ≠ 0) && !areaFull e (laneList m).length
        | _, _ => false)) ]

theorem test_meets_memory : memory.all id = true := by decide +kernel

/-- Where memory instructions trap (R175, R200, R404): a second lane whose address is bad beside a first that is good, at the bounds. -/
def accessTraps : List Bool :=
  let g := wg [(9, [4, 6]), (10, [0x10000, 0]), (21, [0, 0x1000000]), (20, [0x10000, 0]), (11, [0xFFFC, 0x10000]), (12, [0, 0x1000])] []
  let s := crewAt g
  let owned := { s with engTiles := [1] }
  let bad := { s with quayBad := [0x1000 / 64] }
  let off := fun (e : Env) => e.lanes.map (fun l => (l, (e.av l : Int) + 0 + 0))
  let causes := fun (quay : Bool) (w : Nat) (e : Env) => (off e).map (fun x => match (placed e.s e.id.berth e.g quay w x).place with | .ok _ => 0 | .error c => c)
  let fails := fun (x : FormM) (i : FormM → Instr) (t : State) (want : List Nat) => goes (i x) t (fun e => decide (causes x.quay (x.ty.width / 8) e = want) && decide (lanesLeft e.s e.id (off e) = off e))
  let m := fun (sa : BitVec 8) (quay : Bool) => fM 5 sa 0 0 .i32 quay 0
  let poisoned := fun (i : Instr) (t : State) => goes i t (fun e =>
    let ps := (off e).map (placed e.s e.id.berth e.g true 4)
    !isDup e.g && ps.all (fun p => (found e.s e.id.berth e.g false p).isSome && (copyFor e.s e.id.berth e.g p).isNone) &&
      (let fs := ps.filterMap (found e.s e.id.berth e.g false)
       fs.all (fun f => !rebuildHeld e.s e.g (readsBadLine e.s e.id e.g 4 false f.acc) f) && decide (fs.map (fun f => readsPoison e.s e.id e.g 4 false f.acc) = [false, true])))
  [ fails (m 9 true) .ld s [0, 8], fails { m 9 true with dst := 0, sb := 9 } .st s [0, 8], fails { m 9 true with sb := 9 } .ldx s [0, 8],
    fails { m 9 true with dst := 0, sb := 9, sc := 9 } .stx s [0, 8], fails { m 20 false with sb := 9 } .atom s [0, 0xA], fails { m 20 false with sb := 9, sc := 9 } .cas s [0, 0xA],
    fails (m 11 true) .ld s [0, 7], fails (m 12 true) .ld owned [0, 0xE], poisoned (.ld (m 12 true)) bad, fails (m 20 false) .ld s [0, 0xA],
    goes (.hacc (fM 9 14 4 4 .i32 false 0x01000000)) (crewAt (wg [(4, [7, 7]), (14, [0x10000, 0x10000]), (15, [0, 0])] [])) (fun e => (off e).all (fun y => decide (lowBits 64 y.2 % 64 = 0) && isGlobal (lowBits 64 y.2))) ]

theorem test_meets_access_traps : accessTraps.all id = true := by decide +kernel

/-- A queue descriptor at the end of the window, its ring and side records before it: cap 4, both scopes 1. -/
def lastDesc : List Byte := natLe 64 (0x1FF000 + 2 ^ 22 + 2 ^ 25 + 2 ^ 34 + 2 ^ 64 * 0x1FE000)

/-- Pigeonholes, ownership and tags. -/
def queues : List Bool :=
  let g := wg [(7, [0, 0]), (9, [5, 6])] [(3, 0xFFC0), (4, 0xF000), (5, 9), (6, 1), (9, 5)]
  let s := crewAt g
  let ps := pilotAt g
  let empty := fun (t : State) => { t with quay := [] }
  let full := fun (t : State) => { t with quay := [(16, 4), (80, 4)] }
  let desc := { ps with quay := cellsWriteN ps.quay 0xFFC0 lastDesc }
  let may := fun (e : Env) (n : Nat) (wide push : Bool) => (bindOf e.g n).isSome && (useReason e.s e.id.berth e.g n wide push).isNone && !sharedQ e.g n && !unacked e.s e.g.lid e.g.wgix
  let ready := fun (e : Env) (n : Nat) => match popState e.s e.g [n] [] with | .ready => true | _ => false
  let none_ := fun (e : Env) (n : Nat) => match popState e.s e.g [n] [] with | .empty _ => true | _ => false
  let free := fun (e : Env) (n : Nat) (want : Bool) => (bindOf e.g n).any (fun q =>
    let q' := if q.cap - (q.tail - q.head).toNat < 1 then { q with head := qHead e.s q, tail := qTail e.s q } else q
    (q'.transit.isEmpty && decide (0 < qCachedFree q')) == want && (!want || !pushMisowned (modWg e.s 0 (fun g => modBind g n (fun _ => q'))) q' 1))
  let tagged := fun (tags : DWord) (errs : List (Nat × Nat)) => pilotAt { g with tags := tags, tagErr := errs }
  let hit := fun (e : Env) => Nat.land e.g.tags.toNat (e.av e.first)
  let err := fun (e : Env) => (e.g.tagErr.find? (fun t => bitAt (BitVec.ofNat 64 (hit e)) t.1)).isSome
  let bindable := fun (e : Env) (key : Nat) => decide (e.av e.first % 64 = 0) && (bindOf e.g 1).isNone && !locBad e.s (.quay key) && (bindReason e.s 0 e.g key).isNone
  let drained : WG := { g with binds := g.binds.set 10 (some { narrowQ with tail := 4 }) }
  [ goes (.qbind (fQ 241 3 0 .i32 1 0)) desc (fun e => bindable e (winKey 0 e.g 0xFFC0) && decide (e.av e.first + 64 = hQuayb e.g.hdr)),
    goes (.qbind (fQ 241 3 0 .i32 0 0)) desc (fun e => bindable e 0xFFC0 && decide (logicalKey e.s e.g.part 0xFFC0 = some 0xFFC0) && quayReach e.s 0 e.g 0xFFC0),
    goes (.qunbind (fQ 250 0 0 .i32 0 0)) ps (fun e => (bindOf e.g 10).any (fun q => q.transit.isEmpty)),
    goes (.qcount (fQ 7 243 0 .i32 0 0)) s (fun e => (bindOf e.g 3).any (fun q => !engOwned e.s q.desc)),
    goes (.qtrypop (fQ 7 243 0 .i32 0 2)) s (fun e => may e 3 true false && ready e 3),
    goes (.qtrypop (fQ 7 250 0 .i32 0 2)) ps (fun e => may e 10 false false && ready e 10),
    goes (.qtrypop (fQ 7 243 0 .i32 0 2)) (empty s) (fun e => may e 3 true false && none_ e 3),
    goes (.qpeek (fQ 7 250 0 .i32 0 0)) ps (fun e => may e 10 false false && ready e 10),
    goes (.qmask (fQ 7 243 0 .i32 0 1)) s (fun e => may e 3 true false && ready e 3),
    goes (.bget (fQ 8 250 0 .n64 0 0)) s (fun e => may e 10 false false && ready e 10),
    goes (.qtrypush (fQ 243 9 0 .i32 0 2)) s (fun e => may e 3 true true && free e 3 true),
    goes (.qtrypush (fQ 250 9 0 .i32 0 2)) (full (pilotAt drained)) (fun e => may e 10 false true && free e 10 false),
    goes (.bcast (fQ 243 5 0 .i32 0 3)) ps (fun e => may e 3 true true && (bindOf e.g 3).any (fun q => q.transit.isEmpty && decide (3 ≤ qCachedFree q) && !pushMisowned e.s q 3)),
    goes (.own (fQ 0 4 0 .i32 1 1)) ps (fun e => decide (e.av e.first % 4096 = 0) && decide (e.av e.first + 4096 * 1 = hQuayb e.g.hdr)),
    goes (.twait (fQ 5 6 0 .i32 0 0)) (tagged 1 []) (fun e => !tagMaskBad e.g (e.av e.first) && hit e != 0 && !err e),
    goes (.twait (fQ 5 6 0 .i32 1 0)) (tagged 3 [(0, 8)]) (fun e => hit e == e.av e.first && err e),
    goes (.tfirst (fQ 5 6 0 .i32 0 0)) (tagged 0 []) (fun e => !tagMaskBad e.g (e.av e.first) && hit e == 0 && !err e),
    goes (.tfirst (fQ 5 6 0 .i32 0 0)) (tagged 1 [(0, 8)]) (fun e => err e) ]

theorem test_meets_queues : queues.all id = true := by decide +kernel

/-- Engine commands: a register range that ends with the last node, areas that end with the window, the longest sweep. -/
def commands : List Bool :=
  let g := wg [] [(1, 0x10040), (2, 0x10080), (3, 0xFFFC), (4, 0xFFC0), (5, 0xFFE + 2 ^ 13), (6, 0xFFFC), (7, 0), (8, 2 ^ 20), (9, 5), (11, 0xFFF), (12, 0xC000)]
  let s := pilotAt g
  let takes := fun (k : Engine) (x : FormE) (opnd : List LaneWords) (use : GlobalUse) (e : Env) =>
    (cqTrap e x).isNone && !isDup e.g && (ctxIn e.g e.id.who).isSome && !detHolds e use && !(x.tv && tagBusy e.s 0 x.tag.toNat) && !engineFull e.s 0 k opnd
  let copyOk := fun (e : Env) => decide (e.av 0 % 64 = 0) && canonical (e.av 0)
  let arr := fun (e : Env) => (arrayOf e.s 0 e.g).isSome
  let range := fun (e : Env) => !rgBad (e.bv 0) && decide (e.bv 0 / 2 ^ 25 = 0)
  let area := fun (e : Env) (n al : Nat) => decide (e.av 0 + n ≤ hQuayb e.g.hdr) && decide (e.av 0 % al = 0)
  let c := fun (a b c : BitVec 8) => fE 0 a b c .i32 0 0
  let n := fun (x : FormE) => { x with tv := false }
  let q := fun (a b c : BitVec 8) => { n (fE 0 a b c .i32 0 0) with cq := 10, cqv := true }
  [ goes (.lcopy (c 1 2 0)) s (fun e => copyOk e && decide (e.bv 0 % 64 = 0) && takes .lighter (c 1 2 0) [] (copyUse e (e.av 0) (some (e.bv 0))) e),
    goes (.lgather (c 1 2 3)) s (fun e => copyOk e && decide (e.cv 0 % 4 = 0) && decide (e.cv 0 + 4 = hQuayb e.g.hdr) && takes .lighter (c 1 2 3) [] (copyUse e (e.av 0) (some (e.bv 0))) e),
    goes (.lscatter (c 1 2 3)) s (fun e => copyOk e && decide (e.cv 0 % 4 = 0) && takes .lighter (c 1 2 3) [] (copyUse e (e.av 0) (some (e.bv 0))) e),
    goes (.lfill (c 1 9 0)) s (fun e => copyOk e && takes .lighter (c 1 9 0) [] (copyUse e (e.av 0) none) e),
    goes (.czero (n (c 0 0 0))) s (takes .crane (n (c 0 0 0)) [] .none),
    goes (.bycoup (q 4 0 0)) s (fun e => arr e && area e 64 64 && takes .buoy (q 4 0 0) [] .reads e),
    goes (.bybias (q 3 5 0)) s (fun e => arr e && range e && decide (rgCount (e.bv 0) = 2) && area e 4 2 && takes .buoy (q 3 5 0) [] .none e),
    goes (.byclamp (q 6 5 0)) s (fun e => arr e && range e && area e (rgBitBytes (e.bv 0)) 4), goes (.byfree (q 0 5 0)) s (fun e => arr e && range e),
    goes (.bysweep (q 7 8 0)) s (fun e => arr e && decide (e.av 0 / 2 ^ 10 % 32 ≠ 31) && decide (1 ≤ e.bv 0 ∧ e.bv 0 = 2 ^ 20) && decide (e.av 0 / 2 ^ 43 = 0) && takes .buoy (q 7 8 0) [] .reads e),
    goes (.bycount (c 12 5 0)) s (fun e => arr e && range e && area e (4 * rgCount (e.bv 0)) 4), goes (.bystate (c 6 5 0)) s (fun e => arr e && range e && area e (rgBitBytes (e.bv 0)) 4),
    goes (.bymode (n (c 7 0 0))) s (fun e => arr e && decide (e.av 0 / 2 ^ 32 = 0) && decide (e.av 0 / 2 ^ 3 % 2 ^ 13 = 0)),
    goes (.bybmap (q 12 11 0)) s (fun e => arr e && decide (e.bv 0 / 2 ^ 15 = 0) && decide (e.av 0 + 4 * lkEntries (e.bv 0) = hQuayb e.g.hdr) && decide (e.av 0 % 4 = 0)),
    goes (.cmma (n (fE 0 16 32 0 .f16 1 0x2B0))) (crewAt g) (fun e => takes .crane (n (fE 0 16 32 0 .f16 1 0x2B0))
      (tabulate (craneRegs .f16) (sourceReg e.a) ++ tabulate (craneRegs .f16) (sourceReg e.b)) .none e),
    goes (.cmma (n (fE 0 13 13 0 .f16 0 0x2B0))) (pilotAt (wg [] [(13, 0x4000000)])) (fun e => (cmmaCheck e 1 .f16 ((cmmaTb (fE 0 13 13 0 .f16 0 0x2B0)).getD .f16)).isNone
      && takes .crane (n (fE 0 13 13 0 .f16 0 0x2B0)) [] .none e),
    goes (.cdrain (fE 0 13 0 14 .f32 0 0)) (pilotAt (wg [] [(13, 0x20000000)])) (fun e => (cdrainCheck e (fE 0 13 0 14 .f32 0 0)).isNone && takes .crane (fE 0 13 0 14 .f32 0 0) [] .none e),
    goes (.accld (n (fE 7 0 0 0 .f32 0 0x1FD))) (crewAt g) (fun e => !isDup e.g && (pushName e.u e.f).isNone && !accPending e.s 0 e.g 1 && !(accOf e.g 1).poison && !(accOf e.g 1).err),
    goes (.accld (n (fE 243 0 0 0 .f32 0 0))) (crewAt g) (fun e => decide (pushName e.u e.f = some 3) && (bindOf e.g 3).any (fun q => q.transit.isEmpty && decide (0 < qCachedFree q))),
    goes (.accld (n (fE 7 0 0 0 .f32 0 0))) (crewAt { g with accs := g.accs.map (fun a => { a with err := true }) }) (fun e => !accPending e.s 0 e.g 0 && (accOf e.g 0).err && !(accOf e.g 0).poison) ]

theorem test_meets_commands : commands.all id = true := by decide +kernel

/-- Lookout and revisions: probe 255, the last line of the probe table, a slot whose pair 0 is locked, a region that starts where another ends. -/
def looks : List Bool :=
  let g0 := wg [(9, [0x3F800000, 0]), (11, [4, 0xFFFF]), (13, [0, 4])] [(1, 0x10000), (2, 0x10000), (6, 0x10100), (7, 5), (8, 255), (10, 0x3F800000), (12, 0x20000), (14, 1), (15, 0)]
  let g : WG := { g0 with hdr := g0.hdr ||| BitVec.ofNat 1024 (2 ^ 1023), taps := [some ⟨true, 255, 0x105, [], []⟩] ++ (g0.taps.drop 1) }
  let home := fun (t : State) => { t with hbm := [(64 * 5 + 2, 1), (64 * 255, 5), (64 * 255 + 1, 1)] }
  let s := home (crewAt g)
  let ps := home (pilotAt g)
  let performs := fun (e : Env) => (ctxIn e.g e.id.who).any (fun c => c.copied.isNone) && !isDup e.g && (pushName e.u e.f).isNone && !unacked e.s e.g.lid e.g.wgix
  let slot := fun (e : Env) => e.av 0 % 2 ^ 16
  let steerOk := fun (e : Env) => performs e && decide (slot e ≠ 0xFFFF) && ((tapHome e).taps.getD (e.av 0 / 2 ^ 16 % 8) none).isSome
  let locked := fun (e : Env) => slotSlk (slotBits e.s (asidOf e.g) (slot e)) (e.av 0 / 2 ^ 16 % 8)
  let one := fun (e : Env) => (match decodeF fmtF32 (e.bv 0) with | .fin _ => true | _ => false)
  let n := fun (x : FormE) => { x with tv := false }
  let kids := fun (st : HandleState) (h : Nat) => ({ asid := 0, lid := 0, wgix := 0, handle := h, outer := none, child := 1, regions := [], childPages := [], ancPages := [], state := st, reserved := 0, merging := none } : Rev)
  let child := fun (st : HandleState) => { pilotAt { g with pilot := { g.pilot with lastHandle := 1 } } with revs := [(7, kids st 1)] }
  let mine := fun (e : Env) => performs e && !handleRefused e (e.av 0) && (revOfHandle e.s e.g.lid e.g.wgix (e.av 0)).any (fun x => x.2.merging.isNone)
  let region := fun (base size : Nat) => ({ base := BitVec.ofNat 64 base, size := BitVec.ofNat 64 size, mtype := 0 } : Region)
  let regions := fun (g : WG) => { g with pilot := { g.pilot with regions := g.pilot.regions.set 0 (some (region 0x20000 0x10000)) } }
  let forks := fun (st : Nat) (want : Bool) (e : Env) => match checkPlaced e.s e.id e.g (manifestLines e) 64 true false with
    | .ok xs =>
      let t := fillTlb e.s e.id e.g xs
      performs e && (wgOf t 0).any (fun g => g.staging.isEmpty) && decide (forkStatus t 0 e.g (demote (manifestRead e xs 0) (mPrio e.g.man)) = st) && stages { e with s := t } == want && !areaFull { e with s := t } 1
    | _ => false
  let behind := fun (t : State) => { t with launches := [{ freshLaunch 0 0 0 demoManifest none none with relHead := 1 }] }
  [ goes (.tarm (n (fE 0 0 0 0 .i32 1 0x7))) ps performs,
    goes (.tarm (n (fE 0 8 0 0 .i32 0 0xF))) ps (fun e =>
      let at_ : Nat := e.s.pkg.prbbase.toNat + 64 * 255
      performs e && decide (e.av 0 = 255) && hPmask e.g.hdr 255 && !locBad e.s (.hbm at_) && !probeBad (BitVec.ofNat 512 (paNat e.s at_ 64))
        && decide (unitsUsed e.s 0 < Config.tapsPerCore)),
    goes (.steer (n (fE 0 7 10 0 .i32 0 0))) ps (fun e => steerOk e && one e && locked e),
    goes (.steer (n (fE 0 15 0 0 .i32 1 0))) ps (fun e => steerOk e && !locked e), goes (.steer (n (fE 0 15 10 0 .i32 0 0))) ps (fun e => steerOk e && one e && !locked e),
    goes (.look (n (fE 0 9 11 0 .f32 0 0))) s (fun e => performs e),
    goes (.look (n (fE 0 9 11 13 .f32 1 0))) s (fun e => performs e
      && (match checkAccess e.s e.id e.g true (e.lanes.map (fun l => (l, (e.cv l : Int)))) 4 false true with | .ok _ => true | _ => false)),
    goes (.region (n (fE 0 1 2 0 .i32 0 0x1))) (pilotAt (regions g)) (fun e => performs e && decide (e.av 0 % 65536 = 0 ∧ e.bv 0 % 65536 = 0) && isGlobal (e.av 0)
      && decide (e.av 0 + e.bv 0 = 0x20000) && !overlaps (e.av 0) (e.bv 0) 0x20000 0x10000),
    goes (.region (n (fE 0 1 15 0 .i32 0 0xC0))) (pilotAt (regions g)) (fun e => performs e && decide (e.bv 0 = 0)),
    goes (.fork (n (fE 5 6 0 0 .i32 0 0))) (pilotAt g) (forks 0 false), goes (.fork (n (fE 5 6 0 0 .i32 0 0))) (pilotAt (regions g)) (forks 1 false),
    goes (.fork (n (fE 5 6 0 0 .i32 0 0))) (behind (pilotAt (inMode 4 g))) (forks 0 true),
    goes (.join (n (fE 5 14 0 0 .i32 0 0))) (child (.merged 0)) mine, goes (.discard (n (fE 5 14 0 0 .i32 0 0))) (child .running)
      (fun e => mine e && !treeMerging (e.s.nextRev + 1) (dropRev (e.s.nextRev + 1) e.s 7) 7) ]

theorem test_meets_looks : looks.all id = true := by decide +kernel

/-- Steps of contexts, queues, traps and timers. -/
def contexts : List Bool :=
  let g := wg [] []
  let inCtx := fun (f : Ctx → Ctx) => modCtxIn g (.crew 0) f
  let has := fun (c : CtxId) (t : State) (p : WG → Ctx → Bool) => (wgOf t c.berth).any (fun g => (ctxIn g c.who).any (p g))
  let c : CtxId := ⟨0, .crew 0⟩
  let waits := fun (b : Block) => crewAt (inCtx (fun x => { x with blocked := some b }))
  let trapped := fun (w : Who) (cause : BitVec 6) => onCore w (modCtxIn g w (fun x => { x with traps := [⟨cause, 0, 0, 0, 0, none, none⟩] }))
  let due := fun (w : Who) (cause : BitVec 6) => has ⟨0, w⟩ (trapped w cause) (fun g _ => (dueTrap (trapped w cause) ⟨0, w⟩).any (fun t => t.cause == cause)
    && (parkedAt (trapped w cause) ⟨0, w⟩ g).isNone)
  let pushed := crewAt { g with binds := g.binds.set 10 (some { narrowQ with transit := [⟨natLe 8 1, 0⟩, ⟨natLe 8 2, 0⟩, ⟨natLe 8 3, 0⟩] }) }
  let late := { pilotAt { g with pilot := { g.pilot with park := some (.barrier 3) }, bars := g.bars.set 3 ⟨0, some 0⟩ } with cycle := 2 ^ 24 }
  let lateCk := { pilotAt { g with pilot := { g.pilot with park := some .ckpt }, ckBar := ⟨0, some 0⟩ } with cycle := 2 ^ 24 }
  let overdue := fun (t : State) (p : Park) => (wgOf t 0).any (fun g => decide (g.run = .running) && decide (timerOf g p = some 0) && decide (0 + hTimeout g.hdr = t.cycle)
    && decide (timeoutReceiver t 0 g p = some .pilot))
  [ has c (placeFetch State.reset nopWord) (fun g _ => (headFor (placeFetch State.reset nopWord) c g).any (fun h => let t := placeFetch State.reset nopWord
      ctxEligible t c && (dueTrap t c).isNone && !inLine g h c.who && ok (enterLine t c g h 0))),
    has c (crewAt (inCtx (fun x => { x with pend := [⟨some 0, Result.none, none⟩] }))) (fun _ x => x.pend.length == 1),
    has c (waits .await) (fun _ x => decide (x.blocked = some .await)), has c (waits .tapUnit) (fun _ x => decide (x.blocked = some .tapUnit)),
    has c (waits (.pop 3)) (fun g _ => match popState (waits (.pop 3)) g [3] [] with | .empty _ => false | _ => true),
    has c (waits (.accept .crane)) (fun _ _ => !engineFull (waits (.accept .crane)) 0 .crane []),
    (wgOf pushed 0).any (fun g => (bindOf g 10).any (fun q => !q.transit.isEmpty && decide (qCount pushed q + q.transit.length = q.cap))),
    due (.crew 0) 0x10, due .pilot 0x10, due .pilot 0x11,
    (let t := onCore (.crew 0) (inCtx (fun x => { x with traps := [⟨0x10, 0, 0, 0, 0, some 16, none⟩] })); (dueTrap t c).any (fun t => t.entry.isSome)), overdue late (.barrier 3), overdue lateCk .ckpt ]

theorem test_meets_contexts : contexts.all id = true := by decide +kernel

/-- A command at the head of an engine's queue, its fields beyond the operands at their start. -/
def cmd (opc : Nat) (a : DWord) (ty : Ty) (cs : BitVec 20) : Cmd :=
  { berth := 0, who := .pilot, opc := opc, tag := none, cq := none, cqPeer := none, seq := 0, a := a, b := 0, c := 0, cs := cs, ty := ty, sub := 0, opnd := [], bound := [],
    started := false, done := 0, edge := false, buf := [], bufBad := false, chunk := none, row := none, phase := 0, term := 0, ring := false, wait := none, rebuild := none, carry := [], writes := false, wtiles := [], qtiles := [], flipped := false, fin := none }
/-- A record of sixteen words of the window at offset 0x100. -/
def winRecord : BitVec 512 := BitVec.ofNat 512 (0x100 + 2 ^ 69 + 2 ^ 70 + 16 * 2 ^ 80 + 2 ^ 96 + 2 ^ 112 + 2 ^ 128)

/-- The same of 32 elements of an MX type with their scale byte at 0x180. -/
def mxRecord : BitVec 512 :=
  BitVec.ofNat 512 (0x100 + 2 ^ 64 * tyCode .e4m3 + 2 ^ 69 + 2 ^ 70 + 2 ^ 71 + 32 * 2 ^ 80 + 2 ^ 96 + 2 ^ 112 + 2 ^ 128 + 0x180 * 2 ^ 240)

/-- Steps of the engines. -/
def engines : List Bool :=
  let g := wg [] []
  let base := { pilotAt g with engTiles := [0, 1, 2, 3, 4, 5, 6, 7, 8, 9, 10, 11, 12, 13, 14, 15] }
  let on := fun (k : Engine) (x : Cmd) => modCore base 0 (fun c => setEngineQ c k [x])
  let idle := fun (k : Engine) (t : State) (p : Cmd → WG → Bool) => (headCmd t 0 k).any (fun x => x.wait.isNone && x.rebuild.isNone && x.fin.isNone && (wgOf t x.berth).any (p x))
  let ended := fun (n : Nat) => on .lighter { cmd 3 0 .i32 0 with fin := some (0, 64, false), cq := some (10, { narrowQ with cap := n }) }
  let shape := { on .lighter (cmd 3 0x10040 .i32 0) with hbm := cellsWriteN [] 0x10040 (natLe 64 winRecord.toNat) }
  let both := { on .lighter { cmd 0 0x10040 .i32 0 with b := 0x10040 } with hbm := shape.hbm }
  let bound := fun (t : State) (g : WG) (a : Nat) (r : BitVec 512) => !recordBad r && (match bindBlock (tlbFill t 0 (asidOf g) a) 0 g [] a with
    | .ok d => decide (d = r)
    | _ => false)
  let moves := fun (t : State) => idle .lighter t (fun x g => x.started && !x.edge && (match x.bound[0]?, walkRecord x with
    | some d, some w =>
      let r := x.bound.getD 1 d
      (match chunkRows t g x d r w with
      | (.ok rd, .ok rs) =>
        let n := (chunkTo x d w rd).2
        let bytes := match x.chunk with
          | some c => some (c.bytes, t)
          | none => match chunkRead t g x d r w rs n with | .ok bs _ u => some (x.buf ++ bs, u) | _ => none
        let scale := match x.chunk with
          | some c => some c.scale
          | none => match chunkScale t g x r w rs with | .ok sb _ _ => some sb | _ => none
        let placed := fun (segs : List (Int × Nat)) (bs : List Byte) (u : State) => match placeSegs x.berth g x.carry d segs bs u with | .ok _ _ => true | _ => false
        bytes.any (fun b => placed (chunkSegs t g x d d (lineSegs 4 (chunkTo x d w rd).1 n)) b.1 b.2
          && (!rMxs d || scale.any (fun sb => placed [(scaleAt x d w rd, 1)] sb b.2)))
      | _ => false)
    | _, _ => false))
  let acc := fun (e : Bool) (t : State) => modWg t 0 (fun g => { g with accs := g.accs.map (fun a => { a with err := e }) })
  let step := on .crane { cmd 0x10 0x4000000 .f16 0x2B0 with b := 0x4000000, started := true }
  let drain := { cmd 0x12 0x20000000 .f32 0 with started := true, c := 1 }
  [ (headCmd (ended 2) 0 .lighter).any (fun x => decide (x.fin = some (0, 64, false)) && (recordQueues x).all (fun q => decide (qCount (ended 2) q + 1 = q.cap))),
    (headCmd (ended 1) 0 .lighter).any (fun x => x.fin.isSome && (recordQueues x).any (fun q => decide (q.cap < qCount (ended 1) q + 1))),
    idle .lighter shape (fun x g => !x.started && !leavingWg shape 0 && x.opc == 3 && bound shape g x.a.toNat winRecord),
    idle .lighter both (fun x g => !x.started && x.opc == 0 && bound both g x.a.toNat winRecord && bound both g x.b.toNat winRecord),
    moves (on .lighter { cmd 3 0x10040 .i32 0 with started := true, bound := [winRecord], done := 48 }),
    moves (on .lighter { cmd 0 0x10040 .i32 0 with started := true, bound := [winRecord, winRecord], done := 60 }),
    moves (on .lighter { cmd 1 0x10040 .i32 0 with started := true, bound := [winRecord, winRecord], c := 0x200 }),
    moves (on .lighter { cmd 2 0x10040 .i32 0 with started := true, bound := [winRecord, winRecord], c := 0x200 }),
    !recordBad mxRecord && moves (on .lighter { cmd 3 0x10040 .i32 0 with started := true, bound := [mxRecord] }),
    moves (on .lighter { cmd 0 0x10040 .i32 0 with started := true, bound := [mxRecord, mxRecord] }),
    moves (on .lighter { cmd 0 0x10040 .i32 0 with started := true, bound := [mxRecord, mxRecord], chunk := some ⟨natLe 32 5, false, [7], false, false⟩ }),
    idle .crane (on .crane (cmd 0x11 0 .i32 0)) (fun x _ => !x.started && x.opc == 0x11), idle .crane (acc true (on .crane (cmd 0x10 0 .f16 0x2B0))) (fun x g => (accOf g (craneAcc x)).err),
    idle .crane (acc false (on .crane (cmd 0x10 0 .f16 0x2B0))) (fun x g => !(accOf g (craneAcc x)).err),
    idle .crane step (fun x g => x.started && (stepRanges x x.done).all (fun r => rangeOwned step x.berth g r.1 r.2)),
    idle .crane (on .crane drain) (fun x g => x.bound.isEmpty && (rowMapOf x.c.toNat).isNone && (drainRanges x).all (fun r => rangeOwned base x.berth g r.1 r.2)),
    idle .crane (on .crane { drain with started := false }) (fun x g => !x.started && x.opc == 0x12 && g.taps.all (fun t => t.isNone)),
    idle .crane (on .crane { drain with bound := [0], ring := true }) (fun x _ => !x.bound.isEmpty && x.ring), idle .crane (on .crane { drain with bound := [0] }) (fun x _ => !x.bound.isEmpty && !x.ring),
    (let owned := fun (t : State) (x : Cmd) (g : WG) => (rowRanges x x.done (rowStopped t g (x.bound.getD x.done 0))).map (fun r => rangeOwned t x.berth g r.1 r.2)
     let t := on .crane { drain with bound := [0] }
     idle .crane t (fun x g => (owned t x g).all id && !(owned t x g).isEmpty) && idle .crane { t with engTiles := [] } (fun x g => (owned { t with engTiles := [] } x g).contains false)),
    (let t := on .crane { drain with started := false }; idle .crane (modWg t 0 (fun g => { g with taps := [some ⟨false, 255, 0x105, [], []⟩] ++ g.taps.drop 1 })) (fun x g =>
      !x.started && g.taps.any (fun t => t.any (fun t => !(tapBlocks t (pCol x.c.toNat)).isEmpty && t.cache.isEmpty)))) ]

theorem test_meets_engines : engines.all id = true := by decide +kernel

/-- Steps of the buoy array. -/
def arrays : List Bool :=
  let g := wg [] []
  let base := { pilotAt g with engTiles := [0, 15] }
  let with_ := fun (x : Cmd) (f : Buoy → Buoy) => modCore base 0 (fun c => { setEngineQ c .buoy [x] with buoy := f c.buoy })
  let at_ := fun (x : Cmd) (f : Buoy → Buoy) (p : State → Buoy → Cmd → WG → Bool) => let t := with_ x f
    (headCmd t 0 .buoy).any (fun x => x.wait.isNone && x.rebuild.isNone && x.fin.isNone && !(coreOf t 0).buoy.err && (wgOf t x.berth).any (p t (coreOf t 0).buoy x))
  let id_ := fun (y : Buoy) => y
  let take := fun (opc : Nat) (a b : DWord) => ({ cmd opc a .i32 0 with b := b } : Cmd)
  let owned := fun (n : Nat) (t : State) (_ : Buoy) (x : Cmd) (g : WG) => !x.started && rangeOwned t x.berth g x.a.toNat n && decide (x.a.toNat + n = hQuayb g.hdr)
  let range : DWord := 0xFFE + 2 ^ 13
  let going : Cmd := { take 0x24 0 1 with started := true }
  let twoNodes := fun (y : Buoy) => { y with clamp := BitVec.allOnes 4096 ^^^ 3 }
  let listed := fun (t : State) => { t with quay := t.quay ++ [(0x201, 0x10), (0x205, 1)] }
  [ (let t := with_ { take 0x23 0 range with cq := some (10, narrowQ) } (fun y => { y with err := true }); (headCmd t 0 .buoy).any (fun x => (coreOf t 0).buoy.err && x.cq.isSome)),
    (let t := listed (with_ (take 0x20 0x200 0) id_); (wgOf t 0).any (fun g => (headCmd t 0 .buoy).any (fun x =>
      let h : BitVec 512 := BitVec.ofNat 512 (winNat t 0 g 0x200 64)
      x.bound.isEmpty && rangeOwned t 0 g 0x200 64 && !winBad t 0 g 0x200 64 && !headerBad h && decide (bits h 24 12 = 1) &&
        (match listNodes 0 g x.carry (bitAt h 52) (bits h 24 12) (bits h 11 0) (bits h 51 32) t with
          | .ok new u => (match copyResident 0 g x.carry [] (fun _ => true) (residency new 0) u with | .ok _ _ => true | _ => false)
          | _ => false)))),
    at_ (take 0x25 0xFFF8 range) id_ (owned 8),
    at_ (take 0x27 0x50002 0) id_ (fun t _ x g => !bitAt g.mode 3 && decide (x.a.toNat / 2 ^ 16 % 2 ^ 16 = 5) && !idTaken t g 0 5),
    at_ (take 0x28 0xFFFC 0) id_ (fun t y x g => owned 4 t y x g && decide (lkEntries x.b.toNat = 1) && !winBad t x.berth g x.a.toNat 4
      && decide (leNat (winRead t x.berth g x.a.toNat 4) < 2 ^ 28)),
    at_ (take 0x21 0xFFFC range) id_ (owned 4), at_ (take 0x22 0xFFFC range) id_ (owned 4), at_ (take 0x23 0 range) id_ (fun _ _ x _ => !x.started),
    at_ (take 0x26 0xFFFC range) id_ (owned 4), at_ (take 0x24 0 1) id_ (fun _ y _ _ => !y.offline && y.resume.isNone),
    at_ (take 0x24 5 1) (fun y => { y with resume := some (5, 1) }) (fun _ y x _ => decide (y.resume = some (x.a, 1))),
    at_ (take 0x24 5 1) (fun y => { y with resume := some (4, 1) }) (fun _ y x _ => y.resume.any (fun r => r.1 != x.a)),
    at_ going (fun y => { twoNodes y with offline := true, replay := true, bmap := [(0, 5)], lists := [(0, ⟨0, [⟨0, true, 1⟩], true, false, 0⟩)], links := [⟨5, 0, 0, [(0, 1)]⟩] })
      (fun t y x g => !monitorRuns (coreOf t 0) && y.replay && !leavingWg t 0 && (match gatherNodes x.berth g x.carry y [0, 1] t with | .ok ns _ => ns.any (fun n => n.2.any (fun c => c.bnd)) | _ => false)
        && (match labelFor t g.lid y y.sweep.toNat 5 with | .use 0 1 => true | _ => false)),
    at_ going twoNodes (fun t y x g => x.started && decide (y.draws < y.winStart + 65536) && !heldBack t g.lid y && (match gatherNodes x.berth g x.carry y [0, 1] t with
      | .ok ns _ => ns.all (fun n => n.2.all (fun c => !c.bnd))
      | _ => false)),
    (let t := with_ going (fun y => { y with outbox := [(0, 0, 0)] }); (coreOf t 0).buoy.outbox.length == 1 && (buoyLid t (coreOf t 0).buoy).isSome),
    monitorRuns (coreOf base 0), (let t := modBuoy base 0 (fun y => { y with draws := 65536 }); monitorRuns (coreOf t 0) && decide ((coreOf t 0).buoy.winStart + 65536 = 65536)),
    (let t := modBuoy base 0 (fun y => { y with replay := true }); !monitorRuns (coreOf t 0)) ]

theorem test_meets_arrays : arrays.all id = true := by decide +kernel

/-- Of any window either every count of ones lies within the limits, or there is a lowest node whose count does not: the draws are free values. -/
theorem test_window_closes (core : Nat) (y : Buoy) : let good := fun (n : Nat) => 31744 ≤ onesIn core y n ∧ onesIn core y n ≤ 33792
    (∀ n, n < 4096 → good n) ∨ ∃ n, n < 4096 ∧ ¬ good n ∧ ∀ m, m < n → good m := by
  have h (n : Nat) : countFails (onesIn core y n) = false ↔ 31744 ≤ onesIn core y n ∧ onesIn core y n ≤ 33792 := by
    simp only [countFails, Bool.or_eq_false_iff, decide_eq_false_iff_not, Nat.not_lt]
  cases hf : failingNode core y with
  | none =>
    refine .inl fun n hn => (h n).1 ?_
    simpa using List.find?_eq_none.1 hf n (List.mem_range.2 hn)
  | some n =>
    obtain ⟨hp, hm, hl⟩ := List.find?_range_eq_some.1 hf
    exact .inr ⟨n, List.mem_range.1 hm, fun k => by simp [(h n).2 k] at hp, fun m hm => (h m).1 (by simpa using hl m hm)⟩

/-- A ring with one record that waits, and room for it. -/
def oneWaits : Ring := { Ring.off with base := 0x1000, cap := 64, wait := [7] }

/-- It takes the record in the 32 bytes at its tail, in a memory that keeps the form; one past the last stack's end is unbacked. -/
theorem test_ring_takes : MemoryForm State.reset ∧ oneWaits.wait = [7] ∧ (oneWaits.tail - oneWaits.head).toNat < oneWaits.cap.toNat ∧
    ringUnbacked oneWaits = false ∧ cellsRead 0x1000 (ringDrain State.reset.hbm oneWaits 1).1 = 7 ∧ (ringDrain State.reset.hbm oneWaits 1).2.tail = 1 ∧
    ringUnbacked { oneWaits with base := 48000000000 } = true := by unfold MemoryForm; decide +kernel

/-- Page tables that map the first gigabyte to itself, and a launch of one workgroup in the roadstead. -/
def tables : List Host.Cell := [(0, 1), (1, 0x10), (0x1000, 1), (0x1001, 0x20), (0x2000, 0x0F)]
/-- The same, with the third gigabyte in the memory of package 0 of the remote window. -/
def tablesFar : List Host.Cell := tables ++ [(0x2010, 0x0F), (0x2016, 0x08)]
def lau (st : LState) : Launch := { freshLaunch 0 0 0 demoManifest none none with hdr := some demoHeader, state := st }
def withLaunch (s : State) (l : Launch) : State := { s with launches := [l], hbm := tables, spaces := [(0, { ASpace.off with ptroot := 1, svsize := 0x100000000 })] }
def aRev : Rev := { asid := 0, lid := 0, wgix := 0, handle := 1, outer := none, child := 1, regions := [some ⟨0, 0x10000, 0⟩], childPages := [], ancPages := [], state := .running, reserved := 0, merging := none }

/-- Revisions, release, countersign points. -/
def releases : List Bool :=
  let g := wg [] []
  let rev := fun (b : Block) => { withLaunch (pilotAt (modCtxIn g .pilot (fun x => { x with blocked := some b }))) (lau .running) with revs := [(7, aRev)], nextRev := 8 }
  let merging := fun (p : MergePos) (kind : BitVec 4) (cells : List Host.Cell) (st : Nat) =>
    let r : Rev := { aRev with regions := [some ⟨0x10000, 0x10000, kind⟩], childPages := [⟨1, cells, []⟩], merging := some p }
    { withLaunch (pilotAt g) (lau .running) with revs := [(7, r)], nextRev := 8, launches := [lau .running, { lau .completed with lid := 1, status := st }] }
  let failed := fun (s : State) => (launchOf s aRev.child).any (fun l => decide (l.status ≠ 0))
  let det := fun (rs : List StageRec) => withLaunch (pilotAt (inMode 4 { g with staging := rs })) { lau .running with man := demoManifest ||| BitVec.ofNat 2048 (2 ^ 186) }
  let rec_ : StageRec := { id := 0, who := .pilot, lane := 0, slot := 0x10004, lanes := 1, others := [], op := .store 0x10000 [(0, 7)], poison := false, whole := false, req := none, waited := false }
  let done := fun (s : State) (r : StageRec) (want : Bool) => (launchOf s 0).any (fun l => launchDet l && (headRecords s l).isSome
    && (wgOf s 0).any (fun g => !engineWriting s 0 g) && (match (releaseRec s l 0 r).2 with | .done _ => want | .later => !want | .refused _ => false))
  let park := fun (w : BitVec 96) => modCtxIn (inMode 2 (wg [] [])) (.crew 0) (fun x =>
    { x with blocked := some .countersign, line := some ⟨BitVec.ofNat 64 (cixLine demoLine 16), buildLine plainLineHi w nopWord nopWord nopWord nopWord⟩ })
  let fence := encode (.fence (fM 0 0 0 0 .i32 false 0x03000000))
  let pair := fun (a b : BitVec 96) => setWg (withLaunch (crewAt { park a with copy := .lead, peer := some 16 }) (lau .running)) 16 { park b with copy := .trail, peer := some 0 }
  let meet := fun (s : State) (want : Bool) => match wgOf s 0, wgOf s 16, peekEnv s ⟨0, .crew 0⟩, peekEnv s ⟨16, .crew 0⟩ with
    | some g, some h, some e, some f => match ctxIn g (.crew 0), ctxIn h (.crew 0) with
      | some x, some y => decide (pairOf s 0 = some (0, 16)) && g.log.isEmpty && decide (g.mism = 0) && decide (x.blocked = some .countersign ∧ y.blocked = some .countersign)
          && (decide (x.sig = y.sig ∧ e.i = f.i ∧ signedOperands e = signedOperands f) == want) && (releaseHeld s ⟨0, .crew 0⟩).isSome
      | _, _ => false
    | _, _, _, _ => false
  [ (let s := rev (.copy 7 1 true); (walk s 0 65536).isSome && (alookup 7 s.revs).isSome),
    mergeDue (rev (.join 1)) 7,
    (let s := merging ⟨0, 0, []⟩ 1 [] 1; failed s && (alookup 7 s.revs).any (fun r => r.merging.isSome)),
    (let s := merging ⟨1, 0, []⟩ 1 [] 0; !failed s && (alookup 7 s.revs).any (fun r => decide (r.merging = some ⟨1, 0, []⟩) && r.regions.length == 1)),
    (let s := merging ⟨0, 0, []⟩ 1 [(0x40, 9)] 0; !failed s && (alookup 7 s.revs).any (fun r => decide (nextLine s r 7 ⟨0x10000, 0x10000, 1⟩ 0 = some 1))),
    (let s := merging ⟨0, 0, []⟩ 0xB [] 0; !failed s && (alookup 7 s.revs).any (fun r => r.merging.any (fun p => p.counts.isEmpty))),
    (let c := appendOf [0, 0, 1, 8, 0, 0]; decide (c.nA < c.nC) && decide (c.lines 0x10000 = 1)),
    (let s := merging ⟨0, 1, [0, 0, 1, 8, 0, 0]⟩ 0xB [] 0; (alookup 7 s.revs).any (fun r => let now := appendRead s r 7 0x10000; decide (now.nP = 0 ∧ now.rsz ≠ 8))),
    (let s := { merging ⟨0, 1, [0, 0, 1, 8, 0, 0]⟩ 0xB [(0, 1), (4, 8)] 0 with hbm := cellsWrite 0x10004 8 tables }
     (alookup 7 s.revs).any (fun r => let now := appendRead s r 7 0x10000; decide (now.nP = 0 ∧ now.rsz = 8))),
    (let s := det []; (launchOf { s with wgs := [] } 0).any (fun l => launchDet l && (headRecords { s with wgs := [] } l).isNone)),
    done (det [rec_]) rec_ true, done (det [rec_]) { rec_ with op := .spawn demoManifest 0 } true, done (det [rec_]) { rec_ with op := .fork 1 demoManifest 0 [] } true,
    done (det [rec_]) { rec_ with op := .join 1 } true, done { det [rec_] with revs := [(7, aRev)] } { rec_ with op := .join 1 } false,
    (let s := { det [rec_] with hbm := cellsWrite 0x10100 3 tables }; done s { rec_ with op := .depdec 0x10100 } true && (walk s 0 0x10100).isSome),
    (let s := { det [rec_] with hbm := tablesFar }; (launchOf s 0).any (fun l => let r := { rec_ with op := .depdec 0x80000100 }
      (match devLoc s 0 l.view 0x80000100 true with | some (.remote _) => true | _ => false) && !pageHeld s l.lid 0 0x80000100 && !recordShort s l 0 r && !recordFailed s l r)),
    (let s := det [rec_]; (launchOf s 0).any (fun l => let l := { l with ended := [(0, 0, [rec_])] }; (headRecords { s with wgs := [] } l).any (fun x => decide (x.1 = .ended))
      && !headWriting { s with wgs := [] } l .ended)),
    (let s := { det [rec_] with hbmBad := [0x10000 / 64] }; (launchOf s 0).any (fun l => match (releaseRec s l 0 { rec_ with op := .atom 0x10000 0 .i32 1 none }).2 with | .refused t => t.cause == 0x15 | _ => false)),
 done (det [{ rec_ with op := .store 0x100000000000000 [(0, 7)] }]) { rec_ with op := .store 0x40000000 [(0, 7)] } false,
    meet (pair fence fence) true, meet (pair fence (encode (.fence (fM 0 0 0 0 .i32 false 0x04000000)))) false ]

theorem test_meets_releases : releases.all id = true := by decide +kernel

/-- Placing, ending and pre-empting workgroups. -/
def schedules : List Bool :=
  let g := wg [] []
  let none_ := { State.reset with parts := [(0, { Part.off with en := true, rsquota := 4096 })] }
  let s := fun (l : Launch) => withLaunch none_ l
  let gang := demoManifest ||| BitVec.ofNat 2048 (2 ^ 192)
  let gl := { lau .ready with man := gang }
  let gs := fun (y : GangPhase) => modPart (s gl) 0 (fun p => { p with gang := some y })
  let saved : Saved := { wg := { g with binds := [] }, base := 0, len := 0, lens := [], window := [], engTiles := [], badLines := [], cmds := [], buoy := none, timers := [], link := 0, handles := [], swapped := false }
  let small : Saved := { saved with wg := { saved.wg with hdr := 0, accs := [], crews := [] } }
  let good := fun (a : Nat) (c : Copy) => { small with base := a, len := 8192, lens := sections small, wg := { small.wg with copy := c } }
  let dup := { lau .running with man := demoManifest ||| BitVec.ofNat 2048 (2 ^ 185), undealt := 1 }
  let pairSaved := fun (l : Launch) => { l with saved := [good 0x100000 .lead, good 0x200000 .trail] }
  let written := fun (l : Launch) => l.saved.foldl (fun t v => imageWrite t v l.id) (s l)
  let emptyNeed := needHeld small.wg
  let spent := { g with pilot := { g.pilot with ctx := { g.pilot.ctx with ended := true } }, crews := g.crews.map (fun c => { c with ctx := { c.ctx with ended := true } }) }
  let here := fun (t : State) (p : WG → Bool) => (wgOf t 0).any p
  let old := { withLaunch (pilotAt g) (lau .running) with cycle := 2800000 }
  let full := { old with wgs := (List.range 20).map (fun k => (16 * k, g)), launches := [lau .running, { lau .ready with lid := 1 }] }
  let stopped := fun (w : Who) (r : RunState) => onCore w { g with run := r, stopper := some w }
  let listed := fun (cstat : Nat) => { lau .completing with man := demoManifest ||| BitVec.ofNat 2048 (2 ^ 384 * 0x40000 + 2 ^ 448 + 2 ^ 512 * cstat) }
  let come := fun (read : List (Option Nat)) => { listed 0 with done := { status := true, noted := false, read := read, decs := 0 } }
  let there := fun (l : Launch) (a : Nat) (wrt : Bool) => match donePlace (s l) l a wrt with | .ok _ => true | _ => false
  let roomy := fun (t : State) => { t with spaces := [(0, { ASpace.off with ptroot := 1, svbase := 0x100000, svsize := 0x100000000 })] }
  let req := fun (l : Launch) => ({ id := 0, sent := 0, ctx := none, lane := masterLane, parts := [], core := none, issuer := none, rank := 5, port := 0, seq := 0,
                                    op := 2, pa := 0, width := 8, home := some (0, mNwg l.man), kept := none, answer := some (some (natLe 8 4)) } : RemoteReq)
  [ (launchOf (s (lau .submitted)) 0).any (fun l => decide (l.state = .submitted)), dealable (s (lau .ready)) (lau .ready) && decide (mGang (lau .ready).man = 0) && dealNow (s (lau .ready)) (lau .ready),
    (let l := { lau .placing with undealt := 1, chunks := [(0, [0])] }; placeable l && !waitsBehind l 0 && (bringOn (s l) 0 l 0 0).isSome),
    (let y : GangPhase := ⟨0, 0, []⟩; dealable (gs y) gl && decide (mGang gl.man ≠ 0) && !outranked (gs y) 0 gl && decide ((partOf (gs y) 0).gang = some y)),
    (let l := { lau .waiting with man := demoManifest ||| BitVec.ofNat 2048 (2 ^ 320 * 0x80000000) }; (counterAway { s l with hbm := tablesFar } l).isSome),
    (let y : GangPhase := ⟨0, 1, []⟩; gangBehind (gs y) gl 1 && !gangBehind (gs y) gl 0),
    (let d := { lau .ready with man := demoManifest ||| BitVec.ofNat 2048 (2 ^ 185) }; launchDup d && (partOf (s d) 0).gang.isNone && !outranked (s d) 0 d && (bringOn (s d) 0 d 0 0).isSome),
    (let y : GangPhase := ⟨0, 0, [(0, 0)]⟩; !gangBehind (gs y) gl 0 && decide (gangMissing (gs y) gl 0 = [0]) && decide ((reservedOf y 0).length = copiesOf gl) && (argBytes (gs y) gl 0).isSome),
    (let t := s (lau .ready); decide (partOfCore t 0 = some 0) && (roadstead t 0).all (fun l => !dealable t l || l.hdr.isSome) && (lowestUnplaced (lau .ready) == some 0)
      && (bringOn t 0 (lau .ready) 0 0).isSome && !launchDup (lau .ready)
      && (let u := modCore t 0 (fun c => { c with freed := true }); refillNow u 0 && !retirementDue u 0 && !saveDue u 0)),
    (let t := pilotAt spent; here t (fun g => copyDone t 0 g && g.peer.isNone && !unacked t g.lid g.wgix && ok (idemFlush t 0))),
    (let t := s (lau .completing); (lau .completing).ended.isEmpty && t.revs.isEmpty && t.wgs.isEmpty && t.pkg.remote.isEmpty),
    (let l := listed 0x50000; !l.done.status && !(mSucc l.man ≠ 0 && fieldAddrBad (mSucc l.man) 8) && decide (doneStatus l = some 0x50000) && there l 0x50000 true),
    (let l := listed 0; !l.done.status && decide (doneStatus l = none)), (let l := { listed 0x80000000 with done := { status := false, noted := false, read := [], decs := 0 } }
      let far := fun (l : Launch) => { s l with hbm := tablesFar }
      let away := fun (l : Launch) (a : Nat) (wrt : Bool) (op : BitVec 8) => (match donePlace (far l) l a wrt with
        | .away pa => let sent := fun (ans : Option (Option (List Byte))) => modPkg (far l) (fun p => { p with remote := [{ req l with op := op, pa := pa, answer := ans }] })
          let found := fun (t : State) => masterAnswer t 0 (mNwg l.man) op.toNat pa
          (found (far l)).isNone && (found (sent none)).any (fun r => r.answer.isNone) && (found (sent (some none))).any (fun r => r.answer.isSome)
        | _ => false)
      away l 0x80000000 true 1 && away (come []) 0x80000000 false 2 && away { come [some 0x80000000] with skips := [] } 0x80000000 true 4),
    (let l := { come [] with man := demoManifest ||| BitVec.ofNat 2048 (2 ^ 384 * 0x40000000 + 2 ^ 448), skips := [0x4000] }
     decide ((doneList l)[0]? = some 0x40000000) && (match donePlace (s l) l 0x40000000 false with | .skip => true | _ => false)),
    (let l := come [none]; decide ((doneList l)[l.done.read.length]? = none ∧ l.done.read[l.done.decs]? = some none)),
    (let l := listed 0x40000000; decide (doneStatus l = some 0x40000000) && (match donePlace (s l) l 0x40000000 true with | .hold _ => true | _ => false)),
    (let l := come []; l.done.status && decide ((doneList l)[l.done.read.length]? = some 0x40000) && there l 0x40000 false),
    (let l := come [some 0x60000]; decide ((doneList l)[l.done.read.length]? = none ∧ l.done.read[l.done.decs]? = some (some 0x60000)) && !fieldAddrBad 0x60000 8
      && there l 0x60000 true && (rawPa (s l) (mAsid l.man) 0x60000).isSome),
    (let l := come [some 4]; decide ((doneList l)[l.done.read.length]? = none ∧ l.done.read[l.done.decs]? = some (some 4)) && fieldAddrBad 4 8),
    (let l := { lau .completing with done := { status := true, noted := false, read := [], decs := 0 } }; decide ((doneList l)[0]? = none ∧ l.done.read[0]? = none)),
    decide ((lau .running).state ≠ .completed ∧ (lau .running).state ≠ .completing),
    (let l := { lau .ready with handed := true, id := 9 }; (l.handed && decide (l.id = BitVec.ofNat 32 (bits (9#64) 31 0)))),
    here old (fun g => !g.preempt && decide (g.run ≠ .draining) && !urgentVictim old 0 g && quantumOver old g && !quantumVictim old 0 g),
    here full (fun g => !g.preempt && decide (g.run ≠ .draining) && !urgentVictim full 0 g && quantumOver full g && quantumVictim full 0 g),
    here (pilotAt { g with preempt := true }) (fun g => g.preempt && decide (g.run = .running)),
    (let t := roomy (pilotAt { g with run := .draining }); here t (fun g => copyDrained t 0 g && g.peer.isNone && !onHotDie t 0 && !retirementDue t 0 && (areaAt t (asidOf g) [] (imageLen (imageSave t 0 g))).isSome)),
    (let l := { lau .running with undealt := 1, saved := [saved] }; placeable l && !savedHeld saved && decide (mGang l.man = 0) && !waitsBehind l 0 && detPlaceable (s l) l 0),
    (let l := { lau .running with undealt := 1, saved := [good 0x100000 .single] }; (restoreOn (written l) 0 0 0 0 none).isSome && !launchDup l),
    (launchDup (pairSaved dup) && (partOf (written (pairSaved dup)) 0).gang.isNone && !outranked (written (pairSaved dup)) 0 (pairSaved dup)
      && ((coreOrder (written (pairSaved dup)) 0 (pairSaved dup)).find? (fun c => c != 0 && fits (written (pairSaved dup)) 0 c emptyNeed)).any (fun o => (restoreOn (written (pairSaved dup)) 0 0 0 0 (some o)).isSome)),
    (let l := { dup with saved := [{ saved with wg := { saved.wg with copy := .lead } }, { saved with wg := { saved.wg with copy := .trail } }] }
     let t := { s l with wgs := ((List.range 19).map (fun k => (List.range 16).map (fun j => (16 * (k + 1) + j, g)))).flatten }
     (memberNeed l 0).any (fun n => placeable l && !(savedOf l 0).isEmpty && (savedOf l 0).all (fun v => !savedHeld v) && !waitsBehind l 0 && detPlaceable t l 0 && fits t 0 0 n
      && !outranked t 0 l && ((coreOrder t 0 l).find? (fun c => c != 0 && fits t 0 c n)).isNone)),
    (let t := { withLaunch (pilotAt { g with faultSince := some 0 }) (lau .running) with cycle := 4096 }; here t (fun g => decide (0 + (partOf t g.part).fhold = t.cycle) && saveRoom t (asidOf g) (withPair t g) && !onHotDie t 0)),
    here (stopped .pilot .halted) (fun g => g.peer.isNone && pcValid 0x10004 && !pcValid 5), here (pilotAt { g with run := .halted }) (fun g => g.peer.isNone && g.stopper.isNone), here (stopped (.crew 0) .stopped) (fun g => g.peer.isNone && cixValid 8) ]

theorem test_meets_schedules : schedules.all id = true := by decide +kernel

/-- Harbour software, checkpoints, links and the package. -/
def harbour : List Bool :=
  let part := fun (f : Part → Part) => { State.reset with parts := [(0, f { Part.off with en := true, rsquota := 4096 })] }
  let sq : SubQ := { sqOf State.reset 0 0 with base := 0x1000, cap := 4096, en := true, xseq := 1, tail := 8, kseq := 1 }
  let queue := fun (q : SubQ) => part (fun p => { p with sq := [(0, q)] })
  let open_ : OpenFault := { seqn := 3, part := 0, core := 0, asid := 0, page := 1, wrt := false, fet := false }
  let im : CkptImage := { tag := 0, len := 0, pages := [], launches := [], lidCtr := 0, sq := [], revs := [] }
  let restored := { part (fun p => { p with lckpta := 0x40, lckptl := 0 }) with images := [im] }
  let quietPart := fun (n : DWord) => part (fun p => { p with ckBusy := true, lckptl := n })
  let port := fun (f : Port → Port) (g : Pkg → Pkg) => modPkg { State.reset with launches := [] } (fun p => g { p with ports := [(0, f { Port.off with up := true })] })
  let frame := fun (op rank : Nat) (pa : Nat) (aop : Nat) (bs : List Byte) =>
    ({ port := 0, head := [], etype := 0x88B5, bytes := natLe 1 1 ++ natLe 1 op ++ natLe 2 rank ++ natLe 2 0 ++ natLe 2 bs.length ++ natLe 4 0 ++ natLe 8 pa ++ natLe 4 aop ++ bs } : RxFrame)
  let window := port (fun p => p) (fun p => { p with rxmap := [(0, { RxMap.off with en := true, wr := true, lo := 1, hi := 1 })] })
  let asked := fun (s : State) (f : RxFrame) (op : Nat) => portReady s f && decide (f.etype = 0x88B5) && !malformed s f.bytes && decide (fSeq f.bytes = agetD 0 (fSrc f.bytes) (portOf s f.port).rxSeq)
    && decide (fOp f.bytes = op)
  let request := fun (op : BitVec 8) => port (fun p => p) (fun p => { p with remote :=
    [{ id := 0, sent := 0, ctx := none, lane := 0, parts := [], core := none, issuer := none, rank := 5, port := 0, seq := 0, op := op, pa := 0, width := 8, home := none, kept := none, answer := none }] })
  let answered := fun (op : Nat) (reqs : List Nat) (r : BitVec 8) => let f := frame op 5 0 0 []
    portReady (request r) f && decide (f.etype = 0x88B5) && !malformed (request r) f.bytes && decide (fOp f.bytes = op) && (requestOf (request r) f reqs).isSome
  let desc : BitVec 512 := BitVec.ofNat 512 (9 + 2 ^ 97 + 2 ^ 128)
  let coll := fun (n : Nat) => port (fun p => p) (fun p => { p with colls := [{ desc := desc, contrib := ((List.range n).map (fun k => (k, [(0, natLe 4 k)] |>.map (fun x => (x.1, 0#8))))) }] })
  let up := modPkg State.reset (fun p => { p with westUp := true })
  let core : AgentAccess := { core := 0, kind := .reserve, pa := 0x1000, width := 8, uncorrectable := false }
  let depdec := 2 ^ 8 * 9
  [ up.pkg.westUp && coreUp up 0 && !coreUp State.reset 0, !reservedNow up core && reservedNow { up with reserved := [(0, 0x1000, natLe 8 0)] } core,
    (let f := { frame 1 5 0 0 [] with etype := 0x800 }; portReady window f && decide (f.etype ≠ 0x88B5)), (let f := { frame 1 5 0 0 [] with bytes := [] }; portReady window f && malformed window f.bytes),
    (let f := frame 0 5 0 0 []; asked window f 0), (let s := modPort window 0 (fun p => { p with rxSeq := [(5, 1)] }); let f := frame 1 5 0 0 []; !malformed s f.bytes && decide ((1#32 - fSeq f.bytes).toNat < 2 ^ 31)),
    (let s := modPort window 0 (fun p => { p with rxSeq := [(5, 0xFFFFFFFF)] }); let f := frame 1 5 0 0 []; !malformed s f.bytes && decide ((0xFFFFFFFF#32 - fSeq f.bytes).toNat = 2 ^ 32 - 1)),
    !eventsWait State.reset && !State.reset.pkg.recovery,
    (let q := { sq with tail := 8 }; sqActive q && sqMatch { queue q with hbm := [(0x1004, 1)] } q && !quotaFull (queue q) 0), sqActive sq && !sqMatch (queue sq) sq && decide (sq.tries < 15),
    decide (15 ≤ ({ sq with tries := 15 } : SubQ).tries) && !sqMatch (queue sq) { sq with tries := 15 },
    (openFault (part (fun p => { p with openFaults := [open_] })) 0 3).isSome, !(partOf (part (fun p => p)) 0).tlbBusy && !(partOf (part (fun p => p)) 0).ckBusy,
    (partOf (part (fun p => { p with tlbBusy := true })) 0).tlbBusy, (partOf (part (fun p => { p with tlbNext := [(true, 1)] })) 0).tlbNext == [(true, 1)],
    quiet (quietPart 0) 0 && (partOf (quietPart 0) 0).ckBusy, (part (fun p => p)).images.isEmpty,
    (imagePages im.pages restored).isSome && (restored.images.find? (fun x => x.len == (partOf restored 0).lckptl.toNat % 2 ^ 48 && decide (cellsReadN restored.hbm (imageAddr (partOf restored 0)) x.len = ckptBytes x))).isSome,
    (let p : Part := { Part.off with lgp := 5, cols := 0, row := false }; !Part.off.en && bitAt (0xB#64) 0 && pdefLegal State.reset 0 p),
    paBacked 0 && paBacked (2 ^ 36 * 31 + 47999999999), !paBacked (2 ^ 41) && decide (2 ^ 41 < 2 ^ 41 + 2 ^ 36), !paBacked 48000000000 && decide (48000000000 < 2 ^ 41),
    [2 ^ 41 + 2 ^ 36, 2 ^ 42 - 1, 2 ^ 42, 2 ^ 43 - 1, 2 ^ 43, 2 ^ 51 - 1, 2 ^ 51, 2 ^ 52 - 1, 2 ^ 52].all (fun a => !paBacked a) && ([2 ^ 51, 2 ^ 52 - 1].all paRemote) && !paRemote (2 ^ 51 - 1) && !paRemote (2 ^ 52),
    asked window (frame 1 5 0x20000 0 [1]) 1 && !exported window 0x20000 1 true, asked window (frame 2 5 0x10000 0 [1, 16]) 2 && decide (4096 < fNat [1, 16] 0 2),
    asked window (frame 2 5 0x1FFF9 0 [8, 0]) 2 && !exported window 0x1FFF9 8 false, (let f := frame 4 5 0x10008 7 (natLe 4 1); asked window f 4 && (rmwOf f.bytes).isNone),
    (let f := frame 4 5 0x20000 0x100 (natLe 4 1); asked window f 4 && (match rmwOf f.bytes with | some (_, t) => !exported window 0x20000 (t.width / 8) true | none => false)),
    (let f := frame 4 5 0x10008 depdec []; asked window f 4 && decide (fPayload f.bytes = [] ∧ fRmw f.bytes = depdecRmw) && exported window 0x10008 8 true),
    eventsWait (modPkg State.reset (fun p => { p with events := [(4, 0, 0)] })), State.reset.pkg.recovery == false && (modPkg State.reset (fun p => { p with powered := true })).pkg.powered,
    descRefused State.reset 0, !descRefused State.reset desc,
    asked window (frame 1 5 0x10000 0 [1, 2]) 1 && exported window 0x10000 2 true, asked window (frame 2 5 0x1FFF8 0 [8, 0]) 2 && exported window 0x1FFF8 8 false,
    (let f := frame 4 5 0x10008 0x100 (natLe 4 1 ++ natLe 4 2); asked window f 4 && (match rmwOf f.bytes with | some (0, .n32) => exported window 0x10008 4 true | _ => false)),
    (let f := frame 7 1 9 0 [1, 2, 3, 4]; asked (coll 1) f 7 && (coll 1).pkg.colls.any (fun c => dCid c.desc == 9 && decide (dFrank c.desc ≤ 1 ∧ 1 < dFrank c.desc + dNmem c.desc))),
    answered 3 [2] 2, answered 5 [4] 4, answered 6 [1, 7] 1, answered 8 [1, 2, 4, 7] 7,
    (let t := port (fun p => { p with up := false, downSince := some 0 }) (fun p => p); !(portOf t 0).up && decide (0 + t.pkg.linkto * t.pkg.fclk ≤ 1400000)),
    (let s := modPkg State.reset (fun p => { p with westUp := true }); s.pkg.westUp && decide (s.pkg.rollback.toNat < (1#32).toNat)), decide (State.reset.pkg.scrubiv ≠ 0),
    (modPkg State.reset (fun p => { p with iommu := [(0x1000, 0x1FFF)] })).pkg.iommu.any (fun r => decide (r.1 ≤ 0x1FF8) && decide (0x1FF8 + 8 = r.2 + 1)) && paBacked 0x1FFF ]

theorem test_meets_harbour : harbour.all id = true := by decide +kernel

/-- The length of an image is a free value below 2^48 (log 23): the longest area takes it. What else rests on a free value has no witness: which
image a signature is good for. -/
theorem test_meets_longest_image (s : State) (part : Nat) : (takeImage s part).len ≤ 2 ^ 48 - 1 := by
  simp only [takeImage]
  omega

/-- Whichever two cores are disabled (log 22), some core number names a core. -/
theorem test_meets_core_number : ∃ c k, calCore c = some k := by
  have h : ∃ c, c < 3 ∧ c ≠ (Config.disabledCores 0).1 ∧ c ≠ (Config.disabledCores 0).2 := by
    generalize (Config.disabledCores 0).1 = a
    generalize (Config.disabledCores 0).2 = b
    by_cases h0 : 0 ≠ a ∧ 0 ≠ b
    · exact ⟨0, by omega, h0⟩
    · by_cases h1 : 1 ≠ a ∧ 1 ≠ b
      · exact ⟨1, by omega, h1⟩
      · exact ⟨2, by omega, by omega, by omega⟩
  obtain ⟨c, hc, ha, hb⟩ := h
  have hd : c / 22 = 0 := Nat.div_eq_of_lt (by omega)
  have hm : c % 22 = c := Nat.mod_eq_of_lt (by omega)
  exact ⟨c, Option.isSome_iff_exists.mp (by simp [calCore, Config.coreRank, Config.physCoresPerDie, hd, hm, ha, hb, show ¬ 22 ≤ c by omega])⟩

/-- `rft` passes only in a handler, `join` and `discard` with a handle, and these words name pigeonholes that are not bound: they pass above. -/
def elsewhere : Instr → Bool
  | .rft _ | .smov _ | .join _ | .discard _ | .qtrypop _ | .qtrypush _ | .qcount _ | .qmask _ | .qpeek _ | .bcast _ | .bget _ => true
  | _ => false
/-- Every other instruction of the words above, and a plain `smov`. -/
def runs : List (CtxKind × Nat × Instr) := [(.pilot, 0, .smov (fP 5 1 0))] ++ (wordsVv1 ++ wordsVv2 ++ wordsVv3 ++ wordsVv4 ++ wordsVi1 ++ wordsVi2 ++ wordsVx ++ wordsM ++ wordsE1 ++ wordsE2 ++ wordsP1 ++ wordsP2
  ++ wordsB1 ++ wordsB2 ++ wordsQ1 ++ wordsQ2 ++ wordsX).filter (fun x => !elsewhere x.2.2)
def whoOf : CtxKind → Who
  | .crew => .crew 0
  | .pilot => .pilot
def clear (g : WG) : WG := { g with crews := g.crews.map (fun c => { c with preds := [0, 0, 0, 0, 0, 0, 0, 0] }), pilot := { g.pilot with cbits := 0xFF } }

/-- Every one passes its checks with the operands its word names, its guard's predicate or c-bit set, or clear. -/
theorem test_goes : runs.all (fun x => goes x.2.2 (onCore (whoOf x.1) (wg [] [])) (fun _ => true) || goes x.2.2 (onCore (whoOf x.1) (clear (wg [] []))) (fun _ => true)) = true := by
  decide +kernel

/-- The checks of decode, in the order of R75, and frames. -/
def checks : List Bool :=
  let g := wg [(9, [1, 2]), (10, [3, 4])] [(1, 7), (2, 2)]
  let s := crewAt g
  let vv : FormVV := ⟨plain, 6, 9, 10, 0, .i32, 0, .rne, false, false, .i32, 0, 0⟩
  let issues := fun (s : State) (p : WG → Ctx → FEntry → Bool) => (wgOf s s.cur.berth).any (fun g => (ctxIn g s.cur.who).any (fun c => (headFor s s.cur g).any (fun h =>
    !c.ended && c.blocked.isNone && c.taking.isNone && mayIssue s s.cur g && c.upsets.isEmpty && c.pend.isEmpty && p g c h)))
  let plainOp := fun (k : CtxKind) (r : Role) (code : Nat) => decide (r ≠ .qname) && (match k with
    | .pilot => decide (code < 64)
    | .crew => decide (code + max 1 (roleSpan r) ≤ 224) && (!r.isReg || code % roleSpan r == 0))
  let allPlain := fun (k : CtxKind) (i : Instr) => (fieldsOf i).any (fun f => let u := useOf k i
    plainOp k u.dst f.dst.toNat && plainOp k u.a f.sa.toNat && plainOp k u.b f.sb.toNat && plainOp k u.c f.sc.toNat)
  let legal := fun (i : Instr) (g : WG) (c : Ctx) (k : CtxKind) => i.wfFor k && !privileged i && !fieldIllegal k g c i && allPlain k i
  let room := fun (g : WG) => (List.range 4).all (fun b => decide (bankUse g b + 1 ≤ 2 * hRegs g.hdr))
  let acts := fun (i : Instr) (s : State) (g : WG) (h : FEntry) => (fieldsOf i).any (fun f => decide (activeFor s.cur g h f.pre ≠ 0))
  let full : WG := { g with hdr := BitVec.ofNat 1024 0, binds := [] }
  let spent := fun (i : Instr) (g : WG) => (fieldsOf i).any (fun f => (crewOf g 0).any (fun x => let u := useOf .crew i
    !budgetOk g x (freedNames u f (roleNames .crew u.dst f.dst.toNat)) (roleNames .crew u.dst f.dst.toNat)))
  let lone := fun (e : Env) => (popList e.u e.f).isEmpty && (pushName e.u e.f).isNone && (ctxIn e.g e.id.who).any (fun c => c.copied.isNone && !c.granted && c.divided.isNone)
  let onward := fun (e : Env) => match e.id.who with | .crew n => (crewOf e.g n).any (fun c => stepsInPlace c e.head) | .pilot => true
  let handlers := { g with tvec := 8, ptvec := 0x10004 }
  [ issues s (fun g c h => legal (.add vv) g c .crew && acts (.add vv) s g h && room g && c.copied.isNone && (fieldsOf (.add vv)).any (fun f => !markBad (useOf .crew (.add vv)) f && !valueIllegal s s.cur g (.add vv) (useOf .crew (.add vv)) f h)), issues (pilotAt g) (fun g c _ => legal (.sadd (fP 63 1 2)) g c .pilot),
    issues s (fun _ _ _ => illegalReason .crew (.add { vv with ty := .i4 }) == some 4),
    issues (pilotAt g) (fun _ _ _ => privileged (.sysrd (fX 5 0 0xFFF)) && (illegalReason .pilot (.sysrd (fX 5 0 0xFFF))).isNone),
    issues s (fun _ _ _ => dstBad .crew .word 224 && (illegalReason .crew (.add { vv with dst := 224 })).isNone && !privileged (.add { vv with dst := 224 })),
    issues s (fun _ _ _ => let y := { vv with dst := 3, sa := 240, pre := { plain with lr := 1 } }; (illegalReason .crew (.add y)).isNone && (fieldsOf (.add y)).any (fun f => markBad (useOf .crew (.add y)) f)),
    issues (crewAt full) (fun g c _ => fieldIllegal .crew g c (.bsync (fB 0 0xF))),
    issues s (fun g _ _ => (fieldsOf (.mov { vv with sa := 245, sb := 0 })).any (fun f => decide (misuseOf s s.cur g (.mov { vv with sa := 245, sb := 0 }) (useOf .crew (.mov { vv with sa := 245, sb := 0 })) f = some (1, 5)))),
    issues (crewAt full) (fun g c h => legal (.add vv) g c .crew && acts (.add vv) s g h && spent (.add vv) g),
    issues (pilotAt g) (fun g _ h => let i : Instr := .join { fE 5 14 0 0 .i32 0 0 with tv := false }
      (illegalReason .pilot i).isNone && (fieldsOf i).any (fun f => valueIllegal (pilotAt g) ⟨0, .pilot⟩ g i (useOf .pilot i) f h)),
    (let t := { s with engTiles := [0] }; issues t (fun g c h => let y := { vv with sa := 243, sb := 0 }
      (fieldsOf (.mov y)).any (fun f => let u := useOf .crew (.mov y)
        (misuseOf t t.cur g (.mov y) u f).isSome || ((agentMisuse t g (agentUses g c .crew (.mov y) u f) []).isSome && decide (activeFor t.cur g h f.pre ≠ 0))))),
    issues s (fun _ c _ => !unwritten c), (let t := crewAt { g with tvec := 5 }; issues t (fun g _ _ => decide (g.tvec ≠ 0) && !cixValid g.tvec.toNat)),
    (let t := pilotAt { g with ptvec := 5 }; issues t (fun g _ _ => decide (g.ptvec ≠ 0) && !pcValid g.ptvec.toNat)),
    (ctxIn (modCtxIn g (.crew 0) (fun x => { x with pend := [⟨some 0, Result.none, some 3⟩] })) (.crew 0)).any unwritten,
    (let t := crewAt handlers; issues t (fun g c _ => !alwaysHarbour 0x18 && c.handler.isNone && decide (g.tvec ≠ 0) && cixValid g.tvec.toNat)),
    (let t := pilotAt handlers; issues t (fun g c _ => !alwaysHarbour 0x18 && c.handler.isNone && decide (g.ptvec ≠ 0) && pcValid g.ptvec.toNat)),
    alwaysHarbour 0x17, issues s (fun g _ _ => decide (g.tvec = 0)), issues (pilotAt g) (fun g _ _ => decide (g.ptvec = 0)),
    goes (.add vv) s (fun e => isVector (.add vv) && lone e && onward e), goes (.and vv) s (fun e => isVector (.and vv) && isExact (.and vv) && lone e && onward e),
    goes (.sadd (fP 5 1 2)) (pilotAt g) (fun e => isScalar (.sadd (fP 5 1 2)) && lone e),
    (let i : Instr := .sadd { fP 5 1 2 with pre := { plain with gneg := true } }; issues (pilotAt g) (fun g c _ => legal i g c .pilot && cbitOf g.pilot 0)),
    goes (.ld (fM 5 9 0 0 .i32 true 0)) (crewAt (wg [(9, [4, 8])] [])) (fun e => lone e && onward e
      && (match checkAccess e.s e.id e.g true (e.lanes.map (fun l => (l, (e.av l : Int) + 0 + 0))) 4 true false with | .ok _ => true | _ => false)),
    (let reach := fun (e : Env) => match checkAccess e.s e.id e.g true (lanesLeft e.s e.id (e.lanes.map (fun l => (l, (e.av l : Int) + 0 + 0)))) 4 true true with | .ok _ => true | _ => false
     let h := wg [(9, [4, 8]), (10, [1, 2])] []
     goes (.atom (fM 5 9 10 0 .i32 true 0)) (crewAt h) (fun e => lone e && onward e && !isIdem e.g && reach e) && goes (.cas (fM 5 9 10 10 .i32 true 0)) (crewAt (inMode 4 h)) (fun e => lone e && onward e && isDet e.g && reach e)),
    (let h := crewAt (wg [(2, [0x2000, 0x2000]), (4, [7, 7])] [])
     let t := { h with quay := h.quay ++ [(0x2000, 64), (0x2003, 4)] }
     goes (.hacc (fM 9 2 4 4 .i32 true 0x01000000)) t (fun e =>
      let ps := (e.lanes.map (fun l => (l, (e.av l : Int) + 0 + 0))).map (placed e.s e.id.berth e.g true 64)
      let d := descAt e.s 0x2000
      lone e && onward e && !isIdem e.g && !isDup e.g && ps.all (fun p => (match p.place with | .ok (.quay k) => k == 0x2000 | _ => false)) && !locBad e.s (.quay 0x2000)
        && [ChainMode.now, ChainMode.stage].all (fun m => match hashRun e 1 .i32 m (ps.map (fun p => (p.lane, 0x2000))) e.s with | .ok _ _ _ => true | .stop _ => false)
        && !tOvm d && decide (0x2000 + 64 ≤ offKey 0x2000 (tToff d)))),
    goes (.mxpack ⟨plain, 7, 9, 0, 0, .e4m3, 1, .rne, false, false, .f32, 0, 9⟩) s (fun _ => true),
    clsIA .i8, clsIA .n64 ]

theorem test_meets_checks : checks.all id = true := by decide +kernel

/-- Lines and steps: a placed word fetched from its line, one that does not decode, and the line read from memory. -/
def stepped : List Bool :=
  let good := encode (.sli ⟨plain, 1, 0, 0, 0, false, false, 0, 5⟩)
  let s0 := fun (w : BitVec 96) => placeFetch State.reset w
  let s1 := fun (w : BitVec 96) => let s := { s0 w with plan := [] }; { modCore s 0 (markIssue s ⟨0, demoWho w⟩) with cur := ⟨0, demoWho w⟩ }
  let id_ := fun (w : BitVec 96) => (⟨0, demoWho w⟩ : CtxId)
  let fetched := fun (w : BitVec 96) (decodes : Bool) => (wgOf (s1 w) 0).any (fun g => (headFor (s1 w) (id_ w) g).any (fun h =>
    !trapReady (s1 w) (id_ w) && ctxEligible (s1 w) (id_ w) && !inLine g h (demoWho w) && (match enterLine (s1 w) (id_ w) g h 0 with
      | .ok t => (wgOf t 0).any (fun g' => (ctxIn g' (demoWho w)).any (fun c => c.line.any (fun l => !waitsFor c l.bits && !breakHit (setWg t 0 g') (id_ w) g' h
          && (ok (decodeSlot (whoKind (demoWho w)) (lineSlot l.bits (slotOf g' h (demoWho w)))) == decodes))))
      | .error _ => false)))
  let memory := fun (w : BitVec 96) => (wgOf (s1 w) 0).any (fun g => (headFor (s1 w) (id_ w) g).any (fun h =>
    let va := lineOf g h (demoWho w)
    let b := BitVec.ofNat 512 (leNat (cellsReadN (s1 w).hbm 0x10000 64))
    ((coreOf (s1 w) 0).icache.find? (fun x => x.asid == asidOf g && x.addr.toNat == va)).isNone && isGlobal va && (match translate (s1 w) 0 (asidOf g) va false true with
      | some (leaf, pa) => pa == 0x10000 && !eRb leaf && decide (viewLoc (s1 w) (viewOf (s1 w) g) va pa = .hbm pa) && !locBad (s1 w) (.hbm pa)
      | none => false) && lineParity b && (lineReason b).isNone && lineTgt b (slotOf g h (demoWho w))))
  let runsTo := fun (w : BitVec 96) => match step (State.withFetchWord State.reset 96 w.toNat) with
    | .next t => decide (Memory.wf t.hbm = true) && (wgOf t 0).any (fun g => g.pilot.sregs.getD 1 0 == 5)
    | _ => false
  let masked : BitVec 512 := BitVec.ofNat 512 (2 ^ 10)
  let owes := fun (w : Option Nat) (n : Nat) => modCtxIn (wg [] []) (.crew 0) (fun x => { x with pend := [⟨some 0, Result.none, w⟩], flags := x.flags.set 0 n })
  let cleared := fun (g : WG) (want : Bool) => (ctxIn (settleWait g (.crew 0) masked) (.crew 0)).any (fun d => waitsFor d masked == !want)
  [fetched good true, fetched 0x9FF false, cleared (owes none 1) true, cleared (owes (some 3) 1) false, fetched nopWord true, memory good, runsTo good, decide (Memory.wf (s0 good).hbm = true ∧ Memory.wf (s0 good).quay = true)]

theorem test_meets_steps : stepped.all id = true := by decide +kernel

/-- A line whose slot 0 and 1 form a pair of formats 8, one with a reserved landing code, and one with reserved header bits, are illegal for their reasons. -/
theorem test_illegal_lines : lineReason (BitVec.ofNat 512 (2 ^ 30)) = some 1 ∧ lineReason (BitVec.ofNat 512 (12 * 2 ^ 22)) = some 2 := by decide +kernel

end Sys2Proof.Tests
end

section
namespace Sys2Proof
open Machine

/-! ### Fetching a line -/

/-- The translations that a fetch leaves in a TLB change no workgroup. -/
@[simp] theorem wgOf_tlbFill (s : State) (core asid va b : Nat) : wgOf (tlbFill s core asid va) b = wgOf s b := by
  dsimp only [tlbFill, missFill]
  split <;> rfl

/-- Filling the instruction caches of a die changes no workgroup. -/
@[simp] theorem wgOf_multicastLine (s : State) (core va b : Nat) (g : WG) (l : BitVec 512) :
    wgOf (multicastLine s core g va l) b = wgOf s b := by
  dsimp only [multicastLine]
  generalize (List.map (fun x : Nat × WG => berthCore x.1) _).eraseDups = cores
  induction cores generalizing s with
  | nil => rfl
  | cons k ks ih => exact (ih _).trans (wgOf_modCore ..)

/-- Reading a line from memory changes no workgroup. -/
theorem wgOf_lineMemory {s t : State} {id : CtxId} {g : WG} {h : FEntry} {va k : Nat} {l : BitVec 512}
    (e : lineMemory s id g h va k = .bits l t) (b : Nat) : wgOf t b = wgOf s b := by
  unfold lineMemory at e
  dsimp only at e
  split at e
  · cases e
  · split at e
    · cases e
    · split at e
      · split at e
        · cases e; exact wgOf_dropRemote ..
        · cases e
        · split at e <;> cases e
      · split at e
        · cases e
        · split at e
          · cases e
          · cases e; exact wgOf_tlbFill ..

/-- The second fetch of a line whose parity failed, for this core alone (R62). -/
def refetched (s : State) (id : CtxId) (g : WG) (h : FEntry) (va : Nat) : LineGet :=
  match lineMemory s id g h va 1 with
  | .stop t => .stop t
  | .bits b t => if lineParity b then .bits b (modCore t (berthCore id.berth) (cacheLine (asidOf g) va b)) else .stop (trapHere t id (mkTrap 0x04 va h.mask))

theorem refetched_bits {s t : State} {id : CtxId} {g : WG} {h : FEntry} {va : Nat} {l : BitVec 512}
    (e : refetched s id g h va = .bits l t) : lineParity l = true ∧ ∀ b, wgOf t b = wgOf s b := by
  unfold refetched at e
  split at e
  · cases e
  · rename_i hm
    split at e
    · rename_i hp
      cases e
      exact ⟨hp, fun b => (wgOf_modCore ..).trans (wgOf_lineMemory hm b)⟩
    · cases e

/-- A line that arrives has good parity, and its arrival changes no workgroup. -/
theorem arriveLine_bits {s t : State} {id : CtxId} {g : WG} {h : FEntry} {va : Nat} {flip l : BitVec 512}
    (e : arriveLine s id g h va flip = .bits l t) : lineParity l = true ∧ ∀ b, wgOf t b = wgOf s b := by
  unfold arriveLine at e
  dsimp only at e
  split at e
  · exact refetched_bits e
  · split at e
    · split at e
      · rename_i hp; cases e; exact ⟨hp, fun _ => rfl⟩
      · exact refetched_bits e
    · split at e
      · cases e
      · rename_i l' u hm
        have hw : ∀ b, wgOf (multicastLine u (berthCore id.berth) g va l') b = wgOf s b :=
          fun b => (wgOf_multicastLine ..).trans (wgOf_lineMemory hm b)
        split at e
        · rename_i hp; cases e; exact ⟨hp, fun b => (wgOf_modCore ..).trans (hw b)⟩
        · obtain ⟨hp, hu⟩ := refetched_bits e
          exact ⟨hp, fun b => (hu b).trans (hw b)⟩

/-- A context stays when the landing of its workgroup has been checked. -/
theorem ctxIn_landed (g : WG) (h : FEntry) (w : Who) : ctxIn (landed g h w) w = ctxIn g w := by
  cases w with
  | pilot => rfl
  | crew n => simp [landed, Function.comp_def]

/-- A context that has entered a line is in the one that has arrived, at the address it is at; its word is legal (R63, R64). -/
theorem enterLine_ok {s t : State} {id : CtxId} {g g₀ : WG} {h : FEntry} {flip : BitVec 512} {x : Ctx} (hg : wgOf s id.berth = some g₀)
    (hx : ctxIn g₀ id.who = some x) (e : enterLine s id g h flip = .ok t) :
    ∃ l u y, arriveLine s id g h (lineOf g h id.who) flip = .bits l u ∧ lineReason l = none ∧ ctxOf t id = some y ∧
      y.line = some ⟨BitVec.ofNat 64 (lineOf g h id.who), l⟩ := by
  unfold enterLine at e
  dsimp only at e
  split at e
  · cases e
  · rename_i l u ha
    have hu : wgOf u id.berth = some g₀ := ((arriveLine_bits ha).2 _).trans hg
    refine ⟨l, u, { x with line := some ⟨BitVec.ofNat 64 (lineOf g h id.who), l⟩ }, ha, ?_⟩
    split at e
    · cases e
    · rename_i hr
      split at e
      · split at e
        · cases e; exact ⟨hr, by simp [ctxOf, hu, ctxIn_modCtxIn, ctxIn_landed, hx], rfl⟩
        · cases e
      · cases e; exact ⟨hr, by simp [ctxOf, modCtx, hu, ctxIn_modCtxIn, hx], rfl⟩

/-! ### Contexts that are held -/

/-- A context held for a reason goes on where the test admits that reason. -/
theorem unblockIf_freed {s : State} {c : CtxId} {g : WG} {x : Ctx} {r : Block} {test : Block → Bool} (hg : wgOf s c.berth = some g)
    (hx : ctxIn g c.who = some x) (hb : x.blocked = some r) (ht : test r = true) : unblockIf s c test = freed s c :=
  modCtx_eq hg hx _ _ (by simp [hb, ht])

/-- The result at a position that waits for no release is written, and leaves its flag (R23). -/
theorem commitAt_ready {g : WG} {w : Who} {x : Ctx} {k : Nat} {p : PendWrite} (hx : ctxIn g w = some x) (hp : x.pend[k]? = some p)
    (hr : p.waits = none) : commitAt g w k = modCtxIn (applyResult g w p.res) w (fun y =>
      { y with pend := y.pend.eraseIdx k, flags := p.flag.elim y.flags (fun f => y.flags.modify f (fun n => n - 1)) }) := by
  simp only [commitAt, hx, Option.bind_some, hp, hr, Option.isSome_none, Bool.false_eq_true, if_false]
  cases p.flag <;> rfl

/-- Settles O28: a line's arrival by what `enterLine` leaves; the other events by the one change each makes to its context. -/
theorem contextEvents : Obligations.ContextEvents := by
  intro s c g x hg hx
  have hc : ctxOf s c = some x := by simp [ctxOf, hg, hx]
  refine ⟨fun flip h t hh he hd hl ht => ⟨?_, ?_⟩, fun k p hp hw => ?_, fun hb => ?_, fun n hb hn => ?_, fun k hb hf => ?_, fun hb => ?_⟩
  · show execLineFetch c flip s = _
    simp [execLineFetch, hg, hh, he, hd, hl, ht]
  · obtain ⟨l, u, y, ha, hr, hy, hyl⟩ := enterLine_ok hg hx ht
    exact ⟨y, _, hy, hyl, rfl, (arriveLine_bits ha).1, hr⟩
  · show execResultWrite c k s = _
    simp only [execResultWrite, modWg, hg]
    rw [commitAt_ready hx hp hw]
    cases p.flag <;> rfl
  · show execAwaitReevaluation c s = _
    rw [execAwaitReevaluation, unblockIf_freed hg hx hb (by simp)]
  · show execPopRequest c s = _
    have : popServed s c = unblockIf s c (fun r => decide (r = .pop n)) := by
      simp only [popServed, hg, hx, Option.bind_some, hb]
    rw [execPopRequest, this, unblockIf_freed hg hx hb (by simp)]
  · show execCommandAcceptance c s = _
    have : acceptAgain s c = unblockIf s c (fun r => decide (r = .accept k)) := by
      simp [acceptAgain, hc, hb, hf]
    rw [execCommandAcceptance, this, unblockIf_freed hg hx hb (by simp)]
  · show execCommandAcceptance c s = _
    have : acceptAgain s c = unblockIf s c (fun r => decide (r = .tapUnit)) := by
      simp [acceptAgain, hc, hb]
    rw [execCommandAcceptance, this, unblockIf_freed hg hx hb (by simp)]

end Sys2Proof
end

section
namespace Sys2Proof
open Machine

/-! ### A context's turn -/

/-- The slot of a context in its line whose results are written and whose breakpoint does not trap comes to the instruction that its word decodes to. -/
theorem turnSlot_run {s : State} {id : CtxId} {g k : WG} {h : FEntry} {line : BitVec 512} {d : Ctx} {i : Instr} (hk : settleWait g id.who line = k)
    (hd : ctxIn k id.who = some d) (hw : waitsFor d line = false)
    (hb : breakHit (setWg s id.berth k) id k h = false ∨ d.bpPass = true ∨ midway d = true)
    (hi : decodeSlot (whoKind id.who) (lineSlot line (slotOf k h id.who)) = .ok i) :
    turnSlot s id g h line = .run (setWg s id.berth k) i := by
  subst hk
  have hb' : (breakHit (setWg s id.berth (settleWait g id.who line)) id (settleWait g id.who line) h && !d.bpPass && !midway d) = false := by
    rcases hb with hb | hb | hb <;> simp [hb]
  simp [turnSlot, hd, hw, hb', hi]

/-- A slot whose word is no instruction traps with the reason (R74). -/
theorem turnSlot_illegal {s : State} {id : CtxId} {g k : WG} {h : FEntry} {line : BitVec 512} {d : Ctx} {r : Nat} (hk : settleWait g id.who line = k)
    (hd : ctxIn k id.who = some d) (hw : waitsFor d line = false)
    (hb : breakHit (setWg s id.berth k) id k h = false ∨ d.bpPass = true ∨ midway d = true)
    (hi : decodeSlot (whoKind id.who) (lineSlot line (slotOf k h id.who)) = .error r) :
    turnSlot s id g h line = .done (trapHere (setWg s id.berth k) id (mkTrap 0x01 (r + 16 * slotOf k h id.who) h.mask)) := by
  subst hk
  have hb' : (breakHit (setWg s id.berth (settleWait g id.who line)) id (settleWait g id.who line) h && !d.bpPass && !midway d) = false := by
    rcases hb with hb | hb | hb <;> simp [hb]
  simp [turnSlot, hd, hw, hb', hi]

/-- The turn of a context with no trap to take, that is in its line or enters it, is the turn of its slot (R64, R392). -/
theorem turn_slot {s t : State} {id : CtxId} {g g' : WG} {h : FEntry} {c : Ctx} {l : LineBuf} (hg : wgOf s id.berth = some g)
    (ht : trapReady s id = false) (he : ctxEligible s id = true) (hh : headFor s id g = some h)
    (hl : (inLine g h id.who = true ∧ t = s) ∨ (inLine g h id.who = false ∧ enterLine s id g h 0 = .ok t))
    (hg' : wgOf t id.berth = some g') (hc : ctxIn g' id.who = some c) (hcl : c.line = some l) (s₀ : State) (hs : { s₀ with cur := id } = s) :
    turn s₀ id = turnSlot t id g' h l.bits := by
  unfold turn
  rw [hs]
  simp only [hg, ht, Bool.false_eq_true, if_false, he, Bool.not_true, hh]
  rcases hl with ⟨hin, rfl⟩ | ⟨hin, hen⟩
  · obtain rfl : g = g' := Option.some.inj (hg.symm.trans hg')
    simp only [hin, if_true, hc, hcl, Option.bind_some]
  · simp only [hin, Bool.false_eq_true, if_false, hen, hg', hc, hcl, Option.bind_some]

/-- A step makes of an action what follows it: the save areas keep in step, and time passes (log 3). -/
def followed (old : State) : Out → Out
  | .next t => .next (afterAct old t)
  | .fault f => .fault f
  | .refused r => .refused r

/-- A step whose choice is a context's turn (R315). -/
theorem step_issue {s : State} {id : CtxId} {rest : List Choice} (hp : s.plan = .issue id :: rest) :
    step s = followed s (issueTurn { s with plan := rest } id) := by
  simp only [step, act, nextChoice, hp, perform]
  cases issueTurn { s with plan := rest } id <;> rfl

/-- What a turn comes to: the state it ends in, or the instruction that acts. -/
def turned : Turn → Out
  | .done t => .next t
  | .run t i => exec i t

/-- The turn of a context without a trap to take, the port's pointer moved (R315). -/
theorem issueTurn_of_turn {s : State} {id : CtxId} (ht : trapReady s id = false) :
    issueTurn s id = turned (turn (modCore s (berthCore id.berth) (markIssue s id)) id) := by
  simp only [issueTurn, ht, Bool.false_eq_true, if_false]
  cases turn (modCore s (berthCore id.berth) (markIssue s id)) id <;> rfl

/-- A line of HBM that no error marks is its 64 bytes (R59). -/
theorem lineMemory_hbm {s : State} {id : CtxId} {g : WG} {h : FEntry} {leaf : DWord} {va pa k : Nat} (hv : isGlobal va = true)
    (ht : translate s (berthCore id.berth) (asidOf g) va false true = some (leaf, pa)) (hl : viewLoc s (viewOf s g) va pa = .hbm pa)
    (hr : eRb leaf = false) (hb : locBad s (.hbm pa) = false) :
    lineMemory s id g h va k =
      .bits (BitVec.ofNat 512 (leNat (cellsReadN s.hbm pa 64))) (tlbFill s (berthCore id.berth) (asidOf g) va) := by
  simp [lineMemory, hv, ht, hl, hr, hb, locRead]

/-- A line that memory gives for the first time arrives where its parity is good and the instruction cache has none (R62). -/
theorem arriveLine_memory {s t : State} {id : CtxId} {g : WG} {h : FEntry} {va : Nat} {l : BitVec 512}
    (hm : lineMemory s id g h va 0 = .bits l t) (hs : remoteSent s id 1 = false)
    (hi : (coreOf s (berthCore id.berth)).icache.find? (fun x => x.asid == asidOf g && x.addr.toNat == va) = none) (hp : lineParity l = true) :
    ∃ u, arriveLine s id g h va 0 = .bits l u := by
  have hx : l ^^^ (0 : BitVec 512) = l := BitVec.xor_zero
  simp only [arriveLine, hs, Bool.false_eq_true, if_false, hi, hm, hx, hp, if_true]
  exact ⟨_, rfl⟩

/-- A context enters a legal line that arrives, where a landing finds its target bit (R64, R65). -/
theorem enterLine_arrived {s t : State} {id : CtxId} {g : WG} {h : FEntry} {flip l : BitVec 512}
    (ha : arriveLine s id g h (lineOf g h id.who) flip = .bits l t) (hr : lineReason l = none)
    (hl : ∀ d, landingOf g h id.who = some d → lineTgt l (slotOf g h id.who) = true) : ∃ u, enterLine s id g h flip = .ok u := by
  cases hd : landingOf g h id.who with
  | none => simp only [enterLine, ha, hr, hd]; exact ⟨_, rfl⟩
  | some d => simp only [enterLine, ha, hr, hd, hl d hd, if_true]; exact ⟨_, rfl⟩

/-- Settles O57: the step is the turn of the context, that turn its slot's; a line from memory is entered as it arrives. -/
theorem stepRunsDecoded : Obligations.StepRunsDecoded := by
  refine ⟨fun s t id rest g g' h c d l hp => ?_, fun s id g h leaf pa hg => ?_⟩
  · intro s0 s1 k u word hwg htr htr1 hel hh hline hg' hc hcl hd hw hb
    have hturn := turn_slot (s := s1) hwg htr1 hel hh hline hg' hc hcl _ rfl
    have hstep : step s = followed s (turned (turnSlot t id g' h l.bits)) := by
      rw [step_issue hp, issueTurn_of_turn htr, hturn]
    refine ⟨fun i hi => ?_, fun r hr => ?_⟩
    · rw [hstep, turnSlot_run rfl hd hw hb hi]
      show followed s (exec i u) = _
      cases exec i u <;> rfl
    · rw [hstep, turnSlot_illegal rfl hd hw hb hr]
      rfl
  · intro va b hi hv ht hl hr hb hp hlr hs hland hx
    obtain ⟨x, hx⟩ := Option.isSome_iff_exists.mp hx
    obtain ⟨t, ha⟩ := arriveLine_memory (lineMemory_hbm (h := h) (k := 0) hv ht hl hr hb) hs hi hp
    obtain ⟨u, hu⟩ := enterLine_arrived ha hlr hland
    obtain ⟨l, t', c, ha', -, hc, hcl⟩ := enterLine_ok hg hx hu
    obtain ⟨rfl, -⟩ := LineGet.bits.inj (ha.symm.trans ha')
    obtain ⟨g', hg', hc⟩ := Option.bind_eq_some_iff.mp hc
    exact ⟨u, g', c, hu, hg', hc, hcl⟩

end Sys2Proof
end

section
namespace Sys2Proof
open Machine

/-! ### Reset and placement -/

/-- A list that holds one value everywhere reads as that value, beyond its end too. -/
theorem tabulate_const_getD {α : Type} (n k : Nat) (d : α) : (tabulate n (fun _ => d)).getD k d = d := by
  rw [tabulate_getD, ite_self]

/-- A register of a submission queue after reset (R303). -/
theorem sqReg_reset (k : Nat) : sqReg SubQ.off k = if k = 4 then 2 ^ 32 else 0 := by
  unfold sqReg
  split <;> simp_all [SubQ.off]

/-- A register of a partition block after reset (R303, R422). -/
theorem partRead_reset (p o : Nat) (ho : o % 8 = 0) : partRead State.reset p o =
    if o = 0x008 then 2000 else if o = 0x010 then 4096 else if 0x1000 ≤ o ∧ o < 0x1800 ∧ o % 0x40 = 0x20 then 2 ^ 32 else 0 := by
  have hq : partOf State.reset p = Part.off := rfl
  have hs : ∀ n, sqOf State.reset p n = SubQ.off := fun _ => rfl
  have hd : ∀ k, Part.off.dbg.getD k Breakpoint.off = Breakpoint.off := fun k => tabulate_const_getD 4 k Breakpoint.off
  simp only [partRead, hq, hs, hd, sqReg_reset]
  by_cases h1 : 0x1000 ≤ o
  · have h8 : o ≠ 0x008 := by omega
    have h10 : o ≠ 0x010 := by omega
    simp only [h1, if_true, h8, h10, if_false, true_and]
    by_cases h2 : o < 0x1800
    · have h3 : (o - 0x1000) / 0x40 < 32 := by omega
      have h4 : o % 0x40 / 8 = 4 ↔ o % 0x40 = 0x20 := by omega
      simp only [h2, h3, h4, if_true, true_and]
    · have h3 : ¬ (o - 0x1000) / 0x40 < 32 := by omega
      simp only [h2, h3, if_false, false_and]
  · simp only [h1, if_false, false_and]
    split
    · rename_i h4
      simp only [Bool.and_eq_true, decide_eq_true_eq] at h4
      have h8 : o ≠ 0x008 := by omega
      have h10 : o ≠ 0x010 := by omega
      simp [h8, h10, Breakpoint.off]
    · split <;> simp_all [Part.off, Ring.off, ringReg]

/-- A register of an address-space block after reset (R422). -/
theorem spaceRead_reset (a o : Nat) : spaceRead State.reset a o = 0 := by
  have hx : spaceOf State.reset a = ASpace.off := rfl
  simp only [spaceRead, hx]
  split <;> rfl

/-- The calibration register of an array after reset (R355, R422). -/
theorem calRead_reset (c : Nat) : calRead State.reset c = 0 := by
  unfold calRead
  split <;> rfl

/-- A harbour register outside the partition blocks after reset (R420 to R422). -/
theorem regRead_reset_package (off : Nat) (h : ¬ (0x100000 ≤ off / 8 * 8 ∧ off / 8 * 8 < 0x300000)) : regRead State.reset off =
    if off / 8 * 8 = 0 then 16000 + 2 ^ 32 * 1400 else if off / 8 * 8 = 0x10 then 1000 else if off / 8 * 8 = 0x18 then 86400 else 0 := by
  have hport : ∀ j, (portOf State.reset j).bad = 0 := fun _ => rfl
  have hmap : ∀ k, rxmapOf State.reset k = RxMap.off := fun _ => rfl
  have hhull : ∀ d, hullOf State.reset d = Hull.off := fun _ => rfl
  simp only [regRead, spaceRead_reset, calRead_reset, hport, hmap, hhull]
  generalize off / 8 * 8 = o at h
  by_cases h1 : o < 0x100
  · have h2 : ¬ 0x1000000 ≤ o ∧ ¬ 0x100000 ≤ o ∧ ¬ 0x2200 ≤ o ∧ ¬ 0x2000 ≤ o ∧ ¬ 0x400 ≤ o ∧ ¬ 0x100 ≤ o := by omega
    simp only [h2, if_false]
    split <;> simp_all [State.reset, Pkg.reset]
  · have h2 : o ≠ 0 ∧ o ≠ 0x10 ∧ o ≠ 0x18 ∧ 0x100 ≤ o := by omega
    have h3 : 0x100000 ≤ o → ¬ o < 0x300000 := fun ha hb => h ⟨ha, hb⟩
    simp only [h2, if_false, if_true, ite_self, RxMap.off, Hull.off, Bool.toNat_false]
    split
    · rfl
    · split
      · rename_i ha; rw [if_neg (h3 ha)]
      · simp

/-- A harbour register of a partition block after reset. -/
theorem regRead_partition {off : Nat} (h1 : 0x100000 ≤ off / 8 * 8) (h2 : off / 8 * 8 < 0x300000) :
    regRead State.reset off = partRead State.reset ((off / 8 * 8 - 0x100000) / 0x10000) ((off / 8 * 8 - 0x100000) % 0x10000) := by
  have hp : (off / 8 * 8 - 0x100000) % 0x10000 = off / 8 * 8 % 0x10000 := by omega
  have h3 : ¬ 0x1000000 ≤ off / 8 * 8 := by omega
  simp only [regRead, h1, h2, h3, hp, if_true, if_false]

/-- A crew at its entry (R10, R14, R20, R21, R56). -/
theorem startCrew_values (h : BitVec 1024) (n : Nat) :
    let c := startCrew h n
    c.fpx = 0 ∧ (∀ l, laneWord c.draw l = 0) ∧ (∀ k, k ≠ 0 → predOf c k = 0) ∧ (∀ k, regWords c k = []) ∧ (∀ k, latchOk c k = false) ∧
      c.ctx.handler = none ∧ c.frontier = [{ cix := 8, mask := hLaneMask h n, park := none }] := by
  refine ⟨rfl, fun _ => rfl, fun k hk => ?_, fun _ => rfl, fun k => ?_, rfl, rfl⟩
  · rw [predOf, if_neg hk]
    exact tabulate_const_getD 8 k 0
  · have hage : (latchesEmpty[k]?).bind (fun l => l.age) = none := by
      rcases k with _ | _ | _ | k <;> rfl
    simp only [latchOk, startCrew, hage]

/-- Settles O60: each block's registers on the records that reset leaves, and the records that placement grants. -/
theorem resetValues : Obligations.ResetValues := by
  refine ⟨fun off _ => ?_, fun a => ⟨rfl, rfl⟩, fun b => rfl, fun l h wgix wbase cycle copy peer => ?_⟩
  · intro o p inPart
    by_cases hin : inPart
    · have h0 : o ≠ 0 ∧ o ≠ 0x10 ∧ o ≠ 0x18 := by have := hin.1; omega
      rw [regRead_partition hin.1 hin.2, partRead_reset _ _ (by omega)]
      simp only [h0, hin, if_false, true_and]
      rfl
    · rw [regRead_reset_package off hin]
      simp only [hin, false_and, if_false]
      rfl
  · refine ⟨rfl, rfl, rfl, rfl, rfl, fun k => tabulate_const_getD 64 k 0, fun k hk => ?_, rfl, fun k => tabulate_const_getD 16 k none, fun n c hc => ?_⟩
    · simp [cbitOf, hk, startWg, startPilot, bitAt]
    · obtain ⟨hn, rfl⟩ : n < hCrews h ∧ startCrew h n = c := by simpa [crewOf, startWg] using hc
      exact ⟨hn, startCrew_values h n⟩

end Sys2Proof
end

section
namespace Sys2Proof
open Machine

/-! ### Issue -/

/-- Every instruction with fields goes through issue: its checks come first, and what it does is a function of the operands that they give. A step
of the part has no fields. -/
theorem exec_issue {i : Instr} {f : Fields} (hf : fieldsOf i = some f) (s : State) : ∃ act, exec i s = issue i s act := by
  cases i
  any_goals contradiction
  all_goals exact ⟨_, rfl⟩

/-- An instruction that its checks end has the effect they give. -/
theorem exec_of_prep {i : Instr} {s t : State} {f : Fields} (hf : fieldsOf i = some f) (hp : prep i s = .done t) : exec i s = .next t := by
  obtain ⟨act, ha⟩ := exec_issue hf s
  rw [ha, issue, hp]

section
variable {i : Instr} {s : State} {g : WG} {f : Fields} {c : Ctx} {h : FEntry}

/-- The checks of a context that is ready at its slot begin with the legality of the word (R74, R75). -/
theorem prep_illegal (hi : Issues s g c h) (hf : fieldsOf i = some f) {r : Nat} (hr : illegalReason (whoKind s.cur.who) i = some r) :
    prep i s = .done (trapHere s s.cur (mkTrap 0x01 (r + 16 * slotOf g h s.cur.who) h.mask)) := by
  obtain ⟨hg, hc, hh, he, hb, ht, hm⟩ := hi
  simp [prep, hg, hf, hc, hh, he, hb, ht, hm, hr]

/-- A privileged system register is checked next (R127). -/
theorem prep_privileged (hi : Issues s g c h) (hf : fieldsOf i = some f) (hr : illegalReason (whoKind s.cur.who) i = none) (hp : privileged i = true) :
    prep i s = .done (trapHere s s.cur (openTrap s 0x17 h.mask)) := by
  obtain ⟨hg, hc, hh, he, hb, ht, hm⟩ := hi
  simp [prep, hg, hf, hc, hh, he, hb, ht, hm, hr, hp]

/-- An illegal destination, mark or field traps before the operands are read (R16, R19, R75). -/
theorem prep_operand (hi : Issues s g c h) (hf : fieldsOf i = some f) (hr : illegalReason (whoKind s.cur.who) i = none) (hp : privileged i = false)
    (ho : dstBad (whoKind s.cur.who) (useOf (whoKind s.cur.who) i).dst f.dst.toNat = true ∨
      (whoKind s.cur.who = .crew ∧ markBad (useOf (whoKind s.cur.who) i) f = true) ∨ fieldIllegal (whoKind s.cur.who) g c i = true) :
    prep i s = .done (trapHere s s.cur (openTrap s 0x05 h.mask)) := by
  obtain ⟨hg, hc, hh, he, hb, ht, hm⟩ := hi
  rcases ho with ho | ⟨hk, ho⟩ | ho
  · simp [prep, hg, hf, hc, hh, he, hb, ht, hm, hr, hp, ho]
  · have hk' : (whoKind s.cur.who == .crew) = true := by simp [hk]
    simp [prep, hg, hf, hc, hh, he, hb, ht, hm, hr, hp, ho, hk']
  · simp [prep, hg, hf, hc, hh, he, hb, ht, hm, hr, hp, ho]

/-- With legal operands, no damaged register, nothing outstanding and no flag full, the checks go on with the operands' values (R75). -/
theorem prep_operands_legal (hi : Issues s g c h) (hf : fieldsOf i = some f) (hr : illegalReason (whoKind s.cur.who) i = none)
    (hp : privileged i = false)
    (hs : ∀ latch, srcBad (whoKind s.cur.who) latch (useOf (whoKind s.cur.who) i).a f.sa.toNat = false ∧
      srcBad (whoKind s.cur.who) latch (useOf (whoKind s.cur.who) i).b f.sb.toNat = false ∧
      srcBad (whoKind s.cur.who) latch (useOf (whoKind s.cur.who) i).c f.sc.toNat = false)
    (hd : dstBad (whoKind s.cur.who) (useOf (whoKind s.cur.who) i).dst f.dst.toNat = false)
    (hmk : whoKind s.cur.who = .crew → markBad (useOf (whoKind s.cur.who) i) f = false)
    (hfi : fieldIllegal (whoKind s.cur.who) g c i = false) (hu : c.upsets = []) (hpe : c.pend = [])
    (hfl : ∀ n, flagOf c f.pre = some n → c.flags.getD n 0 < 15) :
    prep i s = if c.divided.isNone && valueIllegal (setWg s s.cur.berth g) s.cur g i (useOf (whoKind s.cur.who) i) f h then
        .done (trapHere (setWg s s.cur.berth g) s.cur (openTrap (setWg s s.cur.berth g) 0x05 h.mask))
      else prepChecks (setWg s s.cur.berth g) s.cur g i f h := by
  obtain ⟨hg, hc, hh, he, hb, ht, hm⟩ := hi
  have hmk' : (whoKind s.cur.who == .crew && markBad (useOf (whoKind s.cur.who) i) f) = false := by
    by_cases hk : whoKind s.cur.who = .crew
    · simp [hmk hk]
    · simp [hk]
  have hset := settlePend_nil g s.cur.who (whoKind s.cur.who) i (useOf (whoKind s.cur.who) i) f c hc hpe
  have hholds : pendHolds g s.cur.who (whoKind s.cur.who) i (useOf (whoKind s.cur.who) i) f = false := by
    cases hfo : flagOf c f.pre with
    | none => simp [pendHolds, hc, hpe, hfo]
    | some n => simpa [pendHolds, hc, hpe, hfo] using hfl n hfo
  simp only [prep, hg, hf, hc, hh, he, hb, ht, hm, hr, hp, hs, hd, hmk', hfi, hset, hholds, upsetsRead, hu, List.filter_nil, List.isEmpty_nil,
    Option.isSome_none, Bool.or_self, Bool.not_true, Bool.and_false, Bool.false_eq_true, if_false]

/-- With legal operands an illegal operand that a value shows traps first; then queue misuse that a name shows, queue misuse that the home agent finds, and an
overrun of the register budget (R75). -/
theorem prepChecks_traps {u : State} {id : CtxId} {x : Ctx} {e : Env} (hc : ctxIn g id.who = some x) (hd : x.divided = none)
    (he : mkEnv u id g i (useOf (whoKind id.who) i) f h = e) :
    (∀ r n, misuseOf u id g i (useOf (whoKind id.who) i) f = some (r, n) →
      prepChecks u id g i f h = .done (trapHere u id (qTrap r n h.mask))) ∧
    (misuseOf u id g i (useOf (whoKind id.who) i) f = none →
      (∀ r n, e.active ≠ 0 → agentMisuse u g (agentUses g x (whoKind id.who) i (useOf (whoKind id.who) i) f) [] = some (r, n) →
        prepChecks u id g i f h = .done (trapHere u id (qTrap r n h.mask))) ∧
      ((e.active ≠ 0 → agentMisuse u g (agentUses g x (whoKind id.who) i (useOf (whoKind id.who) i) f) [] = none) →
        prepChecks u id g i f h =
          if overruns e x && !addressFirst i then .done (trapHere u id (openTrap u 0x06 h.mask)) else prepQueues e)) := by
  subst he
  refine ⟨fun r n hm => ?_, fun hm => ⟨fun r n ha hq => ?_, fun hq => ?_⟩⟩
  · simp [prepChecks, hc, hd, hm]
  · simp only [prepChecks, hc, hd, hm, ha, hq, Option.isSome_none, Bool.false_eq_true, if_false]
    rfl
  · by_cases ha : (mkEnv u id g i (useOf (whoKind id.who) i) f h).active = 0
    · simp only [prepChecks, hc, hd, hm, ha, Option.isSome_none, Bool.false_eq_true, if_false, if_true]
      rfl
    · simp only [prepChecks, hc, hd, hm, ha, hq ha, Option.isSome_none, Bool.false_eq_true, if_false]
      rfl

end

/-! ### Traps that stop a workgroup -/

/-- Writing an outstanding result changes no crew's presence. -/
theorem commitAt_crews (g : WG) (w : Who) (k : Nat) : (commitAt g w k).crews.length = g.crews.length := by
  unfold commitAt
  split
  · rfl
  · split
    · rfl
    · cases w <;> simp [applyResult, modCrew]

theorem commitWhere_crews (w : Who) (test : PendWrite → Bool) (n : Nat) :
    ∀ (k : Nat) (g : WG), (commitWhere w test n k g).crews.length = g.crews.length := by
  induction n with
  | zero => intro k g; rfl
  | succ n ih =>
    intro k g
    unfold commitWhere
    split
    · rfl
    · split
      · rw [ih, commitAt_crews]
      · exact ih _ _

/-- Before a trap is delivered no crew leaves its workgroup. -/
theorem quiesce_crews (g : WG) (w : Who) (cause : BitVec 6) : (quiesce g w cause).crews.length = g.crews.length := by
  cases w <;> simp [quiesce, commitAll, commitWhere_crews, modCrew]

/-- A workgroup that stops for harbour software (R398). -/
theorem wgOf_harbourStop {s : State} {id : CtxId} {g : WG} (t : PendTrap) (epc : DWord) (entry : Word) (hg : wgOf s id.berth = some g) :
    ∃ g', wgOf (harbourStop s id t epc entry) id.berth = some g' ∧ g'.run = .stopped ∧ g'.stopper = some id.who := by
  simp only [harbourStop, hg, putEvent, wgOf_modPart, wgOf_setWg, if_true]
  exact ⟨_, rfl, rfl, rfl⟩

/-- A trap of a cause that always goes to harbour software stops the workgroup (R389). -/
theorem trapHere_harbour {s : State} {id : CtxId} {g : WG} {c : Ctx} {h : FEntry} {t : PendTrap} (hg : wgOf s id.berth = some g)
    (hc : ctxIn g id.who = some c) (hh : headFor s id g = some h) (hu : unwritten c = false) (ht : alwaysHarbour t.cause.toNat = true) :
    ∃ g', wgOf (trapHere s id t) id.berth = some g' ∧ g'.run = .stopped ∧ g'.stopper = some id.who := by
  have htake : ∀ epc entry m, takeTrap s id t epc entry m = deliverTrap s id t epc entry m := by
    intro epc entry m
    simp [takeTrap, ctxOf, hg, hc, hu]
  have hq : wgOf (setWg s id.berth (quiesce g id.who t.cause)) id.berth = some (quiesce g id.who t.cause) := by simp
  cases hw : id.who with
  | pilot =>
    simp only [trapHere, hg, hw, htake, deliverTrap, ht, Bool.true_or, if_true]
    simpa only [hw] using wgOf_harbourStop t _ _ hq
  | crew n =>
    obtain ⟨x, hx⟩ : ∃ x, crewOf (quiesce g (.crew n) t.cause) n = some x := by
      rw [hw] at hc
      have hn : n < g.crews.length := by
        obtain ⟨y, hy, -⟩ := Option.map_eq_some_iff.mp hc
        exact (List.getElem?_eq_some_iff.mp hy).1
      exact ⟨_, List.getElem?_eq_getElem (by rw [quiesce_crews]; exact hn)⟩
    simp only [headFor, hw] at hh
    simp only [trapHere, hg, hw, hh, htake, deliverTrap, hx, ht, Bool.true_or, if_true]
    simpa only [hw] using wgOf_harbourStop t _ _ hq

end Sys2Proof
end

section
namespace Sys2Proof
open Machine

/-! ### The first check that a lane's address fails -/

/-- The least rank of a list of placed accesses is the one that some access has and none falls below. -/
theorem foldl_rank {r : Nat} (xs : List Placed) : ∀ m, r ≤ m → (∀ x, x ∈ xs → r ≤ x.rank) → (m = r ∨ ∃ x, x ∈ xs ∧ x.rank = r) →
    xs.foldl (fun m x => min m x.rank) m = r := by
  induction xs with
  | nil => intro m _ _ h; simpa using h
  | cons y ys ih =>
    intro m hm hle h
    have hy := hle y (List.mem_cons_self ..)
    refine ih (min m y.rank) (Nat.le_min.mpr ⟨hm, hy⟩) (fun x hx => hle x (List.mem_cons_of_mem _ hx)) ?_
    rcases h with rfl | ⟨x, hx, hxr⟩
    · exact .inl (Nat.min_eq_left hy)
    · rcases List.mem_cons.mp hx with rfl | hx
      · exact .inl (by omega)
      · exact .inr ⟨x, hx, hxr⟩

/-- THE FIRST FAILING CHECK (R175): where no access fails an earlier check, those that fail this one trap, the lowest of them with its address. -/
theorem placeTrap_first {α : Type} {pl : α → Placed} {p : α → Bool} {cause : Nat} {as_ before after : List α} {y : α}
    (has : as_ = before ++ y :: after) (hr : checkRank cause ≤ 9) (hle : ∀ z, z ∈ as_ → checkRank cause ≤ (pl z).rank)
    (hp : ∀ z, z ∈ as_ → ((pl z).rank = checkRank cause ↔ p z = true)) (hy : p y = true) (hpl : (pl y).place = .error cause)
    (hb : ∀ z, z ∈ before → p z = false) :
    placeTrap (as_.map pl) = some (mkTrap cause (pl y).ea (lanesOf ((pl y).lane :: (after.filter p).map (fun z => (pl z).lane)))) := by
  have hmem : y ∈ as_ := by simp [has]
  have hworst : (as_.map pl).foldl (fun m x => min m x.rank) 9 = checkRank cause := by
    refine foldl_rank _ 9 hr (fun x hx => ?_) (.inr ⟨pl y, List.mem_map_of_mem hmem, (hp y hmem).mpr hy⟩)
    obtain ⟨z, hz, rfl⟩ := List.mem_map.mp hx
    exact hle z hz
  have hfilter : (as_.map pl).filter (fun x => decide (x.rank = checkRank cause)) = (y :: after.filter p).map pl := by
    rw [List.filter_map]
    congr 1
    have : as_.filter ((fun x => decide (x.rank = checkRank cause)) ∘ pl) = as_.filter p := by
      refine List.filter_congr fun z hz => ?_
      rw [Function.comp_apply, Bool.eq_iff_iff, decide_eq_true_iff]
      exact hp z hz
    rw [this, has, List.filter_append, List.filter_eq_nil_iff.mpr (fun z hz => by simp [hb z hz]), List.nil_append, List.filter_cons_of_pos hy]
  simp only [placeTrap, hworst, hfilter, List.map_cons, hpl, List.map_map, Function.comp_def]

/-- Where every access has a place no check of R175 fails. -/
theorem placeTrap_none {xs : List Placed} (h : ∀ x, x ∈ xs → ∃ q, x.place = .ok q) : placeTrap xs = none := by
  unfold placeTrap
  dsimp only
  split
  · rename_i x rest hx
    have hm : x ∈ xs := (List.mem_filter.mp (hx ▸ List.mem_cons_self ..)).1
    obtain ⟨q, hq⟩ := h x hm
    rw [hq]
  · rfl

section
variable (s : State) (b : Nat) (g : WG) (quay hash : Bool) (w : Nat)

/-- The key in Quay memory of an address in the window of the address space. -/
def windowKey (a : Int) : Option Nat := if inQuayWin (lowBits 64 a) then logicalKey s g.part (lowBits 64 a - quayWin) else none

/-- The address is misaligned. -/
def misalignedAt (a : Int) : Bool := decide ((if quay then a else (lowBits 64 a : Int)) % w ≠ 0)

/-- The address lies beyond what the access reaches; a hash table lies in no global memory. -/
def violatesAt (a : Int) : Bool :=
  !quay && (if isGlobal (lowBits 64 a) then hash else match windowKey s g a with | some k => !quayReach s b g k | none => true)

/-- The address lies outside the window. -/
def outsideAt (a : Int) : Bool := quay && (decide (a < 0) || decide ((hQuayb g.hdr : Int) < a + w))

/-- The address lies in a tile of an engine (R200). -/
def ownedAt (a : Int) : Bool :=
  if quay then engOwned s (winKey b g a.toNat)
  else !isGlobal (lowBits 64 a) && (match windowKey s g a with | some k => engOwned s k | none => false)

/-- A placed access of a hash table, which lies in Quay memory (R182). -/
def quayOnly (p : Placed) : Placed :=
  match p.place with
  | .ok (.global _) => { p with place := .error 0x0A }
  | _ => p

/-- A lane's placed access of an instruction of format M. -/
def placedFor (y : Nat × Int) : Placed := if hash then quayOnly (placed s b g quay w y) else placed s b g quay w y

@[simp] theorem placedFor_lane (y : Nat × Int) : (placedFor s b g quay hash w y).lane = y.1 := by
  unfold placedFor quayOnly; split
  · split <;> rfl
  · rfl

@[simp] theorem placedFor_ea (y : Nat × Int) : (placedFor s b g quay hash w y).ea = lowBits 64 y.2 := by
  unfold placedFor quayOnly; split
  · split <;> rfl
  · rfl

/-- The cause of the first check that an address fails, in the order of R175. -/
def firstCause (a : Int) : Option Nat :=
  if misalignedAt quay w a then some 0x08
  else if violatesAt s b g quay hash a then some 0x0A
  else if outsideAt g quay w a then some 0x07
  else if ownedAt s b g quay a then some 0x0E else none

/-- A placed access fails the first check that its address does. -/
theorem placedFor_place (y : Nat × Int) : match firstCause s b g quay hash w y.2 with
    | some c => (placedFor s b g quay hash w y).place = .error c
    | none => ∃ q, (placedFor s b g quay hash w y).place = .ok q := by
  obtain ⟨l, a⟩ := y
  cases quay with
  | true =>
    by_cases h1 : a % w = 0
    · by_cases h2 : a < 0 ∨ (hQuayb g.hdr : Int) < a + w
      · simp [firstCause, misalignedAt, violatesAt, outsideAt, placedFor, quayOnly, placed, placeOf, h1, h2]
      · by_cases h3 : engOwned s (winKey b g a.toNat) = true
        · simp [firstCause, misalignedAt, violatesAt, outsideAt, ownedAt, placedFor, quayOnly, placed, placeOf, h1, h2, h3]
        · simp [firstCause, misalignedAt, violatesAt, outsideAt, ownedAt, placedFor, quayOnly, placed, placeOf, h1, h2, h3]
    · simp [firstCause, misalignedAt, placedFor, quayOnly, placed, placeOf, h1]
  | false =>
    have hmis : misalignedAt false w a = decide (lowBits 64 a % w ≠ 0) := by
      simp only [misalignedAt, Bool.false_eq_true, if_false, ne_eq, decide_not, ← Int.natCast_emod, Int.natCast_eq_zero]
    by_cases h1 : lowBits 64 a % w = 0
    · by_cases h2 : isGlobal (lowBits 64 a) = true
      · cases hash <;> simp [firstCause, hmis, violatesAt, outsideAt, ownedAt, placedFor, quayOnly, placed, placeOf, h1, h2]
      · cases hk : windowKey s g a with
        | none =>
          have hplace : placeOf s b g false a w = .error 0x0A := by
            unfold windowKey at hk
            by_cases hq : inQuayWin (lowBits 64 a) = true
            · rw [if_pos hq] at hk; simp [placeOf, h1, h2, hq, hk]
            · simp [placeOf, h1, h2, hq]
          cases hash <;> simp [firstCause, hmis, violatesAt, hk, placedFor, quayOnly, placed, hplace, h1, h2]
        | some k =>
          have hplace : placeOf s b g false a w = if quayReach s b g k then .ok (.quay k) else .error 0x0A := by
            unfold windowKey at hk
            by_cases hq : inQuayWin (lowBits 64 a) = true
            · rw [if_pos hq] at hk; simp [placeOf, h1, h2, hq, hk]
            · rw [if_neg hq] at hk; cases hk
          cases hr : quayReach s b g k <;> cases ho : engOwned s k <;> cases hash <;>
            simp [firstCause, hmis, violatesAt, outsideAt, ownedAt, hk, placedFor, quayOnly, placed, hplace, h1, h2, hr, ho]
    · cases hash <;> simp [firstCause, hmis, placedFor, quayOnly, placed, placeOf, h1]

/-- The rank of a placed access is that of the first check that its address fails. -/
theorem placedFor_rank (y : Nat × Int) :
    (placedFor s b g quay hash w y).rank = ((firstCause s b g quay hash w y.2).map checkRank).getD 9 := by
  have h := placedFor_place s b g quay hash w y
  split at h
  · rename_i c hc; simp [Placed.rank, h, hc]
  · rename_i hc; obtain ⟨q, hq⟩ := h; simp [Placed.rank, hq, hc]

variable {s b g quay hash w}

/-- Where an address fails this check or one of a higher rank, the lanes that fail this one trap together (R175, R395). -/
theorem placeTrap_cause {p : Int → Bool} {cause : Nat} {as_ before after : List (Nat × Int)} {l : Nat} {a : Int}
    (hr : checkRank cause < 9) (hp : ∀ y, y ∈ as_ → p y.2 = true → firstCause s b g quay hash w y.2 = some cause)
    (hn : ∀ y, y ∈ as_ → p y.2 = false → ∀ c, firstCause s b g quay hash w y.2 = some c → checkRank cause < checkRank c)
    (has : as_ = before ++ (l, a) :: after) (ha : p a = true) (hb : ∀ y, y ∈ before → p y.2 = false) :
    placeTrap (as_.map (placedFor s b g quay hash w)) =
      some (mkTrap cause (lowBits 64 a) (lanesOf (l :: (after.filter (fun y => p y.2)).map (fun y => y.1)))) := by
  have hmem : (l, a) ∈ as_ := by simp [has]
  have hrank : ∀ y, y ∈ as_ → checkRank cause ≤ (placedFor s b g quay hash w y).rank ∧
      ((placedFor s b g quay hash w y).rank = checkRank cause ↔ p y.2 = true) := by
    intro y hy
    rw [placedFor_rank]
    cases hpy : p y.2 with
    | true => simp [hp y hy hpy]
    | false =>
      have hlt : checkRank cause < ((firstCause s b g quay hash w y.2).map checkRank).getD 9 := by
        cases hc : firstCause s b g quay hash w y.2 with
        | none => exact hr
        | some c => exact hn y hy hpy c hc
      exact ⟨Nat.le_of_lt hlt, fun h => absurd h (Nat.ne_of_gt hlt), fun h => by cases h⟩
  have hplace := placedFor_place s b g quay hash w (l, a)
  rw [hp _ hmem ha] at hplace
  have := placeTrap_first (pl := placedFor s b g quay hash w) (p := fun y => p y.2) has (Nat.le_of_lt hr) (fun y hy => (hrank y hy).1)
    (fun y hy => (hrank y hy).2) ha hplace hb
  simpa only [placedFor_lane, placedFor_ea] using this

/-- A value that a chain of conditions gives is that of the condition at its head, or of the rest. -/
theorem some_of_ite {p : Bool} {a c : Nat} {o : Option Nat} (h : (if p = true then some a else o) = some c) : c = a ∨ o = some c := by
  cases p with
  | true => exact .inl (Option.some.inj h).symm
  | false => exact .inr h

/-- What the lanes of a list of addresses trap with at the check of a cause: the lowest that fails it, and the mask of all that do (R175, R395). -/
def TrapsAt (as_ : List (Nat × Int)) (out : PendTrap → Prop) (cause : Nat) (p : Int → Bool) : Prop :=
  ∀ l a before after, as_ = before ++ (l, a) :: after → p a = true → (∀ y, y ∈ before → p y.2 = false) →
    out (mkTrap cause (lowBits 64 a) (lanesOf (l :: (after.filter (fun y => p y.2)).map (fun y => y.1))))

/-- THE CHECKS OF R175 in their order, each where no lane fails an earlier one. -/
theorem trapsAt_checks {as_ : List (Nat × Int)} {out : PendTrap → Prop}
    (hout : ∀ t, placeTrap (as_.map (placedFor s b g quay hash w)) = some t → out t) :
    let none_ := fun (p : Int → Bool) => ∀ y, y ∈ as_ → p y.2 = false
    TrapsAt as_ out 0x08 (misalignedAt quay w) ∧
    (none_ (misalignedAt quay w) → TrapsAt as_ out 0x0A (violatesAt s b g quay hash)) ∧
    (none_ (misalignedAt quay w) → none_ (violatesAt s b g quay hash) → TrapsAt as_ out 0x07 (outsideAt g quay w)) ∧
    (none_ (misalignedAt quay w) → none_ (violatesAt s b g quay hash) → none_ (outsideAt g quay w) → TrapsAt as_ out 0x0E (ownedAt s b g quay)) := by
  refine ⟨fun l a before after has ha hb => hout _ ?_, fun h1 l a before after has ha hb => hout _ ?_, fun h1 h2 l a before after has ha hb => hout _ ?_,
    fun h1 h2 h3 l a before after has ha hb => hout _ ?_⟩
  · refine placeTrap_cause (by decide) (fun y hy hp => by simp [firstCause, hp]) (fun y hy hp c hc => ?_) has ha hb
    simp only [firstCause, hp, Bool.false_eq_true, if_false] at hc
    obtain rfl | hc := some_of_ite hc
    · decide
    obtain rfl | hc := some_of_ite hc
    · decide
    obtain rfl | hc := some_of_ite hc
    · decide
    · cases hc
  · refine placeTrap_cause (by decide) (fun y hy hp => by simp [firstCause, h1 y hy, hp]) (fun y hy hp c hc => ?_) has ha hb
    simp only [firstCause, h1 y hy, hp, Bool.false_eq_true, if_false] at hc
    obtain rfl | hc := some_of_ite hc
    · decide
    obtain rfl | hc := some_of_ite hc
    · decide
    · cases hc
  · refine placeTrap_cause (by decide) (fun y hy hp => by simp [firstCause, h1 y hy, h2 y hy, hp]) (fun y hy hp c hc => ?_) has ha hb
    simp only [firstCause, h1 y hy, h2 y hy, hp, Bool.false_eq_true, if_false] at hc
    obtain rfl | hc := some_of_ite hc
    · decide
    · cases hc
  · refine placeTrap_cause (by decide) (fun y hy hp => by simp [firstCause, h1 y hy, h2 y hy, h3 y hy, hp]) (fun y hy hp c hc => ?_) has ha hb
    simp [firstCause, h1 y hy, h2 y hy, h3 y hy, hp] at hc

end

end Sys2Proof
end

section
namespace Sys2Proof
open Machine

/-! ### What a failed access check does to a memory instruction -/

theorem loadLanes_stop {e : Env} {quay : Bool} {as_ : List (Nat × Int)} {t : Ty} {u : State}
    (h : accessStop e e.s false (checkAccess e.s e.id e.g quay as_ (accWidth t) true false) = some u) : loadLanes e quay as_ t = .next u := by
  simp only [loadLanes, h]

theorem storeLanes_stop {e : Env} {quay : Bool} {as_ : List (Nat × Int)} {t : Ty} {data : Nat → Nat} {u : State}
    (h : accessStop e e.s true (checkAccess e.s e.id e.g quay as_ (accWidth t) false true) = some u) : storeLanes e quay as_ t data = .next u := by
  simp only [storeLanes, h]

theorem atomLanes_stop {e : Env} {x : FormM} {as_ : List (Nat × Int)} {aop : BitVec 4} {cas : Bool} {u : State} (hl : lanesLeft e.s e.id as_ = as_)
    (h : accessStop e e.s true (checkAccess e.s e.id e.g x.quay as_ (accWidth x.ty) true true) = some u) : atomLanes e x as_ aop cas = .next u := by
  simp only [atomLanes, hl, h]

/-- The addresses of an instruction of format M but `hacc`, with what it reads and writes there (R170, R171, R178). -/
def AccessesAt (i : Instr) (x : FormM) (e : Env) (as_ : List (Nat × Int)) (rd wr : Bool) : Prop :=
  let off24 := e.lanes.map (fun l => (l, (e.av l : Int) + signedOf 24 x.imm.toNat + 0))
  let off32 := e.lanes.map (fun l => (l, (e.av l : Int) + signedOf 32 x.imm.toNat + 0))
  let indexed := fun (f : Nat → Nat) => e.lanes.map (fun l => (l, (e.av l : Int) + signedOf 32 x.imm.toNat + signedOf 32 (f l) * (x.ty.width / 8 : Nat)))
  (i = .ld x ∧ as_ = off32 ∧ rd = true ∧ wr = false) ∨ (i = .ldx x ∧ as_ = indexed e.bv ∧ rd = true ∧ wr = false) ∨
    (i = .st x ∧ as_ = off32 ∧ rd = false ∧ wr = true) ∨ (i = .stx x ∧ as_ = indexed e.cv ∧ rd = false ∧ wr = true) ∨
    ((i = .atom x ∨ i = .cas x) ∧ as_ = off24 ∧ lanesLeft e.s e.id as_ = as_ ∧ rd = true ∧ wr = true)

section
variable {i : Instr} {x : FormM} {s : State} {e : Env} {as_ : List (Nat × Int)} {rd wr : Bool}

/-- No `hacc` is among these instructions. -/
theorem not_hacc (ha : AccessesAt i x e as_ rd wr) : i ≠ .hacc x := by
  rcases ha with ⟨rfl, -⟩ | ⟨rfl, -⟩ | ⟨rfl, -⟩ | ⟨rfl, -⟩ | ⟨rfl | rfl, -⟩ <;> exact Instr.noConfusion

/-- An access check that stops the instruction is all that it does (R175). -/
theorem exec_accessStop {u : State} (hp : Passes i s e) (ha : AccessesAt i x e as_ rd wr)
    (h : accessStop e e.s wr (checkAccess e.s e.id e.g x.quay as_ (accWidth x.ty) rd wr) = some u) : exec i s = .next u := by
  have hi := passes_instr hp
  rcases ha with ⟨rfl, rfl, rfl, rfl⟩ | ⟨rfl, rfl, rfl, rfl⟩ | ⟨rfl, rfl, rfl, rfl⟩ | ⟨rfl, rfl, rfl, rfl⟩ | ⟨rfl | rfl, rfl, hl, rfl, rfl⟩
  · refine (passes_issue hp _ : exec (.ld x) s = _).trans ?_
    rw [hi]; exact loadLanes_stop h
  · refine (passes_issue hp _ : exec (.ldx x) s = _).trans ?_
    rw [hi]; exact loadLanes_stop h
  · refine (passes_issue hp _ : exec (.st x) s = _).trans ?_
    rw [hi]; exact storeLanes_stop h
  · refine (passes_issue hp _ : exec (.stx x) s = _).trans ?_
    rw [hi]; exact storeLanes_stop h
  · refine (passes_issue hp _ : exec (.atom x) s = _).trans ?_
    rw [hi]; exact atomLanes_stop hl h
  · refine (passes_issue hp _ : exec (.cas x) s = _).trans ?_
    rw [hi]; exact atomLanes_stop hl h

/-- A lane that fails a check of R175 traps. -/
theorem exec_placeTrap {t : PendTrap} (hp : Passes i s e) (ha : AccessesAt i x e as_ rd wr)
    (h : placeTrap (as_.map (placedFor e.s e.id.berth e.g x.quay false (accWidth x.ty))) = some t) : exec i s = .next (trapHere e.s e.id t) := by
  have h' : placeTrap (as_.map (placed e.s e.id.berth e.g x.quay (accWidth x.ty))) = some t := h
  exact exec_accessStop hp ha (by simp only [checkAccess, checkPlaced, h']; rfl)

/-- A lane of `hacc` that fails a check of R175 traps (R182). -/
theorem exec_hacc_placeTrap {t : PendTrap} (hp : Passes (.hacc x) s e)
    (h : placeTrap ((e.lanes.map (fun l => (l, (e.av l : Int) + signedOf 24 x.imm.toNat + 0))).map
      (placedFor e.s e.id.berth e.g x.quay true 64)) = some t) : exec (.hacc x) s = .next (trapHere e.s e.id t) := by
  have hi := passes_instr hp
  refine (passes_issue hp _ : exec (.hacc x) s = _).trans ?_
  have h' : placeTrap (((addresses e (offsetOf (.hacc x)) none 0).map (placed e.s e.id.berth e.g x.quay 64)).map quayOnly) = some t := by
    rw [List.map_map]; exact h
  rw [hi]
  dsimp only
  split
  · rename_i t' ht
    obtain rfl : t' = t := Option.some.inj (ht.symm.trans h')
    rfl
  · rename_i hn
    cases hn.symm.trans h'

/-- An access that is found has a place. -/
theorem place_of_found {p : Placed} {b : Nat} {g : WG} (h : (found s b g wr p).isSome = true) : ∃ q, p.place = .ok q := by
  unfold found at h
  split at h
  · cases h
  · rename_i hk; exact ⟨_, hk⟩
  · rename_i hk; exact ⟨_, hk⟩

/-- Accesses that all have a place and a translation, no page copy to wait for, and no rebuild, are checked for poison next (R404). -/
theorem checkPlaced_poison {id : CtxId} {g : WG} {w : Nat} {ps : List Placed} {before after : List Found} {f : Found}
    (hfound : ∀ p, p ∈ ps → (found s id.berth g wr p).isSome = true ∧ (wr = true → copyFor s id.berth g p = none))
    (hheld : ∀ y, y ∈ ps.filterMap (found s id.berth g wr) → rebuildHeld s g (readsBadLine s id g w wr y.acc) y = false)
    (hfs : ps.filterMap (found s id.berth g wr) = before ++ f :: after) (hhit : readsPoison s id g w wr f.acc = true)
    (hb : ∀ y, y ∈ before → readsPoison s id g w wr y.acc = false) :
    checkPlaced s id g ps w true wr =
      .poison f.acc.ea (foundLanes (f :: after.filter (fun y => readsPoison s id g w wr y.acc))) (windowOff g f.acc) := by
  have hplace : placeTrap ps = none := placeTrap_none (fun p hp => place_of_found (hfound p hp).1)
  have hall : ps.filter (fun x => (found s id.berth g wr x).isNone) = [] :=
    List.filter_eq_nil_iff.mpr (fun p hp => by simpa [Option.isSome_iff_ne_none] using (hfound p hp).1)
  have hcopy : (if wr then ps.filterMap (copyFor s id.berth g) else []) = [] := by
    split
    · rename_i hw; exact List.filterMap_eq_nil_iff.mpr (fun p hp => (hfound p hp).2 hw)
    · rfl
  have hrebuild : (before ++ f :: after).filter (fun x => rebuildHeld s g (readsBadLine s id g w wr x.acc) x) = [] :=
    List.filter_eq_nil_iff.mpr (fun y hy => by simp [hheld y (hfs ▸ hy)])
  have hpoison : (before ++ f :: after).filter (fun x => readsPoison s id g w wr x.acc) =
      f :: after.filter (fun y => readsPoison s id g w wr y.acc) := by
    rw [List.filter_append, List.filter_eq_nil_iff.mpr (fun y hy => by simp [hb y hy]), List.nil_append, List.filter_cons_of_pos (by exact hhit)]
  simp only [checkPlaced, hplace, hall, hcopy, hfs, checkFound, Bool.true_and, hrebuild, hpoison]

/-- An error that both copies of a pair would see, or that no pair has, traps at the slot (R405). -/
theorem softTrap_false {u : State} {id : CtxId} {g : WG} (t : PendTrap) (hg : wgOf u id.berth = some g) : softTrap u id t false = trapHere u id t := by
  simp [softTrap, hg]

/-- A poisoned line that a lane reads traps outside DUP, the lowest lane that reads one with its address (R404). -/
theorem exec_poison {before after : List Found} {f : Found} (hp : Passes i s e) (ha : AccessesAt i x e as_ true wr) (hd : isDup e.g = false)
    (hfound : ∀ p, p ∈ as_.map (placed e.s e.id.berth e.g x.quay (accWidth x.ty)) →
      (found e.s e.id.berth e.g wr p).isSome = true ∧ (wr = true → copyFor e.s e.id.berth e.g p = none))
    (hheld : ∀ y, y ∈ (as_.map (placed e.s e.id.berth e.g x.quay (accWidth x.ty))).filterMap (found e.s e.id.berth e.g wr) →
      rebuildHeld e.s e.g (readsBadLine e.s e.id e.g (accWidth x.ty) wr y.acc) y = false)
    (hfs : (as_.map (placed e.s e.id.berth e.g x.quay (accWidth x.ty))).filterMap (found e.s e.id.berth e.g wr) = before ++ f :: after)
    (hhit : readsPoison e.s e.id e.g (accWidth x.ty) wr f.acc = true)
    (hb : ∀ y, y ∈ before → readsPoison e.s e.id e.g (accWidth x.ty) wr y.acc = false) :
    exec i s = .next (trapHere e.s e.id (mkTrap 0x15 f.acc.ea
      (lanesOf (f.acc.lane :: (after.filter (fun y => readsPoison e.s e.id e.g (accWidth x.ty) wr y.acc)).map (fun y => y.acc.lane))))) := by
  have hlone : loneError e.s e.g (windowOff e.g f.acc) = false := by simp [loneError, hd]
  refine exec_accessStop hp ha ?_
  rw [checkAccess, checkPlaced_poison hfound hheld hfs hhit hb, accessStop, hlone, softTrap_false _ (passes_wg hp)]
  rfl

end

/-! ### The checks of decode, and of memory accesses -/

/-- A crew's instruction that acts overruns the reservation where the names that it maps do not fit (R15). -/
theorem overruns_crew {e : Env} {c : Ctx} {m : Nat} {y : Crew} (hw : e.id.who = .crew m) (hy : crewOf e.g m = some y) (ha : e.active ≠ 0)
    (hb : budgetOk e.g y (freedNames e.u e.f (writtenNames e c)) (writtenNames e c) = false) : overruns e c = true := by
  simp only [overruns, hw, hy, ha, if_false, hb, Bool.not_false]

/-- Settles O46: the checks of `prep` in their order, then those of `checkAccess`. -/
theorem decodeTrapsInOrder : Obligations.DecodeTrapsInOrder := by
  refine ⟨fun i s g f c h hi hf => ?_, fun x i s e as_ w rd wr hp => ?_⟩
  · intro k u traps
    refine ⟨fun r hr => exec_of_prep hf (prep_illegal hi hf hr), fun hr => ⟨fun hpv => ?_, fun hpv => ⟨fun ho => exec_of_prep hf (prep_operand hi hf hr hpv ho), ?_⟩⟩⟩
    · have hx := exec_of_prep hf (prep_privileged hi hf hr hpv)
      refine ⟨hx, fun hu t ht => ?_⟩
      obtain ⟨hg, hc, hh, -⟩ := hi
      cases hx.symm.trans ht
      exact trapHere_harbour hg hc hh hu rfl
    · intro hsrc hd hmk hfi hups hpend hfl hdiv s' misused met late
      have hprep := prep_operands_legal hi hf hr hpv hsrc hd hmk hfi hups hpend hfl
      rw [hdiv, Option.isNone_none, Bool.true_and] at hprep
      have hc : ctxIn g s.cur.who = some c := hi.2.1
      obtain ⟨hmis, hrest⟩ := prepChecks_traps (i := i) (f := f) (h := h) (u := s') hc hdiv rfl
      refine ⟨fun hv => exec_of_prep hf (by rw [hprep, if_pos hv]), fun hv => ?_⟩
      rw [if_neg (by simpa using hv)] at hprep
      refine ⟨fun r n hm => exec_of_prep hf (hprep.trans (hmis r n hm)),
        fun r n hm ha hq => exec_of_prep hf (hprep.trans ((hrest hm).1 r n ha hq)), ?_⟩
      intro m y hm hq hw hy ha hfirst names hbud
      have hover : overruns (mkEnv s' s.cur g i u f h) c = true := overruns_crew hw hy ha hbud
      exact exec_of_prep hf (hprep.trans (((hrest hm).2 (fun _ => hq)).trans (if_pos (by rw [hover, hfirst]; rfl))))
  · intro hash off24 off32 indexed hshape ea inWin misaligned violates outside owned none_ traps
    have hout : ∀ t, placeTrap (as_.map (placedFor e.s e.id.berth e.g x.quay (decide (i = .hacc x)) w)) = some t →
        exec i s = .next (trapHere e.s e.id t) := by
      intro t ht
      rcases hshape with ⟨hh, rfl, rfl⟩ | ⟨rfl, hshape⟩
      · obtain rfl : i = .hacc x := hh
        rw [decide_eq_true rfl] at ht
        exact exec_hacc_placeTrap hp ht
      · rw [decide_eq_false (not_hacc hshape)] at ht
        exact exec_placeTrap hp hshape ht
    obtain ⟨halign, hreach, hwindow, howner⟩ := trapsAt_checks hout
    refine ⟨halign, hreach, hwindow, howner, fun _ _ _ _ hnh hdup hrd => ?_⟩
    intro ps fs hit hfound hheld f before after hfs hhit hb
    rcases hshape with ⟨hh, -⟩ | ⟨rfl, hshape⟩
    · exact absurd hh hnh
    · subst hrd
      exact exec_poison hp hshape hdup hfound hheld hfs hhit hb

end Sys2Proof
end

section
namespace Sys2Proof
open Machine

/-! ### What a vector instruction completes with -/

theorem mem_tabulate {α : Type} {n : Nat} {f : Nat → α} {x : α} (h : x ∈ tabulate n f) : ∃ k, f k = x := by
  obtain ⟨k, hk⟩ := List.mem_iff_getElem?.mp h
  rw [tabulate_getElem?] at hk
  split at hk
  · exact ⟨k, Option.some.inj hk⟩
  · cases hk

/-- Results none of which has a flag have none together. -/
theorem flagsOf_zero {rs : List (Nat × BitVec 5)} (h : ∀ r, r ∈ rs → r.2 = 0) : flagsOf rs = 0 := by
  have key : ∀ (rs : List (Nat × BitVec 5)) (a : BitVec 5), (∀ r, r ∈ rs → r.2 = 0) → rs.foldl (fun a r => a ||| r.2) a = a := by
    intro rs
    induction rs with
    | nil => intro a _; rfl
    | cons r rs ih =>
      intro a h
      rw [List.foldl_cons, ih _ (fun x hx => h x (List.mem_cons_of_mem _ hx)), h r (List.mem_cons_self ..)]
      exact BitVec.or_zero
  exact key rs 0 h

theorem flagsOf_overLanes {m : LaneMask} {f : Nat → Nat × BitVec 5} (h : ∀ l, (f l).2 = 0) : flagsOf (overLanes m f) = 0 := by
  refine flagsOf_zero fun r hr => ?_
  obtain ⟨l, rfl⟩ := mem_tabulate hr
  split
  · exact h l
  · rfl

theorem consuming_eq (e : Env) (rm : Rm) (m : LaneMask) : e.consuming rm m = e.drawing (if rm == .rsr then m else e.draws) := by
  unfold Env.consuming
  split <;> rfl

/-- The registers that a result of per-lane values writes are those of the destination. -/
theorem dstResult_vec {e : Env} {m : LaneMask} {val : Nat → Nat} {v : VecWrite} (h : v ∈ (dstResult e m val).vec) :
    v.name ∈ roleNames .crew e.u.dst e.f.dst.toNat := by
  unfold dstResult at h
  split at h
  · cases h
  · split at h
    · dsimp only at h
      split at h
      · cases h
      · obtain ⟨y, hy, rfl⟩ := List.mem_map.mp h
        exact (List.of_mem_zip hy).2
    · cases h

/-- A result of per-lane values writes no predicate. -/
theorem dstResult_pred (e : Env) (m : LaneMask) (val : Nat → Nat) : (dstResult e m val).pred = none := by
  unfold dstResult
  split
  · rfl
  · split <;> rfl

/-- How a vector instruction completes (R141): with a result for its destination alone, after flags of its crew at most, with draws; one that is exact
(`ex`) sets no flag and draws nothing. -/
def VectorDone (e : Env) (ex : Bool) (o : Out) : Prop :=
  ∃ (m : LaneMask) (fl : BitVec 5) (t : State) (r : Result) (p : Option QEntry), o = .next (completed (e.drawing m) t r p none) ∧
    ((t = e.s ∧ fl = 0) ∨ t = fpxOr e.s e.id fl) ∧ (ex = true → m = e.draws ∧ fl = 0) ∧
    (∀ v, v ∈ r.vec → v.name ∈ roleNames .crew e.u.dst e.f.dst.toNat) ∧
    (∀ k a b, r.pred = some (k, a, b) → e.u.dst = .idx ∧ k = e.f.dst.toNat) ∧ (pushName e.u e.f = none → p = none)

section
variable {e : Env} {t : Ty} {rm : Rm}

theorem dstEntry_none {val : Nat → Nat} (h : pushName e.u e.f = none) : dstEntry e val = none := by simp [dstEntry, h]

/-- Values for the destination. -/
theorem vals_completed {ex : Bool} {t : State} (d : LaneMask) (fl : BitVec 5) (m : LaneMask) (val : Nat → Nat) (ht : (t = e.s ∧ fl = 0) ∨ t = fpxOr e.s e.id fl)
    (hx : ex = true → d = e.draws ∧ fl = 0) : VectorDone e ex (completeVals (e.drawing d) t m val) := by
  refine ⟨d, fl, t, _, _, rfl, ht, hx, fun v hv => dstResult_vec (e := e.drawing d) hv, fun k a b h => ?_, dstEntry_none (e := e.drawing d)⟩
  rw [dstResult_pred] at h
  cases h

/-- A predicate bit in each lane. -/
theorem pred_completed {ex : Bool} {t : State} (hd : e.u.dst = .idx) (fl : BitVec 5) (f : Nat → Bool) (ht : (t = e.s ∧ fl = 0) ∨ t = fpxOr e.s e.id fl)
    (hx : ex = true → fl = 0) : VectorDone e ex (completePred e t f) := by
  refine ⟨e.draws, fl, t, _, _, rfl, ht, fun h => ⟨rfl, hx h⟩, fun v hv => absurd hv List.not_mem_nil, fun k a b h => ⟨hd, ?_⟩, fun _ => rfl⟩
  cases h
  rfl

/-- Values for the destination, after nothing. -/
theorem vals_exact (m : LaneMask) (val : Nat → Nat) : VectorDone e true (completeVals e e.s m val) :=
  vals_completed e.draws 0 m val (.inl ⟨rfl, rfl⟩) (fun _ => ⟨rfl, rfl⟩)

/-- Values for the destination, after flags and with draws. -/
theorem vals_done (d : LaneMask) (fl : BitVec 5) (m : LaneMask) (val : Nat → Nat) :
    VectorDone e false (completeVals (e.drawing d) (fpxOr e.s e.id fl) m val) :=
  vals_completed d fl m val (.inr rfl) nofun

/-- Values for the destination, after flags, with the draws of a rounding. -/
theorem rounded_done (rm : Rm) (drawn : LaneMask) (fl : BitVec 5) (m : LaneMask) (val : Nat → Nat) :
    VectorDone e false (completeVals (e.consuming rm drawn) (fpxOr e.s e.id fl) m val) := by
  rw [consuming_eq]
  exact vals_done _ fl m val

/-- Values and flags of the active lanes. -/
theorem flagged_done (d : LaneMask) (f : Nat → Nat × BitVec 5) : VectorDone e false (completeFlagged (e.drawing d) e.s f) := vals_done d _ _ _

/-- Values of the active lanes without a flag. -/
theorem flagged_exact {f : Nat → Nat × BitVec 5} (hf : ∀ l, (f l).2 = 0) : VectorDone e true (completeFlagged e e.s f) :=
  vals_completed e.draws 0 _ _ (.inr (by rw [flagsOf_overLanes hf])) (fun _ => ⟨rfl, rfl⟩)

theorem lanes_exact (f : Nat → Nat) : VectorDone e true (completeLanes e f) := flagged_exact (fun _ => rfl)

theorem elementwise_done (b : Nat → Nat) (f : Nat → Nat → Nat → Nat → Nat × BitVec 5) : VectorDone e false (elementwise e t rm b f) := by
  rw [elementwise, consuming_eq]
  exact flagged_done _ _

theorem elementwise_exact {b : Nat → Nat} {f : Nat → Nat → Nat → Nat → Nat × BitVec 5} (hf : ∀ u a b c, (f u a b c).2 = 0) :
    VectorDone e true (elementwise e t .rne b f) := by
  rw [elementwise, consuming_eq]
  refine flagged_exact (e := e) fun l => flagsOf_zero fun r hr => ?_
  obtain ⟨j, rfl⟩ := mem_tabulate hr
  exact hf ..

/-- A predicate bit in each active lane. -/
theorem pred_exact (hd : e.u.dst = .idx) (f : Nat → Bool) : VectorDone e true (completePred e e.s f) :=
  pred_completed hd 0 f (.inl ⟨rfl, rfl⟩) (fun _ => rfl)

/-- A compare sets a predicate, after the flags of signalling NaNs. -/
theorem compare_done (hd : e.u.dst = .idx) (cc : Nat) (b : Nat → Nat) : VectorDone e false (compareLanes e t cc b) :=
  pred_completed hd _ _ (.inr rfl) nofun

theorem shlElem_flags (t : Ty) (sat : Bool) (a k : Nat) : (shlElem t sat a k).2 = 0 := by
  unfold shlElem
  split
  · rfl
  · split <;> rfl

theorem fclassElem_flags (t : Ty) (a : Nat) : (fclassElem t a).2 = 0 := by
  unfold fclassElem
  split <;> rfl

theorem csgnElem_flags (t : Ty) (sub a b : Nat) : (csgnElem t sub a b).2 = 0 := by
  unfold csgnElem
  split <;> rfl

end

/-- The instruction acts with the roles that its kind of context gives its fields. -/
theorem passes_use {i : Instr} {s : State} {e : Env} (h : Passes i s e) : e.u = useOf (whoKind e.id.who) i := by
  obtain ⟨g, f, c, hd, -, -, -, -, -, -, -, -, -, -, c', -, rfl, -⟩ := prep_go i s e h
  simp [mkEnv]

/-- An instruction that has passed its checks has drawn nothing yet. -/
theorem passes_draws {i : Instr} {s : State} {e : Env} (h : Passes i s e) : e.draws = 0 := by
  obtain ⟨g, f, c, hd, -, -, -, -, -, -, -, -, -, -, c', -, rfl, -⟩ := prep_go i s e h
  simp [mkEnv]

/-- An instruction that has passed its checks does what issue lets it do. -/
theorem vectorDone_issue {i : Instr} {s : State} {e : Env} {act : Env → Out} {ex : Bool} (hp : Passes i s e) (hx : exec i s = issue i s act)
    (h : VectorDone e ex (act e)) : VectorDone e ex (exec i s) := by
  rw [hx, passes_issue hp]; exact h

/-- A vector instruction completes with a result for its destination alone (R141). -/
theorem exec_vector {i : Instr} {s : State} {e : Env} (hv : isVector i = true) (hp : Passes i s e) : VectorDone e (isExact i) (exec i s) := by
  have hu := passes_use hp
  cases i
  any_goals contradiction
  case add | sub | mul | min | max | abs | neg | fma | rcp | rsq | sqrt | exp2 | log2 | tanh | sigm | rint | fscl | addVi | subVi | mulVi | minVi | maxVi =>
    exact vectorDone_issue hp rfl (elementwise_done _ _)
  case mulhi | mad | avg | div | rem | shr | bfe | bfi | shrVi | bfeVi => exact vectorDone_issue hp rfl (elementwise_exact (fun _ _ _ _ => rfl))
  case shl | shlVi => exact vectorDone_issue hp rfl (elementwise_exact (fun _ _ _ _ => shlElem_flags ..))
  case fclass => exact vectorDone_issue hp rfl (elementwise_exact (fun _ _ _ _ => fclassElem_flags ..))
  case csgn => exact vectorDone_issue hp rfl (elementwise_exact (fun _ _ _ _ => csgnElem_flags ..))
  case and | or | xor | not | popc | clz | brev | dot4 | mov | sel | lea | pget | andVi | orVi | xorVi | leaVi | movVi | shfl | bclane | perm | ballot =>
    exact vectorDone_issue hp rfl (lanes_exact _)
  case cmpct => exact vectorDone_issue hp rfl (vals_exact _ _)
  case cmp | cmpVi => exact vectorDone_issue hp rfl (compare_done (by rw [hu]; rfl) _ _)
  case plog | pset | vote => exact vectorDone_issue hp rfl (pred_exact (by rw [hu]; rfl) _)
  case mxscale => exact vectorDone_issue hp rfl (flagged_done e.draws _)
  case rand => exact vectorDone_issue hp rfl (flagged_done _ _)
  case cvt => exact vectorDone_issue hp rfl (by rw [consuming_eq]; exact flagged_done _ _)
  case mxunpack | scan | red => exact vectorDone_issue hp rfl (rounded_done _ _ _ _ _)
  case sample => exact vectorDone_issue hp rfl (vals_done e.draws _ _ _)
  case mxpack x =>
    refine vectorDone_issue hp rfl ?_
    split
    · exact rounded_done _ _ _ _ _
    · exact vals_done e.draws _ _ _
  -- The one left is `match`, whose name is a keyword.
  exact vectorDone_issue hp rfl (lanes_exact _)

/-! ### The crew, memory and the other workgroups -/

/-- Changing a crew that is there depends on that crew's change alone. -/
theorem modCrew_congr {g : WG} {n : Nat} {c : Crew} {f f' : Crew → Crew} (hc : crewOf g n = some c) (h : f c = f' c) : modCrew g n f = modCrew g n f' := by
  have key : g.crews.modify n f = g.crews.modify n f' := by
    refine List.ext_getElem? fun m => ?_
    rw [List.getElem?_modify, List.getElem?_modify]
    by_cases hm : n = m
    · subst hm
      rw [show g.crews[n]? = some c from hc]
      simp [h]
    · simp [hm]
  rw [modCrew, key, modCrew]

/-- Changing a crew to what it is changes nothing. -/
theorem modCrew_same {g : WG} {n : Nat} {c : Crew} {f : Crew → Crew} (hc : crewOf g n = some c) (h : f c = c) : modCrew g n f = g := by
  rw [modCrew_congr hc (f' := id) h, modCrew, List.modify_id]

/-- Where every context changes what it has yielded to, each crew is as before but for that. -/
theorem sameCrew_modAllCtx {g : WG} {m : Nat} {d : Crew} (hd : crewOf g m = some d) (ys : Ctx → List CtxId) :
    ∃ d', crewOf (modAllCtx g (fun c => { c with yields := ys c })) m = some d' ∧ SameCrew d d' :=
  ⟨{ d with ctx := { d.ctx with yields := ys d.ctx } }, by simp [crewOf_modAllCtx, hd], rfl⟩

section
variable {e : Env} {t : State} {n : Nat} {g : WG} {c : Crew} {r : Result}

/-- After an instruction that shares nothing has retired, its crew's head goes on in its place as it would have before. -/
theorem retired_inPlace (hU : Unshared e) (hN : storesIn e.i = false) (hw : e.id.who = .crew n) (hg : wgOf t e.id.berth = some g)
    (hc : crewOf g n = some c) (hG : stepsInPlace c e.head = true) :
    ∃ h d, wgOf (retire e t r none none).1 e.id.berth = some h ∧ crewOf h n = some d ∧ stepsInPlace d e.head = true := by
  obtain ⟨d, hd, kept, -⟩ := kept_commit e g n c r none (fun _ => True) (fun _ => True) hw hc (fun _ _ => trivial) (fun _ _ => trivial) (fun _ _ _ _ => trivial)
  have hf : d.frontier = c.frontier := kept.frontier
  have hsp : d.spilled = c.spilled := kept.spilled
  refine ⟨_, { d with latches := latchStep e d.latches, ctx := { retiredCtx e none r d.ctx with yields := (retiredCtx e none r d.ctx).yields.filter (fun y => decide (y ≠ e.id)) } },
    wgOf_retire_crew e t n g r none hU hN hw hg, ?_, ?_⟩
  · simp [retiredWg, crewOf_modAllCtx, crewOf_modCrew, hd]
  · simpa [stepsInPlace, hf, hsp] using hG

/-- An instruction that shares nothing, after which its context alone moves, leaves every other workgroup as before. -/
theorem othersSame_completed {s : State} {f : WG → WG} (hU : Unshared e) (hN : storesIn e.i = false)
    (hadv : advance e (retire e t r none none).1 = modWg (retire e t r none none).1 e.id.berth f) (hs : ∀ k, k ≠ e.id.berth → wgOf t k = wgOf s k) :
    OthersSame s (completed e t r none none) e.id.berth := by
  intro k h hk hh
  have ht : completed e t r none none = advance e (retire e t r none none).1 := by
    simp only [completed, retire_unshared e t r none hU]
  rw [ht, hadv, wgOf_modWg_of_ne _ _ _ _ (Ne.symm hk), wgOf_retire_other e t k r none hU hN hk, hs k hk, hh]
  refine ⟨_, rfl, ?_⟩
  split
  · exact ⟨rfl, rfl, fun m d hd => sameCrew_modAllCtx hd _⟩
  · exact ⟨rfl, rfl, fun m d hd => ⟨d, hd, rfl⟩⟩

end

theorem fpxOr_crew {s : State} {id : CtxId} {n : Nat} (fl : BitVec 5) (hw : id.who = .crew n) :
    fpxOr s id fl = modWg s id.berth (fun g => modCrew g n (fun c => { c with fpx := c.fpx ||| fl })) := by
  simp [fpxOr, hw]

/-- The crew's workgroup once its sticky flags have gained. -/
theorem wgOf_gained {e : Env} {t : State} {n : Nat} {c : Crew} {fl : BitVec 5} (hw : e.id.who = .crew n) (hc : crewOf e.g n = some c)
    (hg : wgOf e.s e.id.berth = some e.g) (ht : (t = e.s ∧ fl = 0) ∨ t = fpxOr e.s e.id fl) :
    wgOf t e.id.berth = some (modCrew e.g n (fun x => { x with fpx := c.fpx ||| fl })) := by
  obtain ⟨rfl, rfl⟩ | rfl := ht
  · rw [hg, modCrew_same hc]
    simp
  · rw [fpxOr_crew fl hw, wgOf_modWg_self, hg, Option.map_some]
    exact congrArg some (modCrew_congr hc rfl)

/-- Gaining sticky flags changes no other workgroup. -/
theorem wgOf_gained_other {e : Env} {t : State} {n k : Nat} {fl : BitVec 5} (hw : e.id.who = .crew n) (hk : k ≠ e.id.berth)
    (ht : (t = e.s ∧ fl = 0) ∨ t = fpxOr e.s e.id fl) : wgOf t k = wgOf e.s k := by
  obtain ⟨rfl, -⟩ | rfl := ht
  · rfl
  · rw [fpxOr_crew fl hw, wgOf_modWg_of_ne _ _ _ _ (Ne.symm hk)]

/-- Gaining sticky flags touches no memory. -/
theorem memEq_gained {e : Env} {t : State} {n : Nat} {fl : BitVec 5} (hw : e.id.who = .crew n) (ht : (t = e.s ∧ fl = 0) ∨ t = fpxOr e.s e.id fl) :
    MemEq e.s t := by
  obtain ⟨rfl, -⟩ | rfl := ht
  · exact .refl _
  · rw [fpxOr_crew fl hw]
    exact memEq_modWg ..

/-- The last reads that a written register does not undo are among all last reads. -/
theorem mem_freedNames_nil {u : Use} {f : Fields} {written : List Nat} {k : Nat} (h : k ∈ freedNames u f written) : k ∈ freedNames u f [] := by
  simp only [freedNames, List.mem_filter] at h ⊢
  exact ⟨h.1, rfl⟩

theorem storesIn_vector {i : Instr} (h : isVector i = true) : storesIn i = false := by
  cases i
  case st | stx => cases h
  all_goals rfl

/-- Settles O48: a vector instruction completes with a result for its destination alone (`exec_vector`), and a completion that shares nothing keeps
whatever its result does not name (`completed_crew`). -/
theorem vectorFrame : Obligations.VectorFrame := by
  unfold Obligations.VectorFrame
  intro i s t e n c hv hp hU hG hw hc hx
  obtain ⟨m, fl, t0, r, p, hdone, ht, hexact, hvec, hpred, hpush⟩ := exec_vector hv hp
  obtain rfl : p = none := hpush hU.2.1
  obtain rfl : t = completed (e.drawing m) t0 r none none := by
    rw [hx] at hdone
    cases hdone
    rfl
  have hN : storesIn e.i = false := by rw [passes_instr hp]; exact storesIn_vector hv
  have hg := wgOf_gained hw hc (passes_wg hp) ht
  have hgc : crewOf (modCrew e.g n (fun x => { x with fpx := c.fpx ||| fl })) n = some { c with fpx := c.fpx ||| fl } := by simp [crewOf_modCrew, hc]
  have hstep : stepsInPlace c e.head = true := hG n c hw hc
  obtain ⟨h, d, hh, hd, hs⟩ := retired_inPlace (e := e.drawing m) (r := r) hU hN hw hg hgc hstep
  refine ⟨(((memEq_passes hp).trans (memEq_gained hw ht)).trans (memEq_completed_crew (e.drawing m) t0 r n h d hU hw hh hd hs)).same,
    othersSame_completed (e := e.drawing m) hU hN (advance_inPlace _ _ n h d hw hh hd hs) (fun k hk => wgOf_gained_other hw hk ht), ?_⟩
  obtain ⟨g', c', hg', hc', hregs, hpreds, hfpx, hdraw, hrest⟩ := completed_crew (e.drawing m) t0 r n c (c.fpx ||| fl) hU hN hstep hw hc hg
    (fun k => k ∈ roleNames .crew e.u.dst e.f.dst.toNat ∨ k ∈ freedNames e.u e.f []) (fun k => e.u.dst = .idx ∧ k = e.f.dst.toNat)
    (fun v hv => .inl (hvec v hv)) (fun k hk => .inr (mem_freedNames_nil hk)) (fun k a b hk => hpred k a b hk)
  refine ⟨g', c', hg', hc', fun k h1 h2 => hregs k (not_or.mpr ⟨h1, h2⟩), hpreds, ?_, fun hi => ?_, hrest⟩
  · rw [hfpx, ← BitVec.or_assoc, BitVec.or_self]
  · obtain ⟨rfl, rfl⟩ := hexact hi
    exact ⟨by rw [hfpx]; simp, hdraw (passes_draws hp)⟩

end Sys2Proof
end

section
namespace Sys2Proof
open Machine

/-! ### What a pilot's instruction leaves of its workgroup -/

/-- A pilot q keeps what p has, but for registers in rs and c-bits in cs, and what its context counts. -/
structure PilotKept (rs cs : Nat → Prop) (p q : Pilot) : Prop where
  sregs : ∀ k, ¬ rs k → q.sregs.getD k 0 = p.sregs.getD k 0
  cbits : ∀ k, ¬ cs k → cbitOf q k = cbitOf p k
  pc : q.pc = p.pc
  handler : q.ctx.handler = p.ctx.handler
  regions : q.regions = p.regions

section
variable {rs cs : Nat → Prop} {p q : Pilot}

theorem PilotKept.refl (rs cs : Nat → Prop) (p : Pilot) : PilotKept rs cs p p := ⟨fun _ _ => rfl, fun _ _ => rfl, rfl, rfl, rfl⟩

theorem PilotKept.trans {o : Pilot} (h : PilotKept rs cs p q) (k : PilotKept rs cs q o) : PilotKept rs cs p o :=
  ⟨fun n hn => (k.sregs n hn).trans (h.sregs n hn), fun n hn => (k.cbits n hn).trans (h.cbits n hn), k.pc.trans h.pc, k.handler.trans h.handler,
    k.regions.trans h.regions⟩

/-- Writing a scalar register keeps the others. -/
theorem kept_scalarWrite {n : Nat} (v : DWord) (h : rs n) : PilotKept rs cs p (scalarWrite p n v) := by
  refine ⟨fun k hk => ?_, fun _ _ => rfl, rfl, rfl, rfl⟩
  have hne : n ≠ k := fun x => hk (x ▸ h)
  simp [scalarWrite, List.getD_eq_getElem?_getD, List.getElem?_set_ne hne]

/-- Writing a c-bit keeps the others. -/
theorem kept_cbitWrite {n : Nat} (v : Bool) (h : cs n) : PilotKept rs cs p (cbitWrite p n v) := by
  unfold cbitWrite
  split
  · exact .refl ..
  · refine ⟨fun _ _ => rfl, fun k hk => ?_, rfl, rfl, rfl⟩
    have hne : n ≠ k := fun x => hk (x ▸ h)
    by_cases hlt : k < 8
    · rcases Nat.lt_or_gt_of_ne hne with h | h
      · have hnot : ¬ k < n := by omega
        have hsub : k - n ≠ 0 := by omega
        cases v <;> simp [cbitOf, bitAt, hlt, hnot, hsub]
      · cases v <;> simp [cbitOf, bitAt, hlt, h]
    · cases v <;> simp [cbitOf, bitAt, BitVec.getLsbD_of_ge _ _ (Nat.le_of_not_lt hlt)]

end

section
variable {e : Env} {g : WG} {r : Result} {t : State}

/-- COMMITTING A PILOT'S RESULT (R22, R23): it keeps every register and c-bit that the result does not name. -/
theorem kept_commit_pilot {rs cs : Nat → Prop} (hw : e.id.who = .pilot) (hs : ∀ k v, r.scalar = some (k, v) → rs k) (hc : ∀ k v, r.cbit = some (k, v) → cs k) :
    PilotKept rs cs g.pilot (commitResult e g r none).pilot := by
  unfold commitResult
  simp only [hw]
  split
  · refine ⟨fun _ _ => rfl, fun _ _ => rfl, rfl, ?_, rfl⟩
    cases hf : flagOf g.pilot.ctx e.f.pre <;> simp [modCtxIn, flagAdd, hf]
  · obtain ⟨vec, scalar, pred, cbit, draw, chain⟩ := r
    rcases scalar with _ | x
    · cases cbit with
      | none => exact .refl ..
      | some y => exact kept_cbitWrite _ (hc _ _ rfl)
    · have hx : PilotKept rs cs g.pilot (scalarWrite g.pilot x.1 x.2) := kept_scalarWrite _ (hs _ _ rfl)
      cases cbit with
      | none => exact hx
      | some y => exact hx.trans (kept_cbitWrite _ (hc _ _ rfl))

/-- Committing a pilot's result changes nothing else of its workgroup. -/
theorem commit_pilot_rest (hw : e.id.who = .pilot) : SameRest g (commitResult e g r none) ∧ (commitResult e g r none).crews = g.crews := by
  unfold commitResult
  simp only [hw]
  split <;> exact ⟨rfl, rfl⟩

/-- The rest of a workgroup includes its peer. -/
theorem peer_sameRest {h : WG} (hs : SameRest g h) : h.peer = g.peer := by
  unfold SameRest at hs
  have hp := congrArg WG.peer hs
  exact hp

/-- An instruction without a result commits nothing. -/
theorem commit_pilot_none (hw : e.id.who = .pilot) (hd : e.draws = 0) : commitResult e g Result.none none = g := by
  simp [commitResult, hw, hd, Result.none, Result.isEmpty, applyResult]

/-- A pilot's workgroup h, with an instruction's result committed, once the instruction has retired and the pilot has gone on. -/
def pilotAfter (e : Env) (r : Result) (h : WG) : WG :=
  let h := modAllCtx (modCtxIn h .pilot (retiredCtx e none r)) (fun c => { c with yields := c.yields.filter (fun y => decide (y ≠ e.id)) })
  { h with pilot := { h.pilot with pc := BitVec.ofNat 64 (nextPc h.pilot.pc.toNat), landing := none } }

@[simp] theorem pilotAfter_sregs (h : WG) : (pilotAfter e r h).pilot.sregs = h.pilot.sregs := rfl
@[simp] theorem pilotAfter_cbits (h : WG) : (pilotAfter e r h).pilot.cbits = h.pilot.cbits := rfl
@[simp] theorem pilotAfter_pc (h : WG) : (pilotAfter e r h).pilot.pc = BitVec.ofNat 64 (nextPc h.pilot.pc.toNat) := rfl
@[simp] theorem pilotAfter_handler (h : WG) : (pilotAfter e r h).pilot.ctx.handler = h.pilot.ctx.handler := rfl
@[simp] theorem pilotAfter_regions (h : WG) : (pilotAfter e r h).pilot.regions = h.pilot.regions := rfl

/-- Every crew is as before but for its yields. -/
theorem crewOf_pilotAfter {h : WG} {m : Nat} {d : Crew} (hd : crewOf h m = some d) : ∃ d', crewOf (pilotAfter e r h) m = some d' ∧ SameCrew d d' :=
  sameCrew_modAllCtx (g := modCtxIn h .pilot (retiredCtx e none r)) hd (fun c => c.yields.filter (fun y => decide (y ≠ e.id)))

/-- So it is after the instruction's result is committed too. -/
theorem crewOf_pilotDone (hw : e.id.who = .pilot) {m : Nat} {d : Crew} (hd : crewOf g m = some d) :
    ∃ d', crewOf (pilotAfter e r (commitResult e g r none)) m = some d' ∧ SameCrew d d' :=
  crewOf_pilotAfter (by rw [crewOf, (commit_pilot_rest hw).2]; exact hd)

theorem sameRest_withPilot (h : WG) (p : Pilot) : SameRest h { h with pilot := p } := rfl

/-- Nothing else of the workgroup changes. -/
theorem sameRest_pilotAfter (h : WG) : SameRest h (pilotAfter e r h) :=
  sameRest_trans (sameRest_trans (sameRest_withPilot h _) (sameRest_modAllCtx _ _)) (sameRest_withPilot _ _)

/-- An instruction lets no store of a peer go on where it is no store, or where its workgroup has no peer (R330). -/
theorem slackFreed_peerless (hg : wgOf t e.id.berth = some g) (hs : storesIn e.i = true → g.peer = none) : slackFreed e t = t := by
  unfold slackFreed
  split
  case isTrue h => simp [slackWake, hg, hs h]
  case isFalse => rfl

/-- COMPLETING A PILOT'S INSTRUCTION that shares nothing and lets no peer go on: no memory and no other workgroup changes, and what becomes of its own. -/
theorem completed_pilot_frame (hU : Unshared e) (hw : e.id.who = .pilot) (hg : wgOf t e.id.berth = some g) (hs : storesIn e.i = true → g.peer = none) :
    MemEq t (completed e t r none none) ∧ OthersSame t (completed e t r none none) e.id.berth ∧
      wgOf (completed e t r none none) e.id.berth = some (pilotAfter e r (commitResult e g r none)) := by
  have hpeer : (commitResult e g r none).peer = g.peer := peer_sameRest (commit_pilot_rest hw).1
  have hfreed : slackFreed e (modCtx (modWg t e.id.berth (fun g => commitResult e g r none)) e.id (retiredCtx e none r)) =
      modCtx (modWg t e.id.berth (fun g => commitResult e g r none)) e.id (retiredCtx e none r) :=
    slackFreed_peerless (g := modCtxIn (commitResult e g r none) .pilot (retiredCtx e none r)) (by simp [modCtx, hw, hg]) (fun h => hpeer.trans (hs h))
  have hdone : completed e t r none none = advance e (retire e t r none none).1 := by
    simp only [completed, retire_unshared e t r none hU]
  have hretire : (retire e t r none none).1 =
      yieldNote (dropRemote (modCtx (modWg t e.id.berth (fun g => commitResult e g r none)) e.id (retiredCtx e none r)) e.id) e.id := by
    rw [retire_unshared e t r none hU]
    simp only [latched, hw, hfreed]
  rw [hdone, advance_pilot e _ hw]
  refine ⟨(memEq_retire e t r none hU).trans (memEq_modWg ..), fun k h hk hh => ?_, ?_⟩
  · have hk' : e.id.berth ≠ k := Ne.symm hk
    rw [wgOf_modWg_of_ne _ _ _ _ hk', hretire, wgOf_yieldNote, wgOf_dropRemote, modCtx, wgOf_modWg_of_ne _ _ _ _ hk', wgOf_modWg_of_ne _ _ _ _ hk', hh]
    refine ⟨_, rfl, ?_⟩
    split
    · exact ⟨rfl, rfl, fun m d hd => sameCrew_modAllCtx hd _⟩
    · exact ⟨rfl, rfl, fun m d hd => ⟨d, hd, rfl⟩⟩
  · rw [wgOf_modWg_self, hretire]
    simp [wgOf_yieldNote, modCtx, hw, hg, pilotAfter]

/-! ### Format P -/

/-- How a pilot's instruction completes: with a result for its destination alone. -/
def PilotDone (e : Env) (o : Out) : Prop :=
  ∃ r p, o = .next (completed e e.s r p none) ∧ (∀ k v, r.scalar = some (k, v) → e.u.dst = .word ∧ k = e.f.dst.toNat) ∧
    (∀ k v, r.cbit = some (k, v) → e.u.dst = .idx ∧ k = e.f.dst.toNat) ∧ (pushName e.u e.f = none → p = none)

/-- A value written as a 64-bit result goes to the destination register. -/
theorem scalar_done (hk : e.k = .pilot) (hd : e.u.dst = .word) (v : Nat) : PilotDone e (completeScalar e v) := by
  refine ⟨_, _, rfl, fun k v h => ⟨hd, ?_⟩, fun k v h => ?_, dstEntry_none⟩
  · unfold dstResult at h
    split at h
    · cases h
    · simp only [hk] at h
      cases h
      rfl
  · unfold dstResult at h
    split at h
    · cases h
    · simp only [hk] at h
      cases h

/-- A bit goes to the destination c-bit. -/
theorem cbit_done (hd : e.u.dst = .idx) (b : Bool) : PilotDone e (completeCbit e b) := by
  refine ⟨_, none, rfl, nofun, fun k v h => ⟨hd, ?_⟩, fun _ => rfl⟩
  cases h
  rfl

/-- A division that names no pigeonhole writes its result as the others do (R98). -/
theorem divide_done (hk : e.k = .pilot) (hd : e.u.dst = .word) (hq : pushName e.u e.f = none) (v : Nat) : PilotDone e (divideTo e v) := by
  have : divideTo e v = completeScalar e v := by
    unfold divideTo
    rw [hq]
    cases ctxIn e.g e.id.who <;> rfl
  rw [this]
  exact scalar_done hk hd v

end

theorem passes_kind {i : Instr} {s : State} {e : Env} (h : Passes i s e) : e.k = whoKind e.id.who := by
  obtain ⟨g, f, c, hd, -, -, -, -, -, -, -, -, -, -, c', -, rfl, -⟩ := prep_go i s e h
  unfold operandsOf
  split <;> rfl

/-- An instruction that has passed its checks does what issue lets it do. -/
theorem pilotDone_issue {i : Instr} {s : State} {e : Env} {act : Env → Out} (hp : Passes i s e) (hx : exec i s = issue i s act)
    (h : PilotDone e (act e)) : PilotDone e (exec i s) := by
  rw [hx, passes_issue hp]; exact h

/-- An instruction of format P that names no pigeonhole completes with a result for its destination alone (R96). -/
theorem exec_scalar {i : Instr} {s : State} {e : Env} (hi : isScalar i = true) (hp : Passes i s e) (hw : e.id.who = .pilot)
    (hq : pushName e.u e.f = none) : PilotDone e (exec i s) := by
  have hk : e.k = .pilot := by rw [passes_kind hp, hw]; rfl
  have hu := passes_use hp
  cases i
  case sadd | ssub | smul | smulh | smin | smax | sand | sor | sxor | sshl | sshr | ssel | smov | sli | spopc | sclz | sctz | sbfe | sbfi | sext =>
    exact pilotDone_issue hp rfl (scalar_done hk (by rw [hu]; rfl) _)
  case sdiv | srem => exact pilotDone_issue hp rfl (divide_done hk (by rw [hu]; rfl) hq _)
  case scmp | cop => exact pilotDone_issue hp rfl (cbit_done (by rw [hu]; rfl) _)
  all_goals cases hi

theorem storesIn_scalar {i : Instr} (h : isScalar i = true) : storesIn i = false := by
  cases i
  case st | stx => cases h
  all_goals rfl

/-- A pilot's instruction of format P changes its destination and its place (R22, R25, R96). -/
theorem scalar_frame {i : Instr} {s t : State} {e : Env} (hi : isScalar i = true) (hp : Passes i s e) (hU : Unshared e) (hw : e.id.who = .pilot)
    (hx : exec i s = .next t) : ∃ r, MemEq s t ∧ OthersSame e.s t e.id.berth ∧ wgOf t e.id.berth = some (pilotAfter e r (commitResult e e.g r none)) ∧
      PilotKept (fun k => e.u.dst = .word ∧ k = e.f.dst.toNat) (fun k => e.u.dst = .idx ∧ k = e.f.dst.toNat) e.g.pilot (commitResult e e.g r none).pilot := by
  obtain ⟨r, p, hdone, hsc, hcb, hpush⟩ := exec_scalar hi hp hw hU.2.1
  obtain rfl : p = none := hpush hU.2.1
  obtain rfl : t = completed e e.s r none none := by
    rw [hx] at hdone
    cases hdone
    rfl
  have hN : storesIn e.i = true → e.g.peer = none := by rw [passes_instr hp, storesIn_scalar hi]; nofun
  obtain ⟨hmem, hothers, hg⟩ := completed_pilot_frame (r := r) hU hw (passes_wg hp) hN
  exact ⟨r, (memEq_passes hp).trans hmem, hothers, hg, kept_commit_pilot hw hsc hcb⟩

/-! ### A false guard -/

section
variable {i : Instr} {f : Fields}

/-- It designates none for a pop or a push. -/
theorem designated_plain {k : CtxKind} (hp : PlainOperands k (useOf k i) f) : designated k i = [] := by
  obtain ⟨⟨hd, -⟩, ⟨ha, -⟩, -, -⟩ := hp
  unfold designated
  split
  · exact absurd rfl ha
  · exact absurd rfl ha
  · exact absurd rfl ha
  · exact absurd rfl ha
  · exact absurd rfl hd
  · exact absurd rfl hd
  · rfl

/-- An instruction that names general registers alone names no pigeonhole. -/
theorem queueUses_plain {k : CtxKind} (hp : PlainOperands k (useOf k i) f) : queueUses k i (useOf k i) f = [] := by
  have hdes := designated_plain hp
  obtain ⟨hd, ha, hb, hc⟩ := hp
  simp [queueUses, popList, pushName, popsQueue_plain k _ _ hd, popsQueue_plain k _ _ ha, popsQueue_plain k _ _ hb, popsQueue_plain k _ _ hc, hdes]

/-- It misuses no queue. -/
theorem misuseOf_plain {id : CtxId} {s : State} {g : WG} (hp : PlainOperands (whoKind id.who) (useOf (whoKind id.who) i) f) :
    misuseOf s id g i (useOf (whoKind id.who) i) f = none := by
  unfold misuseOf
  split
  · exact absurd rfl hp.2.1.1
  · rw [queueUses_plain hp]
    rfl

/-- No operand of an instruction without an active lane is refused for its value. -/
theorem valueIllegal_idle {s : State} {id : CtxId} {g : WG} {u : Use} {h : FEntry} (ha : activeFor id g h f.pre = 0) : valueIllegal s id g i u f h = false := by
  unfold valueIllegal
  split <;> simp [mkEnv, ha]

end

/-- The operands of an instruction that does nothing: it names no register. -/
def idleEnv (e : Env) : Env := { e with u := useNone }

/-- A pilot's instruction with a false guard goes on at the next slot, unless its stores must wait for a pair (R22). -/
theorem prepQueues_idle {e : Env} {c : Ctx} (hc : ctxIn e.g e.id.who = some c) (ha : e.active = 0) (hk : e.k = .pilot)
    (hs : storesIn e.i = true → e.g.peer = none) : prepQueues e = .done (advance (idleEnv e) (retire (idleEnv e) e.s Result.none none none).1) := by
  have hidle : ordersIdle e = false := by
    unfold ordersIdle
    split
    · rw [hk]; rfl
    · rfl
  have hslack : (storesIn e.i && slackFull e.s e.id e.g) = false := by
    cases hst : storesIn e.i
    · rfl
    · simp [slackFull, hs hst]
  have hnone : (decide (e.active = 0) && !ordersIdle e) = true := by simp [ha, hidle]
  simp only [prepQueues, hc, hnone, hslack, if_true, Bool.false_eq_true, if_false]
  rfl

/-- The operands of a pilot whose guard is false: no lane is active. -/
theorem activeFor_false {id : CtxId} {g : WG} {h : FEntry} {p : Pre} (hw : id.who = .pilot) (hb : cbitOf g.pilot p.grd.toNat = p.gneg) :
    activeFor id g h p = 0 := by
  simp [activeFor, hw, hb]

/-- A pilot's instruction with legal operands and a false guard passes its checks and completes with no result (R22, R75). -/
theorem exec_idle {i : Instr} {s : State} {g : WG} {f : Fields} {c : Ctx} {h : FEntry} (hi : Issues s g c h) (hf : fieldsOf i = some f)
    (hw : s.cur.who = .pilot) (hr : i.wfFor .pilot = true) (hp : privileged i = false) (hfi : fieldIllegal .pilot g c i = false)
    (hop : PlainOperands .pilot (useOf .pilot i) f) (hup : c.upsets = []) (hpe : c.pend = []) (hfl : ∀ n, flagOf c f.pre = some n → c.flags.getD n 0 < 15)
    (hd : c.divided = none) (hs : storesIn i = true → g.peer = none) (hb : cbitOf g.pilot f.pre.grd.toNat = f.pre.gneg) :
    let e := idleEnv (mkEnv (setWg s s.cur.berth g) s.cur g i (useOf .pilot i) f h)
    exec i s = .next (advance e (retire e e.s Result.none none none).1) := by
  have hk : whoKind s.cur.who = .pilot := by rw [hw]; rfl
  have hlegal : illegalReason .pilot i = none := Option.isNone_iff_eq_none.mp hr
  obtain ⟨hod, hoa, hob, hoc⟩ := id hop
  have ha := activeFor_false (h := h) hw hb
  have hc : ctxIn g s.cur.who = some c := hi.2.1
  have hprep := prep_operands_legal hi hf (by rw [hk]; exact hlegal) hp
    (by rw [hk]; exact fun l => ⟨srcBad_plain _ l _ _ hoa, srcBad_plain _ l _ _ hob, srcBad_plain _ l _ _ hoc⟩)
    (by rw [hk]; exact dstBad_plain _ _ _ hod) (by rw [hk]; nofun) (by rw [hk]; exact hfi) hup hpe hfl
  rw [valueIllegal_idle ha, Bool.and_false, if_neg Bool.false_ne_true] at hprep
  have hchecks := ((prepChecks_traps (u := setWg s s.cur.berth g) hc hd rfl).2 (misuseOf_plain (by rw [hk]; exact hop))).2 (fun h0 => absurd ha h0)
  have hfits : overruns (mkEnv (setWg s s.cur.berth g) s.cur g i (useOf (whoKind s.cur.who) i) f h) c = false := by simp [overruns, mkEnv, hw]
  rw [hfits, Bool.false_and, if_neg Bool.false_ne_true, prepQueues_idle (c := c) hc ha hk hs] at hchecks
  rw [hchecks, hk] at hprep
  exact exec_of_prep hf hprep

/-- What such an instruction leaves: memory, the other workgroups, and its own but for its pilot's place. -/
theorem idle_frame {e : Env} {s : State} {g : WG} (hU : Unshared e) (hw : e.id.who = .pilot) (hd : e.draws = 0) (hes : e.s = setWg s e.id.berth g)
    (hs : storesIn e.i = true → g.peer = none) :
    SameMemory s (advance e (retire e e.s Result.none none none).1) ∧ OthersSame s (advance e (retire e e.s Result.none none none).1) e.id.berth ∧
      wgOf (advance e (retire e e.s Result.none none none).1) e.id.berth = some (pilotAfter e Result.none g) := by
  have hdone : completed e e.s Result.none none none = advance e (retire e e.s Result.none none none).1 := by
    simp only [completed, retire_unshared e e.s Result.none none hU]
  have hg : wgOf e.s e.id.berth = some g := by rw [hes]; simp
  obtain ⟨hmem, hothers, hwg⟩ := completed_pilot_frame (r := Result.none) hU hw hg hs
  rw [commit_pilot_none hw hd] at hwg
  rw [hdone] at hmem hothers hwg
  have hset : MemEq s e.s := by rw [hes]; exact memEq_setWg ..
  refine ⟨(hset.trans hmem).same, fun k x hk hx => hothers k x hk ?_, hwg⟩
  rw [hes, wgOf_setWg, if_neg (Ne.symm hk)]
  exact hx

/-- Settles O49: an instruction of format P commits a result for its destination alone (`scalar_frame`), one whose guard is false commits none
(`exec_idle`), and a pilot that completes moves its place alone (`completed_pilot_frame`). -/
theorem pilotFrame : Obligations.PilotFrame := by
  unfold Obligations.PilotFrame
  refine ⟨fun i s t e hi hp hU hw hx => ?_, fun i s g f c h hi hf hw hr hp hfi hop hup hpe hfl hcp hgr hd hs hb => ?_⟩
  · obtain ⟨r, hmem, hothers, hg, kept⟩ := scalar_frame hi hp hU hw hx
    refine ⟨hmem.same, hothers, _, hg, fun k hk => ?_, fun k hk => ?_, ?_, ?_, ?_, sameRest_trans (commit_pilot_rest hw).1 (sameRest_pilotAfter _),
      fun m d hm => crewOf_pilotDone hw hm⟩
    · rw [pilotAfter_sregs, kept.sregs k hk]
    · rw [cbitOf, pilotAfter_cbits]
      exact kept.cbits k hk
    · rw [pilotAfter_pc, kept.pc]
    · rw [pilotAfter_handler, kept.handler]
    · rw [pilotAfter_regions, kept.regions]
  · obtain ⟨hmem, hothers, hg⟩ := idle_frame (e := idleEnv (mkEnv (setWg s s.cur.berth g) s.cur g i (useOf .pilot i) f h)) (s := s) (g := g)
      ⟨rfl, rfl, c, hi.2.1, hcp, hgr, hd⟩ hw rfl rfl hs
    exact ⟨_, _, exec_idle hi hf hw hr hp hfi hop hup hpe hfl hd hs hb, hmem, hothers, hg, pilotAfter_sregs g, pilotAfter_cbits g, pilotAfter_pc g,
      pilotAfter_handler g, sameRest_pilotAfter g, fun m d hm => crewOf_pilotAfter hm⟩

end Sys2Proof
end

section
namespace Sys2Proof
open Machine

/-! ### Illegal lines -/

/-- A flag code of the line word is reserved (R60, R63). -/
theorem reservedFlags_iff (a b : Nat) : ((decide (12 ≤ a) && decide (a ≤ 14)) || (decide (12 ≤ b) && decide (b ≤ 14))) = true ↔
    (12 ≤ a ∧ a ≤ 14) ∨ (12 ≤ b ∧ b ≤ 14) := by simp

/-- A slot of a pair is of neither pairable format (R61, R63). -/
theorem unpairable_iff (l : BitVec 512) (ks : List Nat) :
    (ks.any (fun s => !(pairable (lineSlot l s) && pairable (lineSlot l (s + 1))))) = true ↔
      ∃ k, k ∈ ks ∧ ¬ (bits (lineSlot l k) 11 8 ≤ 1 ∧ bits (lineSlot l (k + 1)) 11 8 ≤ 1) := by
  simp only [List.any_eq_true, Bool.not_eq_true', Bool.and_eq_false_iff, pairable, decide_eq_false_iff_not, Decidable.not_and_iff_or_not]

/-- A slot selects a flag that its line does not name (R60, R63). -/
theorem unnamedFlag_iff (l : BitVec 512) (a b : Nat) :
    ([0, 1, 2, 3, 4].any (fun s => (bits (lineSlot l s) 17 16 == 1 && a == 15) || (bits (lineSlot l s) 17 16 == 2 && b == 15))) = true ↔
      ∃ k, k < 5 ∧ ((bits (lineSlot l k) 17 16 = 1 ∧ a = 15) ∨ (bits (lineSlot l k) 17 16 = 2 ∧ b = 15)) := by
  have hmem : ∀ k, k ∈ [0, 1, 2, 3, 4] ↔ k < 5 := fun k => by simp; omega
  simp only [List.any_eq_true, hmem, Bool.or_eq_true, Bool.and_eq_true, beq_iff_eq]

/-- An illegal line stops a context that is to enter it, at its entry slot (R63, R64). -/
theorem enterLine_illegal {s t : State} {id : CtxId} {g : WG} {h : FEntry} {flip b : BitVec 512} {r : Nat}
    (ha : arriveLine s id g h (lineOf g h id.who) flip = .bits b t) (hr : lineReason b = some r) :
    enterLine s id g h flip = .error (trapHere t id (mkTrap 0x02 r h.mask)) := by
  simp only [enterLine, ha, hr]

/-- A line that arrives for a context that is to enter it may stop it (R62, R64). -/
theorem exec_lineFetch_stop {s t : State} {c : CtxId} {g : WG} {h : FEntry} {flip : BitVec 512} (hg : wgOf s c.berth = some g)
    (hh : headFor s c g = some h) (he : ctxEligible s c = true) (hd : dueTrap s c = none) (hl : inLine g h c.who = false)
    (ht : enterLine s c g h flip = .error t) : exec (.lineFetch c flip) s = .next t := by
  show execLineFetch c flip s = _
  simp [execLineFetch, hg, hh, he, hd, hl, ht]

/-- A reason whose condition holds is a reason given, of a condition that holds. -/
theorem reason_of_cond {cond : Nat → Prop} {r : Nat} (h : cond r) :
    (some r = none ↔ ∀ k, ¬ cond k) ∧ ∀ k, some r = some k → cond k :=
  ⟨⟨nofun, fun hn => absurd h (hn r)⟩, fun _ hk => Option.some.inj hk ▸ h⟩

/-- Settles O53: the word's conditions are tested in the order of their reasons, and the arriving line traps with the first that holds. -/
theorem illegalLinesTrap : Obligations.IllegalLinesTrap := by
  refine ⟨fun l => ?_, fun s t c g h flip b r hg hh he hd hl ha hr => ?_⟩
  · intro reserved cond
    unfold lineReason
    split
    case isTrue h1 => exact reason_of_cond (cond := cond) (r := 1) h1
    case isFalse h1 =>
    split
    case isTrue h2 => exact reason_of_cond (cond := cond) (r := 2) ((reservedFlags_iff ..).mp h2)
    case isFalse h2 =>
    split
    case isTrue h3 => exact reason_of_cond (cond := cond) (r := 3) ((unpairable_iff ..).mp h3)
    case isFalse h3 =>
    split
    case isTrue h4 => exact reason_of_cond (cond := cond) (r := 4) ((unnamedFlag_iff ..).mp h4)
    case isFalse h4 =>
    refine ⟨⟨fun _ r => ?_, fun _ => rfl⟩, nofun⟩
    match r with
    | 0 => exact id
    | 1 => exact h1
    | 2 => exact fun hc => h2 ((reservedFlags_iff ..).mpr hc)
    | 3 => exact fun hc => h3 ((unpairable_iff ..).mpr hc)
    | 4 => exact fun hc => h4 ((unnamedFlag_iff ..).mpr hc)
    | _ + 5 => exact id
  · exact exec_lineFetch_stop hg hh he hd hl (enterLine_illegal ha hr)

end Sys2Proof
end

section
namespace Sys2Proof
open Machine

/-! ### Words of the encoding tables -/

/-- Settles O54: the words, read off the tables of the encoding, decoded. -/
theorem decodeWords : Obligations.DecodeWords := by
  unfold Obligations.DecodeWords
  refine ⟨rfl, rfl, rfl, rfl, rfl, rfl, rfl, rfl, rfl, rfl, rfl, rfl, rfl, rfl⟩

end Sys2Proof
end

section
namespace Sys2Proof
open Machine

/-! ### Words written field by field (R68, R71, R72)

A layout lists the fields of a word from the lowest bit on, each with its width and its value. -/

/-- The number whose fields have the values of a layout. -/
def joinFields : List (Nat × Nat) → Nat
  | [] => 0
  | (n, d) :: fs => d + 2 ^ n * joinFields fs

/-- The fields of a number have the values of a layout. -/
def HoldsFields : List (Nat × Nat) → Nat → Prop
  | [], _ => True
  | (n, d) :: fs, x => x % 2 ^ n = d ∧ HoldsFields fs (x / 2 ^ n)

/-- The values of a layout fit their fields. -/
def FitsFields : List (Nat × Nat) → Prop
  | [] => True
  | (n, d) :: fs => d < 2 ^ n ∧ FitsFields fs

/-- The bits of a layout. -/
def fieldBits : List (Nat × Nat) → Nat
  | [] => 0
  | (n, _) :: fs => n + fieldBits fs

/-- Values that fit make a number of the layout's bits. -/
theorem joinFields_lt {fs : List (Nat × Nat)} (h : FitsFields fs) : joinFields fs < 2 ^ fieldBits fs := by
  induction fs with
  | nil => exact Nat.one_pos
  | cons f fs ih =>
    obtain ⟨n, d⟩ := f
    obtain ⟨hd, hfs⟩ := h
    calc d + 2 ^ n * joinFields fs < 2 ^ n * joinFields fs + 2 ^ n := by rw [Nat.add_comm]; exact Nat.add_lt_add_left hd _
      _ = 2 ^ n * (joinFields fs + 1) := (Nat.mul_succ ..).symm
      _ ≤ 2 ^ n * 2 ^ fieldBits fs := Nat.mul_le_mul_left _ (ih hfs)
      _ = 2 ^ fieldBits ((n, d) :: fs) := by rw [fieldBits, Nat.pow_add]

/-- The number made of values that fit holds them. -/
theorem holdsFields_join {fs : List (Nat × Nat)} (h : FitsFields fs) : HoldsFields fs (joinFields fs) := by
  induction fs with
  | nil => trivial
  | cons f fs ih =>
    obtain ⟨n, d⟩ := f
    obtain ⟨hd, hfs⟩ := h
    refine ⟨by rw [joinFields, Nat.add_mul_mod_self_left, Nat.mod_eq_of_lt hd], ?_⟩
    rw [joinFields, Nat.add_mul_div_left _ _ (Nat.two_pow_pos n), Nat.div_eq_of_lt hd, Nat.zero_add]
    exact ih hfs

/-- A number of the layout's bits is the one made of the values that it holds. -/
theorem joinFields_of_holds {fs : List (Nat × Nat)} : ∀ {x : Nat}, x < 2 ^ fieldBits fs → HoldsFields fs x → joinFields fs = x := by
  induction fs with
  | nil => intro x hx _; exact (Nat.lt_one_iff.mp hx).symm
  | cons f fs ih =>
    obtain ⟨n, d⟩ := f
    rintro x hx ⟨rfl, hfs⟩
    rw [fieldBits, Nat.pow_add] at hx
    rw [joinFields, ih (Nat.div_lt_of_lt_mul hx) hfs, Nat.mod_add_div]

/-- A layout that fills a word and whose values fit their fields makes the one word that holds them. -/
theorem ofNat_joinFields_eq_iff {fs : List (Nat × Nat)} {w : BitVec 96} (hs : fieldBits fs = 96) (h : FitsFields fs) :
    BitVec.ofNat 96 (joinFields fs) = w ↔ HoldsFields fs w.toNat := by
  have hlt : joinFields fs < 2 ^ 96 := hs ▸ joinFields_lt h
  constructor
  · rintro rfl
    rw [BitVec.toNat_ofNat, Nat.mod_eq_of_lt hlt]
    exact holdsFields_join h
  · intro hw
    rw [joinFields_of_holds (by rw [hs]; exact w.isLt) hw, BitVec.ofNat_toNat, BitVec.setWidth_eq]

/-! ### Fields and their codes -/

theorem field_eq_iff (w : BitVec 96) (lo n : Nat) (v : BitVec n) : field w lo n = v ↔ w.toNat / 2 ^ lo % 2 ^ n = v.toNat := by
  rw [field, ← BitVec.toNat_inj, BitVec.toNat_ofNat]

theorem flag_eq_iff (w : BitVec 96) (k : Nat) (b : Bool) : flag w k = b ↔ w.toNat / 2 ^ k % 2 = bitOf b := by
  cases b <;> simp [flag, bitOf]

theorem bits_eq_div_mod (w : BitVec 96) (hi lo : Nat) : bits w hi lo = w.toNat / 2 ^ lo % 2 ^ (hi + 1 - lo) := by
  rw [bits, Nat.shiftRight_eq_div_pow]

theorem tyOfCode_eq_some_iff (n : Nat) (t : Ty) : tyOfCode n = some t ↔ n = tyCode t := by
  constructor
  · intro h
    unfold tyOfCode at h
    split at h <;> cases h <;> rfl
  · rintro rfl
    cases t <;> rfl

theorem rmOfCode_eq_some_iff (n : Nat) (r : Rm) : rmOfCode n = some r ↔ n = rmCode r := by
  constructor
  · intro h
    unfold rmOfCode at h
    split at h <;> cases h <;> rfl
  · rintro rfl
    cases r <;> rfl

/-- A default in place of a missing value, told apart from a value that is there. -/
theorem getD_and_isSome {α : Type} (o : Option α) (d a : α) : o.getD d = a ∧ o.isSome = true ↔ o = some a := by
  cases o <;> simp

/-- A field holds the code of a type where it names one, and that one. -/
theorem eq_tyCode_iff (n : Nat) (t : Ty) : n = tyCode t ↔ (tyOfCode n).getD .i32 = t ∧ (tyOfCode n).isSome = true := by
  rw [getD_and_isSome, tyOfCode_eq_some_iff]

/-- A field holds the code of a rounding mode where it names one, and that one. -/
theorem eq_rmCode_iff (n : Nat) (r : Rm) : n = rmCode r ↔ (rmOfCode n).getD .rne = r ∧ (rmOfCode n).isSome = true := by
  rw [getD_and_isSome, rmOfCode_eq_some_iff]

theorem tyCode_lt (t : Ty) : tyCode t < 2 ^ 5 := by cases t <;> decide
theorem rmCode_lt (r : Rm) : rmCode r < 2 ^ 3 := by cases r <;> decide
theorem bitOf_lt (b : Bool) : bitOf b < 2 ^ 1 := by cases b <;> decide

end Sys2Proof
end

section
namespace Sys2Proof
open Machine

/-! ### The layouts of the formats (R68, R71, R72) -/

/-- The fields that every format shares. -/
def layoutPre (fmt opc : Nat) (p : Pre) : List (Nat × Nat) :=
  [(8, opc), (4, fmt), (3, p.grd.toNat), (1, bitOf p.gneg), (2, p.sfl.toNat), (2, p.hsel.toNat), (2, p.hent.toNat), (3, p.lr.toNat)]

theorem fitsFields_pre {fmt opc : Nat} (hf : fmt < 2 ^ 4) (ho : opc < 2 ^ 8) (p : Pre) {fs : List (Nat × Nat)} (h : FitsFields fs) :
    FitsFields (layoutPre fmt opc p ++ fs) :=
  ⟨ho, hf, p.grd.isLt, bitOf_lt _, p.sfl.isLt, p.hsel.isLt, p.hent.isLt, p.lr.isLt, h⟩

theorem joinFields_pre (fmt opc : Nat) (p : Pre) (fs : List (Nat × Nat)) :
    joinFields (layoutPre fmt opc p ++ fs) = packPre fmt opc p + 2 ^ 25 * joinFields fs := by
  simp only [layoutPre, joinFields, packPre, List.cons_append, List.nil_append]
  omega

theorem holdsFields_pre (fmt opc : Nat) (p : Pre) (fs : List (Nat × Nat)) (w : BitVec 96) : HoldsFields (layoutPre fmt opc p ++ fs) w.toNat ↔
    (bits w 7 0 = opc ∧ bits w 11 8 = fmt) ∧ parsePre w = p ∧ HoldsFields fs (w.toNat / 2 ^ 25) := by
  obtain ⟨_, _, _, _, _, _⟩ := p
  simp only [layoutPre, HoldsFields, parsePre, bits_eq_div_mod, Pre.mk.injEq, field_eq_iff, flag_eq_iff, Nat.div_div_eq_div_mul, List.cons_append,
    List.nil_append]
  simp [and_assoc]

/-- A word of a format that has the shared fields p and the fields of a layout after them. -/
theorem ofNat_packPre_eq_iff {fmt opc : Nat} {fs : List (Nat × Nat)} (hf : fmt < 2 ^ 4) (ho : opc < 2 ^ 8) (hs : fieldBits fs = 71)
    (h : FitsFields fs) (p : Pre) (w : BitVec 96) : BitVec.ofNat 96 (packPre fmt opc p + 2 ^ 25 * joinFields fs) = w ↔
      (bits w 7 0 = opc ∧ bits w 11 8 = fmt) ∧ parsePre w = p ∧ HoldsFields fs (w.toNat / 2 ^ 25) := by
  rw [← joinFields_pre, ofNat_joinFields_eq_iff (by simp [layoutPre, fieldBits, hs]) (fitsFields_pre hf ho p h), holdsFields_pre]

/-- What the packing and the parsing of a format have to do with a layout of its fields: the layout fills the word after the shared fields, its
values fit, the packed word is made of it, and a word with no reserved code and no spare bit parses to what the layout says it holds. -/
structure LaidOut {α : Type} (fmt : Nat) (pre : α → Pre) (pack : Nat → α → BitVec 96) (parse : BitVec 96 → Parsed α)
    (fs : α → List (Nat × Nat)) : Prop where
  fmt_lt : fmt < 2 ^ 4
  fills : ∀ x, fieldBits (fs x) = 71
  fits : ∀ x, FitsFields (fs x)
  pack_eq : ∀ opc x, pack opc x = BitVec.ofNat 96 (packPre fmt opc (pre x) + 2 ^ 25 * joinFields (fs x))
  parse_iff : ∀ w x, parse w = ⟨x, true, true⟩ ↔ parsePre w = pre x ∧ HoldsFields (fs x) (w.toNat / 2 ^ 25)

/-- A word is the packing of a form under an opcode exactly where it has the opcode and the format, and parses to the form with nothing reserved
and nothing spare. -/
theorem LaidOut.pack_eq_iff {α : Type} {fmt : Nat} {pre : α → Pre} {pack : Nat → α → BitVec 96} {parse : BitVec 96 → Parsed α}
    {fs : α → List (Nat × Nat)} (h : LaidOut fmt pre pack parse fs) {opc : Nat} (ho : opc < 2 ^ 8) (x : α) (w : BitVec 96) :
    pack opc x = w ↔ (bits w 7 0 = opc ∧ bits w 11 8 = fmt) ∧ parse w = ⟨x, true, true⟩ := by
  rw [h.pack_eq, ofNat_packPre_eq_iff h.fmt_lt ho (h.fills x) (h.fits x), h.parse_iff]

/-- The fields of format VV after the shared ones. -/
def layoutVV (x : FormVV) : List (Nat × Nat) :=
  [(8, x.dst.toNat), (8, x.sa.toNat), (8, x.sb.toNat), (8, x.sc.toNat), (2, x.sub.toNat), (5, tyCode x.ty), (3, rmCode x.rm), (1, bitOf x.sat),
   (1, bitOf x.inf), (5, tyCode x.t2), (4, x.cc.toNat), (2, 0), (8, x.sel.toNat), (8, 0)]

theorem laidOutVV : LaidOut 0 FormVV.pre packVV parseVV layoutVV where
  fmt_lt := by decide
  fills _ := by simp only [layoutVV, fieldBits]
  fits _ := by simp only [layoutVV, FitsFields, BitVec.isLt, tyCode_lt, rmCode_lt, bitOf_lt, Nat.two_pow_pos, and_self]
  pack_eq _ _ := by
    simp only [packVV, layoutVV, joinFields, packRegs]
    refine congrArg (BitVec.ofNat 96) ?_
    omega
  parse_iff w x := by
    obtain ⟨_, _, _, _, _, _, _, _, _, _, _, _, _⟩ := x
    simp [layoutVV, HoldsFields, parseVV, bits_eq_div_mod, field_eq_iff, flag_eq_iff, Nat.div_div_eq_div_mul, eq_tyCode_iff, eq_rmCode_iff]
    exact iff_of_eq (by ac_rfl)

/-- The fields of format VI after the shared ones. -/
def layoutVI (x : FormVI) : List (Nat × Nat) :=
  [(8, x.dst.toNat), (8, x.sa.toNat), (4, x.cc.toNat), (13, 0), (1, bitOf x.sat), (5, tyCode x.ty), (32, x.imm.toNat)]

theorem laidOutVI : LaidOut 1 FormVI.pre packVI parseVI layoutVI where
  fmt_lt := by decide
  fills _ := by simp only [layoutVI, fieldBits]
  fits _ := by simp only [layoutVI, FitsFields, BitVec.isLt, tyCode_lt, bitOf_lt, Nat.two_pow_pos, and_self]
  pack_eq _ _ := by
    simp only [packVI, layoutVI, joinFields]
    refine congrArg (BitVec.ofNat 96) ?_
    omega
  parse_iff w x := by
    obtain ⟨_, _, _, _, _, _, _⟩ := x
    simp [layoutVI, HoldsFields, parseVI, bits_eq_div_mod, field_eq_iff, flag_eq_iff, Nat.div_div_eq_div_mul, eq_tyCode_iff]
    exact iff_of_eq (by ac_rfl)

/-- The fields of format VX after the shared ones. -/
def layoutVX (x : FormVX) : List (Nat × Nat) :=
  [(8, x.dst.toNat), (8, x.sa.toNat), (8, x.sb.toNat), (8, x.sc.toNat), (2, x.sub.toNat), (5, tyCode x.ty), (3, rmCode x.rm), (1, bitOf x.sat),
   (1, bitOf x.inf), (5, tyCode x.t2), (4, x.seg.toNat), (2, 0), (8, x.sel.toNat), (8, 0)]

theorem laidOutVX : LaidOut 2 FormVX.pre packVX parseVX layoutVX where
  fmt_lt := by decide
  fills _ := by simp only [layoutVX, fieldBits]
  fits _ := by simp only [layoutVX, FitsFields, BitVec.isLt, tyCode_lt, rmCode_lt, bitOf_lt, Nat.two_pow_pos, and_self]
  pack_eq _ _ := by
    simp only [packVX, layoutVX, joinFields, packRegs]
    refine congrArg (BitVec.ofNat 96) ?_
    omega
  parse_iff w x := by
    obtain ⟨_, _, _, _, _, _, _, _, _, _, _, _, _⟩ := x
    simp [layoutVX, HoldsFields, parseVX, bits_eq_div_mod, field_eq_iff, flag_eq_iff, Nat.div_div_eq_div_mul, eq_tyCode_iff, eq_rmCode_iff]
    exact iff_of_eq (by ac_rfl)

/-- The fields of format M after the shared ones. -/
def layoutM (x : FormM) : List (Nat × Nat) :=
  [(8, x.dst.toNat), (8, x.sa.toNat), (8, x.sb.toNat), (8, x.sc.toNat), (1, 0), (1, bitOf x.quay), (5, tyCode x.ty), (32, x.imm.toNat)]

theorem laidOutM : LaidOut 3 FormM.pre packM parseM layoutM where
  fmt_lt := by decide
  fills _ := by simp only [layoutM, fieldBits]
  fits _ := by simp only [layoutM, FitsFields, BitVec.isLt, tyCode_lt, bitOf_lt, Nat.two_pow_pos, and_self]
  pack_eq _ _ := by
    simp only [packM, layoutM, joinFields, packRegs]
    refine congrArg (BitVec.ofNat 96) ?_
    omega
  parse_iff w x := by
    obtain ⟨_, _, _, _, _, _, _, _⟩ := x
    simp [layoutM, HoldsFields, parseM, bits_eq_div_mod, field_eq_iff, flag_eq_iff, Nat.div_div_eq_div_mul, eq_tyCode_iff]
    exact iff_of_eq (by ac_rfl)

/-- The fields of format E after the shared ones. -/
def layoutE (x : FormE) : List (Nat × Nat) :=
  [(8, x.dst.toNat), (8, x.sa.toNat), (8, x.sb.toNat), (8, x.sc.toNat), (2, x.sub.toNat), (5, tyCode x.ty),
   (6, x.tag.toNat), (1, bitOf x.tv), (4, x.cq.toNat), (1, bitOf x.cqv), (20, x.cs.toNat)]

theorem laidOutE : LaidOut 4 FormE.pre packE parseE layoutE where
  fmt_lt := by decide
  fills _ := by simp only [layoutE, fieldBits]
  fits _ := by simp only [layoutE, FitsFields, BitVec.isLt, tyCode_lt, bitOf_lt, and_self]
  pack_eq _ _ := by
    simp only [packE, layoutE, joinFields, packRegs]
    refine congrArg (BitVec.ofNat 96) ?_
    omega
  parse_iff w x := by
    obtain ⟨_, _, _, _, _, _, _, _, _, _, _, _⟩ := x
    simp [layoutE, HoldsFields, parseE, bits_eq_div_mod, field_eq_iff, flag_eq_iff, Nat.div_div_eq_div_mul, eq_tyCode_iff]
    exact iff_of_eq (by ac_rfl)

/-- The fields of format P after the shared ones. -/
def layoutP (x : FormP) : List (Nat × Nat) :=
  [(8, x.dst.toNat), (8, x.sa.toNat), (8, x.sb.toNat), (8, x.sc.toNat), (1, bitOf x.useImm),
   (1, bitOf x.u), (4, x.cc.toNat), (1, 0), (32, x.imm.toNat)]

theorem laidOutP : LaidOut 5 FormP.pre packP parseP layoutP where
  fmt_lt := by decide
  fills _ := by simp only [layoutP, fieldBits]
  fits _ := by simp only [layoutP, FitsFields, BitVec.isLt, bitOf_lt, Nat.two_pow_pos, and_self]
  pack_eq _ _ := by
    simp only [packP, layoutP, joinFields, packRegs]
    refine congrArg (BitVec.ofNat 96) ?_
    omega
  parse_iff w x := by
    obtain ⟨_, _, _, _, _, _, _, _, _⟩ := x
    simp [layoutP, HoldsFields, parseP, field_eq_iff, flag_eq_iff, Nat.div_div_eq_div_mul]
    exact iff_of_eq (by ac_rfl)

/-- The fields of format B after the shared ones. -/
def layoutB (x : FormB) : List (Nat × Nat) :=
  [(8, x.dst.toNat), (8, x.sa.toNat), (23, 0), (32, x.imm.toNat)]

theorem laidOutB : LaidOut 6 FormB.pre packB parseB layoutB where
  fmt_lt := by decide
  fills _ := by simp only [layoutB, fieldBits]
  fits _ := by simp only [layoutB, FitsFields, BitVec.isLt, Nat.two_pow_pos, and_self]
  pack_eq _ _ := by
    simp only [packB, layoutB, joinFields]
    refine congrArg (BitVec.ofNat 96) ?_
    omega
  parse_iff w x := by
    obtain ⟨_, _, _, _⟩ := x
    simp [layoutB, HoldsFields, parseB, bits_eq_div_mod, field_eq_iff, Nat.div_div_eq_div_mul]
    exact iff_of_eq (by ac_rfl)

/-- The fields of format Q after the shared ones. -/
def layoutQ (x : FormQ) : List (Nat × Nat) :=
  [(8, x.dst.toNat), (8, x.sa.toNat), (8, x.sb.toNat), (8, 0), (2, x.sub.toNat), (5, tyCode x.ty), (32, x.imm.toNat)]

theorem laidOutQ : LaidOut 7 FormQ.pre packQ parseQ layoutQ where
  fmt_lt := by decide
  fills _ := by simp only [layoutQ, fieldBits]
  fits _ := by simp only [layoutQ, FitsFields, BitVec.isLt, tyCode_lt, Nat.two_pow_pos, and_self]
  pack_eq _ _ := by
    simp only [packQ, layoutQ, joinFields, packRegs]
    rw [show (0 : BitVec 8).toNat = 0 from rfl]
    refine congrArg (BitVec.ofNat 96) ?_
    omega
  parse_iff w x := by
    obtain ⟨_, _, _, _, _, _, _⟩ := x
    simp [layoutQ, HoldsFields, parseQ, bits_eq_div_mod, field_eq_iff, Nat.div_div_eq_div_mul, eq_tyCode_iff]
    exact iff_of_eq (by ac_rfl)

/-- The fields of format X after the shared ones. -/
def layoutX (x : FormX) : List (Nat × Nat) :=
  [(8, x.dst.toNat), (8, x.sa.toNat), (23, 0), (32, x.imm.toNat)]

theorem laidOutX : LaidOut 8 FormX.pre packX parseX layoutX where
  fmt_lt := by decide
  fills _ := by simp only [layoutX, fieldBits]
  fits _ := by simp only [layoutX, FitsFields, BitVec.isLt, Nat.two_pow_pos, and_self]
  pack_eq _ _ := by
    simp only [packX, layoutX, joinFields]
    refine congrArg (BitVec.ofNat 96) ?_
    omega
  parse_iff w x := by
    obtain ⟨_, _, _, _⟩ := x
    simp [layoutX, HoldsFields, parseX, bits_eq_div_mod, field_eq_iff, Nat.div_div_eq_div_mul]
    exact iff_of_eq (by ac_rfl)

/-! ### The formats -/

/-- What a format is to the decoder and the encoder: its words parse to the form they pack, the decoder finishes their parsing, and an opcode of
its map is the one its instruction is packed with (R69, R80 to R88). -/
structure IsFormat {α : Type} (fmt : Nat) (op : Nat → Option (α → Instr)) (pack : Nat → α → BitVec 96) (parse : BitVec 96 → Parsed α) : Prop where
  pack_eq_iff : ∀ {opc : Nat}, opc < 2 ^ 8 → ∀ (x : α) (w : BitVec 96),
    pack opc x = w ↔ (bits w 7 0 = opc ∧ bits w 11 8 = fmt) ∧ parse w = ⟨x, true, true⟩
  decode_eq : ∀ (k : CtxKind) {w : BitVec 96}, bits w 11 8 = fmt → decodeSlot k w = finish k (op (bits w 7 0)) (parse w)
  encode_eq : ∀ {opc : Nat} {f : α → Instr} (x : α), op opc = some f → encode (f x) = pack opc x

theorem isFormatVV : IsFormat 0 opVV packVV parseVV where
  pack_eq_iff := laidOutVV.pack_eq_iff
  decode_eq _ _ h := by simp only [decodeSlot, h]
  encode_eq _ h := by
    unfold opVV at h
    split at h <;> cases h <;> rfl

theorem isFormatVI : IsFormat 1 opVI packVI parseVI where
  pack_eq_iff := laidOutVI.pack_eq_iff
  decode_eq _ _ h := by simp only [decodeSlot, h]
  encode_eq _ h := by
    unfold opVI at h
    split at h <;> cases h <;> rfl

theorem isFormatVX : IsFormat 2 opVX packVX parseVX where
  pack_eq_iff := laidOutVX.pack_eq_iff
  decode_eq _ _ h := by simp only [decodeSlot, h]
  encode_eq _ h := by
    unfold opVX at h
    split at h <;> cases h <;> rfl

theorem isFormatM : IsFormat 3 opM packM parseM where
  pack_eq_iff := laidOutM.pack_eq_iff
  decode_eq _ _ h := by simp only [decodeSlot, h]
  encode_eq _ h := by
    unfold opM at h
    split at h <;> cases h <;> rfl

theorem isFormatE : IsFormat 4 opE packE parseE where
  pack_eq_iff := laidOutE.pack_eq_iff
  decode_eq _ _ h := by simp only [decodeSlot, h]
  encode_eq _ h := by
    unfold opE at h
    split at h <;> cases h <;> rfl

theorem isFormatP : IsFormat 5 opP packP parseP where
  pack_eq_iff := laidOutP.pack_eq_iff
  decode_eq _ _ h := by simp only [decodeSlot, h]
  encode_eq _ h := by
    unfold opP at h
    split at h <;> cases h <;> rfl

theorem isFormatB : IsFormat 6 opB packB parseB where
  pack_eq_iff := laidOutB.pack_eq_iff
  decode_eq _ _ h := by simp only [decodeSlot, h]
  encode_eq _ h := by
    unfold opB at h
    split at h <;> cases h <;> rfl

theorem isFormatQ : IsFormat 7 opQ packQ parseQ where
  pack_eq_iff := laidOutQ.pack_eq_iff
  decode_eq _ _ h := by simp only [decodeSlot, h]
  encode_eq _ h := by
    unfold opQ at h
    split at h <;> cases h <;> rfl

theorem isFormatX : IsFormat 8 opX packX parseX where
  pack_eq_iff := laidOutX.pack_eq_iff
  decode_eq _ _ h := by simp only [decodeSlot, h]
  encode_eq _ h := by
    unfold opX at h
    split at h <;> cases h <;> rfl

end Sys2Proof
end

section
namespace Sys2Proof
open Machine

/-! ### What decoding finishes with (R74) -/

/-- The reasons of an instruction whose word is representable begin with 0x3. -/
theorem three_le_of_illegalReason {k : CtxKind} {i : Instr} {r : Nat} (h : illegalReason k i = some r) : 3 ≤ r := by
  unfold illegalReason at h
  repeat' split at h
  all_goals cases h
  all_goals decide

/-- An instruction without a reason is issued by its context, and reserves no modifier value. -/
theorem issuedBy_of_legal {k : CtxKind} {i : Instr} (h : illegalReason k i = none) : issuedBy k i = true ∧ bad4 k i = false := by
  unfold illegalReason at h
  split at h
  · cases h
  · split at h
    · cases h
    · simp_all

section
variable {α : Type} {k : CtxKind} {f : α → Instr} {op : Option (α → Instr)} {p : Parsed α}

/-- A legal form, with nothing reserved and nothing spare, is its instruction. -/
theorem finish_legal {x : α} (h : illegalReason k (f x) = none) : finish k (some f) ⟨x, true, true⟩ = .ok (f x) := by
  obtain ⟨hi, hb⟩ := issuedBy_of_legal h
  simp [finish, hi, hb, h]

/-- What decodes is the instruction of its form, which is legal, with nothing reserved and nothing spare. -/
theorem finish_ok {i : Instr} (h : finish k op p = .ok i) :
    ∃ f, op = some f ∧ i = f p.form ∧ p = ⟨p.form, true, true⟩ ∧ illegalReason k i = none := by
  cases op with
  | none => cases h
  | some f =>
    obtain ⟨x, typed, spare⟩ := p
    simp only [finish] at h
    repeat' split at h
    all_goals cases h
    case h_2.refl ht hs _ hi => exact ⟨f, rfl, rfl, by simp_all, hi⟩

/-- Reason 0x3 is that of an instruction that the other kind of context issues. -/
theorem finish_notIssued (h : issuedBy k (f p.form) = false) : finish k (some f) p = .error 3 := by simp [finish, h]

/-- Reason 0x2 is that of an opcode that no row of the format has. -/
theorem finish_error_two_iff : finish k op p = .error 2 ↔ op = none := by
  cases op with
  | none => simp [finish]
  | some f =>
    refine iff_of_false (fun h => ?_) nofun
    simp only [finish] at h
    repeat' split at h
    all_goals cases h
    case h_1.refl hr => exact absurd (three_le_of_illegalReason hr) (by decide)

/-- Reason 0x4 is that of a reserved code where neither reason 0x2 nor 0x3 applies. -/
theorem finish_reserved (ht : p.typed = false) (h2 : finish k op p ≠ .error 2) (h3 : finish k op p ≠ .error 3) : finish k op p = .error 4 := by
  cases op with
  | none => exact absurd rfl h2
  | some f =>
    cases hi : issuedBy k (f p.form) with
    | false => exact absurd (finish_notIssued hi) h3
    | true => simp [finish, hi, ht]

end

section
variable {α : Type} {fmt : Nat} {op : Nat → Option (α → Instr)} {pack : Nat → α → BitVec 96} {parse : BitVec 96 → Parsed α} {k : CtxKind}

/-- DECODE AFTER ENCODE: a legal instruction is what the word that its form is packed into decodes to. -/
theorem IsFormat.decode_pack (F : IsFormat fmt op pack parse) {opc : Nat} {f : α → Instr} {x : α} (hi : illegalReason k (f x) = none)
    (he : encode (f x) = pack opc x) (hop : op opc = some f) (ho : opc < 2 ^ 8) : decodeSlot k (encode (f x)) = .ok (f x) := by
  obtain ⟨⟨hopc, hfmt⟩, hparse⟩ := (F.pack_eq_iff ho x _).mp rfl
  rw [he, F.decode_eq k hfmt, hopc, hop, hparse, finish_legal hi]

/-- ENCODE AFTER DECODE: a word that decodes is the word of a legal instruction. -/
theorem IsFormat.encode_decoded (F : IsFormat fmt op pack parse) {w : BitVec 96} (hw : bits w 11 8 = fmt) {i : Instr}
    (h : decodeSlot k w = .ok i) : encode i = w ∧ illegalReason k i = none := by
  rw [F.decode_eq k hw] at h
  obtain ⟨f, hop, rfl, hp, hi⟩ := finish_ok h
  exact ⟨(F.encode_eq _ hop).trans ((F.pack_eq_iff (Nat.mod_lt _ (by decide)) _ w).mpr ⟨⟨rfl, hw⟩, hp⟩), hi⟩

/-- Reason 0x2 is that of an opcode outside the format's map. -/
theorem IsFormat.error_two_iff (F : IsFormat fmt op pack parse) {w : BitVec 96} (hw : bits w 11 8 = fmt) :
    decodeSlot k w = .error 2 ↔ op (bits w 7 0) = none := by
  rw [F.decode_eq k hw, finish_error_two_iff]

/-- An opcode all of whose instructions are of the other kind of context has reason 0x3. -/
theorem IsFormat.error_three (F : IsFormat fmt op pack parse) {w : BitVec 96} (hw : bits w 11 8 = fmt) (hop : op (bits w 7 0) ≠ none)
    (hk : ∀ f x, op (bits w 7 0) = some f → issuedBy k (f x) = false) : decodeSlot k w = .error 3 := by
  obtain ⟨f, hf⟩ := Option.ne_none_iff_exists'.mp hop
  rw [F.decode_eq k hw, hf, finish_notIssued (hk f _ hf)]

/-- A word with a reserved code that neither reason 0x2 nor 0x3 refuses has reason 0x4. -/
theorem IsFormat.error_four (F : IsFormat fmt op pack parse) {w : BitVec 96} (hw : bits w 11 8 = fmt) (ht : (parse w).typed = false)
    (h2 : decodeSlot k w ≠ .error 2) (h3 : decodeSlot k w ≠ .error 3) : decodeSlot k w = .error 4 := by
  rw [F.decode_eq k hw] at *
  exact finish_reserved ht h2 h3

end

/-- Settles O55: every instruction that a context issues is of a format whose words parse to what they pack. -/
theorem encodeDecodes : Obligations.EncodeDecodes := by
  intro k i hwf
  have hi : illegalReason k i = none := Option.isNone_iff_eq_none.mp hwf
  have hissued := (issuedBy_of_legal hi).1
  cases i
  any_goals contradiction
  case add | sub | mul | mulhi | mad | fma | min | max | abs | neg | and | or | xor | not | shl | shr | popc | clz | brev | bfe | bfi | cmp | sel |
      lea | div | rem | rcp | rsq | sqrt | exp2 | log2 | tanh | sigm | cvt | mxscale | mxpack | mxunpack | mov | rand | plog | pget | pset | avg |
      dot4 | fclass | csgn | rint | fscl => exact isFormatVV.decode_pack hi rfl rfl (by decide)
  case addVi | subVi | mulVi | minVi | maxVi | andVi | orVi | xorVi | shlVi | shrVi | bfeVi | cmpVi | leaVi | movVi =>
    exact isFormatVI.decode_pack hi rfl rfl (by decide)
  case shfl | bclane | scan | red | vote | ballot | sample | perm | cmpct => exact isFormatVX.decode_pack hi rfl rfl (by decide)
  case ld | st | ldx | stx | atom | cas | fence | hacc => exact isFormatM.decode_pack hi rfl rfl (by decide)
  case lcopy | lgather | lscatter | lfill | cmma | czero | cdrain | accld | bycoup | bybias | byclamp | byfree | bysweep | bycount | bystate |
      bymode | bybmap | look | tarm | steer | region | fork | join | discard => exact isFormatE.decode_pack hi rfl rfl (by decide)
  case sadd | ssub | smul | smulh | sdiv | srem | smin | smax | sand | sor | sxor | sshl | sshr | scmp | ssel | smov | sli | spopc | sclz | sbfe |
      sbfi | cop | sctz | sext => exact isFormatP.decode_pack hi rfl rfl (by decide)
  case bra | bru | brx | call | ret | exit | yield | bsync | sbr | sbrx | scall | sret | loop => exact isFormatB.decode_pack hi rfl rfl (by decide)
  case qbind | qunbind | qtrypop | qtrypush | qcount | qmask | qpeek | await | own | twait | tfirst | bcast | bget =>
    exact isFormatQ.decode_pack hi rfl rfl (by decide)
  case nop | trap | sysrd | syswr | rft | halt | ckpt | spawn | depdec => exact isFormatX.decode_pack hi rfl rfl (by decide)
  -- The one left is `match`, whose name is a keyword.
  exact isFormatVX.decode_pack hi rfl rfl (by decide)

end Sys2Proof
end

section
namespace Sys2Proof
open Machine

/-! ### The gaps of the opcode map (R80 to R88)

The last branch of each map is that of an opcode without a row: its number is none of the rows'. -/

theorem opVV_none_iff (n : Nat) : opVV n = none ↔ ¬ (0x01 ≤ n ∧ n ≤ 0x30) := by
  unfold opVV
  split
  case h_49 => simp only [imp_false, true_iff] at *; omega
  all_goals simp

theorem opVI_none_iff (n : Nat) : opVI n = none ↔
    ¬ ((0x01 ≤ n ∧ n ≤ 0x03) ∨ (0x07 ≤ n ∧ n ≤ 0x08) ∨ (0x0B ≤ n ∧ n ≤ 0x0D) ∨ (0x0F ≤ n ∧ n ≤ 0x10) ∨ n = 0x14 ∨ n = 0x16 ∨ n = 0x18 ∨ n = 0x26) := by
  unfold opVI
  split
  case h_15 => simp only [imp_false, true_iff] at *; omega
  all_goals simp

theorem opVX_none_iff (n : Nat) : opVX n = none ↔ ¬ (0x00 ≤ n ∧ n ≤ 0x09) := by
  unfold opVX
  split
  case h_11 => simp only [imp_false, true_iff] at *; omega
  all_goals simp

theorem opM_none_iff (n : Nat) : opM n = none ↔ ¬ (0x00 ≤ n ∧ n ≤ 0x07) := by
  unfold opM
  split
  case h_9 => simp only [imp_false, true_iff] at *; omega
  all_goals simp

theorem opE_none_iff (n : Nat) : opE n = none ↔
    ¬ ((0x00 ≤ n ∧ n ≤ 0x03) ∨ (0x10 ≤ n ∧ n ≤ 0x13) ∨ (0x20 ≤ n ∧ n ≤ 0x28) ∨ (0x30 ≤ n ∧ n ≤ 0x32) ∨ (0x40 ≤ n ∧ n ≤ 0x43)) := by
  unfold opE
  split
  case h_25 => simp only [imp_false, true_iff] at *; omega
  all_goals simp

theorem opP_none_iff (n : Nat) : opP n = none ↔ ¬ (0x00 ≤ n ∧ n ≤ 0x17) := by
  unfold opP
  split
  case h_25 => simp only [imp_false, true_iff] at *; omega
  all_goals simp

theorem opB_none_iff (n : Nat) : opB n = none ↔ ¬ (0x00 ≤ n ∧ n ≤ 0x0C) := by
  unfold opB
  split
  case h_14 => simp only [imp_false, true_iff] at *; omega
  all_goals simp

theorem opQ_none_iff (n : Nat) : opQ n = none ↔ ¬ (0x00 ≤ n ∧ n ≤ 0x0C) := by
  unfold opQ
  split
  case h_14 => simp only [imp_false, true_iff] at *; omega
  all_goals simp

theorem opX_none_iff (n : Nat) : opX n = none ↔ ¬ (0x00 ≤ n ∧ n ≤ 0x08) := by
  unfold opX
  split
  case h_10 => simp only [imp_false, true_iff] at *; omega
  all_goals simp

/-! ### Who issues vector instructions -/

/-- No pilot issues an instruction of format VV (R69, R70). -/
theorem opVV_crew {n : Nat} (f : FormVV → Instr) (x : FormVV) (h : opVV n = some f) : issuedBy .pilot (f x) = false := by
  unfold opVV at h
  split at h <;> cases h <;> rfl

theorem opVI_crew {n : Nat} (f : FormVI → Instr) (x : FormVI) (h : opVI n = some f) : issuedBy .pilot (f x) = false := by
  unfold opVI at h
  split at h <;> cases h <;> rfl

theorem opVX_crew {n : Nat} (f : FormVX → Instr) (x : FormVX) (h : opVX n = some f) : issuedBy .pilot (f x) = false := by
  unfold opVX at h
  split at h <;> cases h <;> rfl

/-! ### Reserved codes (R72, R73) -/

theorem tyOfCode_reserved {n : Nat} (h : 0x15 ≤ n) : tyOfCode n = none := by
  refine Option.eq_none_iff_forall_ne_some.mpr fun t ht => ?_
  obtain rfl := (tyOfCode_eq_some_iff n t).mp ht
  exact absurd h (by cases t <;> decide)

theorem rmOfCode_reserved {n : Nat} (h : 6 ≤ n) : rmOfCode n = none := by
  refine Option.eq_none_iff_forall_ne_some.mpr fun r hr => ?_
  obtain rfl := (rmOfCode_eq_some_iff n r).mp hr
  exact absurd h (by cases r <;> decide)

theorem parseVV_reserved {w : BitVec 96} (h : 0x15 ≤ bits w 63 59 ∨ 0x15 ≤ bits w 73 69 ∨ 6 ≤ bits w 66 64) : (parseVV w).typed = false := by
  rcases h with h | h | h <;> simp [parseVV, tyOfCode_reserved, rmOfCode_reserved, h]

theorem parseVX_reserved {w : BitVec 96} (h : 0x15 ≤ bits w 63 59 ∨ 0x15 ≤ bits w 73 69 ∨ 6 ≤ bits w 66 64) : (parseVX w).typed = false := by
  rcases h with h | h | h <;> simp [parseVX, tyOfCode_reserved, rmOfCode_reserved, h]

theorem parseVI_reserved {w : BitVec 96} (h : 0x15 ≤ bits w 63 59) : (parseVI w).typed = false := by simp [parseVI, tyOfCode_reserved h]
theorem parseM_reserved {w : BitVec 96} (h : 0x15 ≤ bits w 63 59) : (parseM w).typed = false := by simp [parseM, tyOfCode_reserved h]
theorem parseE_reserved {w : BitVec 96} (h : 0x15 ≤ bits w 63 59) : (parseE w).typed = false := by simp [parseE, tyOfCode_reserved h]
theorem parseQ_reserved {w : BitVec 96} (h : 0x15 ≤ bits w 63 59) : (parseQ w).typed = false := by simp [parseQ, tyOfCode_reserved h]

/-- The formats 0x9 to 0xF are reserved (R69, R74). -/
theorem decodeSlot_noFormat (k : CtxKind) {w : BitVec 96} (h : 9 ≤ bits w 11 8) : decodeSlot k w = .error 1 := by
  unfold decodeSlot
  split
  case h_10 => rfl
  all_goals omega

/-! ### The formats together -/

/-- A word that decodes is the word of a legal instruction, whatever its format. -/
theorem encode_of_decodeSlot {k : CtxKind} {w : BitVec 96} {i : Instr} (h : decodeSlot k w = .ok i) : encode i = w ∧ illegalReason k i = none := by
  have hd := h
  unfold decodeSlot at hd
  split at hd
  case h_1 hw => exact isFormatVV.encode_decoded hw h
  case h_2 hw => exact isFormatVI.encode_decoded hw h
  case h_3 hw => exact isFormatVX.encode_decoded hw h
  case h_4 hw => exact isFormatM.encode_decoded hw h
  case h_5 hw => exact isFormatE.encode_decoded hw h
  case h_6 hw => exact isFormatP.encode_decoded hw h
  case h_7 hw => exact isFormatB.encode_decoded hw h
  case h_8 hw => exact isFormatQ.encode_decoded hw h
  case h_9 hw => exact isFormatX.encode_decoded hw h
  case h_10 => cases hd

/-- Settles O56: each format's words parse to what they pack (`IsFormat`), and the reasons are those that `finish` tests in order. -/
theorem decodeEncodes : Obligations.DecodeEncodes := by
  intro k w fmt opc has gap
  refine ⟨fun i h => ?_, decodeSlot_noFormat k, fun h8 => ?_, fun h2 hk hgap => ?_, fun hr h2 h3 => ?_⟩
  · obtain ⟨he, hi⟩ := encode_of_decodeSlot h
    exact ⟨he, Option.isNone_iff_eq_none.mpr hi⟩
  · obtain h | h | h | h | h | h | h | h | h : fmt = 0 ∨ fmt = 1 ∨ fmt = 2 ∨ fmt = 3 ∨ fmt = 4 ∨ fmt = 5 ∨ fmt = 6 ∨ fmt = 7 ∨ fmt = 8 := by omega
    all_goals simp only [gap, h]
    · exact (isFormatVV.error_two_iff h).trans (opVV_none_iff opc)
    · exact (isFormatVI.error_two_iff h).trans (opVI_none_iff opc)
    · exact (isFormatVX.error_two_iff h).trans (opVX_none_iff opc)
    · exact (isFormatM.error_two_iff h).trans (opM_none_iff opc)
    · exact (isFormatE.error_two_iff h).trans (opE_none_iff opc)
    · exact (isFormatP.error_two_iff h).trans (opP_none_iff opc)
    · exact (isFormatB.error_two_iff h).trans (opB_none_iff opc)
    · exact (isFormatQ.error_two_iff h).trans (opQ_none_iff opc)
    · exact (isFormatX.error_two_iff h).trans (opX_none_iff opc)
  · subst hk
    obtain h | h | h : fmt = 0 ∨ fmt = 1 ∨ fmt = 2 := by omega
    all_goals simp only [gap, h] at hgap
    · exact isFormatVV.error_three h (mt (opVV_none_iff opc).mp hgap) opVV_crew
    · exact isFormatVI.error_three h (mt (opVI_none_iff opc).mp hgap) opVI_crew
    · exact isFormatVX.error_three h (mt (opVX_none_iff opc).mp hgap) opVX_crew
  · obtain h | h | ⟨h, hr⟩ | ⟨h, hr⟩ | ⟨h, hr⟩ | ⟨h, hr⟩ : fmt = 0 ∨ fmt = 2 ∨ (fmt = 1 ∧ 0x15 ≤ bits w 63 59) ∨ (fmt = 3 ∧ 0x15 ≤ bits w 63 59) ∨
        (fmt = 4 ∧ 0x15 ≤ bits w 63 59) ∨ (fmt = 7 ∧ 0x15 ≤ bits w 63 59) := by omega
    · exact isFormatVV.error_four h (parseVV_reserved (by omega)) h2 h3
    · exact isFormatVX.error_four h (parseVX_reserved (by omega)) h2 h3
    · exact isFormatVI.error_four h (parseVI_reserved hr) h2 h3
    · exact isFormatM.error_four h (parseM_reserved hr) h2 h3
    · exact isFormatE.error_four h (parseE_reserved hr) h2 h3
    · exact isFormatQ.error_four h (parseQ_reserved hr) h2 h3

end Sys2Proof
end

section
namespace Sys2Proof
open Machine

/-! ### The register budget (R15) -/

theorem nodup_eraseDups (ns : List Nat) : ns.eraseDups.Nodup := by
  match ns with
  | [] => simp
  | n :: ns =>
    rw [List.eraseDups_cons, List.nodup_cons]
    exact ⟨by simp, nodup_eraseDups _⟩
termination_by ns.length
decreasing_by exact Nat.lt_succ_of_le (List.length_filter_le ..)

/-- A list names at most one register of each bank. -/
def OnePerBank (ns : List Nat) : Prop := ∀ m n, m ∈ ns → n ∈ ns → m % 4 = n % 4 → m = n

/-- So it maps at most one in a bank. -/
theorem OnePerBank.length_le_one {ns : List Nat} (h : OnePerBank ns) (b : Nat) (p : Nat → Bool) :
    (ns.eraseDups.filter (fun n => n % 4 == b && p n)).length ≤ 1 := by
  have hnd : (ns.eraseDups.filter (fun n => n % 4 == b && p n)).Nodup := (nodup_eraseDups ns).filter _
  have hmem : ∀ n, n ∈ ns.eraseDups.filter (fun n => n % 4 == b && p n) → n ∈ ns ∧ n % 4 = b := by
    intro n hn
    simp only [List.mem_filter, List.mem_eraseDups, Bool.and_eq_true, beq_iff_eq] at hn
    exact ⟨hn.1, hn.2.1⟩
  generalize ns.eraseDups.filter (fun n => n % 4 == b && p n) = l at hnd hmem
  match l with
  | [] => exact Nat.zero_le 1
  | [_] => exact Nat.le_refl 1
  | m :: n :: l =>
    obtain ⟨hm, hmb⟩ := hmem m (by simp)
    obtain ⟨hn, hnb⟩ := hmem n (by simp)
    obtain rfl := h m n hm hn (hmb.trans hnb.symm)
    exact absurd hnd (by simp)

/-- The registers of up to four consecutive names lie in banks of their own (R11, R142). -/
theorem onePerBank_roleNames {r : Role} (hr : roleSpan r ≤ 4) (code : Nat) : OnePerBank (roleNames .crew r code) := by
  have key : ∀ n, n ∈ roleNames .crew r code → code ≤ n ∧ n < code + 4 := by
    intro n hn
    have hn : n ∈ (if 224 ≤ code then [] else tabulate (roleSpan r) (fun j => code + j)) := hn
    split at hn
    · exact absurd hn List.not_mem_nil
    · obtain ⟨j, hj⟩ := List.mem_iff_getElem?.mp hn
      rw [tabulate_getElem?, Option.ite_none_right_eq_some, Option.some.injEq] at hj
      omega
  intro m n hm hn hmn
  have := key m hm
  have := key n hn
  omega

theorem roleSpan_roleT_le (t : Ty) : roleSpan (roleT t) ≤ 4 := by
  unfold roleT
  split <;> decide

theorem roleSpan_roleData_le (k : CtxKind) (t : Ty) : roleSpan (roleData k t) ≤ 4 := by
  unfold roleData
  split
  · decide
  · split
    · decide
    · exact roleSpan_roleT_le t

theorem roleSpan_role64_le (k : CtxKind) : roleSpan (role64 k) ≤ 4 := by cases k <;> decide

theorem roleSpan_roleSys_le (k : CtxKind) (x : FormX) : roleSpan (roleSys k x) ≤ 4 := by
  unfold roleSys
  split <;> decide

/-- No destination spans more than four registers. -/
theorem roleSpan_dst_le (k : CtxKind) (i : Instr) : roleSpan (useOf k i).dst ≤ 4 := by
  cases i
  case add | sub | mul | mulhi | min | max | and | or | xor | shl | shr | div | rem | mad | fma | abs | neg | not | mov | sel | lea | cvt | rand |
      addVi | subVi | mulVi | minVi | maxVi | andVi | orVi | xorVi | shlVi | shrVi | leaVi | movVi | shfl | bclane | scan | red | cmpct | perm =>
    exact roleSpan_roleT_le _
  case ld | ldx | atom | cas => exact roleSpan_roleData_le ..
  case depdec => exact roleSpan_role64_le k
  case sysrd => exact roleSpan_roleSys_le ..
  case cmma | bget =>
    simp only [useOf]
    split <;> exact Nat.le_of_ble_eq_true rfl
  case await x =>
    cases k
    · exact roleSpan_roleT_le _
    · exact Nat.le_of_ble_eq_true rfl
  all_goals exact Nat.le_of_ble_eq_true rfl

/-- An instruction maps registers of its destination, and a call the link (R108). -/
theorem mem_writtenNames {e : Env} {c : Ctx} {n : Nat} (h : n ∈ writtenNames e c) :
    n ∈ roleNames .crew e.u.dst e.f.dst.toNat ∨ ((∃ x, e.i = .call x) ∧ n = 223) := by
  simp only [writtenNames] at h
  split at h
  · cases h
  rcases List.mem_append.mp h with h | h
  · exact .inl (List.mem_ite_nil_right.mp h).2
  · split at h
    case h_1 x hx => exact .inr ⟨⟨x, hx⟩, List.mem_singleton.mp h⟩
    case h_2 => exact absurd h List.not_mem_nil

/-- A crew's instruction maps at most one register of each bank. -/
theorem onePerBank_writtenNames {e : Env} {c : Ctx} (hu : e.u = useOf .crew e.i) : OnePerBank (writtenNames e c) := by
  intro m n hm hn hmn
  by_cases hcall : ∃ x, e.i = .call x
  · obtain ⟨x, hx⟩ := hcall
    have hlink : ∀ k, k ∈ writtenNames e c → k = 223 := by
      intro k hk
      rcases mem_writtenNames hk with hk | ⟨-, hk⟩
      · have hnone : roleNames .crew e.u.dst e.f.dst.toNat = [] := by
          rw [hu, hx]
          exact ite_self _
        rw [hnone] at hk
        exact absurd hk List.not_mem_nil
      · exact hk
    rw [hlink m hm, hlink n hn]
  · have hdst : ∀ k, k ∈ writtenNames e c → k ∈ roleNames .crew e.u.dst e.f.dst.toNat :=
      fun k hk => (mem_writtenNames hk).resolve_right (fun h => hcall h.1)
    exact onePerBank_roleNames (hu ▸ roleSpan_dst_le .crew e.i) _ m n (hdst m hm) (hdst n hn) hmn

/-- The allocation fits where every name is mapped already, or where each bank has room for one. -/
theorem budgetOk_of_mapped_or_room {g : WG} {c : Crew} {freed written : List Nat}
    (h : (∀ n, n ∈ written → (alookup n c.regs).isSome = true) ∨ (OnePerBank written ∧ ∀ b, b < 4 → bankUse g b + 1 ≤ 2 * hRegs g.hdr)) :
    budgetOk g c freed written = true := by
  refine List.all_eq_true.mpr fun b hb => ?_
  have hb : b < 4 := List.mem_range.mp hb
  rw [Bool.or_eq_true, decide_eq_true_iff, decide_eq_true_iff]
  obtain h | ⟨hone, hroom⟩ := h
  · refine .inl (List.length_eq_zero_iff.mpr (List.filter_eq_nil_iff.mpr fun n hn => ?_))
    simp [h n (List.mem_eraseDups.mp hn)]
  · have := hone.length_le_one b (fun n => !(alookup n c.regs).isSome)
    have := hroom b hb
    right
    dsimp only
    omega

/-! ### Passing every check -/

section
variable {i : Instr} {f : Fields} {id : CtxId} {g : WG} {s : State}

/-- An instruction that names general registers pops nothing. -/
theorem popList_plain {k : CtxKind} {u : Use} (hp : PlainOperands k u f) : popList u f = [] := by
  obtain ⟨-, ha, hb, hc⟩ := hp
  simp [popList, popsQueue_plain k _ _ ha, popsQueue_plain k _ _ hb, popsQueue_plain k _ _ hc]

/-- It pushes nothing. -/
theorem pushName_plain {k : CtxKind} {u : Use} (hp : PlainOperands k u f) : pushName u f = none := by
  simp [pushName, popsQueue_plain k _ _ hp.1]

/-- It meets no home agent. -/
theorem agentUses_plain {k : CtxKind} (c : Ctx) (hp : PlainOperands k (useOf k i) f) : agentUses g c k i (useOf k i) f = [] := by
  simp [agentUses, queueUses_plain hp]

/-- No pigeonhole holds an instruction that names none and acts (R76, R192). -/
theorem prepQueues_plain {e : Env} {c : Ctx} (hc : ctxIn e.g e.id.who = some c) (ha : e.active ≠ 0) (hpop : popList e.u e.f = [])
    (hpush : pushName e.u e.f = none) (hcp : c.copied = none) : prepQueues e = .go e := by
  have hacts : (decide (e.active = 0) && !ordersIdle e) = false := by rw [decide_eq_false ha, Bool.false_and]
  simp only [prepQueues, hc, hacts, Bool.false_eq_true, if_false]
  simp [hpop, hpush, hcp, popState, pushFull, operandsOf]

/-- The checks of an instruction that names general registers, acts and fits its reservation let it go. -/
theorem prepChecks_plain {c : Ctx} {h : FEntry} (hc : ctxIn g id.who = some c) (hp : PlainOperands (whoKind id.who) (useOf (whoKind id.who) i) f)
    (ha : activeFor id g h f.pre ≠ 0) (hcp : c.copied = none)
    (hfits : overruns (mkEnv s id g i (useOf (whoKind id.who) i) f h) c = false) :
    prepChecks s id g i f h = .go (mkEnv s id g i (useOf (whoKind id.who) i) f h) := by
  have hgo : prepQueues (mkEnv s id g i (useOf (whoKind id.who) i) f h) = .go (mkEnv s id g i (useOf (whoKind id.who) i) f h) :=
    prepQueues_plain (c := c) hc ha (popList_plain hp) (pushName_plain hp) hcp
  simp [prepChecks, hc, misuseOf_plain hp, agentUses_plain c hp, agentMisuse, hfits, hgo]

/-- An instruction fits where its names are mapped already, or each bank has room for one more (R15). -/
theorem overruns_false {e : Env} {c : Ctx} (hu : e.u = useOf (whoKind e.id.who) e.i) (hfits : ∀ n x, e.id.who = .crew n → crewOf e.g n = some x →
      (∀ r, r ∈ roleNames .crew e.u.dst e.f.dst.toNat ++ extraRegs e.i → (alookup r x.regs).isSome = true) ∨
      (∀ b, b < 4 → bankUse e.g b + 1 ≤ 2 * hRegs e.g.hdr)) : overruns e c = false := by
  unfold overruns
  split
  case h_2 => rfl
  case h_1 n hw =>
    split
    case h_2 => rfl
    case h_1 x hx =>
      rw [Bool.not_eq_false']
      refine budgetOk_of_mapped_or_room ((hfits n x hw hx).imp (fun hmapped k hk => hmapped k ?_) (fun hroom => ⟨onePerBank_writtenNames (by rw [hu, hw]; rfl), hroom⟩))
      rcases mem_writtenNames hk with hk | ⟨⟨y, hy⟩, rfl⟩
      · exact List.mem_append_left _ hk
      · exact List.mem_append_right _ (by rw [hy]; exact List.mem_singleton_self _)

end

/-- Settles O45: with plain operands the checks of `prep` end in those of `prepChecks` (`prep_operands_legal`), which find no queue and a budget
that fits. -/
theorem checksPass : Obligations.ChecksPass := by
  intro i s g f c h hi hf k u hwf hpv hmk hfi hvi hop hup hpe hfl hcp ha hfits e
  obtain ⟨hod, hoa, hob, hoc⟩ := id hop
  obtain ⟨-, hc, -⟩ := id hi
  refine ⟨?_, popList_plain hop, pushName_plain hop⟩
  have hprep := prep_operands_legal hi hf (Option.isNone_iff_eq_none.mp hwf) hpv
    (fun l => ⟨srcBad_plain _ l _ _ hoa, srcBad_plain _ l _ _ hob, srcBad_plain _ l _ _ hoc⟩) (dstBad_plain _ _ _ hod) hmk hfi hup hpe hfl
  rw [hvi, Bool.and_false, if_neg Bool.false_ne_true] at hprep
  exact hprep.trans (prepChecks_plain hc hop ha hcp (overruns_false rfl hfits))

end Sys2Proof
end

section
namespace Sys2Proof
open Machine

/-! ### Code points (R66, R101) -/

/-- A legal instruction has no relative target beyond a line's five slots (R66, R74). -/
theorem badSlot_of_legal {k : CtxKind} {i : Instr} (h : illegalReason k i = none) : badSlot i = false := by
  unfold illegalReason at h
  repeat' split at h
  all_goals cases h
  all_goals exact Bool.eq_false_iff.mpr ‹_›

theorem badSlot_of_passes {i : Instr} {s : State} {e : Env} (h : Passes i s e) : badSlot i = false := by
  obtain ⟨g, f, c, hd, -, -, -, -, -, -, -, -, hl, -⟩ := prep_go i s e h
  exact badSlot_of_legal hl

/-- A relative target within the range of code indices names a code point (R66). -/
theorem cixValid_rel {c : Nat} {imm : Word} (hs : bits imm 2 0 ≤ 4) (h1 : 8 ≤ relCix c imm) (h2 : relCix c imm < 2 ^ 32) :
    cixValid (BitVec.ofInt 32 (relCix c imm)).toNat = true := by
  have hv : (BitVec.ofInt 32 (relCix c imm)).toNat = (relCix c imm).toNat := by
    rw [BitVec.toNat_ofInt]
    congr 1
    exact Int.emod_eq_of_lt (by omega) (by exact_mod_cast h2)
  rw [hv]
  unfold relCix at *
  generalize signedOf 29 (bits imm 31 3) = d at *
  simp only [cixValid, Bool.and_eq_true, decide_eq_true_eq]
  omega

/-- A relative target of the pilot names a code point (R66). -/
theorem pcValid_rel {p : Nat} {imm : Word} (hs : bits imm 2 0 ≤ 4) : pcValid (relPc p imm) = true := by
  unfold relPc lowBits pcLine
  generalize signedOf 29 (bits imm 31 3) = d
  simp only [pcValid, Bool.and_eq_true, decide_eq_true_eq]
  omega

/-! ### Transfers that trap (R101, R104) -/

section
variable {e : Env} {targets : List (Nat × Word)} {gone : LaneMask} {r : Result}

/-- The first target that names no code point traps at the transfer's own slot (R101). -/
theorem crewMove_invalid {before after : List (Nat × Word)} {t : Nat × Word} (ht : targets = before ++ t :: after)
    (hb : ∀ y, y ∈ before → cixValid y.2.toNat = true) (hbad : cixValid t.2.toNat = false) :
    crewMove e targets gone r = .next (trapHere e.s e.id (targetTrap t.2.toNat t.1 e.head.mask)) := by
  have hfind : targets.find? (fun t => !cixValid t.2.toNat) = some t := by
    rw [ht, List.find?_append, List.find?_eq_none.mpr (fun y hy => by simp [hb y hy]), Option.none_or,
      List.find?_cons_of_pos (by simp [hbad])]
  simp only [crewMove, hfind]

/-- So it does where lanes supply the targets: the lowest whose target names no code point is named (R101). -/
theorem crewMove_lane {target : Nat → Word} {ls before after : List Nat} {l : Nat} (hl : ls = before ++ l :: after)
    (hb : ∀ m, m ∈ before → cixValid (target m).toNat = true) (hbad : cixValid (target l).toNat = false) :
    crewMove e (ls.map (fun l => (l, target l))) gone r = .next (trapHere e.s e.id (targetTrap (target l).toNat l e.head.mask)) :=
  crewMove_invalid (before := before.map (fun l => (l, target l))) (after := after.map (fun l => (l, target l))) (t := (l, target l))
    (by rw [hl, List.map_append, List.map_cons]) (List.forall_mem_map.mpr hb) hbad

/-- A transfer to code points for which the frontier has no room traps (R104). -/
theorem crewMove_overflow (hv : ∀ y, y ∈ targets → cixValid y.2.toNat = true) (h : transferDone e targets gone r = none) :
    crewMove e targets gone r = .next (trapHere e.s e.id (openTrap e.s 0x0D e.head.mask)) := by
  have hfind : targets.find? (fun t => !cixValid t.2.toNat) = none := List.find?_eq_none.mpr (fun y hy => by simp [hv y hy])
  have hedit := Option.map_eq_none_iff.mp h
  simp only [crewMove, hfind, hedit]

/-- A relative target without a code index traps (R66, R101). -/
theorem crewBranch_outside {imm : Word} (h : relCix e.head.cix.toNat imm < 8 ∨ (2 ^ 32 : Int) ≤ relCix e.head.cix.toNat imm) :
    crewBranch e imm r = .next (trapHere e.s e.id (targetTrap (lowBits 64 (relCix e.head.cix.toNat imm)) e.first e.head.mask)) := by
  simp only [crewBranch]
  rw [if_pos (by simpa using h)]

/-- A relative target with a code index is that of every active lane (R108). -/
theorem crewBranch_inside {imm : Word} (h1 : 8 ≤ relCix e.head.cix.toNat imm) (h2 : relCix e.head.cix.toNat imm < 2 ^ 32) :
    crewBranch e imm r = crewMove e (e.lanes.map (fun l => (l, BitVec.ofInt 32 (relCix e.head.cix.toNat imm)))) 0 r := by
  simp only [crewBranch]
  rw [if_neg (by simp; omega)]

theorem pilotMove_invalid {t : Nat} (h : pcValid t = false) : pilotMove e t r = .next (trapHere e.s e.id (mkTrap 0x03 t 0)) := by
  simp [pilotMove, h]

end

/-! ### The transfers of a crew and of a pilot -/

section
variable {x : FormB} {s : State} {e : Env}

/-- What a crew's relative transfer leaves in the link register: a call's lanes get the code index of the next slot (R108). -/
def linkResult (e : Env) (i : Instr) : Result :=
  match i with
  | .call _ => { Result.none with vec := [{ name := 223, mask := e.active, words := lanes (fun _ => BitVec.ofNat 32 (nextCix e.head.cix.toNat)) }] }
  | _ => Result.none

/-- `bra`, `bru` and `call` transfer the active lanes to one relative target (R108, R111). -/
theorem exec_crewBranch {i : Instr} (hi : i = .bra x ∨ i = .bru x ∨ i = .call x) (hp : Passes i s e) :
    exec i s = crewBranch e x.imm (linkResult e i) := by
  obtain rfl | rfl | rfl := hi
  · exact passes_issue hp _
  · exact passes_issue hp _
  · exact passes_issue hp _

theorem exec_brx (hp : Passes (.brx x) s e) :
    exec (.brx x) s = crewMove e (e.lanes.map (fun l => (l, BitVec.ofNat 32 (e.av l)))) 0 Result.none := passes_issue hp _

/-- `ret` takes each lane to its link, and retires those whose link is 0 (R109). -/
theorem exec_ret {c : Crew} (hp : Passes (.ret x) s e) (hc : e.crew? = some c) :
    exec (.ret x) s = crewMove e ((e.lanes.filter (fun l => decide (laneWord (regWords c 223) l ≠ 0))).map (fun l => (l, laneWord (regWords c 223) l)))
      (e.active &&& maskOf (fun l => laneWord (regWords c 223) l == 0)) Result.none := by
  refine (passes_issue hp _ : exec (.ret x) s = _).trans ?_
  simp only [hc, Option.map_some, Option.getD_some]

theorem exec_pilotIndirect {i : Instr} (hi : i = .sbrx x ∨ i = .sret x) (hp : Passes i s e) : exec i s = pilotMove e (e.av 0) Result.none := by
  obtain rfl | rfl := hi
  · exact passes_issue hp _
  · exact passes_issue hp _

/-- A relative transfer that has passed its checks names one of a line's five slots (R66). -/
theorem targetSlot_le {i : Instr} (hi : (i = .bra x ∨ i = .bru x ∨ i = .call x) ∨ (i = .sbr x ∨ i = .scall x ∨ i = .loop x))
    (hp : Passes i s e) : bits x.imm 2 0 ≤ 4 := by
  have hs := badSlot_of_passes hp
  obtain (rfl | rfl | rfl) | (rfl | rfl | rfl) := hi
  all_goals exact Nat.le_of_not_lt (of_decide_eq_false hs)

end

/-- Settles O11: each transfer is a `crewMove` or a `pilotMove`, which trap at the first target that names no code point and where the frontier has
no room. -/
theorem crewTransferTraps : Obligations.CrewTransferTraps := by
  intro x s e at_ bad overflows rel
  refine ⟨fun i hi hp hrel => ?_, fun l before after hp hl hb hbad => ?_, fun c l before after hp hc hl hb h0 hbad => ?_,
    fun i r hir hp h1 h2 ht => ?_, fun hp hv ht => ?_, fun c hp hc hv ht => ?_, fun i hi hp hbad => ?_, fun i hi hp => ?_⟩
  · exact (exec_crewBranch hi hp).trans (crewBranch_outside hrel)
  · exact (exec_brx hp).trans (crewMove_lane (target := fun l => BitVec.ofNat 32 (e.av l)) hl hb hbad)
  · have hl0 : laneWord (regWords c 223) l ≠ 0 := fun h => h0 (congrArg BitVec.toNat h)
    refine (exec_ret hp hc).trans (crewMove_lane (target := laneWord (regWords c 223))
      (by rw [hl, List.filter_append, List.filter_cons, if_pos (decide_eq_true hl0)]) (fun m hm => ?_) hbad)
    obtain ⟨hm, hm0⟩ := List.mem_filter.mp hm
    exact (hb m hm).resolve_left (fun h => of_decide_eq_true hm0 (BitVec.eq_of_toNat_eq h))
  · have hi : (i = .bra x ∨ i = .bru x ∨ i = .call x) ∧ r = linkResult e i := by
      obtain ⟨rfl | rfl, rfl⟩ | ⟨rfl, rfl⟩ := hir
      · exact ⟨.inl rfl, rfl⟩
      · exact ⟨.inr (.inl rfl), rfl⟩
      · exact ⟨.inr (.inr rfl), rfl⟩
    obtain ⟨hi, rfl⟩ := hi
    refine (exec_crewBranch hi hp).trans ((crewBranch_inside h1 h2).trans (crewMove_overflow (List.forall_mem_map.mpr fun l _ => ?_) ht))
    exact cixValid_rel (targetSlot_le (.inl hi) hp) h1 h2
  · exact (exec_brx hp).trans (crewMove_overflow (List.forall_mem_map.mpr hv) ht)
  · exact (exec_ret hp hc).trans (crewMove_overflow (List.forall_mem_map.mpr hv) ht)
  · exact (exec_pilotIndirect hi hp).trans (pilotMove_invalid hbad)
  · exact pcValid_rel (targetSlot_le (.inr hi) hp)

end Sys2Proof
end

section
namespace Sys2Proof
open Machine

/-! ### Results of pilot instructions (R96 to R98) -/

/-- An instruction that has passed its checks ends as what issue lets it do ends. -/
theorem exec_completes {i : Instr} {s t : State} {e : Env} {act : Env → Out} (hp : Passes i s e) (hx : exec i s = issue i s act)
    (h : act e = .next t) : exec i s = .next t := by
  rw [hx, passes_issue hp]; exact h

@[simp] theorem width_pilotTy (u : Bool) : (pilotTy u).width = 64 := by cases u <;> rfl

@[simp] theorem fmt_pilotTy (u : Bool) : (pilotTy u).fmt? = none := by cases u <;> rfl

/-- A compare of the pilot orders integers. -/
theorem orderElem_pilotTy (u : Bool) (a b : Nat) : (orderElem (pilotTy u) a b).1 = intCmp ((pilotTy u).intOf a) ((pilotTy u).intOf b) := by
  simp [orderElem]

theorem minElem_pilotTy (u : Bool) (a b : Nat) :
    (minMaxElem (pilotTy u) false a b).1 = if (pilotTy u).intOf b < (pilotTy u).intOf a then b else a := by
  simp only [minMaxElem, fmt_pilotTy, Bool.false_eq_true, if_false]

theorem maxElem_pilotTy (u : Bool) (a b : Nat) :
    (minMaxElem (pilotTy u) true a b).1 = if (pilotTy u).intOf a < (pilotTy u).intOf b then b else a := by
  simp only [minMaxElem, fmt_pilotTy, if_true]

theorem lowBits_natCast (n x : Nat) : lowBits n (x : Int) = x % 2 ^ n := by
  rw [lowBits, ← Int.natCast_emod, Int.toNat_natCast]

/-- A left shift of 64 bits is a product modulo 2^64, and 0 from a count of 64 on. -/
theorem shlElem_n64 (a k : Nat) : (shlElem .n64 false a k).1 % 2 ^ 64 = (if k < 64 then a * 2 ^ k else 0) % 2 ^ 64 := by
  have hw : Ty.n64.width = 64 := rfl
  have ha : Ty.n64.intOf a = ((a % 2 ^ 64 : Nat) : Int) := rfl
  simp only [shlElem, hw, ha, Bool.not_false, Bool.true_or, if_true]
  by_cases hk : k < 64
  · rw [if_pos hk, if_pos hk]
    show lowBits 64 (((a % 2 ^ 64 : Nat) : Int) * ((2 ^ k : Nat) : Int)) % 2 ^ 64 = _
    rw [← Int.natCast_mul, lowBits_natCast, Nat.mod_mod, Nat.mod_mul_mod]
  · rw [if_neg hk, if_neg hk]

/-- The c-bit operation of `cop` (R97). -/
def cbitOp (op : Nat) (a b : Bool) : Bool :=
  match op with
  | 0 => a && b
  | 1 => a || b
  | 2 => a != b
  | 3 => a && !b
  | 4 => a || !b
  | _ => a == b

/-- It is the mask operation of `plog` on bit 0. -/
theorem bitAt_plogOp (op : Nat) (a b : Bool) :
    bitAt (plogOp op (if a then (1 : LaneMask) else 0) (if b then 1 else 0)) 0 = cbitOp op a b := by
  have hbit : ∀ c : Bool, (if c = true then 1#128 else 0#128)[0] = c := by decide
  have hxor : ∀ c d : Bool, (c ^^ d) = (!c == d) := by decide
  unfold plogOp cbitOp bitAt
  split <;> simp [hbit, hxor, bne]

section
variable {i : Instr} {s : State} {e : Env} {act : Env → Out}

/-- A pilot instruction completes with the value that it computes, modulo 2^64. -/
theorem completes_scalar {v w : Nat} (hp : Passes i s e) (hx : exec i s = issue i s act) (ha : act e = completeScalar e v)
    (hv : v % 2 ^ 64 = w % 2 ^ 64) : exec i s = .next (scalarDone e w) :=
  exec_completes hp hx (by rw [ha, completeScalar, scalarDone, hv]; rfl)

/-- So it is where the value is the one that it computes. -/
theorem completes_value {v : Nat} (hp : Passes i s e) (hx : exec i s = issue i s act) (ha : act e = completeScalar e v) :
    exec i s = .next (scalarDone e v) := completes_scalar hp hx ha rfl

/-- A pilot instruction completes with the c-bit that it computes. -/
theorem completes_cbit {b c : Bool} (hp : Passes i s e) (hx : exec i s = issue i s act) (ha : act e = completeCbit e b) (hb : b = c) :
    exec i s = .next (cbitDone e c) :=
  exec_completes hp hx (by rw [ha, hb]; rfl)

end

/-- Settles O8: each instruction completes with the value of its element operation at the pilot's 64-bit integer type. -/
theorem scalarCompletes : Obligations.ScalarCompletes := by
  intro x s e
  refine ⟨fun hp => completes_value hp rfl rfl, fun hp => completes_value hp rfl rfl, fun hp => completes_value hp rfl rfl, fun hp => ?smulh,
    fun hp => ?smin, fun hp => ?smax, fun hp => completes_value hp rfl rfl, fun hp => completes_value hp rfl rfl,
    fun hp => completes_value hp rfl rfl, fun hp => ?sshl, fun hp => ?sshr, fun hp => completes_value hp rfl rfl,
    fun hp => completes_value hp rfl rfl, fun hp => completes_value hp rfl rfl, fun hp => completes_value hp rfl rfl,
    fun hp => completes_value hp rfl rfl, fun hp => completes_value hp rfl rfl, fun hp => completes_value hp rfl rfl,
    fun hp => completes_value hp rfl rfl, fun hp => completes_value hp rfl rfl, fun hp => ?scmp, fun hp => ?cop⟩
  case smulh => exact completes_scalar hp rfl rfl (by rw [mulhiElem, width_pilotTy]; rfl)
  case smin => exact completes_scalar hp rfl rfl (by rw [minElem_pilotTy])
  case smax => exact completes_scalar hp rfl rfl (by rw [maxElem_pilotTy])
  case sshl => exact completes_scalar hp rfl rfl (shlElem_n64 _ _)
  case sshr => exact completes_scalar hp rfl rfl (by simp only [shrElem, intRes, intFit, width_pilotTy, Bool.false_eq_true, if_false])
  case scmp => exact completes_cbit hp rfl rfl (by rw [orderElem_pilotTy])
  case cop => exact completes_cbit hp rfl rfl (bitAt_plogOp ..)

/-! ### Division (R98) -/

section
variable {e : Env}

/-- The quotient that a pilot's division forms. -/
theorem divElem_pilotTy (u : Bool) (a b : Nat) :
    (divElem (pilotTy u) a b).1 = lowBits 64 (satInt (if (pilotTy u).intOf b = 0 then
        (if (pilotTy u).intOf a < 0 then (pilotTy u).imin else (pilotTy u).imax) else ((pilotTy u).intOf a).tdiv ((pilotTy u).intOf b))
      (pilotTy u).imin (pilotTy u).imax) := by
  simp only [divElem, intRes, intFit, width_pilotTy, if_true]

/-- The remainder that a pilot's division forms. -/
theorem remElem_pilotTy (u : Bool) (a b : Nat) :
    (remElem (pilotTy u) a b).1 =
      lowBits 64 (if (pilotTy u).intOf b = 0 then (pilotTy u).intOf a else ((pilotTy u).intOf a).tmod ((pilotTy u).intOf b)) := by
  simp only [remElem, intRes, intFit, width_pilotTy, Bool.false_eq_true, if_false]

/-- Without a pigeonhole the value is the result. -/
theorem divideTo_register (h : pushName e.u e.f = none) (v : Nat) : divideTo e v = .next (scalarDone e v) := by
  simp only [divideTo, h]
  cases ctxIn e.g e.id.who <;> rfl

variable {c : Ctx} {n : Nat} (hc : ctxIn e.g e.id.who = some c) (hn : pushName e.u e.f = some n)
include hc hn

/-- For a pigeonhole the value held is the result. -/
theorem divideTo_held {d : Divided} (hd : c.divided = some d) (v : Nat) : divideTo e v = .next (scalarDone e d.val.toNat) := by
  simp only [divideTo, hc, hn, hd]
  rfl

/-- The second copy of a pair takes the entry that the first one pushed (R332). -/
theorem divideTo_copied {got : Shared} (hd : c.divided = none) (hg : c.copied = some got) (v : Nat) :
    divideTo e v = .next (scalarDone e (leNat ((got.push.map (fun y => y.bytes)).getD []))) := by
  simp only [divideTo, hc, hn, hd, hg]
  rfl

/-- The value is held first. -/
theorem divideTo_holds (hd : c.divided = none) (hg : c.copied = none) {t : State} {p : Option PendTrap}
    (hp : popAll e.s e.id (popList e.u e.f) = (t, p)) (v : Nat) :
    divideTo e v = .next (modCtx t e.id (fun c => { c with divided := some { val := BitVec.ofNat 64 v, trap := p, q := n } })) := by
  simp only [divideTo, hc, hn, hd, hg, hp]

end

/-- Settles O9: both instructions end in `divideTo`, with the quotient or the remainder. -/
theorem divisionCompletes : Obligations.DivisionCompletes := by
  intro x s e a b q r
  have hdiv : ∀ {t : State}, divideTo e q = .next t → Passes (.sdiv x) s e → exec (.sdiv x) s = .next t :=
    fun h hp => exec_completes hp rfl (by rw [divElem_pilotTy]; exact h)
  have hrem : ∀ {t : State}, divideTo e r = .next t → Passes (.srem x) s e → exec (.srem x) s = .next t :=
    fun h hp => exec_completes hp rfl (by rw [remElem_pilotTy]; exact h)
  refine ⟨fun hn => ?_, fun c n d hc hn hd => ?_, fun c n got hc hn hd hg => ?_, fun c n hc hn hd hg t p hp => ?_⟩
  · exact ⟨hdiv (divideTo_register hn _), hrem (divideTo_register hn _)⟩
  · exact ⟨hdiv (divideTo_held hc hn hd _), hrem (divideTo_held hc hn hd _)⟩
  · exact ⟨hdiv (divideTo_copied hc hn hd hg _), hrem (divideTo_copied hc hn hd hg _)⟩
  · exact ⟨hdiv (divideTo_holds hc hn hd hg hp _), hrem (divideTo_holds hc hn hd hg hp _)⟩

end Sys2Proof
end

section
namespace Sys2Proof
open Machine

/-! ### Transfers that complete (R101, R108 to R113) -/

section
variable {e : Env} {r : Result}

/-- A transfer to code points for which the frontier has room completes (R101, R104). -/
theorem crewMove_done {targets : List (Nat × Word)} {gone : LaneMask} {t : State} (hv : ∀ y, y ∈ targets → cixValid y.2.toNat = true)
    (h : transferDone e targets gone r = some t) : crewMove e targets gone r = .next t := by
  have hfind : targets.find? (fun t => !cixValid t.2.toNat) = none := List.find?_eq_none.mpr (fun y hy => by simp [hv y hy])
  obtain ⟨u, hedit, rfl⟩ := Option.map_eq_some_iff.mp h
  simp only [crewMove, hfind, hedit]
  rfl

/-- A pilot's transfer to a code pointer completes (R101, R113). -/
theorem pilotMove_done {pc : Nat} (h : pcValid pc = true) : pilotMove e pc r = .next (pilotTransferDone e pc r) := by
  simp only [pilotMove, h, Bool.not_true, Bool.false_eq_true, if_false]
  rfl

end

/-- Settles O10: each transfer of a crew is a `crewMove` to code points, which completes where the frontier has room; a pilot's `exit` ends it. -/
theorem crewTransferCompletes : Obligations.CrewTransferCompletes := by
  refine ⟨fun x s t e => ⟨fun i r hir hp h1 h2 ht => ?_, fun hp hv ht => ?_, fun c hp hc hv ht => ?_⟩,
    fun x s t e hp => ⟨fun hk ht => ?_, fun hk => ?_⟩⟩
  · have hi : (i = .bra x ∨ i = .bru x ∨ i = .call x) ∧ r = linkResult e i := by
      obtain ⟨rfl | rfl, rfl⟩ | ⟨rfl, rfl⟩ := hir
      · exact ⟨.inl rfl, rfl⟩
      · exact ⟨.inr (.inl rfl), rfl⟩
      · exact ⟨.inr (.inr rfl), rfl⟩
    obtain ⟨hi, rfl⟩ := hi
    refine (exec_crewBranch hi hp).trans ((crewBranch_inside h1 h2).trans (crewMove_done (List.forall_mem_map.mpr fun l _ => ?_) ht))
    exact cixValid_rel (targetSlot_le (.inl hi) hp) h1 h2
  · exact (exec_brx hp).trans (crewMove_done (List.forall_mem_map.mpr hv) ht)
  · exact (exec_ret hp hc).trans (crewMove_done (List.forall_mem_map.mpr hv) ht)
  · exact exec_completes hp rfl (by simp only [hk]; exact crewMove_done nofun ht)
  · exact exec_completes hp rfl (by simp only [hk])

/-- Settles O12: each transfer of a pilot is a `pilotMove` to a code pointer, or the fall-through of `loop`. -/
theorem pilotTransferCompletes : Obligations.PilotTransferCompletes := by
  intro x s e link count
  refine ⟨fun hp hv => exec_completes hp rfl (pilotMove_done hv), fun hp hv => (exec_pilotIndirect (.inl rfl) hp).trans (pilotMove_done hv),
    fun hp hv => (exec_pilotIndirect (.inr rfl) hp).trans (pilotMove_done hv), fun hp hv => exec_completes hp rfl (pilotMove_done hv),
    fun hp h2 hv => ?_, fun hp h2 => ?_⟩
  · exact exec_completes hp rfl ((if_pos h2).trans (pilotMove_done hv))
  · exact exec_completes hp rfl (if_neg (Nat.not_le.mpr h2))

end Sys2Proof
end

section
namespace Sys2Proof
open Machine

/-! ### Parking and yielding (R112, R116, R137) -/

/-- No trap follows an instruction that shares nothing. -/
theorem retire_unshared_trap {e : Env} {s : State} {r : Result} {waits : Option Nat} (h : Unshared e) : (retire e s r none waits).2 = none := by
  rw [retire_unshared e s r waits h]

section
variable {e : Env} {p : Park} (hU : Unshared e)
include hU

theorem arrive_pilot (hw : e.id.who = .pilot) :
    arrive e p = .next (settleBarriers (modWg (retire e e.s Result.none none none).1 e.id.berth
      (fun g => { g with pilot := { g.pilot with park := some p } })) e.id.berth) := by
  simp only [arrive, hw, retire_unshared_trap hU]
  rfl

theorem arrive_crew {n : Nat} {t : State} (hw : e.id.who = .crew n)
    (h : frontierEdit (retire e e.s Result.none none none).1 e.id.berth n e.head.cix [{ e.head with park := some p }] 0 = some t) :
    arrive e p = .next (settleBarriers t e.id.berth) := by
  simp only [arrive, hw, retire_unshared_trap hU, h]
  rfl

end

theorem exec_arrive {i : Instr} {p : Park} {s : State} {e : Env} (hi : (∃ x, i = .bsync x ∧ p = .barrier (bits x.imm 3 0)) ∨ (∃ x, i = .ckpt x ∧ p = .ckpt))
    (hp : Passes i s e) : exec i s = arrive e p := by
  obtain ⟨x, rfl, rfl⟩ | ⟨x, rfl, rfl⟩ := hi
  · exact passes_issue hp _
  · exact passes_issue hp _

/-- Settles O13: `bsync` and `ckpt` are an `arrive`, and no trap follows any of the three. -/
theorem arrivalsAndYieldsComplete : Obligations.ArrivalsAndYieldsComplete := by
  refine ⟨fun i p s e hi hp hU => ⟨fun hw => ?_, fun n t hw ht => ?_⟩, fun x s e hp hU => ?_⟩
  · exact (exec_arrive hi hp).trans (arrive_pilot hU hw)
  · exact (exec_arrive hi hp).trans (arrive_crew hU hw ht)
  · exact exec_completes hp rfl (by simp only [retire_unshared_trap hU]; rfl)

end Sys2Proof
end

section
namespace Sys2Proof
open Machine

/-! ### System instructions (R125 to R131) -/

theorem exec_syswr {x : FormX} {s : State} {e : Env} {f : WG → WG} (hp : Passes (.syswr x) s e)
    (hf : ∀ g, sysWrite e.id g (bits x.imm 11 0) (e.av e.first) = f g) : exec (.syswr x) s = .next (noneDone e (modWg e.s e.id.berth f)) := by
  obtain rfl : (fun g => sysWrite e.id g (bits x.imm 11 0) (e.av e.first)) = f := funext hf
  exact exec_completes hp rfl rfl

/-- Settles O14: `syswr` is `sysWrite` of its register. -/
theorem systemRegistersComplete : Obligations.SystemRegistersComplete := by
  intro x s e n wrote v
  refine ⟨fun hp => exec_completes hp rfl rfl, fun hp => exec_completes hp rfl rfl,
    fun hp => ⟨fun k hn hw => ?_, fun hn => ?_, fun hn => ?_, fun hn => ?_, fun hn => ?_⟩⟩
  all_goals refine exec_syswr hp fun g => ?_
  · rw [show bits x.imm 11 0 = 0x010 from hn]
    simp only [sysWrite, hw]
    rfl
  all_goals rw [show bits x.imm 11 0 = _ from hn]; rfl

/-- Settles O15: `trap` and `halt` as they are issued; `rft` by the code point that the handler returns to. -/
theorem trapHaltAndReturnComplete : Obligations.TrapHaltAndReturnComplete := by
  refine ⟨fun x s e => ⟨fun hp hh => ?_, fun hp hh => ?_, fun hp => ?_⟩, fun x s e c h hp hc hh => ⟨fun hw hk hv => ?_, fun n hw hk hv => ?_, fun hv => ?_⟩⟩
  · exact exec_completes hp rfl (if_pos hh)
  · exact exec_completes hp rfl (if_neg (by simp [hh]))
  · exact exec_completes hp rfl (by cases hk : e.k <;> rfl)
  · exact exec_completes hp rfl (by simp [hc, hh, hk, hv])
  · have hn : e.crewNo = n := by simp only [Env.crewNo, hw]
    exact exec_completes hp rfl (by simp [hc, hh, hk, hv, hn])
  · exact exec_completes hp rfl (by simp [hc, hh, hv])

end Sys2Proof
end

section
namespace Sys2Proof
open Machine

/-! ### Tasks, fences and waits (R122, R132 to R136, R180) -/

@[simp] theorem pkg_tlbFill (s : State) (core asid va : Nat) : (tlbFill s core asid va).pkg = s.pkg := by
  dsimp only [tlbFill, missFill]
  split <;> rfl

/-- The translations that an instruction's accesses leave in a TLB change no workgroup, and nothing that other packages have been asked. -/
theorem fillTlb_keeps (id : CtxId) (g : WG) (xs : List LaneAcc) :
    ∀ s : State, (∀ b, wgOf (fillTlb s id g xs) b = wgOf s b) ∧ (fillTlb s id g xs).pkg = s.pkg := by
  induction xs with
  | nil => exact fun s => ⟨fun _ => rfl, rfl⟩
  | cons x xs ih =>
    intro s
    cases hx : x.va with
    | none => simpa only [fillTlb, List.foldl_cons, hx] using ih s
    | some va =>
      obtain ⟨hw, hp⟩ := ih (tlbFill s (berthCore id.berth) (asidOf g) va)
      simp only [wgOf_tlbFill, pkg_tlbFill] at hw hp
      simpa only [fillTlb, List.foldl_cons, hx] using And.intro hw hp

section
variable {e : Env}

/-- Stores that are out stay out when the translations of the accesses are kept. -/
theorem storesOut_fillTlb (h : StoresOut e) (xs : List LaneAcc) : StoresOut { e with s := fillTlb e.s e.id e.g xs } := by
  obtain ⟨hw, hp⟩ := fillTlb_keeps e.id e.g xs e.s
  obtain ⟨hst, hack⟩ := h
  refine ⟨hst.imp_right fun hst g r hg => hst g r ((hw _).symm.trans hg), ?_⟩
  simp only [Acked, unacked, hp]
  exact hack

/-- Names that fit the reservation let an instruction act (R15). -/
theorem fits_act (h : Fits e) (act : Out) : budgetLate e act = act := if_neg (by rw [h]; exact Bool.false_ne_true)

/-- With its workgroup's writes acknowledged an instruction acts (R258). -/
theorem acked_act (h : Acked e) (act : Out) : awaitAcks e act = act := if_neg (by rw [h]; exact Bool.false_ne_true)

/-- An instruction of a task acts when nothing of its pair, its names or other packages holds it. -/
theorem late_act (hperf : Performs e) (hfit : Fits e) (hack : Acked e) (act : Env → Out) :
    budgetLate e (countersigned e (fun e => awaitAcks e (act e))) = act e := by
  rw [fits_act hfit, performs_act hperf, acked_act hack]

/-- The word that `await` reads in a lane (R122). -/
def awaited (e : Env) (x : FormQ) (y : LaneAcc) : Nat := leNat (accRead e.s e.id e.g y (accWidth x.ty))

/-- Whether a lane's word meets the comparison of `await`. -/
def awaitMet (e : Env) (x : FormQ) (v : Nat × Nat) : Bool :=
  condHolds (bits x.imm 3 0) (orderElem x.ty (v.2 % 2 ^ x.ty.width) (e.bv v.1 % 2 ^ x.ty.width)).1

/-- What a list of lanes' words gives a lane when each word is changed. -/
theorem laneOf_map {α : Type} (f : α → Nat) (g : Nat → Nat) (lane : α → Nat) (xs : List α) (l : Nat) :
    laneOf (xs.map (fun y => (lane y, g (f y)))) l = (((xs.map (fun y => (lane y, f y))).find? (fun v => v.1 == l)).map (fun v => g v.2)).getD 0 := by
  simp only [laneOf, List.find?_map, Option.map_map]
  rfl

/-- `await` whose accesses are found, and whose names fit, goes on where every word meets the comparison, and waits otherwise (R122). -/
theorem exec_await {x : FormQ} {s : State} {xs : List LaneAcc} (hp : Passes (.await x) s e)
    (hxs : Reaches e (bitAt x.sub 0) (e.lanes.map (fun l => (l, (e.av l : Int) + 0 + 0))) (x.ty.width / 8) true false xs) (hfit : Fits e) :
    exec (.await x) s =
      if (xs.map (fun y => (y.lane, awaited e x y))).all (awaitMet e x) then
        .next (resultDone e (fillTlb e.s e.id e.g xs) (laneOf (xs.map (fun y => (y.lane, extendLoad e.k x.ty (natLe (accWidth x.ty) (awaited e x y)))))))
      else .next (block (dropRemote e.s e.id) e.id .await) := by
  refine (passes_issue hp _ : exec (.await x) s = _).trans ?_
  have hok : checkAccess e.s e.id e.g (bitAt x.sub 0) (addresses e 0 none (accWidth x.ty)) (accWidth x.ty) true false = .ok xs := hxs
  simp only [hok, accessStop, fits_act hfit]
  rw [funext (laneOf_map (awaited e x) (fun v => extendLoad e.k x.ty (natLe (accWidth x.ty) v)) (fun y => y.lane) xs)]
  rfl

end

/-- Settles O16: the accesses are found, and nothing holds the instruction (`late_act`). -/
theorem tasksComplete : Obligations.TasksComplete := by
  intro x s e xs hperf hfit hack
  refine ⟨fun hp hxs hroom => exec_completes hp rfl ?_,
    fun hp hxs => ⟨fun hst hout => exec_completes hp rfl ?_, fun hst hdst hroom => exec_completes hp rfl ?_⟩⟩
  · simp only [hxs, accessStop, late_act hperf hfit hack, hroom, Bool.false_eq_true, if_false]
    rfl
  · simp only [hxs, accessStop, late_act hperf hfit hack, hst, Bool.false_eq_true, if_false, stores_out (storesOut_fillTlb hout xs)]
    rfl
  · simp only [hxs, accessStop, late_act hperf hfit hack, hst, hroom, Nat.not_le.mpr hdst, Bool.false_eq_true, if_true, if_false]
    rfl

/-- Settles O20: a fence by its scope; `await` by the comparison of each lane's word. -/
theorem orderingCompletes : Obligations.OrderingCompletes := by
  intro s e
  refine ⟨fun x hp hsc hperf hack => exec_completes hp rfl ?_, fun x hp hsc => exec_completes hp rfl ?_,
    fun x xs hp hxs hfit => ⟨fun hm => ?_, fun hm => ?_⟩⟩
  · have hwide : (decide (scopeOf x = 3) || decide (scopeOf x = 4)) = true := by simpa using hsc
    have h3 : 3 ≤ scopeOf x := by omega
    simp only [hwide, if_true, performs_act hperf, awaitScope, h3, acked_act hack]
    rfl
  · have hnarrow : (decide (scopeOf x = 3) || decide (scopeOf x = 4)) = false := by simp; omega
    have h3 : ¬ 3 ≤ scopeOf x := by omega
    simp only [hnarrow, Bool.false_eq_true, if_false, awaitScope, h3]
    rfl
  · have hall : (xs.map (fun y => (y.lane, awaited e x y))).all (awaitMet e x) = true := List.all_map.trans (List.all_eq_true.mpr hm)
    exact (exec_await hp hxs hfit).trans (if_pos hall)
  · obtain ⟨y, hy, hy'⟩ := hm
    have hall : ¬ (xs.map (fun y => (y.lane, awaited e x y))).all (awaitMet e x) = true := by
      rw [List.all_map]
      exact fun h => hy' (List.all_eq_true.mp h y hy)
    exact (exec_await hp hxs hfit).trans (if_neg hall)

end Sys2Proof
end

section
namespace Sys2Proof
open Machine

/-! ### Transit entries, due traps and time-outs (R118, R119, R138, R192, R234, R367) -/

section
variable {s : State} {b : Nat} {g : WG}

theorem modWg_eq_setWg (hg : wgOf s b = some g) (f : WG → WG) : modWg s b f = setWg s b (f g) := by
  simp only [modWg, hg]

/-- A home agent with room takes the entries of a transit buffer (R192). -/
theorem acceptPush_room {n : Nat} {q : Binding} (hq : (wgOf (acceptStrays s b) b).bind (fun g => bindOf g n) = some q) (ht : q.transit ≠ [])
    (hr : qCount (acceptStrays s b) q + q.transit.length ≤ q.cap) :
    acceptPush s b n = qWakePops (modWg (qAppend (acceptStrays s b) q false false q.transit) b (fun g =>
      unblockWhere (modBind g n (fun q => { q with transit := [] })) (fun r => decide (r = .push n) || decide (r = .unbind n)))) q.desc := by
  have hroom : (q.transit.isEmpty || !qRoom (acceptStrays s b) q q.transit.length) = false := by simp [qRoom, hr, ht]
  simp only [acceptPush, hq, hroom, Bool.false_eq_true, if_false]

section
variable {w : Who} {t : PendTrap} (hg : wgOf s b = some g) (hd : dueTrap s ⟨b, w⟩ = some t)
include hg hd

/-- A due trap of a context that is at a slot is taken there (R367). -/
theorem deliverDue_slot (h : t.entry.isSome = true ∨ parkedAt s ⟨b, w⟩ g = none) :
    deliverDue s ⟨b, w⟩ = trapAt (popTrap s ⟨b, w⟩ t).1 ⟨b, w⟩ (popTrap s ⟨b, w⟩ t).2 := by
  have hp : (if t.entry.isSome then none else parkedAt s ⟨b, w⟩ g) = none := by
    rcases h with h | h <;> simp [h]
  simp only [deliverDue, hd, hg, hp]

/-- A due trap of a context that is parked withdraws its arrival. -/
theorem deliverDue_parked {p : Park} (he : t.entry = none) (hp : parkedAt s ⟨b, w⟩ g = some p) :
    deliverDue s ⟨b, w⟩ = withdrawTrap (popTrap s ⟨b, w⟩ t).1 b w p (popTrap s ⟨b, w⟩ t).2 := by
  have hp' : (if t.entry.isSome then none else parkedAt s ⟨b, w⟩ g) = some p := by simp [he, hp]
  simp only [deliverDue, hd, hg, hp']

/-- An event that takes the due trap of its cause takes it at its slot, or withdraws the arrival. -/
theorem due_taken {i : Instr} (hi : exec i s = .next (deliverDue s ⟨b, w⟩)) :
    (t.entry.isSome = true ∨ parkedAt s ⟨b, w⟩ g = none → exec i s = .next (trapAt (popTrap s ⟨b, w⟩ t).1 ⟨b, w⟩ (popTrap s ⟨b, w⟩ t).2)) ∧
    (∀ p, t.entry = none → parkedAt s ⟨b, w⟩ g = some p →
      exec i s = .next (withdrawTrap (popTrap s ⟨b, w⟩ t).1 b w p (popTrap s ⟨b, w⟩ t).2)) :=
  ⟨fun h => by rw [hi, deliverDue_slot hg hd h], fun p he hp => by rw [hi, deliverDue_parked hg hd he hp]⟩

end

/-- A timer that has run for the time-out writes its record, clears, and withdraws the arrival (R118, R119). -/
theorem timeoutAt_expired {at_ : Park} {w : Who} {t : Nat} (hg : wgOf s b = some g) (hr : g.run = .running) (ht : t + hTimeout g.hdr ≤ s.cycle)
    (hm : timerOf g at_ = some t) (hw : timeoutReceiver s b g at_ = some w) :
    timeoutAt s b at_ = withdrawTrap (modWg (diagWrite s b g at_).2 b (fun g => clearTimer g at_)) b w at_ (mkTrap 0x0C (diagWrite s b g at_).1 0) := by
  have hdue : (decide (t + hTimeout g.hdr ≤ s.cycle) && decide (g.run = .running)) = true := by simp [ht, hr]
  simp only [timeoutAt, hg, hm, hw, hdue, if_true]

end

/-- Settles O29: the events by the model's functions for a push, a due trap and an expired timer. -/
theorem queueTrapAndTimeoutEvents : Obligations.QueueTrapAndTimeoutEvents := by
  refine ⟨fun s b g hg => ⟨fun n q hq ht hr => ?_, fun n => ?_, fun w t hd => ⟨fun hc => ?_, fun hc hw => ?_⟩⟩,
    fun s b g w t hg hr ht => ⟨fun n x hx hs hw => ?_, fun hs hw => ?_⟩⟩
  · exact congrArg Host.Outcome.next (acceptPush_room hq ht hr)
  · exact congrArg Host.Outcome.next (modWg_eq_setWg hg _)
  · exact due_taken hg hd (congrArg Host.Outcome.next (if_pos (by simp [hd, hc])))
  · subst hw
    exact due_taken hg hd (congrArg Host.Outcome.next (if_pos (by simp [hd, hc])))
  · exact congrArg Host.Outcome.next (timeoutAt_expired (at_ := .barrier n) hg hr ht (by simp [timerOf, hx, hs]) hw)
  · exact congrArg Host.Outcome.next (timeoutAt_expired (at_ := .ckpt) hg hr ht hs hw)

end Sys2Proof
end

section
namespace Sys2Proof
open Machine

/-! ### Dealing and placement (R135, R279, R308 to R314) -/

section
variable {s t : State} {lid : Nat} {l : Launch}

/-- A header that has been read is not read again. -/
theorem readHeader_read (h : l.hdr.isSome = true) : readHeader s l = s := if_pos h

/-- A launch whose counter is still to be read, or lies in another package, registers again (R135). -/
theorem dealLaunch_registers (hl : launchOf s lid = some l) (h : l.state = .submitted ∨ l.state = .waiting ∧ counterAway s l ≠ none) :
    dealLaunch s lid = registerAgain s l := by
  have hr : registers s l = true := by
    simpa [registers, Option.isSome_iff_ne_none] using h
  simp only [dealLaunch, hl, hr, if_true]

/-- A launch that is placed does not register. -/
theorem registers_placeable (h : placeable l = true) : registers s l = false := by
  unfold placeable at h
  unfold registers
  cases hs : l.state <;> simp_all

theorem placeable_of_dealable (h : dealable s l = true) : placeable l = true := (Bool.and_eq_true_iff.mp h).1

/-- A launch that is due is dealt (R308, R309). -/
theorem dealLaunch_deals (hl : launchOf s lid = some l) (hd : dealable s l = true) (hh : l.hdr.isSome = true) (hg : mGang l.man = 0)
    (hn : dealNow s l = true) :
    dealLaunch s lid = modLaunch (dealLoop (16 * 640) s lid) lid (fun l => { l with
      dealDue := (dealCore (dealLoop (16 * 640) s lid) l).isSome || (gangOf (dealLoop (16 * 640) s lid) lid).isSome ||
        (launchDup l && outranked (dealLoop (16 * 640) s lid) l.part l) }) := by
  simp only [dealLaunch, hl, registers_placeable (placeable_of_dealable hd), hd, hg, hn, readHeader_read hh, hh, Bool.false_eq_true,
    Bool.not_true, Bool.or_false, ne_eq, not_true_eq_false, decide_false, Bool.and_true, if_true, if_false]
  rfl

/-- A dealt workgroup that is the lowest of its chunk is placed on the chunk's core (R309). -/
theorem placeDealt_places {wgix : Nat} {c : Nat × List Nat} (hl : launchOf s lid = some l) (hc : l.chunks.find? (fun c => c.2.contains wgix) = some c)
    (hlow : ∀ n, n ∈ c.2 → wgix ≤ n) (hp : placeable l = true) (hw : waitsBehind l wgix = false) (hb : bringOn s l.part l wgix c.1 = some t) :
    placeDealt s lid wgix = t := by
  have hall : c.2.all (fun n => decide (wgix ≤ n)) = true := List.all_eq_true.mpr fun n hn => decide_eq_true (hlow n hn)
  simp only [placeDealt, hl, hc, hall, hp, hw, hb, Bool.not_false, Bool.and_self, if_true]

/-- A gang in its reserve phase gives its reservations up, or reserves its next member (R313). -/
theorem gangStep_phase {part : Nat} {y : GangPhase} (hl : launchOf s lid = some l) (hd : dealable s l = true) (hh : l.hdr.isSome = true)
    (hg : gangOf s lid = some (part, y)) (ho : outranked s part l = false) :
    gangStep s lid = if gangBehind s l y.gang then dropGang s part else reserveNext s part l y := by
  have hnone : l.hdr.isNone = false := by simpa using hh
  simp only [gangStep, hl, hd, hg, ho, readHeader_read hh, hnone, Option.isNone_some, Bool.not_true, Bool.and_false, Bool.or_self, Bool.false_eq_true, if_false]

/-- A gang whose missing members are all reserved, with what each starts from at hand, is committed (R313). -/
theorem gangDone_commits {part : Nat} {y : GangPhase} (hl : launchOf s lid = some l) (hg : gangOf s lid = some (part, y)) (hm : gangMissing s l y.gang ≠ [])
    (hb : gangBehind s l y.gang = false)
    (hall : ∀ w, w ∈ gangMissing s l y.gang →
      (reservedOf y w).length = copiesOf l ∧ ((savedOf l w).isEmpty = false ∨ (argBytes s l w).isSome = true)) :
    gangDone s lid = settleLaunch (commitMembers part y lid (gangMissing s l y.gang) (modPart s part (fun p => { p with gang := none }))) lid := by
  have hempty : (gangMissing s l y.gang).isEmpty = false := by simpa using hm
  have hres : (gangMissing s l y.gang).all (fun w => decide ((reservedOf y w).length = copiesOf l)) = true :=
    List.all_eq_true.mpr fun w hw => decide_eq_true (hall w hw).1
  have hargs : (gangMissing s l y.gang).find? (fun w => (savedOf l w).isEmpty && (argBytes s l w).isNone) = none := by
    refine List.find?_eq_none.mpr fun w hw => ?_
    rcases (hall w hw).2 with h | h
    · simp [h]
    · simp [Option.isSome_iff_ne_none.mp h]
  simp only [gangDone, hl, hg, hempty, hres, hb, hargs, Bool.not_true, Bool.or_self, Bool.false_eq_true, if_false]

/-- A workgroup that is brought on fits its core, where its mode lets it be placed. -/
theorem fits_of_bringOn {w core part : Nat} (h : bringOn s part l w core = some t) :
    (memberNeed l w).any (fits s part core) = true ∧ detPlaceable s l w = true := by
  unfold bringOn at h
  split at h
  · cases h
  · rename_i n hn
    split at h
    · cases h
    · rename_i hf
      simpa [hn] using hf

/-- The launch that comes first in roadstead order places its lowest unplaced workgroup on a core with room (R310). -/
theorem refillOnce_places {core w : Nat} {all : Bool} {ls : List Nat} (hl : launchOf s lid = some l) (hd : dealable s l = true) (hh : l.hdr.isSome = true)
    (hg : mGang l.man = 0) (hdup : launchDup l = true → (partOf s l.part).gang = none ∧ outranked s l.part l = false) (hw : lowestUnplaced l = some w)
    (hall : all = true ∨ l.back.contains w = true) (hb : bringOn s l.part l w core = some t) :
    refillOnce core all (lid :: ls) s = .placed t := by
  obtain ⟨hfit, hdet⟩ := fits_of_bringOn hb
  have hpair : (launchDup l && ((partOf s l.part).gang.isSome || outranked s l.part l)) = false := by
    cases hdl : launchDup l with
    | false => rfl
    | true => obtain ⟨h1, h2⟩ := hdup hdl; simp [h1, h2]
  have hall' : (all || l.back.contains w) = true := by simpa using hall
  simp only [refillOnce, hl, hd, hg, hpair, readHeader_read hh, hw, hfit, hdet, hall', hb, Option.bind_some, Option.map_some, Bool.not_true, ne_eq,
    not_true_eq_false, decide_false, Bool.or_self, Bool.false_eq_true, if_false]

/-- A core with something to refill, and no retirement or save due, refills (R310, R319). -/
theorem refill_loops {core part : Nat} (hp : partOfCore s core = some part) (hn : refillNow s core = true) (hr : retirementDue s core = false)
    (hs : saveDue s core = false) : refill s core = refillLoop core part (coreOf s core).freed 34 s := by
  simp only [refill, hp, hn, hr, hs, Bool.not_false, Bool.and_self, if_true]
  rfl

end

/-- Settles O37: each event by what its function of the model does where the rule's conditions hold. -/
theorem placementEvents : Obligations.PlacementEvents := by
  intro s
  refine ⟨fun lid l hl => ⟨fun h => ?_, fun hd hh hg hn => ?_, fun wgix c t hc hlow hp hw hb => ?_,
    fun part y hd hh hg ho => ⟨fun hb => ?_, fun hb => ?_⟩, fun part y hg hm hb hall => ?_⟩,
    fun core p l rest w t hp hn hr hs hroad hl hd hh hg hdup hw hall hb => ?_⟩
  · exact congrArg Host.Outcome.next (dealLaunch_registers hl h)
  · exact congrArg Host.Outcome.next (dealLaunch_deals hl hd hh hg hn)
  · exact congrArg Host.Outcome.next (placeDealt_places hl hc hlow hp hw hb)
  · exact congrArg Host.Outcome.next ((gangStep_phase hl hd hh hg ho).trans (if_neg (by simp [hb])))
  · exact congrArg Host.Outcome.next ((gangStep_phase hl hd hh hg ho).trans (if_pos hb))
  · exact congrArg Host.Outcome.next (gangDone_commits hl hg hm hb hall)
  · refine congrArg Host.Outcome.next ((refill_loops hp hn hr hs).trans ?_)
    simp only [refillLoop, hroad, List.map_cons, refillOnce_places hl hd hh hg hdup hw hall hb]

end Sys2Proof
end

section
namespace Sys2Proof
open Machine

/-! ### `HDONE` while the hand-over still waits (R312, R408) -/

/-- A launch that is handed to harbour software (R312), its manifest all 0 but for `BCLS`, with the launch id 9. -/
def handedLaunch : Launch := { freshLaunch 0 0 0 (BitVec.ofNat 2048 (2 ^ 179)) none none with id := 9, state := .ready, handed := true }

/-- The launch's hand-over event waits in an enabled partition's event ring, with harbour software running. -/
def handOverWaits : State :=
  putEvent { State.reset with
    pkg := { Pkg.reset with westUp := true }, launches := [handedLaunch],
    parts := [(0, { Part.off with en := true, hev := { Ring.off with cap := 16 } })] } 0 2 0 0 9 0 0 0

/-- The model drops a completion that is reported before the hand-over is delivered: the launch stays handed. -/
theorem hdone_handOverWaits : exec (.hdone 0 9) handOverWaits = .next handOverWaits := by
  have hup : handOverWaits.pkg.westUp = true := rfl
  have hl : handOverWaits.launches.find? (fun l => l.part == 0 && l.handed && decide (l.id = BitVec.ofNat 32 (bits (9 : DWord) 31 0)) &&
      decide (l.state = .ready)) = some handedLaunch := rfl
  have hheld : eventHeld handOverWaits 0 2 handedLaunch.id 0 = true := rfl
  show Host.Outcome.next (bySoftware _ _) = _
  simp only [bySoftware, hup, if_true, hdoneWrite, hl, hheld]

/-- Refutes O38: the clause on `HDONE` leaves out that a report has no effect while the hand-over event still waits (`eventHeld`). In the
state `handOverWaits` the clause claims that the launch completes; the model leaves it handed. -/
theorem not_endsComplete : ¬ Obligations.EndsComplete := by
  intro h
  obtain ⟨-, -, -, hdone⟩ := h handOverWaits
  have hx := hdone_handOverWaits.symm.trans (hdone 0 9 handedLaunch rfl rfl)
  have hhanded := congrArg (fun t : State => t.launches.any (fun l => l.handed)) (Host.Outcome.next.inj hx)
  exact absurd hhanded (by decide +kernel)

end Sys2Proof
end

section
namespace Sys2Proof
open Machine

/-! ### Completing a vector instruction (R141) -/

section
variable {i : Instr} {s : State} {e : Env} {act : Env → Out} (hp : Passes i s e) (hx : exec i s = issue i s act)
include hp hx

/-- An operation on each element completes with the element results of the active lanes. -/
theorem completes_elements {t : Ty} {rm : Rm} {b : Nat → Nat} {f : Nat → Nat → Nat → Nat → Nat × BitVec 5} (ha : act e = elementwise e t rm b f) :
    exec i s = .next (elementsDone e t rm b f) := exec_completes hp hx ha

/-- A value computed in each active lane completes without a flag. -/
theorem completes_values {val : Nat → Nat} (ha : act e = completeLanes e val) : exec i s = .next (valuesDone e val) := exec_completes hp hx ha

/-- A predicate bit computed in each active lane completes. -/
theorem completes_predicate {p : Nat → Bool} (ha : act e = completePred e e.s p) : exec i s = .next (predicateDone e e.s p) := exec_completes hp hx ha

/-- A compare completes. -/
theorem completes_compare {t : Ty} {cc : Nat} {b : Nat → Nat} (ha : act e = compareLanes e t cc b) : exec i s = .next (compareDone e t cc b) :=
  exec_completes hp hx ha

/-- Values and flags computed in each active lane complete, with the draws of `d`. -/
theorem completes_lanes {d : Env} {f : Nat → Nat × BitVec 5} (ha : act e = completeFlagged d e.s f) : exec i s = .next (lanesDone d e.s f) :=
  exec_completes hp hx ha

end

/-- The average rounds up where its SUB field is 0 (R146). -/
theorem avgElem_up {n : Nat} (t : Ty) (sub : BitVec n) (a b : Nat) :
    avgElem t (sub == 0) a b = intRes t false ((t.intOf a + t.intOf b + (if sub = 0 then 1 else 0)) / 2) := by
  simp only [avgElem, beq_iff_eq]

/-- Settles O1: each instruction is `elementwise` of its element operation. -/
theorem arithmeticCompletes : Obligations.ArithmeticCompletes := by
  intro x s e
  refine ⟨fun hp => completes_elements hp rfl rfl, fun hp => completes_elements hp rfl rfl, fun hp => completes_elements hp rfl rfl,
    fun hp => completes_elements hp rfl rfl, fun hp => completes_elements hp rfl rfl, fun hp => completes_elements hp rfl rfl,
    fun hp => completes_elements hp rfl rfl, fun hp => completes_elements hp rfl rfl, fun hp => completes_elements hp rfl rfl, fun hp => ?avg,
    fun hp => completes_elements hp rfl rfl, fun hp => completes_elements hp rfl rfl⟩
  case avg =>
    simp only [← avgElem_up]
    exact completes_elements hp rfl rfl

/-- Settles O2: each instruction is `elementwise` of its element operation, or one value in each active lane. -/
theorem bitwiseCompletes : Obligations.BitwiseCompletes := by
  intro x s e
  exact ⟨fun hp => completes_values hp rfl rfl, fun hp => completes_values hp rfl rfl, fun hp => completes_values hp rfl rfl,
    fun hp => completes_values hp rfl rfl, fun hp => completes_elements hp rfl rfl, fun hp => completes_elements hp rfl rfl,
    fun hp => completes_values hp rfl rfl, fun hp => completes_values hp rfl rfl, fun hp => completes_values hp rfl rfl,
    fun hp => completes_elements hp rfl rfl, fun hp => completes_elements hp rfl rfl, fun hp => completes_values hp rfl rfl,
    fun hp => completes_values hp rfl rfl, fun hp => completes_values hp rfl rfl, fun hp => completes_values hp rfl rfl⟩

/-- Settles O3: each instruction is `elementwise` of its element operation, which rounds once. -/
theorem floatCompletes : Obligations.FloatCompletes := by
  intro x s e
  exact ⟨fun hp => completes_elements hp rfl rfl, fun hp => completes_elements hp rfl rfl, fun hp => completes_elements hp rfl rfl,
    fun hp => completes_elements hp rfl rfl, fun hp => completes_elements hp rfl rfl, fun hp => completes_elements hp rfl rfl,
    fun hp => completes_elements hp rfl rfl, fun hp => completes_elements hp rfl rfl, fun hp => completes_elements hp rfl rfl,
    fun hp => completes_elements hp rfl rfl, fun hp => completes_elements hp rfl rfl, fun hp => completes_elements hp rfl rfl⟩

/-- Settles O4: each instruction completes as its VV form does, with `immSource` as source b. -/
theorem immediateCompletes : Obligations.ImmediateCompletes := by
  intro x s e
  exact ⟨fun hp => completes_elements hp rfl rfl, fun hp => completes_elements hp rfl rfl, fun hp => completes_elements hp rfl rfl,
    fun hp => completes_elements hp rfl rfl, fun hp => completes_elements hp rfl rfl, fun hp => completes_values hp rfl rfl,
    fun hp => completes_values hp rfl rfl, fun hp => completes_values hp rfl rfl, fun hp => completes_elements hp rfl rfl,
    fun hp => completes_elements hp rfl rfl, fun hp => completes_elements hp rfl rfl, fun hp => completes_compare hp rfl rfl,
    fun hp => completes_values hp rfl rfl, fun hp => completes_values hp rfl rfl⟩

/-! ### Draws, and results in other lanes than the active ones -/

/-- The draws of a rounding change no operand: the values complete as those of the instruction before it has drawn. -/
theorem completeVals_consuming (e : Env) (rm : Rm) (drawn : LaneMask) (t : State) (m : LaneMask) (val : Nat → Nat) :
    completeVals (e.consuming rm drawn) t m val = .next (completed (e.consuming rm drawn) t (dstResult e m val) (dstEntry e val) none) := by
  rw [consuming_eq]
  rfl

/-- Settles O5: values, flags and predicate bits in each active lane; `mxunpack` completes in the lanes of its full blocks. -/
theorem predicatesDrawsAndConversionComplete : Obligations.PredicatesDrawsAndConversionComplete := by
  refine ⟨fun x s e => ⟨fun hp => completes_compare hp rfl rfl, fun hp => completes_predicate hp rfl rfl, fun hp => completes_values hp rfl rfl,
    fun hp => completes_predicate hp rfl rfl, fun hp => ?rand⟩, fun x s e => ⟨fun hp => completes_lanes hp rfl rfl, fun hp => ?mxscale, fun hp => ?mxunpack⟩⟩
  case rand =>
    simp only [← beq_iff_eq (a := x.sub), ← beq_iff_eq (a := x.ty)]
    exact completes_lanes hp rfl rfl
  case mxscale =>
    simp only [← beq_iff_eq (a := x.sub)]
    exact completes_lanes hp rfl rfl
  case mxunpack => exact exec_completes hp rfl (completeVals_consuming ..)

/-- Settles O7: each instruction completes with a value or a predicate bit in each active lane; `scan` and `red` draw, `cmpct` writes the lanes that it
fills. -/
theorem crossbarCompletes : Obligations.CrossbarCompletes := by
  intro x s e
  refine ⟨fun hp => completes_values hp rfl rfl, fun hp => ?bclane, fun hp => completes_values hp rfl rfl, fun hp => exec_completes hp rfl rfl,
    fun hp => exec_completes hp rfl (completeVals_consuming ..), fun hp => exec_completes hp rfl (completeVals_consuming ..), fun hp => ?vote,
    fun hp => completes_values hp rfl rfl, fun hp => ?mtch, fun hp => exec_completes hp rfl rfl⟩
  case bclane =>
    simp only [← beq_iff_eq (a := x.sub)]
    exact completes_values hp rfl rfl
  case vote =>
    simp only [← beq_iff_eq (a := x.sub)]
    exact completes_predicate hp rfl rfl
  case mtch =>
    simp only [← beq_iff_eq (a := x.sub)]
    exact completes_values hp rfl rfl

end Sys2Proof
end

section
namespace Sys2Proof
open Machine

/-! ### Integers of a type (R35) -/

section
variable (t : Ty)

/-- A type has twice as many codes as its lower half. -/
theorem two_pow_width : 2 ^ t.width = 2 * 2 ^ (t.width - 1) := by
  have hpos : 0 < t.width := by cases t <;> decide
  rw [← Nat.pow_succ', Nat.succ_eq_add_one, Nat.sub_add_cancel hpos]

theorem imax_eq : t.imax = t.imin + (2 ^ t.width : Nat) - 1 := by
  have hw := two_pow_width t
  unfold Ty.imin Ty.imax
  split <;> omega

theorem imin_nonpos : t.imin ≤ 0 := by
  unfold Ty.imin
  split
  · exact Int.neg_nonpos_of_nonneg (Int.natCast_nonneg _)
  · exact Int.le_refl 0

theorem imax_nonneg : 0 ≤ t.imax := by
  have hw := two_pow_width t
  have hp := Nat.two_pow_pos (t.width - 1)
  unfold Ty.imax
  split <;> omega

/-- A code's integer lies in the range of its type. -/
theorem intOf_mem (n : Nat) : t.imin ≤ t.intOf n ∧ t.intOf n ≤ t.imax := by
  have hw := two_pow_width t
  have hn : n % 2 ^ t.width < 2 ^ t.width := Nat.mod_lt _ (Nat.two_pow_pos _)
  unfold Ty.imin Ty.imax Ty.intOf signedOf
  by_cases hs : t.signed
  · simp only [hs, if_true]
    split <;> omega
  · simp only [hs, Bool.false_eq_true, if_false]
    omega

/-- A code's integer is the code modulo 2^n. -/
theorem intOf_emod (n : Nat) : t.intOf n % (2 ^ t.width : Nat) = (n : Int) % (2 ^ t.width : Nat) := by
  unfold Ty.intOf signedOf
  split
  · split
    · rw [Int.natCast_emod, Int.emod_emod]
    · rw [Int.sub_emod_right, Int.natCast_emod, Int.emod_emod]
  · rw [Int.natCast_emod, Int.emod_emod]

/-- The low bits of an exact integer are it modulo 2^n. -/
theorem intOf_lowBits_emod (x : Int) : t.intOf (lowBits t.width x) % (2 ^ t.width : Nat) = x % (2 ^ t.width : Nat) := by
  have hpos := Nat.two_pow_pos t.width
  rw [intOf_emod, lowBits, Int.toNat_of_nonneg (Int.emod_nonneg _ (by omega)), Int.emod_emod]

theorem lowBits_lt (n : Nat) (x : Int) : lowBits n x < 2 ^ n := by
  have hpos := Nat.two_pow_pos n
  have h0 := Int.emod_nonneg x (b := (2 ^ n : Nat)) (by omega)
  have h1 := Int.emod_lt_of_pos x (b := (2 ^ n : Nat)) (by omega)
  unfold lowBits
  omega

variable {t}

theorem imax_of_signed (h : t.signed = true) : t.imax = -t.imin - 1 := by
  simp only [Ty.imin, Ty.imax, h, if_true]
  omega

/-- Two integers of a type's range that agree modulo 2^n are equal. -/
theorem eq_of_emod_eq {x y : Int} (hx : t.imin ≤ x ∧ x ≤ t.imax) (hy : t.imin ≤ y ∧ y ≤ t.imax)
    (h : x % (2 ^ t.width : Nat) = y % (2 ^ t.width : Nat)) : x = y := by
  have hm := imax_eq t
  have hsub : (x - t.imin) % (2 ^ t.width : Nat) = (y - t.imin) % (2 ^ t.width : Nat) := by
    rw [Int.sub_emod, h, ← Int.sub_emod]
  rw [Int.emod_eq_of_lt (by omega) (by omega), Int.emod_eq_of_lt (by omega) (by omega)] at hsub
  omega

/-- An integer of the type's range is the one that its code holds. -/
theorem intOf_lowBits {x : Int} (hx : t.imin ≤ x ∧ x ≤ t.imax) : t.intOf (lowBits t.width x) = x :=
  eq_of_emod_eq (intOf_mem t _) hx (intOf_lowBits_emod t x)

theorem satInt_eq {x lo hi : Int} (h : lo ≤ hi) : satInt x lo hi = max lo (min hi x) := by
  unfold satInt
  split
  · omega
  · split <;> omega

/-! ### Integer results (R146) -/

/-- What an integer operation gives for an exact value x: without `SAT` its residue modulo 2^n, with `SAT` the nearest value of the type; no flag. -/
def GivesInt (t : Ty) (op : Bool → Nat × BitVec 5) (x : Int) : Prop :=
  ((t.intOf (op false).1 - x) % ((2 ^ t.width : Nat) : Int) = 0 ∧ (op false).1 < 2 ^ t.width ∧ (op false).2 = 0) ∧
    (t.intOf (op true).1 = max t.imin (min t.imax x) ∧ (op true).1 < 2 ^ t.width ∧ (op true).2 = 0)

/-- A saturated result holds the value of the type that is nearest. -/
theorem intOf_intRes_sat (x : Int) : t.intOf (intRes t true x).1 = max t.imin (min t.imax x) := by
  have h0 := imin_nonpos t
  have h1 := imax_nonneg t
  have hs : (intRes t true x).1 = lowBits t.width (satInt x t.imin t.imax) := rfl
  rw [hs, satInt_eq (by omega), intOf_lowBits (by omega)]

/-- An exact result of the type's range is the value of its code. -/
theorem intOf_intRes {x : Int} (hx : t.imin ≤ x ∧ x ≤ t.imax) : t.intOf (intRes t false x).1 = x := intOf_lowBits hx

theorem givesInt_intRes (x : Int) : GivesInt t (fun sat => intRes t sat x) x :=
  ⟨⟨Int.emod_eq_emod_iff_emod_sub_eq_zero.mp (intOf_lowBits_emod t x), lowBits_lt .., rfl⟩, intOf_intRes_sat x, lowBits_lt .., rfl⟩

/-- The integer types of R143 have no floating-point format. -/
theorem fmt_of_clsIA (h : clsIA t = true) : t.fmt? = none := by
  revert h
  cases t <;> decide

section
variable (h : clsIA t = true) (rm : Rm) (u a b : Nat)
include h

theorem addElem_givesInt : GivesInt t (fun sat => addElem t rm sat u a b) (t.intOf a + t.intOf b) := by
  simp only [addElem, fmt_of_clsIA h]
  exact givesInt_intRes _

theorem subElem_givesInt : GivesInt t (fun sat => subElem t rm sat u a b) (t.intOf a - t.intOf b) := by
  simp only [subElem, fmt_of_clsIA h]
  exact givesInt_intRes _

theorem mulElem_givesInt : GivesInt t (fun sat => mulElem t rm sat u a b) (t.intOf a * t.intOf b) := by
  simp only [mulElem, fmt_of_clsIA h]
  exact givesInt_intRes _

theorem negElem_givesInt : GivesInt t (fun sat => negElem t sat a) (-(t.intOf a)) := by
  simp only [negElem, fmt_of_clsIA h]
  exact givesInt_intRes _

theorem absElem_givesInt : GivesInt t (fun sat => absElem t sat a) (if t.intOf a < 0 then -(t.intOf a) else t.intOf a) := by
  have habs : ((t.intOf a).natAbs : Int) = if t.intOf a < 0 then -(t.intOf a) else t.intOf a := by split <;> omega
  simp only [absElem, fmt_of_clsIA h, habs]
  exact givesInt_intRes _

end

/-- The upper half of a product of two integers of a type lies in its range. -/
theorem mulhi_mem {x y : Int} (hx : t.imin ≤ x ∧ x ≤ t.imax) (hy : t.imin ≤ y ∧ y ≤ t.imax) :
    t.imin ≤ x * y / (2 ^ t.width : Nat) ∧ x * y / (2 ^ t.width : Nat) ≤ t.imax := by
  have hw := two_pow_width t
  have hp := Nat.two_pow_pos (t.width - 1)
  have hM : (0 : Int) < (2 ^ t.width : Nat) := by omega
  rw [Int.le_ediv_iff_mul_le hM, ← Int.lt_add_one_iff (b := t.imax), Int.ediv_lt_iff_lt_mul hM]
  by_cases hs : t.signed
  · simp only [Ty.imin, Ty.imax, hs, if_true, hw] at *
    generalize 2 ^ (t.width - 1) = p at *
    have habs : (x * y).natAbs ≤ p * p := by
      rw [Int.natAbs_mul]
      exact Nat.mul_le_mul (by omega) (by omega)
    have hpp : 0 < p * p := Nat.mul_pos hp hp
    have hprod : (p : Int) * (2 * p : Nat) = 2 * (p * p : Nat) := by
      rw [← Int.natCast_mul, Nat.mul_left_comm, Int.natCast_mul]
      rfl
    rw [Int.neg_mul, Int.sub_add_cancel, hprod]
    omega
  · simp only [Ty.imin, Ty.imax, hs, Bool.false_eq_true, if_false] at *
    rw [Int.zero_mul, Int.sub_add_cancel]
    have hle : x * y ≤ x * (2 ^ t.width : Nat) := Int.mul_le_mul_of_nonneg_left (by omega) hx.1
    have hlt : x * (2 ^ t.width : Nat) < (2 ^ t.width : Nat) * (2 ^ t.width : Nat) := Int.mul_lt_mul_of_pos_right (by omega) hM
    exact ⟨Int.mul_nonneg hx.1 hy.1, Int.lt_of_le_of_lt hle hlt⟩

/-! ### Division toward zero (R147) -/

/-- A remainder toward zero has the dividend's sign and at most its magnitude. -/
theorem tmod_between (x y : Int) : (0 ≤ x → 0 ≤ x.tmod y ∧ x.tmod y ≤ x) ∧ (x ≤ 0 → x ≤ x.tmod y ∧ x.tmod y ≤ 0) := by
  have habs : (x.tmod y).natAbs ≤ x.natAbs := by rw [Int.natAbs_tmod]; exact Nat.mod_le ..
  constructor
  · intro hx
    have := Int.tmod_nonneg y hx
    omega
  · intro hx
    have := Int.tmod_nonneg y (a := -x) (by omega)
    rw [Int.neg_tmod] at this
    omega

/-- What quotient and remainder toward zero satisfy. -/
theorem tdiv_tmod_spec (x : Int) {y : Int} (hy : y ≠ 0) :
    x = y * x.tdiv y + x.tmod y ∧ (x.tmod y).natAbs < y.natAbs ∧ (x.tmod y < 0 → x < 0) ∧ (0 < x.tmod y → 0 < x) := by
  obtain ⟨hpos, hneg⟩ := tmod_between x y
  refine ⟨(Int.mul_tdiv_add_tmod ..).symm, ?_, by omega, by omega⟩
  rw [Int.natAbs_tmod]
  exact Nat.mod_lt _ (Int.natAbs_pos.mpr hy)

theorem tmod_mem {x : Int} (hx : t.imin ≤ x ∧ x ≤ t.imax) (y : Int) : t.imin ≤ x.tmod y ∧ x.tmod y ≤ t.imax := by
  obtain ⟨hpos, hneg⟩ := tmod_between x y
  have h0 := imin_nonpos t
  have h1 := imax_nonneg t
  omega

/-- The only quotient of two integers of a type that leaves its range is that of a signed type's least value by −1. -/
theorem tdiv_mem {x y : Int} (hx : t.imin ≤ x ∧ x ≤ t.imax) (hy : t.imin ≤ y ∧ y ≤ t.imax) (hy0 : y ≠ 0)
    (hov : ¬ (x = t.imin ∧ y = -1 ∧ t.signed = true)) : t.imin ≤ x.tdiv y ∧ x.tdiv y ≤ t.imax := by
  by_cases hs : t.signed
  · have hm := imax_of_signed hs
    have habs : (x.tdiv y).natAbs = x.natAbs / y.natAbs := Int.natAbs_tdiv ..
    have h0 := imin_nonpos t
    have h1 := imax_nonneg t
    obtain rfl | rfl | h2 : y = 1 ∨ y = -1 ∨ 2 ≤ y.natAbs := by omega
    · rwa [Int.tdiv_one]
    · rw [Int.tdiv_neg, Int.tdiv_one]
      have : x ≠ t.imin := fun hxm => hov ⟨hxm, rfl, hs⟩
      omega
    · have : x.natAbs / y.natAbs ≤ x.natAbs / 2 := Nat.div_le_div_left h2 (by decide)
      omega
  · have hmin : t.imin = 0 := by simp only [Ty.imin, hs, Bool.false_eq_true, if_false]
    rw [hmin] at hx hy ⊢
    exact ⟨Int.tdiv_nonneg hx.1 hy.1, Int.le_trans (Int.tdiv_le_self y hx.1) hx.2⟩

section
variable (a b : Nat)

/-- The remainder's code holds the exact remainder, the dividend where the divisor is 0. -/
theorem intOf_remElem : t.intOf (remElem t a b).1 = (t.intOf a).tmod (t.intOf b) := by
  have hr : remElem t a b = intRes t false ((t.intOf a).tmod (t.intOf b)) := by
    dsimp only [remElem]
    split
    · rename_i h; rw [h, Int.tmod_zero]
    · rfl
  rw [hr, intOf_intRes (tmod_mem (intOf_mem t a) _)]

/-- The quotient's code holds the exact quotient, saturated. -/
theorem intOf_divElem : t.intOf (divElem t a b).1 = max t.imin (min t.imax
    (if t.intOf b = 0 then (if t.intOf a < 0 then t.imin else t.imax) else (t.intOf a).tdiv (t.intOf b))) := intOf_intRes_sat _

variable {a b}

theorem divElem_byZero (h : t.intOf b = 0) : t.intOf (divElem t a b).1 = if t.intOf a < 0 then t.imin else t.imax := by
  have h0 := imin_nonpos t
  have h1 := imax_nonneg t
  rw [intOf_divElem, if_pos h]
  split <;> omega

theorem divElem_exact (h : t.intOf b ≠ 0) (hov : ¬ (t.intOf a = t.imin ∧ t.intOf b = -1 ∧ t.signed = true)) :
    t.intOf (divElem t a b).1 = (t.intOf a).tdiv (t.intOf b) := by
  have := tdiv_mem (intOf_mem t a) (intOf_mem t b) h hov
  rw [intOf_divElem, if_neg h]
  omega

theorem divElem_overflow (ha : t.intOf a = t.imin) (hb : t.intOf b = -1) (hs : t.signed = true) : t.intOf (divElem t a b).1 = t.imax := by
  have hm := imax_of_signed hs
  have h1 := imax_nonneg t
  rw [intOf_divElem, if_neg (by omega), ha, hb, Int.tdiv_neg, Int.tdiv_one]
  omega

end

end

/-- Settles O51: each operation is `intRes` of its exact value, which wraps or saturates; division through the values of quotient and remainder. -/
theorem integerResults : Obligations.IntegerResults := by
  intro t rm u a b ht M v gives
  refine ⟨(intOf_mem t a).1, (intOf_mem t a).2, addElem_givesInt ht rm u a b, subElem_givesInt ht rm u a b, mulElem_givesInt ht rm u a b,
    negElem_givesInt ht a, absElem_givesInt ht a, ?mulhi, ?byZero, ?exact, ?overflow⟩
  case mulhi =>
    have hM : (0 : Int) < M := Int.natCast_pos.mpr (Nat.two_pow_pos _)
    refine ⟨v a * v b % M, ?_, Int.emod_nonneg _ (Int.ne_of_gt hM), Int.emod_lt_of_pos _ hM⟩
    show _ = t.intOf (intRes t false _).1 * M + _
    rw [intOf_intRes (mulhi_mem (intOf_mem t a) (intOf_mem t b)), Int.ediv_mul_add_emod]
  case byZero =>
    intro hb
    exact ⟨(intOf_remElem a b).trans (by rw [show t.intOf b = 0 from hb, Int.tmod_zero]), divElem_byZero hb⟩
  case exact =>
    intro hb hov
    have hq : v (divElem t a b).1 = _ := divElem_exact hb hov
    have hr : v (remElem t a b).1 = _ := intOf_remElem a b
    rw [hq, hr]
    exact tdiv_tmod_spec _ hb
  case overflow =>
    intro ha hb hs
    exact ⟨divElem_overflow ha hb hs, (intOf_remElem a b).trans (by rw [show t.intOf b = -1 from hb, Int.tmod_neg, Int.tmod_one])⟩

end Sys2Proof
end

section
namespace Sys2Proof
open Machine

/-! ### The fields of the IEEE formats (R37, R151) -/

/-- A format of a sign, x exponent bits and m fraction bits: the highest exponent holds the infinity, fraction 0, and the NaNs, which can signal. -/
structure IsIeee (f : Fmt) (m x : Nat) : Prop where
  fraction : 1 ≤ m
  exponent : 1 ≤ x
  sign : f.sbit = m + x
  precision : f.prec = m + 1
  infinity : f.infCode = some ((2 ^ x - 1) * 2 ^ m)
  nan : f.nanFrom = some ((2 ^ x - 1) * 2 ^ m + 1)
  signals : f.signalling = true

theorem isIeee_f32 : IsIeee fmtF32 23 8 := by constructor <;> decide
theorem isIeee_f16 : IsIeee fmtF16 10 5 := by constructor <;> decide
theorem isIeee_bf16 : IsIeee fmtBf16 7 8 := by constructor <;> decide

@[simp] theorem scaled_num_eq_zero (neg : Bool) (m : Nat) (q : Int) : (scaled neg m q).num = 0 ↔ m = 0 := by
  cases q with
  | ofNat k => exact Nat.mul_eq_zero.trans (or_iff_left (Nat.ne_of_gt (Nat.two_pow_pos k)))
  | negSucc k => exact Iff.rfl

/-- Only code 0 has magnitude 0. -/
theorem magOf_num_eq_zero (f : Fmt) (neg : Bool) (code : Nat) : (magOf f neg code).num = 0 ↔ code = 0 := by
  have hpos := Nat.two_pow_pos (f.prec - 1)
  simp only [magOf]
  split
  · rename_i he
    rw [scaled_num_eq_zero, Nat.mod_eq_of_lt ((Nat.div_eq_zero_iff_lt hpos).mp he)]
  · rename_i he
    rw [scaled_num_eq_zero]
    have : code ≠ 0 := by rintro rfl; simp at he
    omega

/-- A magnitude code is its exponent field and its fraction field. -/
theorem code_eq_fields (m x a : Nat) : a % 2 ^ (m + x) = a % 2 ^ m + 2 ^ m * (a / 2 ^ m % 2 ^ x) := by
  rw [Nat.pow_add, Nat.mod_mul]

/-- The highest bit of the fraction tells a quiet NaN. -/
theorem quietBit_eq {m x a : Nat} (hm : 1 ≤ m) : a % 2 ^ (m + x) / 2 ^ (m - 1) % 2 = 0 ↔ a % 2 ^ m < 2 ^ (m - 1) := by
  have hpos := Nat.two_pow_pos (m - 1)
  have hm2 : 2 ^ m = 2 ^ (m - 1) * 2 := by rw [← Nat.pow_succ, Nat.succ_eq_add_one, Nat.sub_add_cancel hm]
  have hlt : a % 2 ^ m / 2 ^ (m - 1) < 2 := Nat.div_lt_of_lt_mul (hm2 ▸ Nat.mod_lt _ (Nat.two_pow_pos m))
  rw [code_eq_fields, show 2 ^ m * (a / 2 ^ m % 2 ^ x) = 2 ^ (m - 1) * (2 * (a / 2 ^ m % 2 ^ x)) by rw [hm2, Nat.mul_assoc],
    Nat.add_mul_div_left _ _ hpos, Nat.add_mul_mod_self_left, Nat.mod_eq_of_lt hlt, Nat.div_eq_zero_iff_lt hpos]

section
variable {f : Fmt} {m x a : Nat} (hf : IsIeee f m x)
include hf

theorem decodeF_nan (he : a / 2 ^ m % 2 ^ x = 2 ^ x - 1) (hz : a % 2 ^ m ≠ 0) : decodeF f a = .nan (decide (a % 2 ^ m < 2 ^ (m - 1))) := by
  have hcode := code_eq_fields m x a
  rw [he, Nat.mul_comm] at hcode
  have hnan : (2 ^ x - 1) * 2 ^ m + 1 ≤ a % 2 ^ (m + x) := by omega
  have hp : m + 1 - 2 = m - 1 := rfl
  simp only [decodeF, hf.nan, hf.sign, hf.signals, hf.precision, hp, Option.any_some, hnan, decide_true, if_true,
    Bool.true_and, ← quietBit_eq (a := a) (x := x) hf.fraction]
  rfl

theorem decodeF_inf (he : a / 2 ^ m % 2 ^ x = 2 ^ x - 1) (hz : a % 2 ^ m = 0) : ∃ neg, decodeF f a = .inf neg := by
  have hcode := code_eq_fields m x a
  rw [he, hz, Nat.zero_add, Nat.mul_comm] at hcode
  refine ⟨a / 2 ^ (m + x) % 2 == 1, ?_⟩
  simp only [decodeF, hf.nan, hf.sign, hf.infinity, hcode, Option.any_some, Nat.not_succ_le_self, decide_false, Bool.false_eq_true, if_false,
    beq_self_eq_true, if_true]

theorem decodeF_fin (he : a / 2 ^ m % 2 ^ x ≠ 2 ^ x - 1) : ∃ neg, decodeF f a = .fin (magOf f neg (a % 2 ^ (m + x))) := by
  have hcode := code_eq_fields m x a
  have hfrac := Nat.mod_lt a (Nat.two_pow_pos m)
  have hex := Nat.mod_lt (a / 2 ^ m) (Nat.two_pow_pos x)
  have hle : 2 ^ m * (a / 2 ^ m % 2 ^ x + 1) ≤ 2 ^ m * (2 ^ x - 1) := Nat.mul_le_mul_left _ (by omega)
  rw [Nat.mul_add, Nat.mul_one, Nat.mul_comm _ (2 ^ x - 1)] at hle
  have hnan : ¬ (2 ^ x - 1) * 2 ^ m + 1 ≤ a % 2 ^ (m + x) := by omega
  have hinf : (2 ^ x - 1) * 2 ^ m ≠ a % 2 ^ (m + x) := by omega
  refine ⟨a / 2 ^ (m + x) % 2 == 1, ?_⟩
  simp [decodeF, hf.nan, hf.sign, hf.infinity, hnan, hinf]

end

/-! ### Class bits (R151) -/

/-- The sign field is what is above the others. -/
theorem signField_eq {m x a : Nat} (ha : a < 2 ^ (1 + x + m)) : a / 2 ^ (m + x) % 2 = a / 2 ^ (m + x) := by
  refine Nat.mod_eq_of_lt (Nat.div_lt_of_lt_mul ?_)
  rwa [← Nat.pow_succ, show (m + x).succ = 1 + x + m by omega]

section
variable {f : Fmt} {m x a : Nat} {t : Ty} (hf : IsIeee f m x) (ht : t.fmt? = some f)
include hf ht

theorem fclassElem_nan (he : a / 2 ^ m % 2 ^ x = 2 ^ x - 1) (hz : a % 2 ^ m ≠ 0) :
    fclassElem t a = (if a % 2 ^ m < 2 ^ (m - 1) then 2 ^ 8 else 2 ^ 9, 0) := by
  simp only [fclassElem, ht, decodeF_nan hf he hz]
  by_cases hq : a % 2 ^ m < 2 ^ (m - 1)
  · simp only [hq, decide_true, if_true]
    rfl
  · simp only [hq, decide_false, if_false]
    rfl

variable (ha : a < 2 ^ (1 + x + m))
include ha

theorem fclassElem_inf (he : a / 2 ^ m % 2 ^ x = 2 ^ x - 1) (hz : a % 2 ^ m = 0) :
    fclassElem t a = (if a / 2 ^ (m + x) = 1 then 2 ^ 0 else 2 ^ 7, 0) := by
  obtain ⟨neg, h⟩ := decodeF_inf hf he hz
  simp only [fclassElem, ht, h, hf.sign, signField_eq ha]
  rfl

/-- A finite value is a zero, a subnormal or a normal by its magnitude code. -/
theorem fclassElem_fin (he : a / 2 ^ m % 2 ^ x ≠ 2 ^ x - 1) : fclassElem t a =
    (if a % 2 ^ (m + x) = 0 then (if a / 2 ^ (m + x) = 1 then 2 ^ 3 else 2 ^ 4)
     else if a % 2 ^ (m + x) < 2 ^ m then (if a / 2 ^ (m + x) = 1 then 2 ^ 2 else 2 ^ 5)
     else (if a / 2 ^ (m + x) = 1 then 2 ^ 1 else 2 ^ 6), 0) := by
  obtain ⟨neg, h⟩ := decodeF_fin hf he
  simp only [fclassElem, ht, h, hf.sign, hf.precision, Nat.add_sub_cancel, signField_eq ha, magOf_num_eq_zero]
  rfl

theorem fclassElem_exponentZero (he : a / 2 ^ m % 2 ^ x = 0) : fclassElem t a =
    (if a % 2 ^ m = 0 then (if a / 2 ^ (m + x) = 1 then 2 ^ 3 else 2 ^ 4) else (if a / 2 ^ (m + x) = 1 then 2 ^ 2 else 2 ^ 5), 0) := by
  have hcode : a % 2 ^ (m + x) = a % 2 ^ m := by rw [code_eq_fields, he, Nat.mul_zero, Nat.add_zero]
  have htop : 0 ≠ 2 ^ x - 1 := by have := Nat.pow_lt_pow_right (a := 2) (by decide) hf.exponent; omega
  rw [fclassElem_fin hf ht ha (he ▸ htop), hcode, if_pos (Nat.mod_lt a (Nat.two_pow_pos m))]

theorem fclassElem_normal (h0 : a / 2 ^ m % 2 ^ x ≠ 0) (he : a / 2 ^ m % 2 ^ x ≠ 2 ^ x - 1) :
    fclassElem t a = (if a / 2 ^ (m + x) = 1 then 2 ^ 1 else 2 ^ 6, 0) := by
  have hpos := Nat.two_pow_pos m
  have hge : 2 ^ m ≤ a % 2 ^ (m + x) := by
    rw [code_eq_fields]
    exact Nat.le_trans (Nat.le_mul_of_pos_right _ (Nat.pos_of_ne_zero h0)) (Nat.le_add_left ..)
  rw [fclassElem_fin hf ht ha he, if_neg (by omega), if_neg (by omega)]

end

/-- A result with one of two bits has the one that its condition names. -/
theorem ite_bit {c : Prop} [Decidable c] {r : Nat × BitVec 5} {p q : Nat} (h : r = (if c then 2 ^ p else 2 ^ q, 0)) :
    if c then r = (2 ^ p, 0) else r = (2 ^ q, 0) := by
  subst h
  split <;> rfl

/-- Settles O52: the three formats are IEEE formats, and the class of a code follows from what its fields decode to. -/
theorem classBits : Obligations.ClassBits := by
  intro t m x a hformat ha
  obtain ⟨f, ht, hf⟩ : ∃ f, t.fmt? = some f ∧ IsIeee f m x := by
    obtain ⟨rfl, rfl, rfl⟩ | ⟨rfl, rfl, rfl⟩ | ⟨rfl, rfl, rfl⟩ := hformat
    · exact ⟨_, rfl, isIeee_f32⟩
    · exact ⟨_, rfl, isIeee_f16⟩
    · exact ⟨_, rfl, isIeee_bf16⟩
  refine ⟨fun he hz => ite_bit (fclassElem_inf hf ht ha he hz), fun he hz => ite_bit (fclassElem_nan hf ht he hz), fun he hz => ite_bit ?zero,
    fun he hz => ite_bit ?subnormal, fun h0 he => ite_bit (fclassElem_normal hf ht ha h0 he)⟩
  case zero => exact (fclassElem_exponentZero hf ht ha he).trans (by rw [if_pos hz])
  case subnormal => exact (fclassElem_exponentZero hf ht ha he).trans (by rw [if_neg hz])

end Sys2Proof
end

section
namespace Sys2Proof
open Machine

/-! ### Lane masks -/

/-- The bits below n of a number put together bit by bit. -/
theorem foldl_pow_testBit (f : Nat → Bool) (n : Nat) :
    (List.range n).foldl (fun a l => if f l then a + 2 ^ l else a) 0 < 2 ^ n ∧
      ∀ l, ((List.range n).foldl (fun a l => if f l then a + 2 ^ l else a) 0).testBit l = (decide (l < n) && f l) := by
  induction n with
  | zero => simp
  | succ n ih =>
    obtain ⟨hlt, hbit⟩ := ih
    simp only [List.range_succ, List.foldl_append, List.foldl_cons, List.foldl_nil]
    generalize (List.range n).foldl (fun a l => if f l then a + 2 ^ l else a) 0 = a at hlt hbit
    rw [Nat.pow_succ]
    cases hf : f n with
    | false =>
      refine ⟨by simp only [Bool.false_eq_true, if_false]; omega, fun l => ?_⟩
      by_cases hl : l = n
      · simp [hl, hbit, hf]
      · have hlt : l < n + 1 ↔ l < n := by omega
        simp [hbit, hlt]
    | true =>
      refine ⟨by simp only [if_true]; omega, fun l => ?_⟩
      rw [if_pos rfl, Nat.add_comm]
      obtain hl | rfl | hl := Nat.lt_trichotomy l n
      · simp [Nat.testBit_two_pow_add_gt hl, hbit, hl, Nat.lt_succ_of_lt hl]
      · simp [Nat.testBit_two_pow_add_eq, hbit, hf]
      · have hbig : 2 ^ n + a < 2 ^ l :=
          Nat.lt_of_lt_of_le (show 2 ^ n + a < 2 ^ (n + 1) by rw [Nat.pow_succ]; omega) (Nat.pow_le_pow_right (by decide) hl)
        simp [Nat.testBit_lt_two_pow hbig, Nat.not_lt.mpr (Nat.succ_le_of_lt hl)]

/-- A lane is in the mask of a test where it passes. -/
theorem bitAt_maskOf (f : Nat → Bool) (l : Nat) : bitAt (maskOf f) l = (decide (l < 128) && f l) := by
  obtain ⟨-, hbit⟩ := foldl_pow_testBit f 128
  rw [bitAt, maskOf, BitVec.getLsbD_ofNat, hbit, ← Bool.and_assoc, Bool.and_self]

/-- The lanes of a mask that pass a test. -/
theorem maskOf_and (m : LaneMask) (f : Nat → Bool) : maskOf (fun l => bitAt m l && f l) = m &&& maskOf f := by
  refine BitVec.eq_of_getLsbD_eq fun l hl => ?_
  have hand := bitAt_maskOf (fun l => bitAt m l && f l) l
  have hf := bitAt_maskOf f l
  simp only [hl, decide_true, Bool.true_and] at hand hf
  rw [BitVec.getLsbD_and]
  exact hand.trans (congrArg _ hf.symm)

/-! ### Packing MX blocks (R154, R155) -/

/-- Flags of results one after another, with a flag on some. -/
theorem flagsOf_map_ite {α : Type} (p : α → Bool) (fl : BitVec 5) (g : α → Nat × BitVec 5) (ks : List α)
    (hg : ∀ k, (g k).2 = if p k then fl else fNone) : flagsOf (ks.map g) = if ks.any p then fl else fNone := by
  have key : ∀ (ks : List α) (a : BitVec 5), (ks.map g).foldl (fun a r => a ||| r.2) a = a ||| if ks.any p then fl else fNone := by
    intro ks
    induction ks with
    | nil => intro a; exact BitVec.or_zero.symm
    | cons k ks ih =>
      intro a
      rw [List.map_cons, List.foldl_cons, ih, hg, List.any_cons, BitVec.or_assoc]
      congr 1
      cases p k with
      | false => exact BitVec.zero_or
      | true => cases ks.any p <;> simp [fNone]
  exact (key ks 0).trans BitVec.zero_or

section
variable {α : Type} (ks : List Nat) (key : Nat → Nat) (v : Nat → α) (n : Nat)

/-- The entry of a key in a list made of keys. -/
theorem find_keyed : (ks.map (fun k => (key k, v k))).find? (fun b => b.1 == n) = (ks.find? (fun k => key k == n)).map (fun k => (key k, v k)) :=
  List.find?_map ..

theorem any_keyed : (ks.map (fun k => (key k, v k))).any (fun b => b.1 == n) = (ks.map key).contains n := by
  rw [List.contains_eq_any_beq, List.any_map, List.any_map]
  exact congrArg _ (funext fun k => BEq.comm)

end

theorem headD_drop {α : Type} (xs : List α) (n : Nat) (d : α) : (xs.drop n).headD d = xs.getD n d := by
  rw [List.headD_eq_head?_getD, List.head?_drop, List.getD_eq_getElem?_getD]

/-- A completion is that of equal states, lanes and values. -/
theorem completed_congr {e d : Env} {t t' : State} {m m' : LaneMask} {val val' : Nat → Nat} (ht : t = t') (hm : m = m') (hv : ∀ l, val l = val' l) :
    (.next (completed d t (dstResult e m val) (dstEntry e val) none) : Out) =
      .next (completed d t' (dstResult e m' val') (dstEntry e val') none) := by
  rw [ht, hm, funext hv]

/-- The crew's lanes in the places of the processed blocks are those that `mxpack` writes. -/
theorem packMask_keyed {α : Type} (e : Env) (x : FormVV) (v : Nat → α) {place : Nat → Nat} (h : ∀ l, place l = if x.sub == 0 then l / x.ty.slot else l) :
    maskOf (fun l => bitAt (crewMask e) l &&
      ((fullBlocks e x.t2).map (fun k => (bits x.sel 4 2 * (128 / x.t2.slot) + k, v k))).any (fun b => b.1 == place l)) = packMask e x := by
  simp only [maskOf_and, any_keyed, h]
  rfl

/-- Settles O6: the packed blocks are keyed by their place, and the lanes written are the crew's of those places. -/
theorem packCompletes : Obligations.PackCompletes := by
  intro x s e hp ks base kb per block scale
  refine ⟨fun hsub => ?elem, fun hsub => ?scales⟩
  case elem =>
    intro val
    refine exec_completes hp rfl ((if_pos (beq_iff_eq.mpr hsub)).trans ((completeVals_consuming ..).trans (completed_congr ?flags ?mask ?vals)))
    case flags => exact congrArg _ (List.foldl_map ..)
    case mask => exact packMask_keyed e x _ fun l => (if_pos (beq_iff_eq.mpr hsub)).symm
    case vals =>
      intro l
      rw [tabulate_getD, find_keyed]
      congr 1
      show _ = val l
      cases hk : ks.find? (fun k => base + k == l / x.ty.slot) with
      | none => simp only [val, hk]; rfl
      | some k => simp only [val, hk, ← headD_drop]; rfl
  case scales =>
    intro val
    refine exec_completes hp rfl ((if_neg (mt beq_iff_eq.mp hsub)).trans (completed_congr ?flags ?mask ?vals))
    case flags =>
      refine congrArg _ ?_
      rw [List.map_map]
      refine flagsOf_map_ite _ _ _ ks fun k => ?_
      cases hb : mxBase x.ty (blockVals x.t2 e.av k) <;> simp [scale, hb]
    case mask => exact packMask_keyed e x _ fun l => (if_neg (mt beq_iff_eq.mp hsub)).symm
    case vals =>
      intro l
      dsimp only
      rw [find_keyed]
      cases hk : ks.find? (fun k => base + k == l) with
      | none => simp only [val, hk]; rfl
      | some k => cases hb : mxBase x.ty (blockVals x.t2 e.av k) <;> simp [val, hk, kb, scale, hb]

end Sys2Proof
end

section
namespace Sys2Proof
open Machine

/-! ### Accesses of harbour cores (R258, R407) -/

/-- Backed addresses lie below the harbour registers (R268). -/
theorem lt_of_paBacked {pa : Nat} (h : paBacked pa = true) : pa < 2 ^ 41 := by
  simp only [paBacked, Bool.and_eq_true, decide_eq_true_eq] at h
  omega

theorem paBacked_of_le {pa : Nat} (h : 2 ^ 41 ≤ pa) : paBacked pa = false :=
  Bool.eq_false_iff.mpr fun hb => absurd (lt_of_paBacked hb) (Nat.not_lt.mpr h)

theorem paRemote_iff {pa : Nat} : paRemote pa = true ↔ 2 ^ 51 ≤ pa ∧ pa < 2 ^ 52 := by
  simp only [paRemote, decide_eq_true_eq]
  omega

@[simp] theorem paRead_foundError (s : State) (p : Nat) (bad : Bool) (pa n : Nat) : paRead (foundError s p bad) pa n = paRead s pa n := by
  cases bad <;> rfl

@[simp] theorem paNat_foundError (s : State) (p : Nat) (bad : Bool) (pa n : Nat) : paNat (foundError s p bad) pa n = paNat s pa n :=
  congrArg leNat (paRead_foundError ..)

@[simp] theorem reserved_foundError (s : State) (p : Nat) (bad : Bool) : (foundError s p bad).reserved = s.reserved := by
  cases bad <;> rfl

@[simp] theorem reservedNow_foundError (s : State) (p : Nat) (bad : Bool) (a : AgentAccess) :
    reservedNow (foundError s p bad) a = reservedNow s a := by
  simp only [reservedNow, reserved_foundError, paRead_foundError]

section
variable {s : State} {a : AgentAccess}

/-- A core in reset makes no access (R417, R419). -/
theorem agentAccess_down (hup : coreUp s a.core = false) : agentAccess s a = s := by
  simp only [agentAccess, hup, Bool.not_false, if_true]

section
variable (hup : coreUp s a.core = true)
include hup

theorem agentAccess_hbm (h : paBacked a.pa = true) : agentAccess s a = agentHbm s a := by
  simp only [agentAccess, hup, h, Bool.not_true, Bool.false_eq_true, if_false, if_true]

/-- What an access finds that no stack backs: the registers, the PCIe window, another package, or nothing (R407). -/
theorem agentAccess_unbacked (h : paBacked a.pa = false) :
    agentAccess s a = if 2 ^ 41 ≤ a.pa ∧ a.pa < 2 ^ 41 + 2 ^ 36 then agentReg s a else if 2 ^ 42 ≤ a.pa ∧ a.pa < 2 ^ 43 then agentPcie s a
      else if 2 ^ 51 ≤ a.pa ∧ a.pa < 2 ^ 52 then agentRemote s a else agentGets s a.core .accessFault := by
  simp only [agentAccess, hup, h, Bool.not_true, Bool.false_eq_true, if_false, Bool.and_eq_true, decide_eq_true_eq, paRemote_iff]

theorem agentAccess_reg (hlo : 2 ^ 41 ≤ a.pa) (hhi : a.pa < 2 ^ 41 + 2 ^ 36) : agentAccess s a = agentReg s a := by
  rw [agentAccess_unbacked hup (paBacked_of_le hlo), if_pos ⟨hlo, hhi⟩]

theorem agentAccess_pcie (hlo : 2 ^ 42 ≤ a.pa) (hhi : a.pa < 2 ^ 43) : agentAccess s a = agentPcie s a := by
  rw [agentAccess_unbacked hup (paBacked_of_le (by omega)), if_neg (by omega), if_pos ⟨hlo, hhi⟩]

theorem agentAccess_remote (hlo : 2 ^ 51 ≤ a.pa) (hhi : a.pa < 2 ^ 52) : agentAccess s a = agentRemote s a := by
  rw [agentAccess_unbacked hup (paBacked_of_le (by omega)), if_neg (by omega), if_neg (by omega), if_pos ⟨hlo, hhi⟩]

theorem agentAccess_reserved (h : (2 ^ 41 + 2 ^ 36 ≤ a.pa ∧ a.pa < 2 ^ 42) ∨ (2 ^ 43 ≤ a.pa ∧ a.pa < 2 ^ 51) ∨ 2 ^ 52 ≤ a.pa) :
    agentAccess s a = agentGets s a.core .accessFault := by
  rw [agentAccess_unbacked hup (paBacked_of_le (by omega)), if_neg (by omega), if_neg (by omega), if_neg (by omega)]

theorem agentAccess_hole (h : paBacked a.pa = false) (hlt : a.pa < 2 ^ 41) : agentAccess s a = agentGets s a.core .accessFault := by
  rw [agentAccess_unbacked hup h, if_neg (by omega), if_neg (by omega), if_neg (by omega)]

end

/-! The kinds of access at HBM: an error that the access finds has poisoned the line before it (R402). -/

theorem agentHbm_read (hk : a.kind = .read) :
    agentHbm s a = agentGets (foundError s a.pa a.uncorrectable) a.core
      (.bytes (paRead s a.pa a.width) ((foundError s a.pa a.uncorrectable).hbmBad.contains (a.pa / 64))) := by
  simp only [agentHbm, hk, paRead_foundError]

theorem agentHbm_write {bs : List Byte} (hk : a.kind = .write bs) :
    agentHbm s a = agentGets (agentStore (foundError s a.pa a.uncorrectable) a.pa (bs.take a.width)) a.core (.bytes [] false) := by
  simp only [agentHbm, hk]

theorem agentHbm_rmw {aop : BitVec 4} {ty : Ty} {b : DWord} (hk : a.kind = .rmw aop ty b) :
    agentHbm s a = agentGets (agentStore (foundError s a.pa a.uncorrectable) a.pa
        (natLe (ty.width / 8) (atomOp aop.toNat ty (paNat s a.pa (ty.width / 8)) b.toNat))) a.core
      (.bytes (natLe (ty.width / 8) (paNat s a.pa (ty.width / 8))) ((foundError s a.pa a.uncorrectable).hbmBad.contains (a.pa / 64))) := by
  simp only [agentHbm, hk, paNat_foundError]

theorem agentHbm_reserve (hk : a.kind = .reserve) :
    agentHbm s a = agentGets { foundError s a.pa a.uncorrectable with reserved := ainsert a.core (a.pa, paRead s a.pa a.width) s.reserved } a.core
      (.bytes (paRead s a.pa a.width) ((foundError s a.pa a.uncorrectable).hbmBad.contains (a.pa / 64))) := by
  simp only [agentHbm, hk, paRead_foundError, reserved_foundError]

/-- The state in which a store-conditional writes: its core's reservation is gone. -/
def conditionalState (s : State) (a : AgentAccess) : State :=
  { foundError s a.pa a.uncorrectable with reserved := aerase a.core s.reserved }

theorem agentHbm_conditional {bs : List Byte} (hk : a.kind = .conditional bs) :
    agentHbm s a = if reservedNow s a then agentGets (agentStore (conditionalState s a) a.pa (bs.take a.width)) a.core (.bytes [0] false)
      else agentGets (conditionalState s a) a.core (.bytes [1] false) := by
  simp only [agentHbm, hk, reservedNow_foundError, reserved_foundError]
  split <;> rfl

/-! The kinds of access at the registers and at another package, where no reservation is taken. -/

theorem agentReg_read (hk : a.kind = .read) :
    agentReg s a = agentGets s a.core (.bytes (natLe a.width (regRead s (a.pa - 2 ^ 41) / 2 ^ (8 * ((a.pa - 2 ^ 41) % 8)))) false) := by
  simp only [agentReg, hk]

theorem agentReg_write {bs : List Byte} (hk : a.kind = .write bs) :
    agentReg s a = agentGets (regStore s (a.pa - 2 ^ 41) (bs.take a.width)) a.core (.bytes [] false) := by
  simp only [agentReg, hk]

theorem agentReg_rmw {aop : BitVec 4} {ty : Ty} {b : DWord} (hk : a.kind = .rmw aop ty b) {old : Nat}
    (hold : old = regRead s (a.pa - 2 ^ 41) / 2 ^ (8 * ((a.pa - 2 ^ 41) % 8)) % 2 ^ ty.width) :
    agentReg s a = agentGets (regStore s (a.pa - 2 ^ 41) (natLe (ty.width / 8) (atomOp aop.toNat ty old b.toNat))) a.core
      (.bytes (natLe (ty.width / 8) old) false) := by
  simp only [agentReg, hk, hold]

theorem agentReg_reservation (hk : a.kind = .reserve ∨ ∃ bs, a.kind = .conditional bs) : agentReg s a = agentGets s a.core .accessFault := by
  obtain hk | ⟨bs, hk⟩ := hk <;> simp only [agentReg, hk]

theorem agentRemote_reservation (hk : a.kind = .reserve ∨ ∃ bs, a.kind = .conditional bs) :
    agentRemote s a = agentGets s a.core .accessFault := by
  obtain hk | ⟨bs, hk⟩ := hk <;> simp only [agentRemote, hk]

/-- A request that another package performs is sent, and the core waits for its answer (R410). -/
theorem agentRemote_read (hk : a.kind = .read) : agentRemote s a =
    (remoteSend (agentGets s a.core .none) none (agentLane + a.core) 2 a.pa a.width 0 (natLe 2 a.width)).2 := by
  simp only [agentRemote, hk]

theorem agentRemote_write {bs : List Byte} (hk : a.kind = .write bs) : agentRemote s a =
    (remoteSend (agentGets s a.core .none) none (agentLane + a.core) 1 a.pa a.width 0 (bs.take a.width)).2 := by
  simp only [agentRemote, hk]

theorem agentRemote_rmw {aop : BitVec 4} {ty : Ty} {b : DWord} (hk : a.kind = .rmw aop ty b) : agentRemote s a =
    (remoteSend (agentGets s a.core .none) none (agentLane + a.core) 4 a.pa (ty.width / 8) (aop.toNat + 2 ^ 8 * Machine.tyCode ty)
      (natLe (ty.width / 8) b.toNat)).2 := by
  simp only [agentRemote, hk]

end

/-! ### Register writes (R422) -/

section
variable (s : State) (v : DWord)

/-- The calibration registers `BYCALc` of the physical cores. -/
theorem regWrite_cal {c : Nat} (hc : c < 704) : regWrite s (0x400 + 8 * c) v = if bitAt v 0 then calGo s c else s := by
  have hat : (0x400 + 8 * c - 0x400) / 8 = c := by omega
  have hlt : 0x400 + 8 * c < 0x400 + 8 * 704 := by omega
  unfold regWrite
  rw [if_neg (by omega), if_neg (by omega), if_neg (by omega), if_neg (by omega), if_pos (by omega), hat]
  simp only [hlt, decide_true, Bool.true_and]

/-- The block of `RXMAP`: two registers a window. -/
theorem regWrite_rxmap {o : Nat} (hlo : 0x2000 ≤ o) (hhi : o < 0x2100) (h8 : o % 8 = 0) : regWrite s o v = modRxmap s ((o - 0x2000) / 16) (fun m =>
    if o % 16 = 0 then { m with en := bitAt v 0, wr := bitAt v 1, lo := bits v 51 16 } else { m with hi := bits v 51 16 }) := by
  unfold regWrite
  rw [if_neg (by omega), if_neg (by omega), if_neg (by omega), if_pos hlo, if_pos hhi]

theorem regWrite_rxmapLow {k : Nat} (hk : k < 16) :
    regWrite s (0x2000 + 16 * k) v = modRxmap s k (fun m => { m with en := bitAt v 0, wr := bitAt v 1, lo := bits v 51 16 }) := by
  have hat : (0x2000 + 16 * k - 0x2000) / 16 = k := by omega
  have hmod : (0x2000 + 16 * k) % 16 = 0 := by omega
  rw [regWrite_rxmap s v (by omega) (by omega) (by omega), hat, hmod]
  rfl

theorem regWrite_rxmapHigh {k : Nat} (hk : k < 16) : regWrite s (0x2008 + 16 * k) v = modRxmap s k (fun m => { m with hi := bits v 51 16 }) := by
  have hat : (0x2008 + 16 * k - 0x2000) / 16 = k := by omega
  have hmod : (0x2008 + 16 * k) % 16 = 8 := by omega
  rw [regWrite_rxmap s v (by omega) (by omega) (by omega), hat, hmod]
  rfl

theorem regWrite_part {p o : Nat} (hp : p < 32) (ho : o < 0x10000) (h8 : o % 8 = 0) :
    regWrite s (0x100000 + 0x10000 * p + o) v = partWrite s p o v := by
  have hat : (0x100000 + 0x10000 * p + o - 0x100000) / 0x10000 = p := by omega
  have hmod : (0x100000 + 0x10000 * p + o) % 0x10000 = o := by omega
  unfold regWrite
  rw [if_neg (by omega), if_neg (by omega), if_pos (by omega), if_pos (by omega), hat, hmod]

theorem regWrite_space {x o : Nat} (hx : x < 65536) (ho : o < 0x40) (h8 : o % 8 = 0) :
    regWrite s (0x1000000 + 0x40 * x + o) v = spaceWrite s x o v := by
  have hat : (0x1000000 + 0x40 * x + o - 0x1000000) / 0x40 = x := by omega
  have hmod : (0x1000000 + 0x40 * x + o) % 0x40 = o := by omega
  unfold regWrite
  rw [if_neg (by omega), if_pos (by omega), if_pos (by omega), hat, hmod]

theorem regWrite_between {o : Nat} (hlo : 0x30 ≤ o) (hhi : o < 0x400) : regWrite s o v = s := by
  unfold regWrite
  split
  · rfl
  rw [if_neg (by omega), if_neg (by omega), if_neg (by omega), if_neg (by omega)]
  split
  any_goals omega
  rfl

/-- An offset that names no register is not written. -/
theorem regWrite_unnamed {o : Nat} (h : o % 8 ≠ 0 ∨ (0x30 ≤ o ∧ o < 0x400) ∨ (0x2100 ≤ o ∧ o < 0x100000) ∨ 0x1400000 ≤ o) :
    regWrite s o v = s := by
  by_cases h8 : o % 8 ≠ 0
  · exact if_pos h8
  obtain h | ⟨hlo, hhi⟩ | ⟨hlo, hhi⟩ | h := h
  · exact absurd h h8
  · exact regWrite_between s v hlo hhi
  · unfold regWrite
    rw [if_neg h8, if_neg (by omega), if_neg (by omega), if_pos (by omega), if_neg (by omega)]
  · unfold regWrite
    rw [if_neg h8, if_pos (by omega), if_neg (by omega)]

end

/-! ### Posting a collective (R414) -/

/-- The contributions that a post sends leave the posted collectives as they are. -/
theorem foldl_sendPart_colls (rank cid : Nat) (bss : List (List Byte)) :
    ∀ s : State, (bss.foldl (fun s bs => sendPart s rank cid bs) s).pkg.colls = s.pkg.colls := by
  induction bss with
  | nil => exact fun _ => rfl
  | cons bs bss ih => exact fun s => (ih _).trans rfl

/-- What a post binds: the descriptor, with the buffer of the package's own member. -/
def ownColl (rank : Nat) (d : BitVec 512) (own : List Byte) : Coll :=
  { desc := d, contrib := [(rank, (tabulate own.length (fun k => k)).zip own)] }

theorem partBytes_ownColl (rank : Nat) (d : BitVec 512) (own : List Byte) : partBytes (ownColl rank d own) rank = own := by
  have hlen : own.length ≤ (tabulate own.length (fun k => k)).length := Nat.le_of_eq (tabulate_length _ _).symm
  simp [partBytes, ownColl, List.map_snd_zip hlen]

section
variable {s : State} {v : DWord} {d : BitVec 512} (hd : d = BitVec.ofNat 512 (paNat s (64 * bits v 51 6) 64))
include hd

theorem collPost_refused (h : descRefused s d = true) : collPost s v = if eventsWait s then s else putEventAll s 7 1 (dCid d) := by
  subst hd
  exact if_pos h

/-- A legal descriptor is bound, and stays bound as the contributions to the other members are sent. -/
theorem ownColl_mem_collPost (h : descRefused s d = false) :
    ownColl s.pkg.rank d (paRead s (dSrc d) (dNelem d * dWidth d)) ∈ (collPost s v).pkg.colls := by
  subst hd
  unfold collPost
  rw [if_neg (by simp [h])]
  refine List.foldlRecOn (motive := fun t : State => ownColl _ _ _ ∈ t.pkg.colls) _ _
    (List.mem_append_right _ (List.mem_singleton_self _)) fun t ht k _ => ?_
  split
  · exact ht
  · rwa [foldl_sendPart_colls]

end

/-! ### What harbour software and its cores do (R407, R414, R422) -/

section
variable {s : State} {v : DWord}

/-- A register is written by harbour software that runs. -/
theorem exec_regWrite {off : Nat} {t : State} (hup : s.pkg.westUp = true) (h : regWrite s off v = t) :
    exec (.harbourRegisterWrite off v) s = .next t := congrArg Host.Outcome.next ((if_pos hup).trans h)

theorem exec_collpost (hup : s.pkg.westUp = true) : exec (.collpost v) s = .next (collPost s v) := congrArg Host.Outcome.next (if_pos hup)

theorem exec_software_down (hup : s.pkg.westUp = false) (off : Nat) :
    exec (.harbourRegisterWrite off v) s = .next s ∧ exec (.collpost v) s = .next s :=
  ⟨congrArg Host.Outcome.next (if_neg (by simp [hup])), congrArg Host.Outcome.next (if_neg (by simp [hup]))⟩

theorem exec_accessPerformed {a : AgentAccess} {t u : State} (h : agentAccess s a = t) (ht : t = u) : exec (.accessPerformed a) s = .next u :=
  congrArg Host.Outcome.next (h.trans ht)

end

/-- Settles O42: an access by the range of its address (`agentAccess_hbm` and what follows it) and its kind; a register write by its offset. -/
theorem harbourAccessCompletes : Obligations.HarbourAccessCompletes := by
  intro s v
  refine ⟨fun a hup => ⟨fun h => ?hbm, fun hlo hhi => ?reg, fun hlo hhi => exec_accessPerformed (agentAccess_pcie hup hlo hhi) rfl,
      fun hlo hhi => ?remote, fun h => exec_accessPerformed (agentAccess_reserved hup h) rfl,
      fun h hlt => exec_accessPerformed (agentAccess_hole hup h hlt) rfl⟩,
    fun a hup => exec_accessPerformed (agentAccess_down hup) rfl, fun off hup => exec_software_down hup off, fun hup => ?written,
    fun hup => ⟨fun h => ?refused, fun h => ?posted⟩⟩
  case hbm =>
    have hx := agentAccess_hbm hup h
    refine ⟨fun hk => exec_accessPerformed hx (agentHbm_read hk), fun bs hk => exec_accessPerformed hx (agentHbm_write hk),
      fun aop ty b hk => exec_accessPerformed hx (agentHbm_rmw hk), fun hk => exec_accessPerformed hx (agentHbm_reserve hk),
      fun bs hk => ⟨fun hr => ?_, fun hr => ?_⟩⟩
    · exact exec_accessPerformed hx ((agentHbm_conditional hk).trans (if_pos hr))
    · exact exec_accessPerformed hx ((agentHbm_conditional hk).trans (if_neg (by simp [hr])))
  case reg =>
    have hx := agentAccess_reg hup hlo hhi
    exact ⟨fun hk => exec_accessPerformed hx (agentReg_read hk), fun bs hk => exec_accessPerformed hx (agentReg_write hk),
      fun aop ty b hk => exec_accessPerformed hx (agentReg_rmw hk rfl), fun hk => exec_accessPerformed hx (agentReg_reservation hk)⟩
  case remote =>
    have hx := agentAccess_remote hup hlo hhi
    exact ⟨fun hk => exec_accessPerformed hx (agentRemote_read hk), fun bs hk => exec_accessPerformed hx (agentRemote_write hk),
      fun aop ty b hk => exec_accessPerformed hx (agentRemote_rmw hk), fun hk => exec_accessPerformed hx (agentRemote_reservation hk)⟩
  case written =>
    exact ⟨exec_regWrite hup rfl, exec_regWrite hup rfl, exec_regWrite hup rfl, exec_regWrite hup rfl, exec_regWrite hup rfl,
      (exec_regWrite hup rfl).trans (exec_collpost hup).symm, fun c hc => exec_regWrite hup (regWrite_cal s v hc),
      fun k hk => ⟨exec_regWrite hup (regWrite_rxmapLow s v hk), exec_regWrite hup (regWrite_rxmapHigh s v hk)⟩,
      fun p o hp ho h8 => exec_regWrite hup (regWrite_part s v hp ho h8), fun x o hx ho h8 => exec_regWrite hup (regWrite_space s v hx ho h8),
      fun off h => exec_regWrite hup (regWrite_unnamed s v h)⟩
  case refused => exact (exec_collpost hup).trans (congrArg Host.Outcome.next (collPost_refused rfl h))
  case posted => exact ⟨_, exec_collpost hup, _, ownColl_mem_collPost rfl h, rfl, partBytes_ownColl ..⟩

end Sys2Proof
end

section
namespace Sys2Proof
open Machine

/-! ### Page copies and merges (R282, R285, R288, R289) -/

/-- A merge that is due, or has begun, goes on. -/
theorem not_mergeIdle {s : State} {rid : Nat} {r : Rev} (hd : mergeDue s rid = true ∨ r.merging ≠ none) :
    (r.merging.isNone && !mergeDue s rid) = false := by
  obtain h | h := hd <;> simp [h]

section
variable {s : State} {rid : Nat} {r : Rev} (hr : alookup rid s.revs = some r)
include hr

/-- A page copy that an access waits for is made, and its waiters go on (R282). -/
theorem pageCopied_waits {page size : Nat} {side : Bool} {e : DWord}
    (hw : s.wgs.any (fun x => (whos x.2).any (fun w => ((ctxIn x.2 w).bind (fun c => c.blocked)) == some (.copy rid page side))) = true)
    (he : walk s r.asid (page * pageSize) = some (e, size)) :
    pageCopied s rid page side = unblockAll (copyPage s rid page side (ePa e + page * pageSize % size))
      (fun _ _ b => decide (b = .copy rid page side)) := by
  simp only [pageCopied, hr, hw, he, Bool.not_true, Bool.false_eq_true, if_false]

section
variable (hd : mergeDue s rid = true ∨ r.merging ≠ none)
include hd

/-- Nothing is taken of a child that has failed (R288). -/
theorem mergeRev_failed (hf : ((launchOf s r.child).map (fun l => decide (l.status ≠ 0))).getD false = true) :
    mergeRev s rid = mergeOver s rid r 1 := by
  simp only [mergeRev, hr, not_mergeIdle hd, hf, Bool.false_eq_true, if_false, if_true]

section
variable (hf : ((launchOf s r.child).map (fun l => decide (l.status ≠ 0))).getD false = false) {p : MergePos}
  (hp : r.merging.getD { region := 0, unit := 0, counts := [] } = p)
include hf hp

/-- A merge that has gone through every region is over (R289). -/
theorem mergeRev_ends (h : p.region = r.regions.length) : mergeRev s rid = mergeOver s rid r 0 := by
  simp only [mergeRev, hr, not_mergeIdle hd, hf, hp, mergeStep, h, Nat.le_refl, Bool.false_eq_true, if_false, if_true]

/-- A merge stands in a region until `mergeUnit` has nothing left to do there (R285). -/
theorem mergeRev_unit {g : Region} {t : State} {q : MergePos} (hg : r.regions[p.region]? = some (some g))
    (hu : mergeUnit s r rid g p = some (t, q)) : mergeRev s rid = modRev t rid (fun r => { r with merging := some q }) := by
  obtain ⟨hlt, -⟩ := List.getElem?_eq_some_iff.mp hg
  have hget : r.regions.getD p.region none = some g := by rw [List.getD_eq_getElem?_getD, hg, Option.getD_some]
  simp only [mergeRev, hr, not_mergeIdle hd, hf, hp, mergeStep, Nat.not_le.mpr hlt, hget, hu, Bool.false_eq_true, if_false]

end
end
end

section
variable {s : State} {rid : Nat} {r : Rev} {g : Region} {p : MergePos}

/-- A region of elements is merged line by line (R285, R286). -/
theorem mergeUnit_line {k : Nat} (hg : g.mtype ≠ 0xB) (hk : nextLine s r rid g p.unit = some k) :
    mergeUnit s r rid g p = some (mergeAt s r rid g.mtype.toNat (g.base.toNat + 64 * k), { p with unit := k + 1 }) := by
  simp only [mergeUnit, hg, hk, if_false]

section
variable (hg : g.mtype = 0xB)
include hg

/-- The merge of an APPEND region begins with the counts of the three headers (R287). -/
theorem mergeUnit_counts (hc : p.counts = []) :
    mergeUnit s r rid g p = some (s, { p with counts := (appendRead s r rid g.base.toNat).list }) := by
  simp only [mergeUnit, hg, hc, if_true]

section
variable {c now : Append} (hc : p.counts ≠ []) (hcs : appendOf p.counts = c) (hnow : appendRead s r rid g.base.toNat = now) (hn : c.nA < c.nC)
  (hu : p.unit ≤ c.lines g.size.toNat)
include hc hcs hnow hn hu

/-- An APPEND region with records to copy: what its step does, by P's header as it is read again and the line where the merge stands (R287). -/
theorem mergeUnit_append : mergeUnit s r rid g p = some (
    if now.nP ≠ c.nP ∨ now.rsz ≠ c.rsz then (s, { p with unit := 0, counts := now.list })
    else if p.unit < c.lines g.size.toNat then (appendLine s r rid g.base.toNat g.size.toNat c p.unit, { p with unit := p.unit + 1 })
    else (appendHeader s r g.base.toNat g.size.toNat { c with lost := now.lost, bad := now.bad }, { p with unit := p.unit + 1 })) := by
  have hgo : (decide (c.nC ≤ c.nA) || decide (c.lines g.size.toNat < p.unit)) = false := by simp [hn, hu]
  subst hcs hnow
  unfold mergeUnit
  rw [if_pos hg]
  split
  · rename_i h
    exact absurd h hc
  · simp only [hgo, Bool.false_eq_true, if_false]
    split
    · rfl
    · split <;> rfl

end
end
end

/-! ### The release head (R257, R322, R323, R326) -/

section
variable {s : State} {lid : Nat} {l : Launch}

section
variable (hl : launchOf s lid = some l)
include hl

/-- The head waits for what it has released and is not performed at system scope (R257). -/
theorem releaseLoop_unperformed {n : Nat} (hu : unperformed s lid l.relHead = true) : releaseLoop (n + 1) s lid = s := by
  simp only [releaseLoop, hl, hu, if_true]

section
variable {n : Nat} (hu : unperformed s lid l.relHead = false)
include hu

theorem releaseLoop_empty (h : ∀ home r rs, headRecords s l ≠ some (home, r :: rs)) : releaseLoop (n + 1) s lid = advanceHead s lid := by
  simp only [releaseLoop, hl, hu, Bool.false_eq_true, if_false]

section
variable {home : RecHome} {r : StageRec} {rs : List StageRec} (hrec : headRecords s l = some (home, r :: rs)) (hw : headWriting s l home = false)
include hrec hw

/-- A record that cannot be released yet holds the release. -/
theorem releaseLoop_later (hx : (releaseRec s l (homeCore l home) r).2 = .later) :
    releaseLoop (n + 1) s lid = (releaseRec s l (homeCore l home) r).1 := by
  simp only [releaseLoop, hl, hu, hrec, hw, hx, Bool.false_eq_true, if_false]

/-- A released record gives its issuer its value and leaves the list (R326). -/
theorem releaseLoop_done {v : Nat} (hx : (releaseRec s l (homeCore l home) r).2 = .done v) : releaseLoop (n + 1) s lid =
    releaseLoop n (modRecords (deliverRecord (releaseRec s l (homeCore l home) r).1 lid l.relHead r (some v)) lid l.relHead
      (fun rs => rs.filter (fun y => y.id != r.id))) lid := by
  simp only [releaseLoop, hl, hu, hrec, hw, hx, Bool.false_eq_true, if_false]

/-- A record whose access is refused gives its issuer the trap and leaves the list (R326, R389). -/
theorem releaseLoop_refused {t : PendTrap} (hx : (releaseRec s l (homeCore l home) r).2 = .refused t) : releaseLoop (n + 1) s lid =
    releaseLoop n (modRecords (queueTrap (deliverRecord (releaseRec s l (homeCore l home) r).1 lid l.relHead r none) lid l.relHead r.who t) lid
      l.relHead (fun rs => rs.filter (fun y => y.id != r.id))) lid := by
  simp only [releaseLoop, hl, hu, hrec, hw, hx, Bool.false_eq_true, if_false]

end
end
end

section
variable {core : Nat} {r : StageRec}

/-- A record that works on no memory is held by no page and no request. -/
theorem not_held_of_recordVa_none (s : State) (l : Launch) (core : Nat) (h : recordVa r = none) :
    recordBusy s l r = false ∧ recordShort s l core r = false ∧ recordFailed s l r = false := by
  simp [recordBusy, recordShort, recordFailed, h]

theorem releaseRec_spawn {man : BitVec 2048} {a : DWord} (h : r.op = .spawn man a) :
    releaseRec s l core r = (submit s l.part man none none a.toNat, .done 0) := by
  obtain ⟨hb, hs, hf⟩ := not_held_of_recordVa_none s l core (r := r) (by simp only [recordVa, h])
  simp only [releaseRec, hb, hs, hf, h, Bool.false_eq_true, if_false]

theorem releaseRec_fork {n : Nat} {man : BitVec 2048} {a : DWord} {regions : List (Option Region)} (h : r.op = .fork n man a regions) :
    releaseRec s l core r = (forkNow s l.lid l.part l.relHead n man a regions, .done 0) := by
  obtain ⟨hb, hs, hf⟩ := not_held_of_recordVa_none s l core (r := r) (by simp only [recordVa, h])
  simp only [releaseRec, hb, hs, hf, h, Bool.false_eq_true, if_false]

/-- A join is released once its child is merged or settled (R293). -/
theorem releaseRec_join {n : Nat} (h : r.op = .join n) :
    releaseRec s l core r = (s, if (revOfHandle s l.lid l.relHead n).all (fun x => revOver x.2) then .done 0 else .later) := by
  obtain ⟨hb, hs, hf⟩ := not_held_of_recordVa_none s l core (r := r) (by simp only [recordVa, h])
  simp only [releaseRec, hb, hs, hf, h, Bool.false_eq_true, if_false]

theorem recordBusy_depdec {a : DWord} (h : r.op = .depdec a) (hb : pageHeld s l.lid (mAsid l.man) a.toNat = false) : recordBusy s l r = false := by
  simp only [recordBusy, recordVa, h, Option.any_some, hb]

section
variable {a : DWord} (h : r.op = .depdec a) (hb : pageHeld s l.lid (mAsid l.man) a.toNat = false) (hs : recordShort s l core r = false)
  (hf : recordFailed s l r = false)
include h hb hs hf

/-- A decrement of a counter in another package's memory is sent there (R410). -/
theorem releaseRec_depdecAway {q : Nat} (hz : devLoc s (mAsid l.man) l.view a.toNat true = some (.remote q)) :
    releaseRec s l core r = releaseAway s l core r a.toNat q 8 depdecRmw [] (fun s old => (decremented s q old, old)) := by
  simp only [releaseRec, recordBusy_depdec h hb, hs, hf, h, hz, Bool.false_eq_true, if_false]

/-- A decrement of this package's memory is performed, after the page copies that it needs (R134, R282). -/
theorem releaseRec_depdecHere {pa : Nat} {z : Loc} (hz : devLoc s (mAsid l.man) l.view a.toNat true = some z) (hq : ∀ q, z ≠ .remote q)
    (hpa : rawPa s (mAsid l.man) a.toNat = some pa) {u : State} (hu : copyAll s (mAsid l.man) l.view a.toNat pa (s.nextRev + 2) = u)
    (hbad : locBad u (viewLoc u l.view a.toNat pa) = false) :
    releaseRec s l core r = ((decrement u (viewLoc u l.view a.toNat pa)).2, .done (decrement u (viewLoc u l.view a.toNat pa)).1) := by
  cases z with
  | remote q => exact absurd rfl (hq q)
  | _ => simp only [releaseRec, recordBusy_depdec h hb, hs, hf, h, hz, hpa, hu, hbad, Bool.false_eq_true, if_false]

end
end
end

/-! ### Countersign points (R331, R332) -/

section
variable {s : State} {lead trail : Nat} {w : Who} {x y : Ctx} {e f : Env} {g : WG}
  (he : peekEnv s ⟨lead, w⟩ = some e) (hf : peekEnv s ⟨trail, w⟩ = some f) (hg : wgOf s lead = some g)
  (hlog : g.log.find? (fun k => decide (k.who = w) && k.ordinal == x.ordinal) = none)
include he hf hg hlog

/-- A pair that compares equal goes on, its held stores out, once their writes are acknowledged (R332). -/
theorem comparePoint_equal {t : State} (h : x.sig = y.sig ∧ e.i = f.i ∧ signedOperands e = signedOperands f) (hcap : g.log.length < 1024)
    (ht : releaseHeld s ⟨lead, w⟩ = some t) :
    comparePoint s lead trail w x y = if ((wgOf (dropHeld t lead w) lead).map (fun g => unacked (dropHeld t lead w) g.lid g.wgix)).getD false
      then dropHeld t lead w else grant (dropHeld t lead w) lead w := by
  obtain ⟨hsig, hi, hops⟩ := h
  have hfull : ¬ logCap ≤ g.log.length := Nat.not_le.mpr hcap
  simp only [comparePoint, he, hf, hg, hlog, hsig, hi, hops, ht, hfull, Option.map_some, Option.getD_some, decide_true, Bool.and_self,
    if_true, if_false]

/-- A pair that first differs rolls back (R332). -/
theorem comparePoint_differs (h : ¬ (x.sig = y.sig ∧ e.i = f.i ∧ signedOperands e = signedOperands f)) (hm : g.mism = 0)
    (hw : rollbackWaits s lead = false) :
    comparePoint s lead trail w x y = rollback (modPair s lead (fun g => { g with mism := g.mism + 1 })) lead := by
  have hsame : (decide (x.sig = y.sig) && decide (e.i = f.i) && decide (signedOperands e = signedOperands f)) = false := by
    rw [← Bool.decide_and, ← Bool.decide_and, decide_eq_false_iff_not, and_assoc]
    exact h
  simp only [comparePoint, he, hf, hg, hlog, hsame, hm, hw, Option.map_some, Option.getD_some, Nat.lt_irrefl, decide_false,
    Bool.false_eq_true, if_false]

end

/-- Contexts of a pair that both wait at a countersign point compare there (R332). -/
theorem countersignAt_compares {s : State} {c : CtxId} {lead trail : Nat} {g h : WG} {x y : Ctx} (hp : pairOf s c.berth = some (lead, trail))
    (hg : wgOf s lead = some g) (hh : wgOf s trail = some h) (hx : ctxIn g c.who = some x) (hy : ctxIn h c.who = some y)
    (hbx : x.blocked = some .countersign) (hby : y.blocked = some .countersign) :
    countersignAt s c = comparePoint s lead trail c.who x y := by
  simp only [countersignAt, hp, hg, hh, hx, hy, hbx, hby, decide_true, Bool.and_self, if_true]

section
variable {s t : State}

theorem exec_merge {rid : Nat} (h : mergeRev s rid = t) : exec (.merge rid) s = .next t := congrArg Host.Outcome.next h

/-- A release releases what it can, and then passes the head on. -/
theorem exec_postmarkRelease {lid : Nat} {l : Launch} (hl : launchOf s lid = some l) (hd : launchDet l = true) (h : releaseLoop 513 s lid = t) :
    exec (.postmarkRelease lid) s = .next (advanceHead t lid) := by
  refine congrArg Host.Outcome.next ?_
  simp only [releaseHead, hl, hd, h, if_true]

theorem exec_countersignPoint {c : CtxId} (h : countersignAt s c = t) : exec (.countersignPoint c) s = .next t := congrArg Host.Outcome.next h

end

/-- Settles O36: a merge by what its step does (`mergeRev_unit`), a release by its first record (`releaseLoop`), a countersign point by
the comparison. -/
theorem revisionAndReleaseEvents : Obligations.RevisionAndReleaseEvents := by
  refine ⟨fun s rid r hr => ⟨fun page side e size hw he => congrArg Host.Outcome.next (pageCopied_waits hr hw he), fun hd => ?merge⟩,
    fun s => ⟨fun lid l hl hd => ?release, fun c lead trail g h x y e f hp hg hh hx hy hbx hby he hf hlog => ?point⟩⟩
  case merge =>
    refine ⟨fun hf => exec_merge (mergeRev_failed hr hd hf), fun hf hp => exec_merge (mergeRev_ends hr hd hf rfl hp), fun g hf hg =>
      ⟨fun k hm hk => ?line, fun hm hc => ?counts, fun hm hc hn hu =>
        ⟨fun h => ?again, fun h => ⟨fun hlt => ?record, fun heq => ?header⟩⟩⟩⟩
    all_goals refine exec_merge (mergeRev_unit hr hd hf rfl hg ?_)
    case line => exact mergeUnit_line hm hk
    case counts => exact mergeUnit_counts hm hc
    all_goals rw [mergeUnit_append hm hc rfl rfl hn hu]
    case again => rw [if_pos (by omega)]
    case record => rw [if_neg (by omega), if_pos hlt]
    case header => rw [if_neg (by omega), if_neg (by omega)]
  case release =>
    refine ⟨fun hu => exec_postmarkRelease hl hd (releaseLoop_unperformed hl hu),
      fun hu hnone => exec_postmarkRelease hl hd (releaseLoop_empty hl hu hnone), fun home r rs hu hrec hw =>
      ⟨fun hx => exec_postmarkRelease hl hd (releaseLoop_later hl hu hrec hw hx),
        fun v hx => exec_postmarkRelease hl hd (releaseLoop_done hl hu hrec hw hx),
        fun t hx => exec_postmarkRelease hl hd (releaseLoop_refused hl hu hrec hw hx), fun man a h => releaseRec_spawn h,
        fun n man a regions h => releaseRec_fork h, fun n h => ⟨?unchanged, fun hall => ?joined, fun y hy hrun => ?waits⟩,
        fun a pa z h hb hs hf hz => ⟨fun q hq => releaseRec_depdecAway h hb hs hf (hq ▸ hz),
          fun hpa hq hbad => releaseRec_depdecHere h hb hs hf hz hq hpa rfl hbad⟩⟩⟩
    all_goals rw [releaseRec_join h]
    case joined => exact if_pos ((Option.all_eq_true _ _).mpr hall)
    case waits =>
      rw [hy]
      exact if_neg (by simp [hrun])
  case point =>
    have hcmp := countersignAt_compares hp hg hh hx hy hbx hby
    exact ⟨fun t hsame hcap ht => exec_countersignPoint (hcmp.trans (comparePoint_equal he hf hg hlog hsame hcap ht)),
      fun hdiff hm hw => exec_countersignPoint (hcmp.trans (comparePoint_differs he hf hg hlog hdiff hm hw))⟩

end Sys2Proof
end

section
namespace Sys2Proof
open Machine

/-! ### Submission queues (R301 to R303) -/

section
variable {s : State} {part n : Nat} {q : SubQ}

/-- An event of harbour software takes place once the west harbour cores run. -/
theorem bySoftware_up (hup : s.pkg.westUp = true) (f : State → State) : bySoftware s f = f s := if_pos hup

@[simp] theorem sqOf_modSq (f : SubQ → SubQ) : sqOf (modSq s part n f) part n = f (sqOf s part n) := by
  simp [sqOf, modSq, agetD_ainsert]

/-- A fault record leaves the queues as they are. -/
@[simp] theorem sqOf_putFault (ty asid lnch vpage widx spec : Nat) : sqOf (putFault s part ty asid lnch vpage widx spec) part n = sqOf s part n := by
  simp [sqOf, putFault]

/-- A kick announces the two halves of the word it writes (R302). -/
theorem kickWrite_eq (v : DWord) : kickWrite s part n v = modSq s part n (fun q =>
    { q with tail := BitVec.ofNat 32 (v.toNat % 2 ^ 32), kseq := BitVec.ofNat 32 (v.toNat / 2 ^ 32), tries := 0 }) := by
  have hlo : bits v 31 0 = v.toNat % 2 ^ 32 := rfl
  have hhi : bits v 63 32 = v.toNat / 2 ^ 32 := by
    rw [bits, Nat.shiftRight_eq_div_pow]
    exact Nat.mod_eq_of_lt (by omega)
  simp only [kickWrite, hlo, hhi]

/-- A write of `EN` 0 and then 1 resets the queue (R301). -/
theorem sqOf_enabled_again : sqOf (sqEnable (sqEnable s part n false) part n true) part n =
    { sqOf s part n with en := true, wasOff := false, xseq := 1, prev := 0, tries := 0 } := by
  simp only [sqEnable, sqOf_modSq, Bool.not_false, Bool.not_true, Bool.false_eq_true, if_true, if_false]

section
variable (hq : sqOf s part n = q) (ha : sqActive q = true)
include hq ha

/-- A matching entry is accepted while the roadstead quota has room (R301, R306). -/
theorem sqAccept_match (hm : sqMatch s q = true) (hr : quotaFull s part = false) : sqAccept s part n =
    submit (modSq s part n (fun q' => { q' with head := q'.head + BitVec.ofNat 32 (sqLen s q), xseq := q'.xseq + 1, prev := sqManifest s q, tries := 0 }))
      part (sqManifest s q) none none (q.base.toNat + q.head.toNat % q.cap.toNat) := by
  simp only [sqAccept, hq, ha, hm, hr, Bool.not_true, Bool.or_self, Bool.false_eq_true, if_false]

/-- A mismatched entry is read again, or at the last of its sixteen readings stops its queue (R302). -/
theorem sqReread_mismatch (hm : sqMatch s q = false) : sqReread s part n =
    if q.tries < 15 then modSq s part n (fun q => { q with tries := q.tries + 1 })
    else modSq (putFault s part 0x04 0 0 0 0 (n + 2 ^ 32 * sqSeq s q)) part n (fun q => { q with torn := true, tries := 0 }) := by
  have hlast : q.tries + 1 < rereadCap ↔ q.tries < 15 := Nat.succ_lt_succ_iff
  simp only [sqReread, hq, ha, hm, hlast, Bool.not_true, Bool.or_self, Bool.false_eq_true, if_false]

end

end

/-- Settles O40: each event is one change of its queue (`kickWrite_eq`, `sqAccept_match`, `sqReread_mismatch`, `sqOf_enabled_again`). -/
theorem submissionEvents : Obligations.SubmissionEvents := by
  intro s part n v
  refine ⟨fun hup => congrArg Host.Outcome.next ?kick, fun ha hm hr => congrArg Host.Outcome.next ?entry,
    fun ha hm => ⟨fun ht => congrArg Host.Outcome.next ?again, fun ht => congrArg Host.Outcome.next ?stops⟩,
    fun hup => ⟨_, congrArg Host.Outcome.next (bySoftware_up hup _), sqOf_enabled_again⟩,
    fun hup => congrArg Host.Outcome.next ?clear⟩
  case kick => exact (bySoftware_up hup _).trans (kickWrite_eq v)
  case entry => exact sqAccept_match rfl ha hm hr
  case again => exact (sqReread_mismatch rfl ha hm).trans (if_pos ht)
  case stops =>
    rw [sqReread_mismatch rfl ha hm, if_neg (Nat.not_lt.mpr ht)]
    simp only [modSq, sqOf_putFault]
  case clear => exact bySoftware_up hup _

end Sys2Proof
end

section
namespace Sys2Proof
open Machine

/-! ### Package events (R402, R408, R420, R421) -/

/-- Records for the rings of the partitions leave the package's registers as they are. -/
theorem putEvents_pkg (ps : List (Nat × Part)) (ety cause epc : Nat) : ∀ s : State,
    (ps.foldl (fun s p => if takesEvents p.2 then putEvent s p.1 ety cause 0 0 0 epc 0 else s) s).pkg = s.pkg := by
  induction ps with
  | nil => exact fun _ => rfl
  | cons p ps ih =>
    intro s
    rw [List.foldl_cons, ih]
    split <;> rfl

/-- Of the package's registers, events that enter the rings change the list of those that wait, alone (R408). -/
theorem flushEvents_pkg (n : Nat) : ∀ s : State, ∃ es, (flushEvents n s).pkg = { s.pkg with events := es } := by
  induction n with
  | zero => exact fun s => ⟨s.pkg.events, rfl⟩
  | succ n ih =>
    intro s
    unfold flushEvents
    split
    · exact ⟨s.pkg.events, rfl⟩
    · split
      · rename_i ety cause epc rest _ _
        obtain ⟨es, h⟩ := ih (s.parts.foldl (fun s p => if takesEvents p.2 then putEvent s p.1 ety cause 0 0 0 epc 0 else s)
          (modPkg s (fun p => { p with events := rest })))
        exact ⟨es, by rw [h, putEvents_pkg]; rfl⟩
      · exact ⟨s.pkg.events, rfl⟩

theorem putEventAll_pkg (s : State) (ety cause epc : Nat) : ∃ es, (putEventAll s ety cause epc).pkg = { s.pkg with events := es } :=
  flushEvents_pkg _ _

theorem mem_nsInsert {k l : Nat} {xs : List Nat} : l ∈ nsInsert k xs ↔ l = k ∨ l ∈ xs := by
  induction xs with
  | nil => simp [nsInsert]
  | cons x xs ih =>
    unfold nsInsert
    split
    · simp
    · split
      · rename_i h; subst h; simp
      · simp only [List.mem_cons, ih]
        exact or_left_comm

/-- Marking lines keeps each marked one, and marks each of them. -/
theorem mem_foldl_nsInsert {l : Nat} (ls : List Nat) : ∀ xs, l ∈ ls.foldl (fun ys l => nsInsert l ys) xs ↔ l ∈ ls ∨ l ∈ xs := by
  induction ls with
  | nil => simp
  | cons k ls ih =>
    intro xs
    rw [List.foldl_cons, ih, mem_nsInsert, List.mem_cons]
    exact or_left_comm.trans or_assoc.symm

@[simp] theorem hullOf_modHull (s : State) (d : Nat) (f : Hull → Hull) : hullOf (modHull s d f) d = f (hullOf s d) := by
  simp [hullOf, modHull, agetD_ainsert]

/-- The clock after a power reading (R420). -/
def clockAfter (s : State) (r : PowerReading) : Nat :=
  if eventsWait s then s.pkg.fclk else if s.pkg.capw < r.watts.toNat || r.thermal then (if 450 ≤ s.pkg.fclk then s.pkg.fclk - 50 else s.pkg.fclk)
  else if s.pkg.fclk < 1400 then s.pkg.fclk + 50 else s.pkg.fclk

/-- A power reading is kept, and a clock that it changes raises event 0x06. -/
theorem powerStep_eq (s : State) (r : PowerReading) : powerStep s r =
    let u := modPkg s (fun p => { p with watts := r.watts, thermal := r.thermal })
    if clockAfter s r = s.pkg.fclk then u else putEventAll (modPkg u (fun p => { p with fclk := clockAfter s r })) 6 0 0 := rfl

/-- What a clock step leaves in the package's registers. -/
theorem powerStep_pkg (s : State) (r : PowerReading) :
    (powerStep s r).pkg.watts = r.watts ∧ (powerStep s r).pkg.thermal = r.thermal ∧ (powerStep s r).pkg.fclk = clockAfter s r := by
  rw [powerStep_eq]
  dsimp only
  split
  · rename_i h; exact ⟨rfl, rfl, h.symm⟩
  · obtain ⟨es, h⟩ := putEventAll_pkg (modPkg (modPkg s (fun p => { p with watts := r.watts, thermal := r.thermal }))
      (fun p => { p with fclk := clockAfter s r })) 6 0 0
    rw [h]
    exact ⟨rfl, rfl, rfl⟩

/-- The survey of a die while no event waits for room (R421). -/
theorem hullRefresh_free {s : State} (h : HullReading) (hw : eventsWait s = false) : hullRefresh s h =
    let u := modHull s h.die (fun x =>
      { stress := h.stress, drift := h.drift, cecc := BitVec.ofNat 16 (min 0xFFFF x.hour), eol := h.eol, hour := 0 })
    if h.eol.toNat < h.today + 365 then putEventAll u 4 0 0 else u := if_neg (by simp [hw])

/-- A scrub counts the errors that it corrected and marks the lines that it could not correct (R402). -/
theorem scrubDone_marks {s : State} (r : ScrubReport) (hs : s.pkg.scrubiv ≠ 0) :
    (hullOf (scrubDone s r) r.die).hour = (hullOf s r.die).hour + r.corrected ∧
      (∀ l, l ∈ r.hbmLines → (scrubDone s r).hbmBad.contains l = true) ∧ (∀ l, l ∈ r.quayLines → (scrubDone s r).quayBad.contains l = true) := by
  have hd : scrubDone s r =
      let u := modHull s r.die (fun x => { x with hour := x.hour + r.corrected })
      { u with hbmBad := r.hbmLines.foldl (fun ls l => nsInsert l ls) u.hbmBad, quayBad := r.quayLines.foldl (fun ls l => nsInsert l ls) u.quayBad } :=
    if_neg hs
  rw [hd]
  refine ⟨congrArg Hull.hour (hullOf_modHull s r.die (fun x => { x with hour := x.hour + r.corrected })), fun l hl => ?_, fun l hl => ?_⟩ <;>
  · rw [List.contains_iff_mem]
    exact (mem_foldl_nsInsert _ _).mpr (.inl hl)

/-- DMA within an open range of harbour memory reaches it (R416). -/
theorem dmaServe_write {s : State} {d : DmaAccess} {bs : List Byte} (hd : d.data = some bs)
    (hr : s.pkg.iommu.any (fun r => decide (r.1 ≤ d.pa) && decide (d.pa + bs.length ≤ r.2 + 1)) = true) (hfirst : paBacked d.pa = true)
    (hlast : paBacked (d.pa + bs.length - 1) = true) : dmaServe s d = paStore s d.pa bs := by
  simp only [dmaServe, hd, hr, hfirst, hlast, Bool.and_self, if_true]

theorem dmaServe_read {s : State} {d : DmaAccess} (hd : d.data = none)
    (hr : s.pkg.iommu.any (fun r => decide (r.1 ≤ d.pa) && decide (d.pa + d.width ≤ r.2 + 1)) = true) (hfirst : paBacked d.pa = true)
    (hlast : paBacked (d.pa + d.width - 1) = true) : dmaServe s d = modPkg s (fun p => { p with dmaRead := paRead s d.pa d.width }) := by
  simp only [dmaServe, hd, hr, hfirst, hlast, Bool.and_self, if_true]

/-- Settles O44: each event by the one change it makes; what follows an event of the package by `putEventAll_pkg`. -/
theorem packageEvents : Obligations.PackageEvents := by
  intro s
  refine ⟨rfl, fun img hp hg => congrArg Host.Outcome.next ?image, fun nonce hp hr => congrArg Host.Outcome.next (if_pos (by simp [hp, hr])),
    fun v hup hv => congrArg Host.Outcome.next (if_pos (by simp [hup, hv])), fun r => ⟨_, rfl, ?power⟩, fun _ => rfl, fun _ => rfl,
    fun h hw => congrArg Host.Outcome.next (if_pos hw), fun h hw => congrArg Host.Outcome.next (hullRefresh_free h hw),
    fun r hs => ⟨_, rfl, scrubDone_marks r hs⟩,
    fun f hf he => congrArg Host.Outcome.next (if_pos (by rw [hf]; exact decide_eq_true he)),
    fun bytes hr => congrArg Host.Outcome.next (if_neg (by simp [hr])), fun d n hn hr hfirst hlast => ?dma⟩
  case image => exact (if_neg (by simp [hp])).trans (if_pos hg)
  case power =>
    obtain ⟨hwatts, hthermal, hclock⟩ := powerStep_pkg s r
    refine ⟨hwatts, hthermal, hclock, ?_⟩
    rw [hclock]
    exact powerStep_eq s r
  case dma =>
    refine ⟨fun bs hd => congrArg Host.Outcome.next ?_, fun hd => congrArg Host.Outcome.next ?_⟩ <;> rw [hd] at hn <;> subst hn
    · exact dmaServe_write hd hr hfirst hlast
    · exact dmaServe_read hd hr hfirst hlast

end Sys2Proof
end

section
namespace Sys2Proof
open Machine

/-! ### What writing a context's results leaves (R391) -/

/-- A crew d keeps what c has, but for its registers, predicates and draws, and what its context counts. -/
def CrewKept (c d : Crew) : Prop := Kept (fun _ => True) (fun _ => True) { c with draw := d.draw } d

theorem CrewKept.refl (c : Crew) : CrewKept c c := Kept.refl ..

theorem CrewKept.of_kept {c d : Crew} (h : Kept (fun _ => True) (fun _ => True) c d) : CrewKept c d := h.withDraw d.draw

theorem CrewKept.trans {c d e : Crew} (h : CrewKept c d) (k : CrewKept d e) : CrewKept c e := Kept.trans (h.withDraw e.draw) k

/-- The contexts of a workgroup keep all but their results. -/
structure ContextsKept (g g' : WG) : Prop where
  pilot : PilotKept (fun _ => True) (fun _ => True) g.pilot g'.pilot
  crew : ∀ n c, crewOf g n = some c → ∃ d, crewOf g' n = some d ∧ CrewKept c d

/-- Nothing of a workgroup changes but one of its contexts. -/
structure OnlyChanges (w : Who) (g g' : WG) : Prop where
  rest : SameRest g g'
  pilot : w ≠ .pilot → g'.pilot = g.pilot
  crew : ∀ k, w ≠ .crew k → crewOf g' k = crewOf g k

section
variable {g g' h : WG} {w : Who}

theorem ContextsKept.refl (g : WG) : ContextsKept g g := ⟨.refl .., fun _ c hc => ⟨c, hc, .refl c⟩⟩

theorem ContextsKept.trans (x : ContextsKept g g') (y : ContextsKept g' h) : ContextsKept g h := by
  refine ⟨x.pilot.trans y.pilot, fun n c hc => ?_⟩
  obtain ⟨d, hd, kd⟩ := x.crew n c hc
  obtain ⟨e, he, ke⟩ := y.crew n d hd
  exact ⟨e, he, kd.trans ke⟩

/-- A kept context keeps its handler. -/
theorem ContextsKept.handler (x : ContextsKept g g') {c : Ctx} (hc : ctxIn g w = some c) :
    ∃ c', ctxIn g' w = some c' ∧ c'.handler = c.handler := by
  cases w with
  | pilot => cases hc; exact ⟨_, rfl, x.pilot.handler⟩
  | crew n =>
    obtain ⟨y, hy, rfl⟩ := Option.map_eq_some_iff.mp hc
    obtain ⟨d, hd, kd⟩ := x.crew n y hy
    exact ⟨d.ctx, by simp [hd], kd.handler⟩

theorem OnlyChanges.refl (w : Who) (g : WG) : OnlyChanges w g g := ⟨rfl, fun _ => rfl, fun _ _ => rfl⟩

theorem OnlyChanges.trans (x : OnlyChanges w g g') (y : OnlyChanges w g' h) : OnlyChanges w g h :=
  ⟨sameRest_trans x.rest y.rest, fun hw => (y.pilot hw).trans (x.pilot hw), fun k hk => (y.crew k hk).trans (x.crew k hk)⟩

/-- A pilot's change leaves every crew. -/
theorem OnlyChanges.crews (x : OnlyChanges .pilot g g') : g'.crews = g.crews := List.ext_getElem? fun k => x.crew k nofun

theorem onlyChanges_modCrew (g : WG) (n : Nat) (f : Crew → Crew) : OnlyChanges (.crew n) g (modCrew g n f) :=
  ⟨rfl, fun _ => rfl, fun k hk => by rw [crewOf_modCrew, if_neg fun e => hk (congrArg Who.crew e)]⟩

theorem onlyChanges_withPilot (g : WG) (p : Pilot) : OnlyChanges .pilot g { g with pilot := p } :=
  ⟨rfl, fun h => absurd rfl h, fun _ _ => rfl⟩

theorem onlyChanges_modCtxIn (g : WG) (w : Who) (f : Ctx → Ctx) : OnlyChanges w g (modCtxIn g w f) := by
  cases w with
  | pilot => exact onlyChanges_withPilot g _
  | crew n => exact onlyChanges_modCrew g n _

/-- A crew's change that keeps all but its results keeps every context so. -/
theorem contextsKept_modCrew (n : Nat) {f : Crew → Crew} (hf : ∀ c, CrewKept c (f c)) : ContextsKept g (modCrew g n f) := by
  refine ⟨.refl .., fun m c hc => ?_⟩
  rw [crewOf_modCrew, hc]
  split
  · exact ⟨f c, rfl, hf c⟩
  · exact ⟨c, rfl, .refl c⟩

/-- A context's change that keeps its handler, its traps, its held stores and its end keeps every context so. -/
theorem contextsKept_modCtxIn (w : Who) {f : Ctx → Ctx}
    (hf : ∀ c, (f c).handler = c.handler ∧ (f c).traps = c.traps ∧ (f c).held = c.held ∧ (f c).ended = c.ended) : ContextsKept g (modCtxIn g w f) := by
  cases w with
  | pilot => exact ⟨⟨fun _ _ => rfl, fun _ _ => rfl, rfl, (hf _).1, rfl⟩, fun _ c hc => ⟨c, hc, .refl c⟩⟩
  | crew n =>
    refine contextsKept_modCrew n fun c => ?_
    obtain ⟨hh, ht, hs, he⟩ := hf c.ctx
    exact ⟨fun _ _ => rfl, fun _ _ => rfl, rfl, rfl, rfl, rfl, rfl, rfl, rfl, hh, ht, hs, he⟩

end

/-! ### Results -/

/-- A crew with the register results of an instruction written. -/
def crewWithResult (r : Result) (c : Crew) : Crew :=
  let c := r.vec.foldl crewWrite (drawAdvance c r.draw)
  match r.pred with
  | some (k, m, b) => predWrite c k m b
  | none => c

/-- A pilot with the register results of an instruction written. -/
def pilotWithResult (r : Result) (p : Pilot) : Pilot :=
  let p := match r.scalar with
    | some (n, v) => scalarWrite p n v
    | none => p
  match r.cbit with
  | some (k, v) => cbitWrite p k v
  | none => p

theorem applyResult_crew (g : WG) (n : Nat) (r : Result) : applyResult g (.crew n) r = modCrew g n (crewWithResult r) := rfl
theorem applyResult_pilot (g : WG) (r : Result) : applyResult g .pilot r = { g with pilot := pilotWithResult r g.pilot } := rfl

theorem crewWithResult_kept (r : Result) (c : Crew) : CrewKept c (crewWithResult r c) := by
  have hd : CrewKept c (drawAdvance c r.draw) := kept_draw ..
  have hv : CrewKept c (r.vec.foldl crewWrite (drawAdvance c r.draw)) := hd.trans (.of_kept (kept_writes _ _ _ _ fun _ _ => trivial))
  unfold crewWithResult
  dsimp only
  split
  · exact hv.trans (.of_kept (kept_predWrite _ _ _ _ _ _ trivial))
  · exact hv

@[simp] theorem crewWithResult_ctx (r : Result) (c : Crew) : (crewWithResult r c).ctx = c.ctx := by
  have hd : (drawAdvance c r.draw).ctx = c.ctx := by unfold drawAdvance; split <;> rfl
  have hv : (r.vec.foldl crewWrite (drawAdvance c r.draw)).ctx = c.ctx :=
    List.foldlRecOn (motive := fun d : Crew => d.ctx = c.ctx) _ _ hd fun d h w _ => by rw [← h]; unfold crewWrite; split <;> rfl
  unfold crewWithResult
  dsimp only
  split
  · rw [← hv]; unfold predWrite; split <;> rfl
  · exact hv

theorem pilotWithResult_kept (r : Result) (p : Pilot) : PilotKept (fun _ => True) (fun _ => True) p (pilotWithResult r p) := by
  obtain ⟨vec, scalar, pred, cbit, draw, chain⟩ := r
  have hs : PilotKept (fun _ => True) (fun _ => True) p (pilotWithResult ⟨vec, scalar, pred, none, draw, chain⟩ p) := by
    cases scalar with
    | none => exact .refl ..
    | some x => exact kept_scalarWrite _ trivial
  cases cbit with
  | none => exact hs
  | some y => exact hs.trans (kept_cbitWrite _ trivial)

theorem scalarWrite_ctx (p : Pilot) (n : Nat) (v : DWord) : (scalarWrite p n v).ctx = p.ctx := rfl
theorem cbitWrite_ctx (p : Pilot) (k : Nat) (v : Bool) : (cbitWrite p k v).ctx = p.ctx := by unfold cbitWrite; split <;> rfl

@[simp] theorem pilotWithResult_ctx (r : Result) (p : Pilot) : (pilotWithResult r p).ctx = p.ctx := by
  unfold pilotWithResult
  dsimp only
  split <;> split <;> simp only [scalarWrite_ctx, cbitWrite_ctx]

/-- Writing a result changes what no context counts. -/
@[simp] theorem ctxIn_applyResult (g : WG) (w : Who) (r : Result) : ctxIn (applyResult g w r) w = ctxIn g w := by
  cases w with
  | pilot => simp [applyResult_pilot]
  | crew n => simp [applyResult_crew, Function.comp_def]

theorem onlyChanges_applyResult (g : WG) (w : Who) (r : Result) : OnlyChanges w g (applyResult g w r) := by
  cases w with
  | pilot => exact onlyChanges_withPilot g _
  | crew n => exact onlyChanges_modCrew g n _

theorem contextsKept_applyResult (g : WG) (w : Who) (r : Result) : ContextsKept g (applyResult g w r) := by
  cases w with
  | pilot => exact ⟨pilotWithResult_kept r g.pilot, fun _ c hc => ⟨c, hc, .refl c⟩⟩
  | crew n => exact contextsKept_modCrew n (crewWithResult_kept r)

/-- An outstanding result is written and taken off its flag, or the workgroup is as before (R23). -/
theorem commitAt_cases (g : WG) (w : Who) (k : Nat) : commitAt g w k = g ∨
    ∃ (r : Result) (flags : Ctx → List Nat), commitAt g w k = modCtxIn (applyResult g w r) w (fun c => { c with pend := c.pend.eraseIdx k, flags := flags c }) := by
  cases hp : (ctxIn g w).bind (fun c => c.pend[k]?) with
  | none => exact .inl (by simp only [commitAt, hp])
  | some p =>
    obtain ⟨c, hc, hk⟩ := Option.bind_eq_some_iff.mp hp
    cases hw : p.waits with
    | some n => exact .inl (by simp only [commitAt, hp, hw, Option.isSome_some, if_true])
    | none => exact .inr ⟨_, _, commitAt_ready hc hk hw⟩

section
variable {R : WG → WG → Prop} {w : Who}

/-- What every written result keeps, writing several keeps. -/
theorem commitWhere_keeps (test : PendWrite → Bool) (refl : ∀ g, R g g) (trans : ∀ {g g' h}, R g g' → R g' h → R g h)
    (step : ∀ g k, R g (commitAt g w k)) (n : Nat) : ∀ k g, R g (commitWhere w test n k g) := by
  induction n with
  | zero => exact fun _ g => refl g
  | succ n ih =>
    intro k g
    unfold commitWhere
    split
    · exact refl g
    · split
      · exact trans (step g k) (ih k _)
      · exact ih (k + 1) g

end

theorem onlyChanges_commitAt (g : WG) (w : Who) (k : Nat) : OnlyChanges w g (commitAt g w k) := by
  obtain h | ⟨r, flags, h⟩ := commitAt_cases g w k <;> rw [h]
  · exact .refl w g
  · exact (onlyChanges_applyResult g w r).trans (onlyChanges_modCtxIn ..)

theorem contextsKept_commitAt (g : WG) (w : Who) (k : Nat) : ContextsKept g (commitAt g w k) := by
  obtain h | ⟨r, flags, h⟩ := commitAt_cases g w k <;> rw [h]
  · exact .refl g
  · exact (contextsKept_applyResult g w r).trans (contextsKept_modCtxIn w fun _ => ⟨rfl, rfl, rfl, rfl⟩)

theorem onlyChanges_commitAll (g : WG) (w : Who) : OnlyChanges w g (commitAll g w) :=
  commitWhere_keeps _ (.refl w) .trans (fun g k => onlyChanges_commitAt g w k) _ _ g

theorem contextsKept_commitAll (g : WG) (w : Who) : ContextsKept g (commitAll g w) :=
  commitWhere_keeps _ .refl .trans (fun g k => contextsKept_commitAt g w k) _ _ g

/-- Writing the results of several contexts keeps all else of each, and what is no context of the workgroup. -/
theorem commitEach_keeps (ws : List Who) : ∀ g : WG, SameRest g (ws.foldl commitAll g) ∧ ContextsKept g (ws.foldl commitAll g) := by
  induction ws with
  | nil => exact fun g => ⟨rfl, .refl g⟩
  | cons w ws ih =>
    intro g
    obtain ⟨hr, hk⟩ := ih (commitAll g w)
    exact ⟨sameRest_trans (onlyChanges_commitAll g w).rest hr, (contextsKept_commitAll g w).trans hk⟩

/-- A context whose results all may be written has none left once they are (R391). -/
theorem commitAll_pend {g : WG} {w : Who} {c : Ctx} (hc : ctxIn g w = some c) (hu : unwritten c = false) :
    ∃ d, ctxIn (commitAll g w) w = some d ∧ d.pend = [] := by
  have main : ∀ (ps : List PendWrite) (g : WG) (c : Ctx), ctxIn g w = some c → c.pend = ps → (∀ p, p ∈ ps → p.waits = none) →
      ∃ d, ctxIn (commitWhere w (fun _ => true) ps.length 0 g) w = some d ∧ d.pend = [] := by
    intro ps
    induction ps with
    | nil => exact fun g c hc hp _ => ⟨c, hc, hp⟩
    | cons p ps ih =>
      intro g c hc hp hw
      have h0 : c.pend[0]? = some p := by simp [hp]
      have hpw : p.waits = none := hw p List.mem_cons_self
      have hstep : commitWhere w (fun _ => true) (p :: ps).length 0 g = commitWhere w (fun _ => true) ps.length 0 (commitAt g w 0) := by
        simp [commitWhere, hc, h0, hpw]
      rw [hstep, commitAt_ready hc h0 hpw]
      exact ih _ _ (by rw [ctxIn_modCtxIn, ctxIn_applyResult, hc]; rfl) (by simp [hp]) fun q hq => hw q (List.mem_cons_of_mem p hq)
  have hw : ∀ p, p ∈ c.pend → p.waits = none := by simpa [unwritten] using hu
  simpa only [commitAll, hc, Option.map_some, Option.getD_some] using main c.pend g c hc rfl hw

/-! ### Before a trap is delivered -/

/-- What of a workgroup depends on no context is as before where only contexts change. -/
theorem sameRest_field {α : Type} {g h : WG} (f : WG → α) (hf : ∀ (x : WG) p cs, f { x with pilot := p, crews := cs } = f x) (hs : SameRest g h) :
    f h = f g := (hf h g.pilot g.crews).symm.trans (congrArg f hs)

theorem onlyChanges_quiesce (g : WG) (w : Who) (cause : BitVec 6) : OnlyChanges w g (quiesce g w cause) :=
  (onlyChanges_commitAll g w).trans (onlyChanges_modCtxIn ..)

theorem contextsKept_quiesce (g : WG) (w : Who) (cause : BitVec 6) : ContextsKept g (quiesce g w cause) :=
  (contextsKept_commitAll g w).trans (contextsKept_modCtxIn w fun _ => ⟨rfl, rfl, rfl, rfl⟩)

/-- What a trap's delivery finds of a context: its results are written and it holds at no slot. -/
def Quiet (c : Ctx) : Prop := c.pend = [] ∧ c.blocked = none

/-- A crew whose trap is delivered is quiet, and has the registers that its results leave it. -/
theorem quiesce_crew {g : WG} {n : Nat} {c : Crew} (cause : BitVec 6) (hc : crewOf g n = some c) (hu : unwritten c.ctx = false) :
    ∃ x, crewOf (quiesce g (.crew n) cause) n = some x ∧ CrewKept c x ∧ Quiet x.ctx ∧
      ∀ y, crewOf (commitAll g (.crew n)) n = some y → x.regs = y.regs ∧ x.preds = y.preds ∧ x.draw = y.draw := by
  obtain ⟨x, hx, hk⟩ := (contextsKept_quiesce g (.crew n) cause).crew n c hc
  obtain ⟨d, hd, hp⟩ := commitAll_pend (g := g) (w := .crew n) (c := c.ctx) (by rw [ctxIn_crew, hc]; rfl) hu
  obtain ⟨y, hy, rfl⟩ := Option.map_eq_some_iff.mp hd
  have hxy : some x = some { y with ctx := { y.ctx with blocked := none, granted := false, bpPass := decide (cause = 0x19), divided := none } } := by
    rw [← hx, quiesce, modCtxIn_crew, crewOf_modCrew, if_pos rfl, hy]
    rfl
  cases hxy
  refine ⟨_, hx, hk, ⟨hp, rfl⟩, fun z hz => ?_⟩
  cases hy.symm.trans hz
  exact ⟨rfl, rfl, rfl⟩

/-- So it is of a pilot. -/
theorem quiesce_pilot {g : WG} (cause : BitVec 6) (hu : unwritten g.pilot.ctx = false) :
    Quiet (quiesce g .pilot cause).pilot.ctx ∧ (quiesce g .pilot cause).pilot.sregs = (commitAll g .pilot).pilot.sregs ∧
      (quiesce g .pilot cause).pilot.cbits = (commitAll g .pilot).pilot.cbits := by
  obtain ⟨d, hd, hp⟩ := commitAll_pend (w := .pilot) (g := g) rfl hu
  cases hd
  exact ⟨⟨hp, rfl⟩, rfl, rfl⟩

/-! ### Stopping for harbour software (R398) -/

theorem wgOf_setWg_self (s : State) (b : Nat) (g : WG) : wgOf (setWg s b g) b = some g := (wgOf_setWg s b b g).trans (if_pos rfl)

/-- The event of a stopped workgroup g waits in t for its partition's ring, behind those that waited in s. -/
def StopTold (s t : State) (g : WG) (cause : Nat) (w : Who) (epc detail : Nat) : Prop :=
  (partOf t g.part).hev.wait = (partOf s g.part).hev.wait ++
    [eventBits 1 cause (whoCode w) (launchIdOf s g).toNat g.wgix epc detail (partOf s g.part).hev.seq]

/-- The event names the workgroup alone, not its contexts. -/
theorem StopTold.of_rest {s t : State} {g h : WG} {cause epc detail : Nat} {w : Who} (hs : SameRest g h) (x : StopTold s t h cause w epc detail) :
    StopTold s t g cause w epc detail := by
  have hpart : h.part = g.part := sameRest_field WG.part (fun _ _ _ => rfl) hs
  have hlid : h.lid = g.lid := sameRest_field WG.lid (fun _ _ _ => rfl) hs
  have hix : h.wgix = g.wgix := sameRest_field WG.wgix (fun _ _ _ => rfl) hs
  simpa only [StopTold, launchIdOf, hpart, hlid, hix] using x

/-- A workgroup g stops in its berth b, by its context w, all but the results of its contexts kept. -/
def StopsAt (t : State) (b : Nat) (g : WG) (w : Who) : Prop :=
  ∃ g', wgOf t b = some g' ∧ g'.run = .stopped ∧ g'.stopper = some w ∧ ContextsKept g g'

theorem harbourStop_stops {s : State} {b : Nat} {g : WG} (w : Who) (t : PendTrap) (epc : DWord) (entry : Word) (hg : wgOf s b = some g) :
    StopsAt (harbourStop s ⟨b, w⟩ t epc entry) b g w ∧
      StopTold s (harbourStop s ⟨b, w⟩ t epc entry) g t.cause.toNat w epc.toNat t.detail.toNat := by
  obtain ⟨hr, hk⟩ := commitEach_keeps (whos g) g
  simp only [harbourStop, hg]
  refine ⟨⟨_, wgOf_setWg_self .., rfl, rfl, hk.pilot, hk.crew⟩, .of_rest hr ?_⟩
  simp only [StopTold, putEvent, partOf_modPart, partOf_setWg, if_true, ringPut]

/-! ### Delivering a trap (R389 to R398) -/

section
variable {s : State} {b : Nat} {g : WG} {t : PendTrap} {epc : DWord} {entry : Word} {m : LaneMask} (hg : wgOf s b = some g)
include hg

/-- A trap waits while a result of its context waits for a release (R391). -/
theorem takeTrap_waits {w : Who} {c : Ctx} (hc : ctxIn g w = some c) (hu : unwritten c = true) : takeTrap s ⟨b, w⟩ t epc entry m =
    modCtx s ⟨b, w⟩ (fun c => { c with taking := some { trap := t, epc := epc, entry := entry, mask := m, pair := false }, blocked := none }) := by
  simp only [takeTrap, ctxOf, hg, hc, hu, Option.bind_some, Option.any_some, if_true]

/-- Else it is delivered at once. -/
theorem takeTrap_delivers {w : Who} {c : Ctx} (hc : ctxIn g w = some c) (hu : unwritten c = false) :
    takeTrap s ⟨b, w⟩ t epc entry m = deliverTrap s ⟨b, w⟩ t epc entry m := by
  simp only [takeTrap, ctxOf, hg, hc, hu, Option.bind_some, Option.any_some, Bool.false_eq_true, if_false]

/-- A cause for harbour software, a trap in a handler and one without a handler address stop the workgroup. -/
theorem deliverTrap_stop {w : Who} {c : Ctx} (hc : ctxIn g w = some c)
    (hstop : alwaysHarbour t.cause.toNat = true ∨ c.handler.isSome = true ∨ (w = .pilot ∧ g.ptvec = 0) ∨ (w ≠ .pilot ∧ g.tvec = 0)) :
    deliverTrap s ⟨b, w⟩ t epc entry m = harbourStop (setWg s b (quiesce g w t.cause)) ⟨b, w⟩ t epc entry := by
  have hrest : SameRest g (quiesce g w t.cause) := (onlyChanges_quiesce ..).rest
  have htvec : (quiesce g w t.cause).tvec = g.tvec := sameRest_field WG.tvec (fun _ _ _ => rfl) hrest
  have hptvec : (quiesce g w t.cause).ptvec = g.ptvec := sameRest_field WG.ptvec (fun _ _ _ => rfl) hrest
  obtain ⟨c', hc', hh⟩ := (contextsKept_quiesce g w t.cause).handler hc
  cases w with
  | pilot =>
    cases hc'
    simp only [deliverTrap, hg, hh, hptvec]
    exact if_pos (by simpa [or_assoc] using hstop)
  | crew n =>
    obtain ⟨x, hx, rfl⟩ := Option.map_eq_some_iff.mp hc'
    simp only [deliverTrap, hg, hx, hh, htvec]
    exact if_pos (by simpa [or_assoc] using hstop)

end

/-! ### Entering a handler (R393, R394) -/

/-- A workgroup whose crew has entered its handler. -/
def crewEntered (g : WG) (n : Nat) (t : PendTrap) (epc : DWord) (entry : Word) (m : LaneMask) : WG :=
  modCrew (quiesce g (.crew n) t.cause) n (fun c => crewEnter c t epc entry m g.tvec)

/-- A workgroup whose pilot has entered its handler. -/
def pilotEntered (g : WG) (t : PendTrap) (epc : DWord) : WG :=
  { quiesce g .pilot t.cause with pilot := pilotEnter (quiesce g .pilot t.cause).pilot t epc g.ptvec }

section
variable (g : WG) (n : Nat) (t : PendTrap) (epc : DWord) (entry : Word) (m : LaneMask)

theorem onlyChanges_crewEntered : OnlyChanges (.crew n) g (crewEntered g n t epc entry m) :=
  (onlyChanges_quiesce ..).trans (onlyChanges_modCrew ..)

theorem onlyChanges_pilotEntered : OnlyChanges .pilot g (pilotEntered g t epc) :=
  (onlyChanges_quiesce ..).trans (onlyChanges_withPilot ..)

variable {g n}

/-- A crew enters its handler with its results written, and all else of it kept. -/
theorem crewOf_crewEntered {c : Crew} (hc : crewOf g n = some c) (hu : unwritten c.ctx = false) :
    ∃ x, crewOf (crewEntered g n t epc entry m) n = some (crewEnter x t epc entry m g.tvec) ∧ CrewKept c x ∧ Quiet x.ctx ∧
      ∀ y, crewOf (commitAll g (.crew n)) n = some y → x.regs = y.regs ∧ x.preds = y.preds ∧ x.draw = y.draw := by
  obtain ⟨x, hx, hrest⟩ := quiesce_crew t.cause hc hu
  exact ⟨x, by rw [crewEntered, crewOf_modCrew, if_pos rfl, hx]; rfl, hrest⟩

end

section
variable {s : State} {b : Nat} {g : WG} {t : PendTrap} {epc : DWord} {entry : Word} {m : LaneMask} (hg : wgOf s b = some g)
  (ha : alwaysHarbour t.cause.toNat = false)
include hg ha

/-- A crew with a handler address enters its handler, or stops in it where that is no code point (R393, R398). -/
theorem deliverTrap_crew {n : Nat} {c : Crew} (hc : crewOf g n = some c) (hh : c.ctx.handler = none) (hv : g.tvec ≠ 0) :
    deliverTrap s ⟨b, .crew n⟩ t epc entry m =
      let u := setWg (setWg s b (quiesce g (.crew n) t.cause)) b (crewEntered g n t epc entry m)
      if cixValid g.tvec.toNat then u else harbourStop u ⟨b, .crew n⟩ (mkTrap 0x03 g.tvec.toNat m) (g.tvec.setWidth 64) g.tvec := by
  have htvec : (quiesce g (.crew n) t.cause).tvec = g.tvec := sameRest_field WG.tvec (fun _ _ _ => rfl) (onlyChanges_quiesce ..).rest
  obtain ⟨x, hx, hk⟩ := (contextsKept_quiesce g (.crew n) t.cause).crew n c hc
  have hxh : x.ctx.handler = none := hk.handler.trans hh
  simp only [deliverTrap, hg, hx, hxh, htvec]
  exact if_neg (by simpa [ha] using hv)

/-- A pilot with a handler address enters its handler, or stops in it where that is no code point (R394, R398). -/
theorem deliverTrap_pilot (hh : g.pilot.ctx.handler = none) (hv : g.ptvec ≠ 0) :
    deliverTrap s ⟨b, .pilot⟩ t epc entry m =
      let u := setWg (setWg s b (quiesce g .pilot t.cause)) b (pilotEntered g t epc)
      if pcValid g.ptvec.toNat then u else harbourStop u ⟨b, .pilot⟩ (mkTrap 0x03 g.ptvec.toNat 0) g.ptvec entry := by
  have hptvec : (quiesce g .pilot t.cause).ptvec = g.ptvec := sameRest_field WG.ptvec (fun _ _ _ => rfl) (onlyChanges_quiesce ..).rest
  have hxh : (quiesce g .pilot t.cause).pilot.ctx.handler = none := (contextsKept_quiesce g .pilot t.cause).pilot.handler.trans hh
  simp only [deliverTrap, pilotEntered, hg, hxh, hptvec]
  exact if_neg (by simpa [ha] using hv)

end

/-- A handler address that is no code point stops the workgroup h, in its handler, with the event of cause 0x03 (R398). -/
theorem doubleTrap_stops {s : State} {b : Nat} {g g' h : WG} (w : Who) {vec : Nat} {epc : DWord} (entry : Word) (m : LaneMask)
    (hr : SameRest g h) (hvec : vec < 2 ^ 64) (hepc : epc.toNat = vec) :
    let u := setWg (setWg s b g') b h
    let v := harbourStop u ⟨b, w⟩ (mkTrap 0x03 vec m) epc entry
    StopsAt v b h w ∧ StopTold s v g 0x03 w vec vec := by
  obtain ⟨hstop, htold⟩ := harbourStop_stops (s := setWg (setWg s b g') b h) w (mkTrap 0x03 vec m) epc entry
    (wgOf_setWg_self ..)
  have hdet : (mkTrap 0x03 vec m).detail.toNat = vec := Nat.mod_eq_of_lt hvec
  rw [hepc, hdet] at htold
  exact ⟨hstop, htold.of_rest hr⟩

/-- Settles O47: the delivery by its cases (`deliverTrap_crew`, `deliverTrap_pilot`, `deliverTrap_stop`), each on the results written
(`quiesce_crew`, `quiesce_pilot`), a stop by `harbourStop_stops`. -/
theorem trapsAreTaken : Obligations.TrapsAreTaken := by
  intro s b g t epc entry m hg
  have hmem : ∀ w, SameMemory s (takeTrap s ⟨b, w⟩ t epc entry m) := fun w => (memEq_takeTrap ..).same
  refine ⟨fun n c hc hu ha hh hv => ?crew, fun hu ha hh hv => ?pilot, fun w c hc hu hstop => ⟨hmem w, ?stop⟩, fun w c hc hu => ?waits⟩
  case crew =>
    have hcx : ctxIn g (.crew n) = some c.ctx := by rw [ctxIn_crew, hc]; rfl
    have htake := (takeTrap_delivers (epc := epc) (entry := entry) (m := m) hg hcx hu).trans (deliverTrap_crew hg ha hc hh hv)
    obtain ⟨x, hx, hk, ⟨hpend, hblocked⟩, hregs⟩ := crewOf_crewEntered t epc entry m hc hu
    have honly := onlyChanges_crewEntered g n t epc entry m
    refine ⟨fun hvalid => ⟨hmem _, ?_⟩, fun hbad => ⟨hmem _, ?_⟩⟩
    · rw [htake, if_pos hvalid]
      exact ⟨_, _, _, wgOf_setWg_self .., hx, rfl, hk.frontier, hk.spilled, hk.latches, rfl, rfl, rfl, rfl, rfl, hregs, hpend,
        hk.fpx, hk.live, hblocked, sameRest_field WG.run (fun _ _ _ => rfl) honly.rest, honly.pilot nofun,
        fun k hk => honly.crew k fun e => hk (Who.crew.inj e).symm⟩
    · rw [htake, if_neg (by simp [hbad])]
      obtain ⟨⟨g', hg', hrun, hstopper, hkept⟩, htold⟩ := doubleTrap_stops (s := s) (b := b) (g' := quiesce g (.crew n) t.cause) (.crew n)
        (vec := g.tvec.toNat) (epc := g.tvec.setWidth 64) g.tvec m honly.rest (by omega)
        (by rw [BitVec.toNat_setWidth]; exact Nat.mod_eq_of_lt (by omega))
      obtain ⟨c', hc', hk'⟩ := hkept.crew n _ hx
      exact ⟨htold, g', c', _, hg', hrun, hstopper, hc', hk'.handler, rfl, hk.frontier, hk'.frontier⟩
  case pilot =>
    have htake := (takeTrap_delivers (epc := epc) (entry := entry) (m := m) hg (w := .pilot) rfl hu).trans (deliverTrap_pilot hg ha hh hv)
    obtain ⟨⟨hpend, hblocked⟩, hsregs, hcbits⟩ := quiesce_pilot t.cause hu
    have honly := onlyChanges_pilotEntered g t epc
    refine ⟨fun hvalid => ⟨hmem _, ?_⟩, fun hbad => ⟨hmem _, ?_⟩⟩
    · rw [htake, if_pos hvalid]
      exact ⟨_, _, wgOf_setWg_self .., rfl, rfl, rfl, rfl, hsregs, hcbits, hpend, hblocked,
        sameRest_field WG.run (fun _ _ _ => rfl) honly.rest, honly.crews⟩
    · rw [htake, if_neg (by simp [hbad])]
      obtain ⟨⟨g', hg', hrun, hstopper, hkept⟩, htold⟩ := doubleTrap_stops (s := s) (b := b) (g' := quiesce g .pilot t.cause) .pilot
        (vec := g.ptvec.toNat) (epc := g.ptvec) entry 0 honly.rest g.ptvec.isLt rfl
      exact ⟨htold, g', _, hg', hrun, hstopper, hkept.pilot.handler, rfl, hkept.pilot.pc⟩
  case stop =>
    rw [takeTrap_delivers hg hc hu, deliverTrap_stop hg hc hstop]
    obtain ⟨⟨g', hg', hrun, hstopper, hkept⟩, htold⟩ := harbourStop_stops (s := setWg s b (quiesce g w t.cause)) w t epc entry
      (wgOf_setWg_self ..)
    obtain ⟨c', hc', hh⟩ := ((contextsKept_quiesce g w t.cause).trans hkept).handler hc
    exact ⟨htold.of_rest (onlyChanges_quiesce ..).rest, g', c', hg', hrun, hstopper, hc', hh⟩
  case waits => exact takeTrap_waits hg hc hu

end Sys2Proof
end

section
namespace Sys2Proof
open Machine

/-! ### Frames of the transport (R409, R411, R412) -/

section
variable {s : State} {f : RxFrame} {op : Nat} {act : State → State}

/-- A frame that is not the transport's, whatever operation reads it (R409). -/
theorem receive_foreign {request : Bool} (hup : portReady s f = true) (he : f.etype ≠ 0x88B5) :
    receive s f op request act = toSoftware s f := by
  rw [receive, if_neg (by simp [hup]), transportType, if_pos he]

section
variable (hcome : portReady s f = true ∧ f.etype = 0x88B5)
include hcome

theorem receive_malformed {request : Bool} (hm : malformed s f.bytes = true) : receive s f op request act = badFrame s f.port := by
  rw [receive, if_neg (by simp [hcome.1]), transportType, if_neg (not_not_intro hcome.2), if_pos hm]

section
variable (hm : malformed s f.bytes = false)
include hm

/-- What a whole request frame meets: its place in the sequence, then its operation (R411, R412). -/
theorem receive_request : receive s f op true act =
    let want := agetD 0 (fSrc f.bytes) (portOf s f.port).rxSeq
    if fSeq f.bytes = want then if fOp f.bytes = 0 ∨ 9 ≤ fOp f.bytes then refuse s f else if fOp f.bytes = op then act s else s
    else if (want - fSeq f.bytes).toNat < 2 ^ 31 then repeatAnswer s f else askAgain s f want := by
  rw [receive, if_neg (by simp [hcome.1]), transportType, if_neg (not_not_intro hcome.2), if_neg (by simp [hm]), if_pos rfl]
  simp only [Bool.or_eq_true, decide_eq_true_eq]

theorem receive_reserved (hseq : fSeq f.bytes = agetD 0 (fSrc f.bytes) (portOf s f.port).rxSeq) (hop : fOp f.bytes = 0 ∨ 9 ≤ fOp f.bytes) :
    receive s f op true act = refuse s f := by
  rw [receive_request hcome hm, if_pos hseq, if_pos hop]

theorem receive_duplicate (hseq : fSeq f.bytes ≠ agetD 0 (fSrc f.bytes) (portOf s f.port).rxSeq)
    (hold : (agetD 0 (fSrc f.bytes) (portOf s f.port).rxSeq - fSeq f.bytes).toNat < 2 ^ 31) :
    receive s f op true act = repeatAnswer s f := by
  rw [receive_request hcome hm, if_neg hseq, if_pos hold]

/-- A frame half the numbers behind the expected one is ahead of it: the sequence has a gap. -/
theorem receive_gap (hnew : 2 ^ 31 ≤ (agetD 0 (fSrc f.bytes) (portOf s f.port).rxSeq - fSeq f.bytes).toNat) :
    receive s f op true act = askAgain s f (agetD 0 (fSrc f.bytes) (portOf s f.port).rxSeq) := by
  have hseq : fSeq f.bytes ≠ agetD 0 (fSrc f.bytes) (portOf s f.port).rxSeq := fun h => by simp [h] at hnew
  rw [receive_request hcome hm, if_neg hseq, if_neg (Nat.not_lt.mpr hnew)]

theorem receive_answer (hop : fOp f.bytes = op) : receive s f op false act = act s := by
  rw [receive, if_neg (by simp [hcome.1]), transportType, if_neg (not_not_intro hcome.2), if_neg (by simp [hm]), if_neg nofun, if_pos hop]

end

end

/-- A whole transport frame of the operation has arrived, in its sequence (R411, R412). -/
def InSequence (s : State) (f : RxFrame) (op : Nat) : Prop :=
  (portReady s f = true ∧ f.etype = 0x88B5) ∧ malformed s f.bytes = false ∧
    fSeq f.bytes = agetD 0 (fSrc f.bytes) (portOf s f.port).rxSeq ∧ fOp f.bytes = op

theorem receive_inSequence (h : InSequence s f op) (hlo : 0 < op) (hhi : op < 9) : receive s f op true act = act s := by
  obtain ⟨hcome, hm, hseq, hop⟩ := h
  rw [receive_request hcome hm, if_pos hseq, if_neg (by omega), if_pos hop]

/-- A request of the transport is received as one, at its place in the sequence (R411). -/
theorem exec_request {i : Instr} (hi : i ∈ [.transportWrite f, .transportRead f, .transportRmw f, .collectiveContribution f]) :
    ∃ op act, exec i s = .next (receive s f op true act) := by
  simp only [List.mem_cons, List.not_mem_nil, or_false] at hi
  obtain rfl | rfl | rfl | rfl := hi <;> exact ⟨_, _, rfl⟩

theorem exec_answer {i : Instr} (hi : i ∈ [.readResponse f, .rmwResponse f, .acknowledge f, .negativeAcknowledge f]) :
    ∃ op act, exec i s = .next (receive s f op false act) := by
  simp only [List.mem_cons, List.not_mem_nil, or_false] at hi
  obtain rfl | rfl | rfl | rfl := hi <;> exact ⟨_, _, rfl⟩

theorem exec_arrival {i : Instr} (hi : i ∈ [.transportWrite f, .transportRead f, .transportRmw f, .collectiveContribution f] ++
    [.readResponse f, .rmwResponse f, .acknowledge f, .negativeAcknowledge f]) :
    ∃ op request act, exec i s = .next (receive s f op request act) := by
  obtain hi | hi := List.mem_append.mp hi
  · obtain ⟨op, act, h⟩ := exec_request (s := s) hi
    exact ⟨op, true, act, h⟩
  · obtain ⟨op, act, h⟩ := exec_answer (s := s) hi
    exact ⟨op, false, act, h⟩

end

/-! ### What a frame asks for (R411 to R413) -/

section
variable {s : State} {f : RxFrame}

theorem onWrite_exported (h : exported s (fPa f.bytes) (max 1 (fPayload f.bytes).length) true = true) :
    onWrite f s = seqDone (answer (paStore s (fPa f.bytes) (fPayload f.bytes)) f 6 []) f := if_neg (by simp [h])

theorem onWrite_refused (h : exported s (fPa f.bytes) (max 1 (fPayload f.bytes).length) true = false) : onWrite f s = refuse s f :=
  if_pos (by simp [h])

theorem onRead_exported (hn : fNat (fPayload f.bytes) 0 2 ≤ 4096)
    (h : exported s (fPa f.bytes) (max 1 (fNat (fPayload f.bytes) 0 2)) false = true) :
    onRead f s = seqDone (answer s f 3 (paRead s (fPa f.bytes) (fNat (fPayload f.bytes) 0 2))) f := if_neg (by simp [h, hn])

theorem onRead_refused (h : 4096 < fNat (fPayload f.bytes) 0 2 ∨
    exported s (fPa f.bytes) (max 1 (fNat (fPayload f.bytes) 0 2)) false = false) : onRead f s = refuse s f :=
  if_pos (by simpa using h)

/-- The decrement's frame is a legal add of `.n64` (log 17). -/
theorem rmwOf_depdec (h : fRmw f.bytes = depdecRmw) : rmwOf f.bytes = some (0, .n64) := by
  rw [rmwOf, h]
  rfl

theorem onRmw_reserved (h : rmwOf f.bytes = none) : onRmw f s = refuse s f := by
  simp only [onRmw, h]

section
variable {aop : Nat} {t : Ty} (hr : rmwOf f.bytes = some (aop, t))
include hr

theorem onRmw_refused (h : exported s (fPa f.bytes) (t.width / 8) true = false) : onRmw f s = refuse s f := by
  simp only [onRmw, hr, h, Bool.not_false, if_true]

theorem onRmw_exported (h : exported s (fPa f.bytes) (t.width / 8) true = true) (hd : ¬ (fPayload f.bytes = [] ∧ fRmw f.bytes = depdecRmw)) :
    onRmw f s =
      let w := t.width / 8
      let bs := fPayload f.bytes
      let old := paNat s (fPa f.bytes) w
      let new := if w < bs.length then casOp (fNat bs w w) (fNat bs 0 w) old else atomOp aop t old (fNat bs 0 w)
      seqDone (answer (paStore s (fPa f.bytes) (natLe w new)) f 5 (natLe w old)) f := by
  simp only [onRmw, hr, h, Bool.not_true, Bool.false_eq_true, if_false, Bool.and_eq_true, List.isEmpty_iff, decide_eq_true_eq, if_neg hd]

end

theorem onRmw_decrement (hbs : fPayload f.bytes = []) (hd : fRmw f.bytes = depdecRmw) (h : exported s (fPa f.bytes) 8 true = true) :
    onRmw f s = onDecrement f s := by
  have hw : exported s (fPa f.bytes) (Ty.n64.width / 8) true = true := h
  simp only [onRmw, rmwOf_depdec hd, hw, hbs, hd, Bool.not_true, Bool.false_eq_true, if_false, List.isEmpty_nil, decide_true, Bool.and_self,
    if_true]

/-- The request is known: the answer settles it. -/
theorem onAnswer_known {ops : List Nat} {ok : Bool} {r : RemoteReq} (h : requestOf s f ops = some r) :
    onAnswer ops ok f s = settle s r (if ok then some (fPayload f.bytes) else none) := by
  simp only [onAnswer, h]

/-- The collective is the frame's, and its sender one of the members (R413). -/
def ofFrame (f : RxFrame) (c : Coll) : Bool :=
  dCid c.desc == fPa f.bytes && decide (dFrank c.desc ≤ fSrc f.bytes) && decide (fSrc f.bytes < dFrank c.desc + dNmem c.desc)

/-- A collective with the bytes of one more contribution of a member. -/
def contributed (rank : Nat) (bs : List Byte) (c : Coll) : Coll :=
  { c with contrib := c.contrib ++ [(rank, (tabulate bs.length (fun k => (partBytes c rank).length + k)).zip bs)] }

theorem partBytes_append (rank : Nat) (xs : List (Nat × Byte)) (c : Coll) :
    partBytes { c with contrib := c.contrib ++ [(rank, xs)] } rank = partBytes c rank ++ xs.map Prod.snd := by
  simp [partBytes]

theorem partBytes_contributed (rank : Nat) (bs : List Byte) (c : Coll) : partBytes (contributed rank bs c) rank = partBytes c rank ++ bs :=
  (partBytes_append ..).trans (congrArg _ (List.map_snd_zip (Nat.le_of_eq (tabulate_length _ _).symm)))

/-- A contribution enters each posted collective that is its own. -/
theorem onContribution_colls (h : s.pkg.colls.any (ofFrame f) = true) : (onContribution f s).pkg.colls =
    s.pkg.colls.map (fun c => if ofFrame f c then contributed (fSrc f.bytes) (fPayload f.bytes) c else c) := by
  have hmine : ¬ (!s.pkg.colls.any (ofFrame f)) = true := by simp [h]
  exact congrArg (fun t : State => t.pkg.colls) (if_neg hmine)

theorem onContribution_partBytes (h : s.pkg.colls.any (ofFrame f) = true) {c : Coll} (hc : c ∈ (onContribution f s).pkg.colls)
    (hmine : ofFrame f c = true) : ∃ c', c' ∈ s.pkg.colls ∧ c.desc = c'.desc ∧
      partBytes c (fSrc f.bytes) = partBytes c' (fSrc f.bytes) ++ fPayload f.bytes := by
  rw [onContribution_colls h] at hc
  obtain ⟨c', hc', rfl⟩ := List.mem_map.mp hc
  by_cases hm : ofFrame f c' = true
  · rw [if_pos hm]
    exact ⟨c', hc', rfl, partBytes_contributed ..⟩
  · rw [if_neg hm] at hmine
    exact absurd hmine hm

end

/-! ### Collectives and links (R411, R414) -/

section
variable {s : State}

theorem collDone_ready {cid : Nat} {c : Coll} (hw : eventsWait s = false)
    (hc : s.pkg.colls.find? (fun c => dCid c.desc == cid && collReady c) = some c) : collDone s cid =
      putEventAll (modPkg (paStore s (dDst c.desc) (collResult c)) (fun p => { p with colls := p.colls.filter (fun x => dCid x.desc != cid) })) 7 0 cid := by
  simp only [collDone, hw, hc, Bool.false_eq_true, if_false]

theorem linkOver_due {j t : Nat} (hj : j < 8) (hw : eventsWait s = false) (hsince : (portOf s j).downSince = some t)
    (hdown : (portOf s j).up = false) (hdue : t + s.pkg.linkto * s.pkg.fclk ≤ s.cycle) :
    linkOver s j = putEventAll (modPort s j (fun p => { p with downSince := none })) 5 j 0 := by
  simp only [linkOver, hsince, hj, hdown, hw, hdue, decide_true, Bool.not_false, Bool.and_self, if_true]

end

/-- Settles O43: a frame by its type, its form and its place in the sequence (`receive_request`, `receive_answer`), then by what its operation
does; the other events by the one change each makes. -/
theorem transportCompletes : Obligations.TransportCompletes := by
  intro s f bs pa comes seq asked answered refused requests answers
  have performed : ∀ {op act t}, asked op → 0 < op → op < 9 → act s = t → Host.Outcome.next (receive s f op true act) = (.next t : Out) :=
    fun h hlo hhi ht => congrArg Host.Outcome.next ((receive_inSequence h hlo hhi).trans ht)
  have settled : ∀ {op ops ok r}, answered op → requestOf s f ops = some r →
      Host.Outcome.next (receive s f op false (onAnswer ops ok f)) = (.next (settle s r (if ok then some bs else none)) : Out) :=
    fun ⟨hcome, hm, hop⟩ hr => congrArg Host.Outcome.next ((receive_answer hcome hm hop).trans (onAnswer_known hr))
  refine ⟨fun i hi => ?sorted, fun i hi hcome hm => ?sequence,
    fun h he => performed h (by decide) (by decide) (onWrite_exported he),
    fun h he => performed h (by decide) (by decide) (onWrite_refused he),
    fun h hn he => performed h (by decide) (by decide) (onRead_exported hn he),
    fun h he => performed h (by decide) (by decide) (onRead_refused he),
    fun h hr => performed h (by decide) (by decide) (onRmw_reserved hr),
    fun aop t h hr he => performed h (by decide) (by decide) (onRmw_refused hr he),
    fun h hbs hd he => performed h (by decide) (by decide) (onRmw_decrement hbs hd he),
    fun aop t h hr hd he => performed h (by decide) (by decide) (onRmw_exported hr he hd),
    fun h => ?contribution,
    fun h r hr => settled h hr, fun h r hr => settled h hr, fun h r hr => settled h hr, fun h r hr => settled h hr,
    fun cid c hw hc => congrArg Host.Outcome.next (collDone_ready hw hc),
    fun j t hj hw hsince hdown hdue => congrArg Host.Outcome.next (linkOver_due hj hw hsince hdown hdue),
    fun j up hj => congrArg Host.Outcome.next (if_neg (Nat.not_le.mpr hj))⟩
  case contribution =>
    intro mine hany
    exact ⟨_, performed h (by decide) (by decide) rfl, fun c hc hmine => onContribution_partBytes hany hc hmine⟩
  case sorted =>
    obtain ⟨op, request, act, h⟩ := exec_arrival (s := s) hi
    rw [h]
    exact ⟨fun hup he => congrArg Host.Outcome.next (receive_foreign hup he), fun hcome hm => congrArg Host.Outcome.next (receive_malformed hcome hm)⟩
  case sequence =>
    obtain ⟨op, act, h⟩ := exec_request (s := s) hi
    rw [h]
    exact ⟨fun hseq hop => congrArg Host.Outcome.next (receive_reserved hcome hm hseq hop),
      fun hseq hold => congrArg Host.Outcome.next (receive_duplicate hcome hm hseq hold),
      fun hnew => congrArg Host.Outcome.next (receive_gap hcome hm hnew)⟩

end Sys2Proof
end
